-- ==== Sys2Proof/Word.lean ====
section
/-! DEFINITION. The word types of the model and the sparse tables that hold keyed state. -/

namespace Sys2Proof

/-- A 32-bit cell or instruction word (R3, R134). -/
abbrev Word := BitVec 32

/-- One byte of memory. -/
abbrev Byte := BitVec 8

/-- A 64-bit address or register. -/
abbrev DWord := BitVec 64

/-- A sparse table: key and value pairs, keys rising, no key twice. -/
abbrev Tab (α : Type) := List (Nat × α)

end Sys2Proof
end

