-- ==== Sys2Proof/Syntax.lean ====
section
/-! DEFINITION. The instructions of the KHN-9480 and the device steps of its operation table, as data. -/

namespace Sys2Proof

/-- Execution scope, bits 30:29 (R74). -/
inductive Scope where
  | lane | warp | set | blk
  deriving DecidableEq, Repr

/-- The part of the top byte that every word carries beside its group (R108). -/
structure Hdr where
  b : Bool
  sc : Scope
  deriving DecidableEq, Repr

/-- Integer register formats (R152). -/
inductive ITy where
  | i32 | n32
  deriving DecidableEq, Repr

/-- Floating register formats (R152). -/
inductive FTy where
  | f32 | bf16x2
  deriving DecidableEq, Repr

/-- All four register formats (R152). -/
inductive RTy where
  | i32 | n32 | f32 | bf16x2
  deriving DecidableEq, Repr

/-- Rounding modes, coded as RM (R112). -/
inductive RM where
  | rn | rz | ru | rd
  deriving DecidableEq, Repr

/-- Named tiers (R114). -/
inductive Tier where
  | t | o | m | w
  deriving DecidableEq, Repr

/-- Reduction operators, coded as OPX (R117). -/
inductive RedOp where
  | add | min | max | and | or | xor
  deriving DecidableEq, Repr

/-- Atomic operators, coded in AOP (R121). -/
inductive AtomOp where
  | add | min | max | and | or | xor | xch
  deriving DecidableEq, Repr

/-- Orders of an access, coded in ORD (R120). -/
inductive MemOrd where
  | plain | acq | rel | ar
  deriving DecidableEq, Repr

/-- Cache hints (R120). -/
inductive Hint where
  | none | strm | keep | nol1
  deriving DecidableEq, Repr

/-- Access classes of `xfence` (R121). -/
inductive XClass where
  | thread | copy | gather | matrix | coll | sampler
  deriving DecidableEq, Repr

/-- Policies of `umerge` (R116). -/
inductive Policy where
  | low | high | fault
  deriving DecidableEq, Repr

/-- Selectors of `get` (R119). -/
inductive Sel where
  | lane | quad | warp | set | block | gang | batch | record | depth | udepth | core | clus | stall
  | cpwp (k : BitVec 3)
  deriving DecidableEq, Repr

/-- Addressing fields of Format M (R120): a flat slot when `nc` is 0, a shape record otherwise. -/
structure Addr where
  fs : BitVec 3
  h : BitVec 4
  nc : BitVec 3
  deriving DecidableEq, Repr

/-- A registered graph: a partition and a privilege level (R361, R410). -/
structure GraphId where
  part : Nat
  lvl : Nat
  deriving DecidableEq, Repr

/-- Where a commit comes from (R50, R59): a lane with its die, cluster, core in the die, block and block lane; a matching
entry of the fabric interface; the host; a sampler's program stage. -/
inductive CommitSrc where
  | lane (die cluster core blk blane : Nat)
  | fabric (entry : Nat)
  | host
  | sampler (die : Nat)
  deriving DecidableEq, Repr

/-- An engine queue that can halt (R276). -/
inductive EngUnit where
  | copy (blk ch : Nat)
  | gather (blk tag : Nat)
  | coll (blk ch : Nat)
  | smp (blk : Nat)
  deriving DecidableEq, Repr

/-- What one member of a collective group brings to an operation (R286). `form` is the OP code of the command. -/
structure Contribution where
  rank : Nat
  form : Nat
  op : RedOp
  root : Nat
  n : Nat
  fmt : Nat
  data : List Word
  deriving DecidableEq, Repr

/-- A firmware image: the SHA-384 digest, its security epoch, its two signatures (R419). -/
structure Firmware where
  digest : BitVec 384
  epoch : BitVec 16
  ecdsa : List Byte
  hss : List Byte
  deriving DecidableEq, Repr

/-- How the activity of a phase of bring-up ends (R421). -/
inductive PhaseResult where
  /-- Phase 0: the image that the boot ROM has read. -/
  | firmware (image : Firmware)
  /-- Phase 1: the dark-frame test of cluster 0 (its failing test, or 0, and its duration) and the training of die 0's DRAM. -/
  | first (failing : Byte) (duration : Nat) (trained : Bool)
  /-- Phase 2: the other dies, their DRAM, the links. -/
  | training (ok : Bool)
  deriving DecidableEq, Repr

/-- Storage that a soft error hits, the bits that it turned, and whether its code corrects them (R397). -/
inductive SoftTarget where
  /-- A register-file cell of a thread: tier 0 stack from the bottom, 1 o, 2 m, 3 w, 4 uniform stack from the bottom, 5 and 6
  the same two in the save area of its home warp. -/
  | cell (blk key tier idx : Nat) (mask : Word) (correctable : Bool)
  /-- A cell of a finder queue's window: an entry from the oldest, at a lane position. -/
  | queue (blk warp entry lane : Nat) (mask : Word) (correctable : Bool)
  /-- A cell of a lane's A latch. -/
  | latch (blk key idx : Nat) (mask : Word) (correctable : Bool)
  /-- A bank word of a block's scratchpad, of eight bytes. -/
  | spad (blk word : Nat) (mask : DWord) (correctable : Bool)
  /-- An L1 line on a core: dropped and fetched again. -/
  | cache (core : Nat)
  /-- An entry of a cluster's TLB, counted from the newest: dropped and fetched again. -/
  | tlb (clus idx : Nat)
  /-- A 4-byte word of a line of L2, directory, snoop filter (domain 3) or of DRAM and the CXL tier (domain 4). -/
  | line (domain line word : Nat) (mask : Word) (correctable : Bool)
  /-- An element of an accumulator tile. -/
  | tile (blk warp tile row col : Nat) (mask : Word)
  /-- A checksum-row entry (`isRow`) or checksum-column entry of a tile, changed by `delta`. -/
  | tileSum (blk warp tile : Nat) (isRow : Bool) (idx : Nat) (delta : Int)
  /-- Parity of an engine queue. -/
  | engine (u : EngUnit)
  /-- Parity of a launcher's state. -/
  | launcher (g : GraphId) (node die : Nat)
  deriving DecidableEq, Repr

/-- One row of spec/opcode_table.json per constructor: the encoded instructions with their operands, then the device
steps, whose operands the event being served holds (`Event`). -/
inductive Instr where
  -- IAR (R187)
  | iarAdd (h : Hdr) (ty : ITy) (sat : Bool) (k : Option Byte)
  | iarSub (h : Hdr) (ty : ITy) (sat : Bool) (k : Option Byte)
  | iarMul (h : Hdr) (ty : ITy) (sat : Bool) (k : Option Byte)
  | iarMulhi (h : Hdr) (ty : ITy) (k : Option Byte)
  | iarMad (h : Hdr) (ty : ITy) (sat : Bool) (k : Option Byte)
  | iarNeg (h : Hdr) (ty : ITy) (sat : Bool) (k : Option Byte)
  | iarAbs (h : Hdr) (ty : ITy) (sat : Bool) (k : Option Byte)
  | iarMin (h : Hdr) (ty : ITy) (k : Option Byte)
  | iarMax (h : Hdr) (ty : ITy) (k : Option Byte)
  | iarClamp (h : Hdr) (ty : ITy) (k : Option Byte)
  | iarDiv (h : Hdr) (ty : ITy) (k : Option Byte)
  | iarRem (h : Hdr) (ty : ITy) (k : Option Byte)
  -- FAR (R190)
  | farAdd (h : Hdr) (rm : RM) (sat : Bool) (k : Option Byte)
  | farSub (h : Hdr) (rm : RM) (sat : Bool) (k : Option Byte)
  | farMul (h : Hdr) (rm : RM) (sat : Bool) (k : Option Byte)
  | farFma (h : Hdr) (rm : RM) (sat : Bool) (k : Option Byte)
  | farNeg (h : Hdr) (rm : RM) (k : Option Byte)
  | farAbs (h : Hdr) (rm : RM) (k : Option Byte)
  | farMin (h : Hdr) (rm : RM) (k : Option Byte)
  | farMax (h : Hdr) (rm : RM) (k : Option Byte)
  | farClamp (h : Hdr) (rm : RM) (k : Option Byte)
  | farCsgn (h : Hdr) (rm : RM) (k : Option Byte)
  | farDiv (h : Hdr) (rm : RM) (k : Option Byte)
  | farSqrt (h : Hdr) (rm : RM) (k : Option Byte)
  | farRint (h : Hdr) (rm : RM) (k : Option Byte)
  | farFract (h : Hdr) (rm : RM) (k : Option Byte)
  | farLdexp (h : Hdr) (rm : RM) (k : Option Byte)
  | farExpo (h : Hdr) (rm : RM) (k : Option Byte)
  -- PAIR (R193)
  | pairAdd (h : Hdr) (rm : RM) (sat : Bool) (k : Option Byte)
  | pairSub (h : Hdr) (rm : RM) (sat : Bool) (k : Option Byte)
  | pairMul (h : Hdr) (rm : RM) (sat : Bool) (k : Option Byte)
  | pairFma (h : Hdr) (rm : RM) (sat : Bool) (k : Option Byte)
  | pairNeg (h : Hdr) (rm : RM) (k : Option Byte)
  | pairAbs (h : Hdr) (rm : RM) (k : Option Byte)
  | pairMin (h : Hdr) (rm : RM) (k : Option Byte)
  | pairMax (h : Hdr) (rm : RM) (k : Option Byte)
  | pairDot2 (h : Hdr) (rm : RM) (sat : Bool) (k : Option Byte)
  -- CVT (R194, R166)
  | cvt (h : Hdr) (src dst : RTy) (rm : RM) (sat : Bool) (k : Option Byte)
  | pack (h : Hdr) (rm : RM) (sat : Bool) (k : Option Byte)
  | unlo (h : Hdr) (rm : RM) (k : Option Byte)
  | unhi (h : Hdr) (rm : RM) (k : Option Byte)
  | qround (h : Hdr) (slot : BitVec 3) (rm : RM) (sat : Bool) (k : Option Byte)
  -- CMP (R197)
  | cmpEq (h : Hdr) (ty : RTy) (k : Option Byte)
  | cmpNe (h : Hdr) (ty : RTy) (k : Option Byte)
  | cmpLt (h : Hdr) (ty : RTy) (k : Option Byte)
  | cmpLe (h : Hdr) (ty : RTy) (k : Option Byte)
  | cmpGt (h : Hdr) (ty : RTy) (k : Option Byte)
  | cmpGe (h : Hdr) (ty : RTy) (k : Option Byte)
  | cmpOrd (h : Hdr) (ty : FTy) (k : Option Byte)
  | cmpUnord (h : Hdr) (ty : FTy) (k : Option Byte)
  | sel (h : Hdr) (ty : RTy) (k : Option Byte)
  | fclass (h : Hdr) (ty : FTy) (mask : Byte)
  -- BIT (R201)
  | bitAnd (h : Hdr) (ty : ITy) (k : Option Byte)
  | bitOr (h : Hdr) (ty : ITy) (k : Option Byte)
  | bitXor (h : Hdr) (ty : ITy) (k : Option Byte)
  | bitNot (h : Hdr) (ty : ITy) (k : Option Byte)
  | bitAndn (h : Hdr) (ty : ITy) (k : Option Byte)
  | bitShl (h : Hdr) (ty : ITy) (k : Option Byte)
  | bitShr (h : Hdr) (ty : ITy) (k : Option Byte)
  | bitSar (h : Hdr) (ty : ITy) (k : Option Byte)
  | bitRot (h : Hdr) (ty : ITy) (k : Option Byte)
  | bitPopc (h : Hdr) (ty : ITy) (k : Option Byte)
  | bitClz (h : Hdr) (ty : ITy) (k : Option Byte)
  | bitCtz (h : Hdr) (ty : ITy) (k : Option Byte)
  | bitBfe (h : Hdr) (ty : ITy) (k : Option Byte)
  | bitBfi (h : Hdr) (ty : ITy) (k : Option Byte)
  | bitBrev (h : Hdr) (ty : ITy) (k : Option Byte)
  | bitLop3 (h : Hdr) (ty : ITy) (table : Byte)
  -- TRN (R203)
  | trnRcp (h : Hdr) (ty : FTy) (k : Option Byte)
  | trnRsq (h : Hdr) (ty : FTy) (k : Option Byte)
  | trnEx2 (h : Hdr) (ty : FTy) (k : Option Byte)
  | trnLg2 (h : Hdr) (ty : FTy) (k : Option Byte)
  | trnSinp (h : Hdr) (ty : FTy) (k : Option Byte)
  | trnCosp (h : Hdr) (ty : FTy) (k : Option Byte)
  | trnTanh (h : Hdr) (ty : FTy) (k : Option Byte)
  | trnSigm (h : Hdr) (ty : FTy) (k : Option Byte)
  -- legacy (R44)
  | mul24 (h : Hdr) (ty : ITy) (k : Option Byte)
  | mad24 (h : Hdr) (ty : ITy) (sat : Bool) (k : Option Byte)
  | fdot4 (h : Hdr) (ty : ITy) (sat : Bool) (k : Option Byte)
  -- STK (R182)
  | dup (h : Hdr)
  | dup2 (h : Hdr)
  | drop (h : Hdr)
  | dropn (h : Hdr) (n : Byte)
  | swap (h : Hdr)
  | swap2 (h : Hdr)
  | over (h : Hdr)
  | nip (h : Hdr)
  | tuck (h : Hdr)
  | rot (h : Hdr)
  | pick (h : Hdr) (n : Byte)
  | roll (h : Hdr) (n : Byte)
  | depth (h : Hdr)
  -- LOC (R184)
  | push (h : Hdr) (tier : Tier) (idx : Byte)
  | pop (h : Hdr) (tier : Tier) (idx : Byte)
  | keep (h : Hdr) (tier : Tier) (idx : Byte)
  | xch (h : Hdr) (tier : Tier) (idx : Byte)
  | pushi (h : Hdr) (ty : RTy) (imm : Byte)
  | pushn (h : Hdr) (tier : Tier) (idx n : Byte)
  | popn (h : Hdr) (tier : Tier) (idx n : Byte)
  -- CTL (R207)
  | bra (h : Hdr) (off : BitVec 16)
  | bz (h : Hdr) (off : BitVec 16)
  | bnz (h : Hdr) (off : BitVec 16)
  | call (h : Hdr) (off : BitVec 16)
  | ret (h : Hdr)
  | jx (h : Hdr)
  | exit (h : Hdr)
  -- PATH (R212-R216)
  | fork (h : Hdr) (off : BitVec 16)
  | join (h : Hdr) (d : BitVec 4)
  | reform (h : Hdr) (d : BitVec 4)
  | rehome (h : Hdr)
  | umerge (h : Hdr) (p : Policy)
  -- SYS (R176)
  | nop (h : Hdr) (wm : BitVec 4)
  | trap (h : Hdr) (n : Byte) (wm : BitVec 4)
  | brk (h : Hdr) (n : Byte) (wm : BitVec 4)
  | yield (h : Hdr) (wm : BitVec 4)
  | get (h : Hdr) (sel : Sel) (wm : BitVec 4)
  | put (h : Hdr) (wm : BitVec 4)
  | sleep (h : Hdr) (n : Byte) (wm : BitVec 4)
  -- QWX (R217)
  | qswp (h : Hdr) (p : BitVec 2) (wm : BitVec 4)
  | qbc (h : Hdr) (s : BitVec 2) (wm : BitVec 4)
  | qadd (h : Hdr) (ty : RTy) (wm : BitVec 4)
  | shfl (h : Hdr) (wm : BitVec 4)
  | shfx (h : Hdr) (m : BitVec 5) (wm : BitVec 4)
  | shup (h : Hdr) (d : BitVec 5) (wm : BitVec 4)
  | shdn (h : Hdr) (d : BitVec 5) (wm : BitVec 4)
  | any (h : Hdr) (wm : BitVec 4)
  | all (h : Hdr) (wm : BitVec 4)
  | ballot (h : Hdr) (wm : BitVec 4)
  | matchLanes (h : Hdr) (wm : BitVec 4)
  | wbc (h : Hdr) (s : BitVec 5) (wm : BitVec 4)
  -- SCP (R219)
  | sync (h : Hdr) (wm : BitVec 4)
  | arrive (h : Hdr) (wm : BitVec 4)
  | await (h : Hdr) (wm : BitVec 4)
  | red (h : Hdr) (ty : RTy) (op : RedOp) (wm : BitVec 4)
  | scan (h : Hdr) (ty : RTy) (op : RedOp) (wm : BitVec 4)
  | segred (h : Hdr) (ty : RTy) (op : RedOp) (wm : BitVec 4)
  | segscan (h : Hdr) (ty : RTy) (op : RedOp) (wm : BitVec 4)
  | sbc (h : Hdr) (wm : BitVec 4) (e : Byte)
  -- LDS (R256)
  | ld (h : Hdr) (a : Addr) (acq : Bool) (hint : Hint)
  | ldf (h : Hdr) (a : Addr) (acq : Bool) (hint : Hint)
  | ldsp (h : Hdr) (a : Addr) (acq : Bool) (hint : Hint)
  | ldn (h : Hdr) (a : Addr) (acq : Bool) (hint : Hint) (n : BitVec 5)
  | qpop (h : Hdr) (n : BitVec 5)
  | pref (h : Hdr) (a : Addr) (hint : Hint)
  -- STS (R263)
  | st (h : Hdr) (a : Addr) (rel : Bool) (hint : Hint)
  | stf (h : Hdr) (a : Addr) (rel : Bool) (hint : Hint)
  | stsp (h : Hdr) (a : Addr) (rel : Bool) (hint : Hint)
  | stn (h : Hdr) (a : Addr) (rel : Bool) (hint : Hint) (n : BitVec 5)
  -- ATM (R265)
  | atom (h : Hdr) (a : Addr) (ord : MemOrd) (op : AtomOp)
  | cas (h : Hdr) (a : Addr) (ord : MemOrd)
  | ared (h : Hdr) (a : Addr) (ord : MemOrd) (op : RedOp)
  -- FEN (R269)
  | fence (h : Hdr) (ord : MemOrd)
  | fenceSc (h : Hdr)
  | xfence (h : Hdr) (a b : XClass)
  -- CPY (R279)
  | cpy (h : Hdr) (ch : BitVec 3) (src dst : BitVec 4) (ro : Bool) (z : BitVec 3)
  | cpyo (h : Hdr) (ch : BitVec 3) (src dst : BitVec 4) (ro : Bool) (z : BitVec 3)
  | cpwait (h : Hdr) (ch : BitVec 3)
  | cpstat (h : Hdr) (ch : BitVec 3)
  -- GTH (R282)
  | gath (h : Hdr) (tag : BitVec 4) (table dst : BitVec 4) (z : BitVec 3)
  | scat (h : Hdr) (tag : BitVec 4) (table dst : BitVec 4) (z : BitVec 3)
  | gwait (h : Hdr) (tag : BitVec 4)
  -- COL (R285)
  | cred (h : Hdr) (ch : BitVec 4) (buf res : BitVec 4) (op : RedOp)
  | cbc (h : Hdr) (ch : BitVec 4) (buf res : BitVec 4)
  | cag (h : Hdr) (ch : BitVec 4) (buf res : BitVec 4)
  | cwait (h : Hdr) (ch : BitVec 4)
  | csend (h : Hdr) (ch : BitVec 4) (buf : BitVec 4)
  | mtag (h : Hdr) (e : Byte)
  -- REC (R224)
  | emit (h : Hdr) (e : BitVec 3)
  | recput (h : Hdr) (w : BitVec 6)
  | commit (h : Hdr)
  | abandon (h : Hdr)
  | recget (h : Hdr) (w : BitVec 6)
  -- SMP (R289)
  | smp (h : Hdr) (shape : BitVec 4)
  | swait (h : Hdr)
  | sstat (h : Hdr)
  -- MMA, MDR (R346)
  | mma (h : Hdr) (u : Bool) (fs : BitVec 3) (acc : BitVec 3) (wb : BitVec 4)
  | mmas (h : Hdr) (u : Bool) (fs : BitVec 3) (acc : BitVec 3) (wb : BitVec 4) (sel : Byte)
  | mtab (h : Hdr) (u : Bool) (fs : BitVec 3)
  | mlut (h : Hdr) (two : Bool) (acc : BitVec 3) (wb : BitVec 4)
  | mclr (h : Hdr) (acc : BitVec 3)
  | mdrain (h : Hdr) (acc : BitVec 3)
  | mdst (h : Hdr) (fs : BitVec 3) (acc : BitVec 3) (wb : BitVec 4)
  | mld (h : Hdr) (fs : BitVec 3) (acc : BitVec 3) (wb : BitVec 4)
  | mchk (h : Hdr) (acc : BitVec 3)
  -- PRV (R124)
  | spx (h : Hdr) (z : BitVec 3) (shape : BitVec 4)
  | tlbi (h : Hdr) (kind : BitVec 5)
  | ctxs (h : Hdr)
  | ctxl (h : Hdr)
  | mapc (h : Hdr)
  | rdbk (h : Hdr) (space : BitVec 5)
  | wrbk (h : Hdr) (space : BitVec 5)
  -- every word that is no defined code point (R109, R110)
  | unassignedCodePoint (w : Word)
  -- device steps: nodes, launchers and records (R30, R50, R64, R67, R68, R211)
  | nodeEnable
  | nodeDisable
  | commitArrival
  | coalescingTimerExpiry
  | launchDecision
  | iterationEnd
  | loopReissue
  | blockRetire
  | fabricMessageArrival
  | hostReserve
  | hostCommit
  -- convergence and issue (R78, R80, R85, R87, R97, R98, R139)
  | rendezvousComplete
  | transitProbeSend
  | waitCycleDetect
  | binAged
  | warpFormation
  | rehomeRelease
  | joinMerge
  | pathReady
  | portChoice
  | resultReturn
  | queueEntryArrival
  | mainFileTransfer
  | sleepExpiry
  | legacyRequestServe
  | legacyQueueRoom
  | matrixQueueRoom
  | engineQueueRoom
  | finderQueueRoom
  -- matrix arrays and engines (R337, R350, R275, R242, R245, R276, R286, R385, R393)
  | matrixPassStart
  | matrixPassEnd
  | mmaPageCheckComplete
  | mmaPageFault
  | enginePageCheckComplete
  | copyCommandComplete
  | gatherCommandComplete
  | collectiveOperationComplete
  | csendComplete
  | engineHalt
  | samplerRequest
  | programStageComplete
  | programBudgetExpiry
  -- coherence (R315, R318, R320, R323, R324, R233)
  | dirRemoteLoad
  | dirRemoteStore
  | dirHomeWrite
  | dirHomeLoad
  | dirEvict
  | snoopFilterRecall
  | fabricAccessArrival
  | hostAccess
  | lmClean
  | lmInvalidate
  | lmCleanInvalidate
  | lineMaintComplete
  | tlbiComplete
  -- pre-emption and contexts (R369-R378, R382)
  | preemptImmediate
  | preemptCooperative
  | preemptDeadlineExpiry
  | vacateBegin
  | contextSwitchStep
  | preemptDone
  | blockRequeuePlace
  -- thread control (R366, R381)
  | tctlResume
  | tctlResumeAt
  | tctlKill
  | tctlStep
  | tctlStepAll
  | tctlHalt
  | stepComplete
  -- management registers (R364, R398, R410-R417, R420)
  | frtWrite
  | ertWrite
  | contextDrop
  | vfSave
  | vfRestore
  | vfOperationComplete
  | pfmWrite
  | xmodeWrite
  | graphRegisterWrite
  | partitionEnable
  | pfselWrite
  | coreReleaseWrite
  | pcapWrite
  | bstatFullService
  | bindValidate
  | attestationRequest
  | irqsClear
  | prgrRead
  | registerWrite
  -- address-translation services (R408, R409)
  | atsResponse
  | prgResponse
  | atsInvalidate
  | invalidateCompletion
  -- fabric, reliability, bring-up, power (24, 25, 26)
  | flitReplay
  | gangKill
  | gangRelaunch
  | darkFrameTest
  | clusterIdleGate
  | powerGood
  | bringupPhaseEnd
  | reset
  | clockStep
  | thermalTrip
  | thermalResume
  | softError
  | fabricPortTraining
  | frsWrite
  | ersWrite
  | contextDropComplete
  deriving DecidableEq, Repr

/-- What another package asks of this package's memory (R323): eight bytes read, bytes written, or an atomic on a word with its
operands. -/
inductive FabricOp where
  | read
  | write (l : List Byte)
  | atomic (op : AtomOp) (fmt : Nat) (sat : Bool) (v : Word)
  | cas (expected new : Word)
  deriving DecidableEq, Repr

/-- A device step with what it acts on. An outside stimulus and a unit's own step are both events; the instruction of the
table that an event executes is `Event.instr`. -/
inductive Event where
  -- device steps: nodes, launchers and records (R30, R50, R64, R67, R68, R211)
  | nodeEnable (g : GraphId) (node : Nat)
  | nodeDisable (g : GraphId) (node : Nat)
  | commitArrival (g : GraphId) (node : Nat) (handle : Word) (src : CommitSrc)
  | coalescingTimerExpiry (g : GraphId) (node die : Nat)
  | launchDecision (g : GraphId) (node die : Nat)
  | iterationEnd (iter : Nat)
  | loopReissue (iter : Nat)
  | blockRetire (blk : Nat)
  | fabricMessageArrival (part : Nat) (tag : Word) (addr : Nat) (payload : List Byte)
  | hostReserve (part node : Nat)
  | hostCommit (part : Nat) (handle : Word)
  -- convergence and issue (R78, R80, R85, R87, R97, R98, R139)
  | rendezvousComplete (blk inst : Nat)
  | transitProbeSend (blk path : Nat)
  | waitCycleDetect (blk path : Nat)
  | binAged (sector bin : Nat)
  | warpFormation (sector : Nat)
  | rehomeRelease (blk warp : Nat)
  | joinMerge (blk forkId : Nat)
  | pathReady (blk path : Nat)
  | portChoice (sector : Nat) (finder : Bool)
  | resultReturn (blk path : Nat)
  | queueEntryArrival (blk warp : Nat)
  | mainFileTransfer (blk path : Nat)
  | sleepExpiry (blk path : Nat)
  | legacyRequestServe (die : Nat)
  | legacyQueueRoom (die : Nat)
  | matrixQueueRoom (sector : Nat)
  | engineQueueRoom (blk path : Nat)
  | finderQueueRoom (blk warp : Nat)
  -- matrix arrays and engines (R337, R350, R275, R242, R245, R276, R286, R385, R393)
  | matrixPassStart (sector : Nat)
  | matrixPassEnd (sector : Nat)
  | mmaPageCheckComplete (blk path : Nat)
  | mmaPageFault (blk path : Nat)
  | enginePageCheckComplete (blk path : Nat)
  | copyCommandComplete (blk ch : Nat)
  | gatherCommandComplete (core : Nat)
  | collectiveOperationComplete (part ch : Nat) (others : List Contribution)
  | csendComplete (blk ch : Nat)
  | engineHalt (u : EngUnit) (cause : BitVec 6)
  | samplerRequest (die : Nat)
  | programStageComplete (blk : Nat)
  | programBudgetExpiry (blk : Nat)
  -- coherence (R315, R318, R320, R323, R324, R233)
  | dirRemoteLoad (die line : Nat)
  | dirRemoteStore (die line : Nat) (mask : BitVec 16)
  /-- A home request names its die, 4 for a host or fabric agent. -/
  | dirHomeWrite (die line : Nat) (mask : BitVec 16)
  | dirHomeLoad (die line word : Nat)
  | dirEvict (die line : Nat)
  | snoopFilterRecall (die line : Nat)
  | fabricAccessArrival (pa : Nat) (op : FabricOp)
  | hostAccess (hpa : Nat) (data : Option (List Byte))
  | lmClean (part die : Nat) (pf : Bool)
  | lmInvalidate (part die : Nat) (pf : Bool)
  | lmCleanInvalidate (part die : Nat) (pf : Bool)
  | lineMaintComplete (part die : Nat)
  | tlbiComplete (blk path : Nat)
  -- pre-emption and contexts (R369-R378, R382)
  | preemptImmediate (part : Nat) (v : DWord)
  | preemptCooperative (part : Nat) (v : DWord)
  | preemptDeadlineExpiry (part : Nat)
  | vacateBegin (blk : Nat)
  | contextSwitchStep (part : Nat)
  | preemptDone (part : Nat)
  | blockRequeuePlace (die : Nat)
  -- thread control (R366, R381)
  | tctlResume (part : Nat) (blk blane : Nat)
  | tctlResumeAt (part : Nat) (blk blane : Nat)
  | tctlKill (part : Nat) (blk blane : Nat)
  | tctlStep (part : Nat) (blk blane : Nat)
  | tctlStepAll (part : Nat) (blk blane : Nat)
  | tctlHalt (part : Nat) (blk blane : Nat)
  | stepComplete (blk path : Nat)
  -- management registers (R364, R398, R410-R417, R420)
  | frtWrite (part : Nat) (v : Word)
  | ertWrite (part : Nat) (v : Word)
  | contextDrop (part : Nat) (addr : DWord)
  | vfSave (part : Nat)
  | vfRestore (part : Nat)
  | vfOperationComplete (part : Nat)
  | pfmWrite (part word : Nat) (v : Word)
  | xmodeWrite (part : Nat) (v : Word)
  | graphRegisterWrite (g : GraphId) (v : DWord)
  | partitionEnable (part : Nat) (v : Word)
  | pfselWrite (v : Word)
  | coreReleaseWrite (cluster : Nat) (v : Byte)
  | pcapWrite (v : Word)
  | bstatFullService (v : Word)
  | bindValidate (part ch : Nat) (cfg : Word)
  | attestationRequest (part : Nat)
  | irqsClear (part : Nat) (v : Word)
  | prgrRead (part : Nat)
  | registerWrite (part : Option Nat) (off : Nat) (v : Word)
  -- address-translation services (R408, R409)
  | atsResponse (part asid page : Nat) (hpa : Option Nat) (r w x wr : Bool)
  | prgResponse (part : Nat) (idx code : Nat)
  | atsInvalidate (part asid page : Nat)
  | invalidateCompletion (part asid page : Nat)
  -- fabric, reliability, bring-up, power (24, 25, 26)
  | flitReplay (port : Nat)
  | gangKill (blk : Nat)
  | gangRelaunch (die : Nat)
  | darkFrameTest (cluster : Nat) (failing duration : Nat)
  | clusterIdleGate (cluster : Nat)
  | powerGood
  | bringupPhaseEnd (r : PhaseResult)
  | reset
  | clockStep (down : Bool)
  | thermalTrip
  | thermalResume
  | softError (t : SoftTarget)
  | fabricPortTraining (port : Nat) (ok : Bool)
  | frsWrite (part : Nat) (v : Word)
  | ersWrite (part : Nat) (v : Word)
  | contextDropComplete (part : Nat)
  deriving DecidableEq, Repr

/-- The row of the operation table that an event executes. -/
def Event.instr : Event → Instr
  | .nodeEnable .. => .nodeEnable
  | .nodeDisable .. => .nodeDisable
  | .commitArrival .. => .commitArrival
  | .coalescingTimerExpiry .. => .coalescingTimerExpiry
  | .launchDecision .. => .launchDecision
  | .iterationEnd .. => .iterationEnd
  | .loopReissue .. => .loopReissue
  | .blockRetire .. => .blockRetire
  | .fabricMessageArrival .. => .fabricMessageArrival
  | .hostReserve .. => .hostReserve
  | .hostCommit .. => .hostCommit
  | .rendezvousComplete .. => .rendezvousComplete
  | .transitProbeSend .. => .transitProbeSend
  | .waitCycleDetect .. => .waitCycleDetect
  | .binAged .. => .binAged
  | .warpFormation .. => .warpFormation
  | .rehomeRelease .. => .rehomeRelease
  | .joinMerge .. => .joinMerge
  | .pathReady .. => .pathReady
  | .portChoice .. => .portChoice
  | .resultReturn .. => .resultReturn
  | .queueEntryArrival .. => .queueEntryArrival
  | .mainFileTransfer .. => .mainFileTransfer
  | .sleepExpiry .. => .sleepExpiry
  | .legacyRequestServe .. => .legacyRequestServe
  | .legacyQueueRoom .. => .legacyQueueRoom
  | .matrixQueueRoom .. => .matrixQueueRoom
  | .engineQueueRoom .. => .engineQueueRoom
  | .finderQueueRoom .. => .finderQueueRoom
  | .matrixPassStart .. => .matrixPassStart
  | .matrixPassEnd .. => .matrixPassEnd
  | .mmaPageCheckComplete .. => .mmaPageCheckComplete
  | .mmaPageFault .. => .mmaPageFault
  | .enginePageCheckComplete .. => .enginePageCheckComplete
  | .copyCommandComplete .. => .copyCommandComplete
  | .gatherCommandComplete .. => .gatherCommandComplete
  | .collectiveOperationComplete .. => .collectiveOperationComplete
  | .csendComplete .. => .csendComplete
  | .engineHalt .. => .engineHalt
  | .samplerRequest .. => .samplerRequest
  | .programStageComplete .. => .programStageComplete
  | .programBudgetExpiry .. => .programBudgetExpiry
  | .dirRemoteLoad .. => .dirRemoteLoad
  | .dirRemoteStore .. => .dirRemoteStore
  | .dirHomeWrite .. => .dirHomeWrite
  | .dirHomeLoad .. => .dirHomeLoad
  | .dirEvict .. => .dirEvict
  | .snoopFilterRecall .. => .snoopFilterRecall
  | .fabricAccessArrival .. => .fabricAccessArrival
  | .hostAccess .. => .hostAccess
  | .lmClean .. => .lmClean
  | .lmInvalidate .. => .lmInvalidate
  | .lmCleanInvalidate .. => .lmCleanInvalidate
  | .lineMaintComplete .. => .lineMaintComplete
  | .tlbiComplete .. => .tlbiComplete
  | .preemptImmediate .. => .preemptImmediate
  | .preemptCooperative .. => .preemptCooperative
  | .preemptDeadlineExpiry .. => .preemptDeadlineExpiry
  | .vacateBegin .. => .vacateBegin
  | .contextSwitchStep .. => .contextSwitchStep
  | .preemptDone .. => .preemptDone
  | .blockRequeuePlace .. => .blockRequeuePlace
  | .tctlResume .. => .tctlResume
  | .tctlResumeAt .. => .tctlResumeAt
  | .tctlKill .. => .tctlKill
  | .tctlStep .. => .tctlStep
  | .tctlStepAll .. => .tctlStepAll
  | .tctlHalt .. => .tctlHalt
  | .stepComplete .. => .stepComplete
  | .frtWrite .. => .frtWrite
  | .ertWrite .. => .ertWrite
  | .contextDrop .. => .contextDrop
  | .vfSave .. => .vfSave
  | .vfRestore .. => .vfRestore
  | .vfOperationComplete .. => .vfOperationComplete
  | .pfmWrite .. => .pfmWrite
  | .xmodeWrite .. => .xmodeWrite
  | .graphRegisterWrite .. => .graphRegisterWrite
  | .partitionEnable .. => .partitionEnable
  | .pfselWrite .. => .pfselWrite
  | .coreReleaseWrite .. => .coreReleaseWrite
  | .pcapWrite .. => .pcapWrite
  | .bstatFullService .. => .bstatFullService
  | .bindValidate .. => .bindValidate
  | .attestationRequest .. => .attestationRequest
  | .irqsClear .. => .irqsClear
  | .prgrRead .. => .prgrRead
  | .registerWrite .. => .registerWrite
  | .atsResponse .. => .atsResponse
  | .prgResponse .. => .prgResponse
  | .atsInvalidate .. => .atsInvalidate
  | .invalidateCompletion .. => .invalidateCompletion
  | .flitReplay .. => .flitReplay
  | .gangKill .. => .gangKill
  | .gangRelaunch .. => .gangRelaunch
  | .darkFrameTest .. => .darkFrameTest
  | .clusterIdleGate .. => .clusterIdleGate
  | .powerGood .. => .powerGood
  | .bringupPhaseEnd .. => .bringupPhaseEnd
  | .reset .. => .reset
  | .clockStep .. => .clockStep
  | .thermalTrip .. => .thermalTrip
  | .thermalResume .. => .thermalResume
  | .softError .. => .softError
  | .fabricPortTraining .. => .fabricPortTraining
  | .frsWrite .. => .frsWrite
  | .ersWrite .. => .ersWrite
  | .contextDropComplete .. => .contextDropComplete

end Sys2Proof
end

