-- ==== Sys2Proof/Config.lean ====
section
/-! DEFINITION. What the KHN-9480 fixes for every state, and the free values of the model. -/

namespace Sys2Proof.Config

/-- Dies of the package (R2). -/
def dies : Nat := 4
/-- Clusters per die (R2). -/
def clustersPerDie : Nat := 24
/-- Cores per cluster (R2). -/
def coresPerCluster : Nat := 8
/-- Partitions of the package (R2). -/
def partitions : Nat := 48
/-- Longest run (R91). -/
def runLimit : Nat := 24
/-- Uses of the main-file port that a path's run keeps: more than can still hold the port (R140). -/
def portUses : Nat := 4
/-- Returns into a sector's main file that are kept: more than can still delay the port (R140). -/
def portReturns : Nat := 64
/-- Positions held in the top cache, and the uniform-stack ceiling (R137, R145). -/
def topCells : Nat := 8
/-- Open forks of a warp (R145). -/
def maxForks : Nat := 8
/-- Warp slots, and finder slots, of a sector (R62). -/
def warpSlots : Nat := 16
/-- Main-file rows of a sector (R62). -/
def mainRows : Nat := 1024
/-- Accumulator tiles of a sector (R62). -/
def sectorTiles : Nat := 64
/-- Scratchpad of a core, in KiB (R62). -/
def coreSpad : Nat := 512
/-- Matrix-queue entries of a sector (R107). -/
def matrixQueue : Nat := 8
/-- Commands of one copy-channel context (R279). -/
def copyQueue : Nat := 16
/-- Commands of a core's gather engine (R282). -/
def gatherQueue : Nat := 16
/-- Commands of a die's sampler engine (R289). -/
def samplerQueue : Nat := 32
/-- Requests of a die's ephemeris unit (R45). -/
def legacyQueue : Nat := 64
/-- A byte that another package holds, as the device's own accesses read it in a cycle (R229). (log 5)
(log 5, DESIGN CHOICE) -/
opaque farByte : Nat → Nat → BitVec 8
/-- Ways of an L2 set (R236). -/
def l2Ways : Nat := 16
/-- Records of a ring's holding queue (R364, R398). -/
def holdQueue : Nat := 64
/-- Entries of a cluster TLB (R2). -/
def tlbEntries : Nat := 8192
/-- Bins of a sector (R85). -/
def bins : Nat := 32
/-- Issue cycles after which a bin has aged (R85). -/
def binAge : Nat := 64
/-- Blocked cycles before a transit probe (R380). -/
def probePeriod : Nat := 4096
/-- Page requests of one function in flight (R408). -/
def pageRequests : Nat := 64
/-- Attestation reports a device signs (R420). -/
def maxReports : Nat := 1048576
/-- Device feature mask: bits 0 to 7 (R39). -/
def deviceMask : BitVec 512 := 0xFF#512

/-- A value the spec leaves open, drawn with the state's counter (log 5, DESIGN CHOICE): it has no body, so nothing is known of it. -/
opaque freeWord : Nat → Word
/-- A cycle count the spec leaves open, drawn with the state's counter (log 5, DESIGN CHOICE, R426). -/
opaque freeCycles : Nat → Nat
/-- The least security epoch that the boot ROM accepts, fused into the part (log 5, R419). (log 5, DESIGN CHOICE) -/
opaque fusedEpoch : Nat
/-- An ECDSA P-384 signature verifies over a digest under the fused anchor (log 5, R419). -/
opaque ecdsaVerifies : BitVec 384 → List Byte → Bool
/-- An HSS signature verifies over a digest under the fused anchor (log 5, R419). -/
opaque hssVerifies : BitVec 384 → List Byte → Bool
/-- The fused secret (log 5, R420). -/
opaque fusedSecret : Nat
/-- The ECDSA P-384 identity key derived from the fused secret and the running firmware's digest (log 5, R420). -/
opaque ecdsaKey : Nat → BitVec 384 → Nat
/-- The HSS identity key derived from the fused secret (log 5, R420). -/
opaque hssKey : Nat → Nat
/-- The ECDSA P-384 signature of bytes under a key, which no rule gives as a function (log 5, DESIGN CHOICE, R420). -/
opaque ecdsaSignature : Nat → Nat → List Byte
/-- The HSS signature of bytes under a key at a leaf index (log 5, DESIGN CHOICE, R420). -/
opaque hssSignature : Nat → Nat → Nat → List Byte

/-- Host address of HDM decoder window 0 or 1, which the host sets (log 5, R404). -/
opaque hdmBase : Nat → Nat
/-- A package of the load-store domain answers fabric accesses (log 5, R417). -/
opaque packageAnswers : Nat → Bool

end Sys2Proof.Config
end

