-- ==== Sys2Proof/WellFormed.lean ====
section
/-! DEFINITION. Which instruction terms the encoding admits, and which device steps name units of the package. -/

namespace Sys2Proof

/-- A scope at which members meet. -/
def Scope.meets : Scope → Bool
  | .set | .blk => true
  | .lane | .warp => false

/-- The membership field is non-zero only at set or block scope (R117). (log 14, DEDUCED) -/
def wmOk (h : Hdr) (wm : BitVec 4) : Bool := wm == 0 || h.sc.meets

/-- Bitwise reductions take an integer type (R117). -/
def opOk (ty : RTy) (op : RedOp) : Bool :=
  match op, ty with
  | .and, .f32 | .and, .bf16x2 | .or, .f32 | .or, .bf16x2 | .xor, .f32 | .xor, .bf16x2 => false
  | _, _ => true

/-- Cells of a tier that an index may name; at set scope TIER 01 names s0 to s7 (R114). -/
def tierSize (sc : Scope) : Tier → Nat
  | .t => 8
  | .o => if sc = .set then 8 else 16
  | .m => 256
  | .w => 64

def idxOk (h : Hdr) (tier : Tier) (idx : Byte) : Bool := idx.toNat < tierSize h.sc tier

/-- `pushn` and `popn`: tier o, m or w, 1 to 16 cells, all within the tier (R115). -/
def spanOk (h : Hdr) (tier : Tier) (idx n : Byte) : Bool :=
  tier != .t && 1 ≤ n.toNat && n.toNat ≤ 16 && idx.toNat + n.toNat ≤ tierSize h.sc tier

/-- NC = 0 names a slot and no shape; NC above 0 names a shape and no slot (R120). -/
def Addr.ok (a : Addr) : Bool := if a.nc = 0 then a.h == 0 else a.fs == 0

def countOk (n : BitVec 5) : Bool := 1 ≤ n.toNat && n.toNat ≤ 16

def GraphId.ok (g : GraphId) : Bool := g.part < 48 && g.lvl ≤ 2

/-- The checks of the encoding chapter on an instruction (R109, R112-R124). `sbc` at lane scope is a defined word whatever
its IMM8. (log 86, DEDUCED) -/
def Instr.wf : Instr → Bool
  | .cvt _ src dst _ _ _ => src != dst
  | .dropn _ n => n != 0
  | .push h tier i | .pop h tier i | .keep h tier i | .xch h tier i => idxOk h tier i
  | .pushn h tier i n | .popn h tier i n => spanOk h tier i n
  | .nop h wm | .sync h wm | .arrive h wm | .await h wm => wmOk h wm
  | .red h ty op wm | .scan h ty op wm | .segred h ty op wm | .segscan h ty op wm => wmOk h wm && opOk ty op
  | .sbc h wm e => wmOk h wm && (h.sc != .warp || e.toNat < 32)
  | .trap h _ wm | .brk h _ wm | .get h _ wm | .qadd h _ wm | .wbc h _ wm => wmOk h wm
  | .yield h wm | .put h wm | .shfl h wm | .any h wm | .all h wm | .ballot h wm | .matchLanes h wm => wmOk h wm
  | .sleep h n wm => wmOk h wm && n != 0
  | .qswp h p wm => wmOk h wm && p != 0
  | .qbc h _ wm => wmOk h wm
  | .shfx h d wm | .shup h d wm | .shdn h d wm => wmOk h wm && d != 0
  | .ld _ a _ _ | .ldf _ a _ _ | .ldsp _ a _ _ | .pref _ a _ => a.ok
  | .st _ a _ _ | .stf _ a _ _ | .stsp _ a _ _ => a.ok
  | .ldn _ a _ _ n | .stn _ a _ _ n => a.ok && countOk n
  | .qpop _ n => countOk n
  | .atom _ a _ _ | .cas _ a _ | .ared _ a _ _ => a.ok
  | .fence _ ord => ord != .plain
  | .xfence _ a b => a != b
  | .mmas _ _ _ _ _ mask => mask != 0
  | .tlbi _ k => k.toNat ≤ 4
  | .rdbk _ k | .wrbk _ k => k.toNat ≤ 15
  | _ => true

/-- One bit is set. -/
def oneBit (n : Nat) : Bool := n != 0 && n &&& (n - 1) == 0

/-- The errors that SEC-DED corrects are those of one bit (R397). -/
def SoftTarget.wf : SoftTarget → Bool
  | .cell _ _ _ _ m ok | .queue _ _ _ _ m ok | .latch _ _ _ m ok | .line 3 _ _ m ok => ok == oneBit m.toNat
  | .spad _ _ m ok => ok == oneBit m.toNat
  | .line d _ _ _ _ => d == 4
  | _ => true

/-- The unit ranges of a device step's operands. -/
def Event.wf : Event → Bool
  | .nodeEnable g n | .nodeDisable g n => g.ok && n < 4096
  | .commitArrival g n _ _ => g.ok && n < 4096
  | .coalescingTimerExpiry g n d | .launchDecision g n d => g.ok && n < 4096 && d < 4
  | .portChoice s _ | .warpFormation s | .matrixQueueRoom s | .matrixPassStart s | .matrixPassEnd s => s < 3072
  | .gatherCommandComplete c => c < 768
  | .samplerRequest d | .legacyRequestServe d | .legacyQueueRoom d | .blockRequeuePlace d | .gangRelaunch d => d < 4
  | .dirRemoteLoad d _ | .dirRemoteStore d _ _ | .dirEvict d _ | .snoopFilterRecall d _ => d < 4
  | .lmClean p d _ | .lmInvalidate p d _ | .lmCleanInvalidate p d _ | .lineMaintComplete p d => p < 48 && d < 4
  | .pfmWrite p w _ => p < 48 && w < 16
  | .bindValidate p c _ => p < 48 && c < 16
  | .coreReleaseWrite c _ | .darkFrameTest c _ _ | .clusterIdleGate c => c < 96
  | .softError t => t.wf
  | .fabricAccessArrival _ (.atomic op fmt _ _) =>
    decide (1 ≤ fmt) && decide (fmt ≤ 3) && (fmt == 1 || !(op == .and || op == .or || op == .xor))
  | .flitReplay p | .fabricPortTraining p _ => p < 128
  | _ => true

end Sys2Proof
end

