-- ==== Sys2Proof/Decode.lean ====
section
/-! DEFINITION. The decoder, total on every word, and the encoder, both written from the tables of chapter 06. -/

namespace Sys2Proof

/-- Bits `hi:lo` of a word as a number (R3). -/
def fieldOf (w : Word) (hi lo : Nat) : Nat := w.toNat / 2 ^ lo % 2 ^ (hi + 1 - lo)

/-- One bit of a word. -/
def flagOf (w : Word) (i : Nat) : Bool := fieldOf w i i == 1

def scopeOf : Nat → Scope
  | 0 => .lane
  | 1 => .warp
  | 2 => .set
  | _ => .blk

def hdrOf (w : Word) : Hdr := ⟨flagOf w 31, scopeOf (fieldOf w 30 29)⟩

def ityOf : Nat → Option ITy
  | 0 => some .i32
  | 1 => some .n32
  | _ => none

def ftyOf : Nat → Option FTy
  | 2 => some .f32
  | 3 => some .bf16x2
  | _ => none

def rtyOf : Nat → Option RTy
  | 0 => some .i32
  | 1 => some .n32
  | 2 => some .f32
  | 3 => some .bf16x2
  | _ => none

def rmOf : Nat → RM
  | 0 => .rn
  | 1 => .rz
  | 2 => .ru
  | _ => .rd

def tierOf : Nat → Tier
  | 0 => .t
  | 1 => .o
  | 2 => .m
  | _ => .w

def redOpOf : Nat → Option RedOp
  | 0 => some .add
  | 1 => some .min
  | 2 => some .max
  | 3 => some .and
  | 4 => some .or
  | 5 => some .xor
  | _ => none

def atomOpOf : Nat → Option AtomOp
  | 0 => some .add
  | 1 => some .min
  | 2 => some .max
  | 3 => some .and
  | 4 => some .or
  | 5 => some .xor
  | 6 => some .xch
  | _ => none

def ordOf : Nat → MemOrd
  | 0 => .plain
  | 1 => .acq
  | 2 => .rel
  | _ => .ar

def hintOf : Nat → Option Hint
  | 0 => some .none
  | 1 => some .strm
  | 2 => some .keep
  | 3 => some .nol1
  | _ => none

def xclassOf : Nat → Option XClass
  | 0 => some .thread
  | 1 => some .copy
  | 2 => some .gather
  | 3 => some .matrix
  | 4 => some .coll
  | 5 => some .sampler
  | _ => none

def policyOf : Nat → Option Policy
  | 0 => some .low
  | 1 => some .high
  | 2 => some .fault
  | _ => none

/-- The selectors of `get` (R119). -/
def selOf : Nat → Option Sel
  | 0 => some .lane
  | 1 => some .quad
  | 2 => some .warp
  | 3 => some .set
  | 4 => some .block
  | 5 => some .gang
  | 6 => some .batch
  | 7 => some .record
  | 8 => some .depth
  | 9 => some .udepth
  | 10 => some .core
  | 11 => some .clus
  | 12 => some .stall
  | n => if 16 ≤ n && n < 24 then some (.cpwp (BitVec.ofNat 3 (n - 16))) else none

/-- Keeps an instruction only where a check on its fields holds. -/
def only (c : Bool) (i : Instr) : Option Instr := if c then some i else none

/-- Keeps an instruction only where the encoding admits it. -/
def admitted (c : Bool) (i : Instr) : Option Instr := only (c && i.wf) i

/-- The inline constant: the code with K = 1, none with K = 0 and IMM8 = 0 (R112). (log 54, DEDUCED) -/
def constOf (w : Word) : Option (Option Byte) :=
  if flagOf w 11 then some (some (BitVec.ofNat 8 (fieldOf w 7 0)))
  else if fieldOf w 7 0 = 0 then some none else none


/-- Group 0x03: RM = 00, AUX = 0, TY i32 or n32 (R113). -/
def decIar (w : Word) : Option Instr :=
  let h := hdrOf w
  let sat := flagOf w 12
  if fieldOf w 14 13 = 0 ∧ fieldOf w 10 8 = 0 then
    match ityOf (fieldOf w 17 15), constOf w with
    | some ty, some k =>
      match fieldOf w 23 18 with
      | 0 => some (.iarAdd h ty sat k)
      | 1 => some (.iarSub h ty sat k)
      | 2 => some (.iarMul h ty sat k)
      | 3 => only (!sat) (.iarMulhi h ty k)
      | 4 => some (.iarMad h ty sat k)
      | 5 => some (.iarNeg h ty sat k)
      | 6 => some (.iarAbs h ty sat k)
      | 7 => only (!sat) (.iarMin h ty k)
      | 8 => only (!sat) (.iarMax h ty k)
      | 9 => only (!sat) (.iarClamp h ty k)
      | 10 => only (!sat) (.iarDiv h ty k)
      | 11 => only (!sat) (.iarRem h ty k)
      | _ => none
    | _, _ => none
  else none

/-- Group 0x08: RM = 00, AUX = 0, TY i32 or n32 (R113). -/
def decBit (w : Word) : Option Instr :=
  let h := hdrOf w
  let sat := flagOf w 12
  if fieldOf w 14 13 = 0 ∧ fieldOf w 10 8 = 0 then
    match ityOf (fieldOf w 17 15) with
    | none => none
    | some ty =>
      if fieldOf w 23 18 = 15 then
        admitted (!sat && !flagOf w 11) (.bitLop3 h ty (BitVec.ofNat 8 (fieldOf w 7 0)))
      else
      match constOf w with
      | none => none
      | some k =>
        match fieldOf w 23 18 with
        | 0 => only (!sat) (.bitAnd h ty k)
        | 1 => only (!sat) (.bitOr h ty k)
        | 2 => only (!sat) (.bitXor h ty k)
        | 3 => only (!sat) (.bitNot h ty k)
        | 4 => only (!sat) (.bitAndn h ty k)
        | 5 => only (!sat) (.bitShl h ty k)
        | 6 => only (!sat) (.bitShr h ty k)
        | 7 => only (!sat) (.bitSar h ty k)
        | 8 => only (!sat) (.bitRot h ty k)
        | 9 => only (!sat) (.bitPopc h ty k)
        | 10 => only (!sat) (.bitClz h ty k)
        | 11 => only (!sat) (.bitCtz h ty k)
        | 12 => only (!sat) (.bitBfe h ty k)
        | 13 => only (!sat) (.bitBfi h ty k)
        | 14 => only (!sat) (.bitBrev h ty k)
        | _ => none
  else none

/-- Group 0x1B: RM = 00, AUX = 0, TY i32 or n32 (R113). -/
def decLegacy (w : Word) : Option Instr :=
  let h := hdrOf w
  let sat := flagOf w 12
  if fieldOf w 14 13 = 0 ∧ fieldOf w 10 8 = 0 then
    match ityOf (fieldOf w 17 15), constOf w with
    | some ty, some k =>
      match fieldOf w 23 18 with
      | 0 => only (!sat) (.mul24 h ty k)
      | 1 => some (.mad24 h ty sat k)
      | 2 => some (.fdot4 h ty sat k)
      | _ => none
    | _, _ => none
  else none

/-- Group 0x04: one TY, AUX = 0, any RM (R113). -/
def decFar (w : Word) : Option Instr :=
  let h := hdrOf w
  let sat := flagOf w 12
  let rm := rmOf (fieldOf w 14 13)
  if fieldOf w 17 15 = 2 ∧ fieldOf w 10 8 = 0 then
    match constOf w with
    | none => none
    | some k =>
      match fieldOf w 23 18 with
      | 0 => some (.farAdd h rm sat k)
      | 1 => some (.farSub h rm sat k)
      | 2 => some (.farMul h rm sat k)
      | 3 => some (.farFma h rm sat k)
      | 4 => only (!sat) (.farNeg h rm k)
      | 5 => only (!sat) (.farAbs h rm k)
      | 6 => only (!sat) (.farMin h rm k)
      | 7 => only (!sat) (.farMax h rm k)
      | 8 => only (!sat) (.farClamp h rm k)
      | 9 => only (!sat) (.farCsgn h rm k)
      | 10 => only (!sat) (.farDiv h rm k)
      | 11 => only (!sat) (.farSqrt h rm k)
      | 12 => only (!sat) (.farRint h rm k)
      | 13 => only (!sat) (.farFract h rm k)
      | 14 => only (!sat) (.farLdexp h rm k)
      | 15 => only (!sat) (.farExpo h rm k)
      | _ => none
  else none

/-- Group 0x05: one TY, AUX = 0, any RM (R113). -/
def decPair (w : Word) : Option Instr :=
  let h := hdrOf w
  let sat := flagOf w 12
  let rm := rmOf (fieldOf w 14 13)
  if fieldOf w 17 15 = 3 ∧ fieldOf w 10 8 = 0 then
    match constOf w with
    | none => none
    | some k =>
      match fieldOf w 23 18 with
      | 0 => some (.pairAdd h rm sat k)
      | 1 => some (.pairSub h rm sat k)
      | 2 => some (.pairMul h rm sat k)
      | 3 => some (.pairFma h rm sat k)
      | 4 => only (!sat) (.pairNeg h rm k)
      | 5 => only (!sat) (.pairAbs h rm k)
      | 6 => only (!sat) (.pairMin h rm k)
      | 7 => only (!sat) (.pairMax h rm k)
      | 8 => some (.pairDot2 h rm sat k)
      | _ => none
  else none

/-- Group 0x06: conversions, whose AUX is the target type or a format slot (R113). -/
def decCvt (w : Word) : Option Instr :=
  let h := hdrOf w
  let sat := flagOf w 12
  let rm := rmOf (fieldOf w 14 13)
  let ty := fieldOf w 17 15
  let aux := fieldOf w 10 8
  match constOf w with
  | none => none
  | some k =>
    match fieldOf w 23 18 with
    | 0 =>
      match rtyOf ty, rtyOf aux with
      | some src, some dst => admitted true (.cvt h src dst rm sat k)
      | _, _ => none
    | 1 => only (ty == 2 && aux == 3) (.pack h rm sat k)
    | 2 => only (ty == 3 && aux == 2 && !sat) (.unlo h rm k)
    | 3 => only (ty == 3 && aux == 2 && !sat) (.unhi h rm k)
    | 4 => only (ty == 2) (.qround h (BitVec.ofNat 3 aux) rm sat k)
    | _ => none

/-- Group 0x07: comparisons (R113). -/
def decCmp (w : Word) : Option Instr :=
  let h := hdrOf w
  if fieldOf w 14 13 = 0 ∧ fieldOf w 12 12 = 0 ∧ fieldOf w 10 8 = 0 then
    if fieldOf w 23 18 = 9 then
      match ftyOf (fieldOf w 17 15) with
      | some ty => only (!flagOf w 11) (.fclass h ty (BitVec.ofNat 8 (fieldOf w 7 0)))
      | none => none
    else
    match constOf w with
    | none => none
    | some k =>
      match rtyOf (fieldOf w 17 15) with
      | none => none
      | some ty =>
        match fieldOf w 23 18 with
        | 0 => some (.cmpEq h ty k)
        | 1 => some (.cmpNe h ty k)
        | 2 => some (.cmpLt h ty k)
        | 3 => some (.cmpLe h ty k)
        | 4 => some (.cmpGt h ty k)
        | 5 => some (.cmpGe h ty k)
        | 6 => (ftyOf (fieldOf w 17 15)).map fun t => .cmpOrd h t k
        | 7 => (ftyOf (fieldOf w 17 15)).map fun t => .cmpUnord h t k
        | 8 => some (.sel h ty k)
        | _ => none
  else none

/-- Group 0x09: transcendental functions (R113). -/
def decTrn (w : Word) : Option Instr :=
  let h := hdrOf w
  if fieldOf w 14 13 = 0 ∧ fieldOf w 12 12 = 0 ∧ fieldOf w 10 8 = 0 then
    match ftyOf (fieldOf w 17 15), constOf w with
    | some ty, some k =>
      match fieldOf w 23 18 with
      | 0 => some (.trnRcp h ty k)
      | 1 => some (.trnRsq h ty k)
      | 2 => some (.trnEx2 h ty k)
      | 3 => some (.trnLg2 h ty k)
      | 4 => some (.trnSinp h ty k)
      | 5 => some (.trnCosp h ty k)
      | 6 => some (.trnTanh h ty k)
      | 7 => some (.trnSigm h ty k)
      | _ => none
    | _, _ => none
  else none

/-- Group 0x01, Format L: stack shuffles (R115). -/
def decStk (w : Word) : Option Instr :=
  let h := hdrOf w
  let n : Byte := BitVec.ofNat 8 (fieldOf w 7 0)
  let z := fieldOf w 7 0 == 0
  if fieldOf w 19 8 = 0 then
    match fieldOf w 23 20 with
    | 0 => only z (.dup h)
    | 1 => only z (.dup2 h)
    | 2 => only z (.drop h)
    | 3 => admitted true (.dropn h n)
    | 4 => only z (.swap h)
    | 5 => only z (.swap2 h)
    | 6 => only z (.over h)
    | 7 => only z (.nip h)
    | 8 => only z (.tuck h)
    | 9 => only z (.rot h)
    | 10 => admitted true (.pick h n)
    | 11 => admitted true (.roll h n)
    | 12 => only z (.depth h)
    | _ => none
  else none

/-- Group 0x02, Format L: named tiers (R114, R115). -/
def decLoc (w : Word) : Option Instr :=
  let h := hdrOf w
  let tier := tierOf (fieldOf w 19 18)
  let idx : Byte := BitVec.ofNat 8 (fieldOf w 15 8)
  let n : Byte := BitVec.ofNat 8 (fieldOf w 7 0)
  let z := fieldOf w 7 0 == 0
  if fieldOf w 17 16 = 0 then
    match fieldOf w 23 20 with
    | 0 => admitted z (.push h tier idx)
    | 1 => admitted z (.pop h tier idx)
    | 2 => admitted z (.keep h tier idx)
    | 3 => admitted z (.xch h tier idx)
    | 4 =>
      match rtyOf (fieldOf w 19 18) with
      | some ty => only (fieldOf w 15 8 == 0) (.pushi h ty n)
      | none => none
    | 5 => admitted true (.pushn h tier idx n)
    | 6 => admitted true (.popn h tier idx n)
    | _ => none
  else none

/-- Group 0x0A, Format C: control transfer (R116). -/
def decCtl (w : Word) : Option Instr :=
  let h := hdrOf w
  let off : BitVec 16 := BitVec.ofNat 16 (fieldOf w 15 0)
  let z := fieldOf w 15 0 == 0
  if fieldOf w 19 16 = 0 then
    match fieldOf w 23 20 with
    | 0 => some (.bra h off)
    | 1 => some (.bz h off)
    | 2 => some (.bnz h off)
    | 3 => some (.call h off)
    | 4 => only z (.ret h)
    | 5 => only z (.jx h)
    | 6 => only z (.exit h)
    | _ => none
  else none

/-- Group 0x0B, Format C: divergence and reconvergence (R116). -/
def decPath (w : Word) : Option Instr :=
  let h := hdrOf w
  let aux := fieldOf w 19 16
  let z := fieldOf w 15 0 == 0
  match fieldOf w 23 20 with
  | 0 => only (aux == 0) (.fork h (BitVec.ofNat 16 (fieldOf w 15 0)))
  | 1 => only z (.join h (BitVec.ofNat 4 aux))
  | 2 => only z (.reform h (BitVec.ofNat 4 aux))
  | 3 => only (z && aux == 0) (.rehome h)
  | 4 =>
    match policyOf aux with
    | some p => only z (.umerge h p)
    | none => none
  | _ => none

/-- Group 0x00, Format Q: system forms (R118). (log 14, DEDUCED) -/
def decSys (w : Word) : Option Instr :=
  let h := hdrOf w
  let wm : BitVec 4 := BitVec.ofNat 4 (fieldOf w 11 8)
  let n : Byte := BitVec.ofNat 8 (fieldOf w 7 0)
  let z := fieldOf w 7 0 == 0
  if fieldOf w 17 12 = 0 then
    if fieldOf w 23 18 = 0 then admitted z (.nop h wm)
    else
      match fieldOf w 23 18 with
      | 1 => admitted true (.trap h n wm)
      | 2 => admitted true (.brk h n wm)
      | 3 => admitted z (.yield h wm)
      | 4 => (selOf (fieldOf w 7 0)).bind fun s => admitted true (.get h s wm)
      | 5 => admitted (fieldOf w 7 0 == 12) (.put h wm)
      | 6 => admitted true (.sleep h n wm)
      | _ => none
  else none

/-- Group 0x0C, Format Q: exchanges (R118, R217). (log 14, DEDUCED) -/
def decQwx (w : Word) : Option Instr :=
  let h := hdrOf w
  let imm := fieldOf w 7 0
  let z := imm == 0
  let wm : BitVec 4 := BitVec.ofNat 4 (fieldOf w 11 8)
  if fieldOf w 14 12 = 0 then
    if fieldOf w 23 18 = 2 then
      match rtyOf (fieldOf w 17 15) with
      | some ty => admitted z (.qadd h ty wm)
      | none => none
    else if fieldOf w 17 15 = 0 then
      match fieldOf w 23 18 with
      | 0 => admitted (imm < 4) (.qswp h (BitVec.ofNat 2 imm) wm)
      | 1 => admitted (imm < 4) (.qbc h (BitVec.ofNat 2 imm) wm)
      | 3 => admitted z (.shfl h wm)
      | 4 => admitted (imm < 32) (.shfx h (BitVec.ofNat 5 imm) wm)
      | 5 => admitted (imm < 32) (.shup h (BitVec.ofNat 5 imm) wm)
      | 6 => admitted (imm < 32) (.shdn h (BitVec.ofNat 5 imm) wm)
      | 7 => admitted z (.any h wm)
      | 8 => admitted z (.all h wm)
      | 9 => admitted z (.ballot h wm)
      | 10 => admitted z (.matchLanes h wm)
      | 11 => admitted (imm < 32) (.wbc h (BitVec.ofNat 5 imm) wm)
      | _ => none
    else none
  else none

/-- Group 0x0D, Format Q: scoped collectives (R118, R219). -/
def decScp (w : Word) : Option Instr :=
  let h := hdrOf w
  let wm : BitVec 4 := BitVec.ofNat 4 (fieldOf w 11 8)
  let imm := fieldOf w 7 0
  let plain := fieldOf w 17 12 == 0
  match fieldOf w 23 18 with
  | 0 => admitted (plain && imm == 0) (.sync h wm)
  | 1 => admitted (plain && imm == 0) (.arrive h wm)
  | 2 => admitted (plain && imm == 0) (.await h wm)
  | 7 => admitted plain (.sbc h wm (BitVec.ofNat 8 imm))
  | fn =>
    match rtyOf (fieldOf w 17 15), redOpOf (fieldOf w 14 12) with
    | some ty, some op =>
      match fn with
      | 3 => admitted (imm == 0) (.red h ty op wm)
      | 4 => admitted (imm == 0) (.scan h ty op wm)
      | 5 => admitted (imm == 0) (.segred h ty op wm)
      | 6 => admitted (imm == 0) (.segscan h ty op wm)
      | _ => none
    | _, _ => none

/-- The addressing fields of Format M (R120). -/
def addrOf (w : Word) : Addr :=
  ⟨BitVec.ofNat 3 (fieldOf w 19 17), BitVec.ofNat 4 (fieldOf w 16 13), BitVec.ofNat 3 (fieldOf w 12 10)⟩

/-- Group 0x0E, Format M: loads (R121). -/
def decLds (w : Word) : Option Instr :=
  let h := hdrOf w
  let a := addrOf w
  let ord := fieldOf w 9 8
  let acq := ord == 1
  let aop := fieldOf w 4 0
  let n : BitVec 5 := BitVec.ofNat 5 aop
  match hintOf (fieldOf w 7 5) with
  | none => none
  | some hint =>
    match fieldOf w 23 20 with
    | 0 => admitted (ord < 2 && aop == 0) (.ld h a acq hint)
    | 1 => admitted (ord < 2 && aop == 0) (.ldf h a acq hint)
    | 2 => admitted (ord < 2 && aop == 0) (.ldsp h a acq hint)
    | 3 => admitted (ord < 2) (.ldn h a acq hint n)
    | 4 => admitted (fieldOf w 19 5 == 0) (.qpop h n)
    | 5 => admitted (ord == 0 && aop == 0) (.pref h a hint)
    | _ => none

/-- Group 0x0F, Format M: stores (R121). -/
def decSts (w : Word) : Option Instr :=
  let h := hdrOf w
  let a := addrOf w
  let ord := fieldOf w 9 8
  let rel := ord == 2
  let ok := ord == 0 || ord == 2
  let aop := fieldOf w 4 0
  match hintOf (fieldOf w 7 5) with
  | none => none
  | some hint =>
    match fieldOf w 23 20 with
    | 0 => admitted (ok && aop == 0) (.st h a rel hint)
    | 1 => admitted (ok && aop == 0) (.stf h a rel hint)
    | 2 => admitted (ok && aop == 0) (.stsp h a rel hint)
    | 3 => admitted ok (.stn h a rel hint (BitVec.ofNat 5 aop))
    | _ => none

/-- Group 0x10, Format M: atomics (R121). -/
def decAtm (w : Word) : Option Instr :=
  let h := hdrOf w
  let a := addrOf w
  let ord := ordOf (fieldOf w 9 8)
  let aop := fieldOf w 4 0
  if fieldOf w 7 5 = 0 then
    match fieldOf w 23 20 with
    | 0 =>
      match atomOpOf aop with
      | some op => admitted true (.atom h a ord op)
      | none => none
    | 1 => admitted (aop == 0) (.cas h a ord)
    | 2 =>
      match redOpOf aop with
      | some op => admitted true (.ared h a ord op)
      | none => none
    | _ => none
  else none

/-- Group 0x11, Format M: fences (R121). -/
def decFen (w : Word) : Option Instr :=
  let h := hdrOf w
  if fieldOf w 19 10 = 0 then
    match fieldOf w 23 20 with
    | 0 => admitted (fieldOf w 7 0 == 0) (.fence h (ordOf (fieldOf w 9 8)))
    | 1 => only (fieldOf w 9 0 == 768) (.fenceSc h)
    | 2 =>
      match xclassOf (fieldOf w 7 5), xclassOf (fieldOf w 4 0) with
      | some a, some b => admitted (fieldOf w 9 8 == 0) (.xfence h a b)
      | _, _ => none
    | _ => none
  else none

/-- Group 0x12, Format E: copy channels (R122). -/
def decCpy (w : Word) : Option Instr :=
  let h := hdrOf w
  let ch : BitVec 3 := BitVec.ofNat 3 (fieldOf w 18 16)
  let s : BitVec 4 := BitVec.ofNat 4 (fieldOf w 15 12)
  let d : BitVec 4 := BitVec.ofNat 4 (fieldOf w 11 8)
  let z : BitVec 3 := BitVec.ofNat 3 (fieldOf w 2 0)
  let ro := flagOf w 3
  if fieldOf w 19 19 = 0 then
    match fieldOf w 23 20 with
    | 0 => only (fieldOf w 7 4 == 0) (.cpy h ch s d ro z)
    | 1 => only (fieldOf w 7 4 == 0) (.cpyo h ch s d ro z)
    | 2 => only (fieldOf w 15 0 == 0) (.cpwait h ch)
    | 3 => only (fieldOf w 15 0 == 0) (.cpstat h ch)
    | _ => none
  else none

/-- Group 0x13, Format E: the gather engine (R122). -/
def decGth (w : Word) : Option Instr :=
  let h := hdrOf w
  let c : BitVec 4 := BitVec.ofNat 4 (fieldOf w 19 16)
  let s : BitVec 4 := BitVec.ofNat 4 (fieldOf w 15 12)
  let d : BitVec 4 := BitVec.ofNat 4 (fieldOf w 11 8)
  let z : BitVec 3 := BitVec.ofNat 3 (fieldOf w 2 0)
  match fieldOf w 23 20 with
  | 0 => only (fieldOf w 7 3 == 0) (.gath h c s d z)
  | 1 => only (fieldOf w 7 3 == 0) (.scat h c s d z)
  | 2 => only (fieldOf w 15 0 == 0) (.gwait h c)
  | _ => none

/-- Group 0x14, Format E: collectives and messages (R122). -/
def decCol (w : Word) : Option Instr :=
  let h := hdrOf w
  let c : BitVec 4 := BitVec.ofNat 4 (fieldOf w 19 16)
  let s : BitVec 4 := BitVec.ofNat 4 (fieldOf w 15 12)
  let d : BitVec 4 := BitVec.ofNat 4 (fieldOf w 11 8)
  match fieldOf w 23 20 with
  | 0 =>
    match redOpOf (fieldOf w 7 0) with
    | some op => some (.cred h c s d op)
    | none => none
  | 1 => only (fieldOf w 7 0 == 0) (.cbc h c s d)
  | 2 => only (fieldOf w 7 0 == 0) (.cag h c s d)
  | 3 => only (fieldOf w 15 0 == 0) (.cwait h c)
  | 4 => only (fieldOf w 11 0 == 0) (.csend h c s)
  | 5 => only (fieldOf w 19 8 == 0) (.mtag h (BitVec.ofNat 8 (fieldOf w 7 0)))
  | _ => none

/-- Group 0x15, Format E: records (R122). -/
def decRec (w : Word) : Option Instr :=
  let h := hdrOf w
  let imm := fieldOf w 7 0
  if fieldOf w 19 8 = 0 then
    match fieldOf w 23 20 with
    | 0 => only (imm < 8) (.emit h (BitVec.ofNat 3 imm))
    | 1 => only (imm < 64) (.recput h (BitVec.ofNat 6 imm))
    | 2 => only (imm == 0) (.commit h)
    | 3 => only (imm == 0) (.abandon h)
    | 4 => only (imm < 64) (.recget h (BitVec.ofNat 6 imm))
    | _ => none
  else none

/-- Group 0x19, Format E: the sampler engine (R122). -/
def decSmp (w : Word) : Option Instr :=
  let h := hdrOf w
  match fieldOf w 23 20 with
  | 0 => only (fieldOf w 19 16 == 0 && fieldOf w 11 0 == 0) (.smp h (BitVec.ofNat 4 (fieldOf w 15 12)))
  | 1 => only (fieldOf w 19 0 == 0) (.swait h)
  | 2 => only (fieldOf w 19 0 == 0) (.sstat h)
  | _ => none

/-- Group 0x16, Format X: matrix forms (R123). -/
def decMma (w : Word) : Option Instr :=
  let h := hdrOf w
  let u := flagOf w 19
  let sp := flagOf w 18
  let fs : BitVec 3 := BitVec.ofNat 3 (fieldOf w 17 15)
  let acc : BitVec 3 := BitVec.ofNat 3 (fieldOf w 14 12)
  let wb : BitVec 4 := BitVec.ofNat 4 (fieldOf w 11 8)
  let sel := fieldOf w 7 0
  match fieldOf w 23 20 with
  | 0 => only (!sp && sel == 0) (.mma h u fs acc wb)
  | 1 => admitted sp (.mmas h u fs acc wb (BitVec.ofNat 8 sel))
  | 2 => only (!sp && fieldOf w 14 0 == 0) (.mtab h u fs)
  | 3 => only (!u && fieldOf w 17 15 == 0 && sel == 0) (.mlut h sp acc wb)
  | 4 => only (fieldOf w 19 15 == 0 && fieldOf w 11 0 == 0) (.mclr h acc)
  | _ => none

/-- Group 0x18, Format X: drains, stores, loads and checks of tiles (R123). -/
def decMdr (w : Word) : Option Instr :=
  let h := hdrOf w
  let fs : BitVec 3 := BitVec.ofNat 3 (fieldOf w 17 15)
  let acc : BitVec 3 := BitVec.ofNat 3 (fieldOf w 14 12)
  let wb : BitVec 4 := BitVec.ofNat 4 (fieldOf w 11 8)
  if fieldOf w 19 18 = 0 ∧ fieldOf w 7 0 = 0 then
    match fieldOf w 23 20 with
    | 0 => only (fieldOf w 17 15 == 0 && fieldOf w 11 8 == 0) (.mdrain h acc)
    | 1 => some (.mdst h fs acc wb)
    | 2 => some (.mld h fs acc wb)
    | 3 => only (fieldOf w 17 15 == 0 && fieldOf w 11 8 == 0) (.mchk h acc)
    | _ => none
  else none

/-- Group 0x1A, Format P: privileged forms (R124). -/
def decPrv (w : Word) : Option Instr :=
  let h := hdrOf w
  let sub : BitVec 5 := BitVec.ofNat 5 (fieldOf w 12 8)
  if fieldOf w 7 0 = 0 then
    match fieldOf w 23 20 with
    | 0 => only (fieldOf w 12 8 == 0) (.spx h (BitVec.ofNat 3 (fieldOf w 19 17)) (BitVec.ofNat 4 (fieldOf w 16 13)))
    | 1 => admitted (fieldOf w 19 13 == 0) (.tlbi h sub)
    | 2 => only (fieldOf w 19 8 == 0) (.ctxs h)
    | 3 => only (fieldOf w 19 8 == 0) (.ctxl h)
    | 4 => only (fieldOf w 19 8 == 0) (.mapc h)
    | 5 => admitted (fieldOf w 19 13 == 0) (.rdbk h sub)
    | 6 => admitted (fieldOf w 19 13 == 0) (.wrbk h sub)
    | _ => none
  else none

/-- The defined code point that a word holds, by its group (R108, R109). -/
def decodeDefined (w : Word) : Option Instr :=
  match fieldOf w 28 24 with
  | 0 => decSys w
  | 1 => decStk w
  | 2 => decLoc w
  | 3 => decIar w
  | 4 => decFar w
  | 5 => decPair w
  | 6 => decCvt w
  | 7 => decCmp w
  | 8 => decBit w
  | 9 => decTrn w
  | 10 => decCtl w
  | 11 => decPath w
  | 12 => decQwx w
  | 13 => decScp w
  | 14 => decLds w
  | 15 => decSts w
  | 16 => decAtm w
  | 17 => decFen w
  | 18 => decCpy w
  | 19 => decGth w
  | 20 => decCol w
  | 21 => decRec w
  | 22 => decMma w
  | 24 => decMdr w
  | 25 => decSmp w
  | 26 => decPrv w
  | 27 => decLegacy w
  | _ => none

/-- The instruction of a word: every word that is no defined code point is an unassigned one, by name (R109, R110). -/
def decodeWord (w : Word) : Instr := (decodeDefined w).getD (.unassignedCodePoint w)

/-- Little-endian words from bytes (R3); fewer than four bytes hold no instruction. -/
def decodeBytes : List Byte → Option (Instr × List Byte)
  | b0 :: b1 :: b2 :: b3 :: rest =>
    some (decodeWord (BitVec.ofNat 32 (b0.toNat + b1.toNat * 256 + b2.toNat * 65536 + b3.toNat * 16777216)), rest)
  | _ => none

/-- The four bytes of a word as memory holds them (R3). -/
def wordBytes (w : Word) : List Byte :=
  [BitVec.ofNat 8 w.toNat, BitVec.ofNat 8 (w.toNat / 256), BitVec.ofNat 8 (w.toNat / 65536), BitVec.ofNat 8 (w.toNat / 16777216)]

/-- What the decoder reads from an instruction whose bits are `w`, laid out as memory holds it. -/
def decodeTableWord (nbits w : Nat) : Option Instr :=
  (decodeBytes (wordBytes (BitVec.ofNat 32 (w % 2 ^ nbits)))).map Prod.fst

/-! ### The encoder -/

def Scope.code : Scope → Nat
  | .lane => 0
  | .warp => 1
  | .set => 2
  | .blk => 3

def ITy.code : ITy → Nat
  | .i32 => 0
  | .n32 => 1

def FTy.code : FTy → Nat
  | .f32 => 2
  | .bf16x2 => 3

def RTy.code : RTy → Nat
  | .i32 => 0
  | .n32 => 1
  | .f32 => 2
  | .bf16x2 => 3

def RM.code : RM → Nat
  | .rn => 0
  | .rz => 1
  | .ru => 2
  | .rd => 3

def Tier.code : Tier → Nat
  | .t => 0
  | .o => 1
  | .m => 2
  | .w => 3

def RedOp.code : RedOp → Nat
  | .add => 0
  | .min => 1
  | .max => 2
  | .and => 3
  | .or => 4
  | .xor => 5

def AtomOp.code : AtomOp → Nat
  | .add => 0
  | .min => 1
  | .max => 2
  | .and => 3
  | .or => 4
  | .xor => 5
  | .xch => 6

def MemOrd.code : MemOrd → Nat
  | .plain => 0
  | .acq => 1
  | .rel => 2
  | .ar => 3

def Hint.code : Hint → Nat
  | .none => 0
  | .strm => 1
  | .keep => 2
  | .nol1 => 3

def XClass.code : XClass → Nat
  | .thread => 0
  | .copy => 1
  | .gather => 2
  | .matrix => 3
  | .coll => 4
  | .sampler => 5

def Policy.code : Policy → Nat
  | .low => 0
  | .high => 1
  | .fault => 2

def Sel.code : Sel → Nat
  | .lane => 0
  | .quad => 1
  | .warp => 2
  | .set => 3
  | .block => 4
  | .gang => 5
  | .batch => 6
  | .record => 7
  | .depth => 8
  | .udepth => 9
  | .core => 10
  | .clus => 11
  | .stall => 12
  | .cpwp k => 16 + k.toNat

/-- The word with the given top byte and body (R108). -/
def wordOf (h : Hdr) (g body : Nat) : Word :=
  BitVec.ofNat 32 (h.b.toNat * 2147483648 + h.sc.code * 536870912 + g * 16777216 + body)

def constCode : Option Byte → Nat
  | none => 0
  | some i => 2048 + i.toNat

/-- Format A (R112). -/
def encA (h : Hdr) (g fn ty : Nat) (rm : RM) (sat : Bool) (k : Option Byte) (aux : Nat := 0) : Word :=
  wordOf h g (fn * 262144 + ty * 32768 + rm.code * 8192 + sat.toNat * 4096 + aux * 256 + constCode k)

/-- Format A with K = 0 and a raw IMM8 (R112). -/
def encRaw (h : Hdr) (g fn ty : Nat) (imm : Byte) : Word :=
  wordOf h g (fn * 262144 + ty * 32768 + imm.toNat)

/-- Format L (R114). -/
def encL (h : Hdr) (g op tier idx imm : Nat) : Word := wordOf h g (op * 1048576 + tier * 262144 + idx * 256 + imm)

/-- Format C (R116). -/
def encC (h : Hdr) (g op aux off : Nat) : Word := wordOf h g (op * 1048576 + aux * 65536 + off)

/-- Format Q (R117). -/
def encQ (h : Hdr) (g fn ty opx wm imm : Nat) : Word :=
  wordOf h g (fn * 262144 + ty * 32768 + opx * 4096 + wm * 256 + imm)

/-- Format M (R120). -/
def encM (h : Hdr) (g op : Nat) (a : Addr) (ord hint aop : Nat) : Word :=
  wordOf h g (op * 1048576 + a.fs.toNat * 131072 + a.h.toNat * 8192 + a.nc.toNat * 1024 + ord * 256 + hint * 32 + aop)

/-- Format E (R122). -/
def encE (h : Hdr) (g op ch s d imm : Nat) : Word :=
  wordOf h g (op * 1048576 + ch * 65536 + s * 4096 + d * 256 + imm)

/-- Format X (R123). -/
def encX (h : Hdr) (g op : Nat) (u sp : Bool) (fs acc wb sel : Nat) : Word :=
  wordOf h g (op * 1048576 + u.toNat * 524288 + sp.toNat * 262144 + fs * 32768 + acc * 4096 + wb * 256 + sel)

/-- Format P (R124). -/
def encP (h : Hdr) (op swz sh sub : Nat) : Word :=
  wordOf h 26 (op * 1048576 + swz * 131072 + sh * 8192 + sub * 256)

def noAddr : Addr := ⟨0, 0, 0⟩

/-- The word of an encoded instruction; a device step has none. -/
def encode : Instr → Option Word
  | .iarAdd h ty sat k => some (encA h 3 0 ty.code .rn sat k)
  | .iarSub h ty sat k => some (encA h 3 1 ty.code .rn sat k)
  | .iarMul h ty sat k => some (encA h 3 2 ty.code .rn sat k)
  | .iarMulhi h ty k => some (encA h 3 3 ty.code .rn false k)
  | .iarMad h ty sat k => some (encA h 3 4 ty.code .rn sat k)
  | .iarNeg h ty sat k => some (encA h 3 5 ty.code .rn sat k)
  | .iarAbs h ty sat k => some (encA h 3 6 ty.code .rn sat k)
  | .iarMin h ty k => some (encA h 3 7 ty.code .rn false k)
  | .iarMax h ty k => some (encA h 3 8 ty.code .rn false k)
  | .iarClamp h ty k => some (encA h 3 9 ty.code .rn false k)
  | .iarDiv h ty k => some (encA h 3 10 ty.code .rn false k)
  | .iarRem h ty k => some (encA h 3 11 ty.code .rn false k)
  | .bitAnd h ty k => some (encA h 8 0 ty.code .rn false k)
  | .bitOr h ty k => some (encA h 8 1 ty.code .rn false k)
  | .bitXor h ty k => some (encA h 8 2 ty.code .rn false k)
  | .bitNot h ty k => some (encA h 8 3 ty.code .rn false k)
  | .bitAndn h ty k => some (encA h 8 4 ty.code .rn false k)
  | .bitShl h ty k => some (encA h 8 5 ty.code .rn false k)
  | .bitShr h ty k => some (encA h 8 6 ty.code .rn false k)
  | .bitSar h ty k => some (encA h 8 7 ty.code .rn false k)
  | .bitRot h ty k => some (encA h 8 8 ty.code .rn false k)
  | .bitPopc h ty k => some (encA h 8 9 ty.code .rn false k)
  | .bitClz h ty k => some (encA h 8 10 ty.code .rn false k)
  | .bitCtz h ty k => some (encA h 8 11 ty.code .rn false k)
  | .bitBfe h ty k => some (encA h 8 12 ty.code .rn false k)
  | .bitBfi h ty k => some (encA h 8 13 ty.code .rn false k)
  | .bitBrev h ty k => some (encA h 8 14 ty.code .rn false k)
  | .mul24 h ty k => some (encA h 27 0 ty.code .rn false k)
  | .mad24 h ty sat k => some (encA h 27 1 ty.code .rn sat k)
  | .fdot4 h ty sat k => some (encA h 27 2 ty.code .rn sat k)
  | .bitLop3 h ty t => some (encRaw h 8 15 ty.code t)
  | .farAdd h rm sat k => some (encA h 4 0 2 rm sat k)
  | .farSub h rm sat k => some (encA h 4 1 2 rm sat k)
  | .farMul h rm sat k => some (encA h 4 2 2 rm sat k)
  | .farFma h rm sat k => some (encA h 4 3 2 rm sat k)
  | .farNeg h rm k => some (encA h 4 4 2 rm false k)
  | .farAbs h rm k => some (encA h 4 5 2 rm false k)
  | .farMin h rm k => some (encA h 4 6 2 rm false k)
  | .farMax h rm k => some (encA h 4 7 2 rm false k)
  | .farClamp h rm k => some (encA h 4 8 2 rm false k)
  | .farCsgn h rm k => some (encA h 4 9 2 rm false k)
  | .farDiv h rm k => some (encA h 4 10 2 rm false k)
  | .farSqrt h rm k => some (encA h 4 11 2 rm false k)
  | .farRint h rm k => some (encA h 4 12 2 rm false k)
  | .farFract h rm k => some (encA h 4 13 2 rm false k)
  | .farLdexp h rm k => some (encA h 4 14 2 rm false k)
  | .farExpo h rm k => some (encA h 4 15 2 rm false k)
  | .pairAdd h rm sat k => some (encA h 5 0 3 rm sat k)
  | .pairSub h rm sat k => some (encA h 5 1 3 rm sat k)
  | .pairMul h rm sat k => some (encA h 5 2 3 rm sat k)
  | .pairFma h rm sat k => some (encA h 5 3 3 rm sat k)
  | .pairNeg h rm k => some (encA h 5 4 3 rm false k)
  | .pairAbs h rm k => some (encA h 5 5 3 rm false k)
  | .pairMin h rm k => some (encA h 5 6 3 rm false k)
  | .pairMax h rm k => some (encA h 5 7 3 rm false k)
  | .pairDot2 h rm sat k => some (encA h 5 8 3 rm sat k)
  | .cvt h src dst rm sat k => some (encA h 6 0 src.code rm sat k dst.code)
  | .pack h rm sat k => some (encA h 6 1 2 rm sat k 3)
  | .unlo h rm k => some (encA h 6 2 3 rm false k 2)
  | .unhi h rm k => some (encA h 6 3 3 rm false k 2)
  | .qround h s rm sat k => some (encA h 6 4 2 rm sat k s.toNat)
  | .cmpEq h ty k => some (encA h 7 0 ty.code .rn false k)
  | .cmpNe h ty k => some (encA h 7 1 ty.code .rn false k)
  | .cmpLt h ty k => some (encA h 7 2 ty.code .rn false k)
  | .cmpLe h ty k => some (encA h 7 3 ty.code .rn false k)
  | .cmpGt h ty k => some (encA h 7 4 ty.code .rn false k)
  | .cmpGe h ty k => some (encA h 7 5 ty.code .rn false k)
  | .cmpOrd h ty k => some (encA h 7 6 ty.code .rn false k)
  | .cmpUnord h ty k => some (encA h 7 7 ty.code .rn false k)
  | .sel h ty k => some (encA h 7 8 ty.code .rn false k)
  | .fclass h ty m => some (encRaw h 7 9 ty.code m)
  | .trnRcp h ty k => some (encA h 9 0 ty.code .rn false k)
  | .trnRsq h ty k => some (encA h 9 1 ty.code .rn false k)
  | .trnEx2 h ty k => some (encA h 9 2 ty.code .rn false k)
  | .trnLg2 h ty k => some (encA h 9 3 ty.code .rn false k)
  | .trnSinp h ty k => some (encA h 9 4 ty.code .rn false k)
  | .trnCosp h ty k => some (encA h 9 5 ty.code .rn false k)
  | .trnTanh h ty k => some (encA h 9 6 ty.code .rn false k)
  | .trnSigm h ty k => some (encA h 9 7 ty.code .rn false k)
  | .dup h => some (encL h 1 0 0 0 0)
  | .dup2 h => some (encL h 1 1 0 0 0)
  | .drop h => some (encL h 1 2 0 0 0)
  | .dropn h n => some (encL h 1 3 0 0 n.toNat)
  | .swap h => some (encL h 1 4 0 0 0)
  | .swap2 h => some (encL h 1 5 0 0 0)
  | .over h => some (encL h 1 6 0 0 0)
  | .nip h => some (encL h 1 7 0 0 0)
  | .tuck h => some (encL h 1 8 0 0 0)
  | .rot h => some (encL h 1 9 0 0 0)
  | .pick h n => some (encL h 1 10 0 0 n.toNat)
  | .roll h n => some (encL h 1 11 0 0 n.toNat)
  | .depth h => some (encL h 1 12 0 0 0)
  | .push h t i => some (encL h 2 0 t.code i.toNat 0)
  | .pop h t i => some (encL h 2 1 t.code i.toNat 0)
  | .keep h t i => some (encL h 2 2 t.code i.toNat 0)
  | .xch h t i => some (encL h 2 3 t.code i.toNat 0)
  | .pushi h ty v => some (encL h 2 4 ty.code 0 v.toNat)
  | .pushn h t i n => some (encL h 2 5 t.code i.toNat n.toNat)
  | .popn h t i n => some (encL h 2 6 t.code i.toNat n.toNat)
  | .bra h off => some (encC h 10 0 0 off.toNat)
  | .bz h off => some (encC h 10 1 0 off.toNat)
  | .bnz h off => some (encC h 10 2 0 off.toNat)
  | .call h off => some (encC h 10 3 0 off.toNat)
  | .ret h => some (encC h 10 4 0 0)
  | .jx h => some (encC h 10 5 0 0)
  | .exit h => some (encC h 10 6 0 0)
  | .fork h off => some (encC h 11 0 0 off.toNat)
  | .join h d => some (encC h 11 1 d.toNat 0)
  | .reform h d => some (encC h 11 2 d.toNat 0)
  | .rehome h => some (encC h 11 3 0 0)
  | .umerge h p => some (encC h 11 4 p.code 0)
  | .nop h wm => some (encQ h 0 0 0 0 wm.toNat 0)
  | .trap h n wm => some (encQ h 0 1 0 0 wm.toNat n.toNat)
  | .brk h n wm => some (encQ h 0 2 0 0 wm.toNat n.toNat)
  | .yield h wm => some (encQ h 0 3 0 0 wm.toNat 0)
  | .get h s wm => some (encQ h 0 4 0 0 wm.toNat s.code)
  | .put h wm => some (encQ h 0 5 0 0 wm.toNat 12)
  | .sleep h n wm => some (encQ h 0 6 0 0 wm.toNat n.toNat)
  | .qswp h p wm => some (encQ h 12 0 0 0 wm.toNat p.toNat)
  | .qbc h s wm => some (encQ h 12 1 0 0 wm.toNat s.toNat)
  | .qadd h ty wm => some (encQ h 12 2 ty.code 0 wm.toNat 0)
  | .shfl h wm => some (encQ h 12 3 0 0 wm.toNat 0)
  | .shfx h d wm => some (encQ h 12 4 0 0 wm.toNat d.toNat)
  | .shup h d wm => some (encQ h 12 5 0 0 wm.toNat d.toNat)
  | .shdn h d wm => some (encQ h 12 6 0 0 wm.toNat d.toNat)
  | .any h wm => some (encQ h 12 7 0 0 wm.toNat 0)
  | .all h wm => some (encQ h 12 8 0 0 wm.toNat 0)
  | .ballot h wm => some (encQ h 12 9 0 0 wm.toNat 0)
  | .matchLanes h wm => some (encQ h 12 10 0 0 wm.toNat 0)
  | .wbc h s wm => some (encQ h 12 11 0 0 wm.toNat s.toNat)
  | .sync h wm => some (encQ h 13 0 0 0 wm.toNat 0)
  | .arrive h wm => some (encQ h 13 1 0 0 wm.toNat 0)
  | .await h wm => some (encQ h 13 2 0 0 wm.toNat 0)
  | .red h ty op wm => some (encQ h 13 3 ty.code op.code wm.toNat 0)
  | .scan h ty op wm => some (encQ h 13 4 ty.code op.code wm.toNat 0)
  | .segred h ty op wm => some (encQ h 13 5 ty.code op.code wm.toNat 0)
  | .segscan h ty op wm => some (encQ h 13 6 ty.code op.code wm.toNat 0)
  | .sbc h wm e => some (encQ h 13 7 0 0 wm.toNat e.toNat)
  | .ld h a acq hint => some (encM h 14 0 a acq.toNat hint.code 0)
  | .ldf h a acq hint => some (encM h 14 1 a acq.toNat hint.code 0)
  | .ldsp h a acq hint => some (encM h 14 2 a acq.toNat hint.code 0)
  | .ldn h a acq hint n => some (encM h 14 3 a acq.toNat hint.code n.toNat)
  | .qpop h n => some (encM h 14 4 noAddr 0 0 n.toNat)
  | .pref h a hint => some (encM h 14 5 a 0 hint.code 0)
  | .st h a rel hint => some (encM h 15 0 a (rel.toNat * 2) hint.code 0)
  | .stf h a rel hint => some (encM h 15 1 a (rel.toNat * 2) hint.code 0)
  | .stsp h a rel hint => some (encM h 15 2 a (rel.toNat * 2) hint.code 0)
  | .stn h a rel hint n => some (encM h 15 3 a (rel.toNat * 2) hint.code n.toNat)
  | .atom h a ord op => some (encM h 16 0 a ord.code 0 op.code)
  | .cas h a ord => some (encM h 16 1 a ord.code 0 0)
  | .ared h a ord op => some (encM h 16 2 a ord.code 0 op.code)
  | .fence h ord => some (encM h 17 0 noAddr ord.code 0 0)
  | .fenceSc h => some (encM h 17 1 noAddr 3 0 0)
  | .xfence h a b => some (encM h 17 2 noAddr 0 a.code b.code)
  | .cpy h ch s d ro z => some (encE h 18 0 ch.toNat s.toNat d.toNat (ro.toNat * 8 + z.toNat))
  | .cpyo h ch s d ro z => some (encE h 18 1 ch.toNat s.toNat d.toNat (ro.toNat * 8 + z.toNat))
  | .cpwait h ch => some (encE h 18 2 ch.toNat 0 0 0)
  | .cpstat h ch => some (encE h 18 3 ch.toNat 0 0 0)
  | .gath h t s d z => some (encE h 19 0 t.toNat s.toNat d.toNat z.toNat)
  | .scat h t s d z => some (encE h 19 1 t.toNat s.toNat d.toNat z.toNat)
  | .gwait h t => some (encE h 19 2 t.toNat 0 0 0)
  | .cred h c s d op => some (encE h 20 0 c.toNat s.toNat d.toNat op.code)
  | .cbc h c s d => some (encE h 20 1 c.toNat s.toNat d.toNat 0)
  | .cag h c s d => some (encE h 20 2 c.toNat s.toNat d.toNat 0)
  | .cwait h c => some (encE h 20 3 c.toNat 0 0 0)
  | .csend h c s => some (encE h 20 4 c.toNat s.toNat 0 0)
  | .mtag h e => some (encE h 20 5 0 0 0 e.toNat)
  | .emit h e => some (encE h 21 0 0 0 0 e.toNat)
  | .recput h w => some (encE h 21 1 0 0 0 w.toNat)
  | .commit h => some (encE h 21 2 0 0 0 0)
  | .abandon h => some (encE h 21 3 0 0 0 0)
  | .recget h w => some (encE h 21 4 0 0 0 w.toNat)
  | .smp h s => some (encE h 25 0 0 s.toNat 0 0)
  | .swait h => some (encE h 25 1 0 0 0 0)
  | .sstat h => some (encE h 25 2 0 0 0 0)
  | .mma h u fs acc wb => some (encX h 22 0 u false fs.toNat acc.toNat wb.toNat 0)
  | .mmas h u fs acc wb sel => some (encX h 22 1 u true fs.toNat acc.toNat wb.toNat sel.toNat)
  | .mtab h u fs => some (encX h 22 2 u false fs.toNat 0 0 0)
  | .mlut h two acc wb => some (encX h 22 3 false two 0 acc.toNat wb.toNat 0)
  | .mclr h acc => some (encX h 22 4 false false 0 acc.toNat 0 0)
  | .mdrain h acc => some (encX h 24 0 false false 0 acc.toNat 0 0)
  | .mdst h fs acc wb => some (encX h 24 1 false false fs.toNat acc.toNat wb.toNat 0)
  | .mld h fs acc wb => some (encX h 24 2 false false fs.toNat acc.toNat wb.toNat 0)
  | .mchk h acc => some (encX h 24 3 false false 0 acc.toNat 0 0)
  | .spx h z s => some (encP h 0 z.toNat s.toNat 0)
  | .tlbi h k => some (encP h 1 0 0 k.toNat)
  | .ctxs h => some (encP h 2 0 0 0)
  | .ctxl h => some (encP h 3 0 0 0)
  | .mapc h => some (encP h 4 0 0 0)
  | .rdbk h k => some (encP h 5 0 0 k.toNat)
  | .wrbk h k => some (encP h 6 0 0 k.toNat)
  | .unassignedCodePoint w => some w
  | _ => none

end Sys2Proof
end

