-- ==== Sys2Proof/Machine/State.lean ====
section
/-! DEFINITION. The state of the package as plain data, the reasons a step can stop, and the state after reset. -/

namespace Sys2Proof.Machine

/-- Memory bytes by address: addresses rising, no entry equal to what an unlisted address reads as (log 1). -/
abbrev Memory := List Host.Cell

/-- Poison of a cell and its kind (R150, R248). -/
inductive Poison where
  | clean | direct | derived
  deriving DecidableEq, Repr

/-- 32 bits with their poison (R134). -/
structure Val where
  bits : Word
  poison : Poison
  deriving DecidableEq, Repr

/-- The ready mark of a cell: the run, slot and PC of its producer, or the long-latency mark (R95). -/
structure Mark where
  run : Nat
  slot : Nat
  long : Bool
  pc : Word
  deriving DecidableEq, Repr

/-- A stack, named or uniform cell. `hi` is the highest-lane candidate of a divided cell (R147), `val` the lowest;
`err` an uncorrectable file error (R397). -/
structure Cell where
  val : Val
  hi : Option Val
  mark : Mark
  err : Bool
  deriving DecidableEq, Repr

/-- A clean cell that is ready in every run. -/
def Cell.ofWord (w : Word) : Cell := ⟨⟨w, .clean⟩, none, ⟨0, 0, false, 0⟩, false⟩

inductive LaneClass where
  | live | helper
  deriving DecidableEq, Repr

/-- What a thread is doing: `suspended` by a set fault (R83) or with its pair (R105). -/
inductive ThreadRun where
  | running | stopped | suspended | binned | rehoming | exited
  deriving DecidableEq, Repr

/-- A fault record (R363). -/
structure FaultRec where
  pc : Word
  cause : BitVec 6
  flags : Byte
  depth : BitVec 16
  addr : DWord
  mask : Word
  runPc : Word
  udepth : Byte
  lvl : Byte
  blane : BitVec 16
  prog : Word
  origin : BitVec 128
  block : Word
  node : BitVec 16
  seq : DWord
  deriving DecidableEq, Repr

def FaultRec.none : FaultRec := ⟨0, 0, 0, 0, 0, 0, 0, 0, 0, 0, 0, 0, 0, 0, 0⟩

/-- The A latch of a lane (R336): its cells, those that hold an uncorrectable file error (R397), whether it is full, their A
format; the replay marking with the chunk to resume at and p and q (R350). -/
structure Latch where
  cells : List Val
  bad : List Nat
  full : Bool
  fmt : Nat
  replay : Bool
  next : Nat
  pq : List Word
  deriving DecidableEq, Repr

def Latch.empty : Latch := ⟨[], [], false, 0, false, 0, []⟩

/-- A thread: a lane of a warp or of its finder warp. -/
structure Thread where
  cls : LaneClass
  run : ThreadRun
  handle : Word
  recDepth : Nat
  /-- Expression stack, top first (R137). -/
  stack : List Cell
  /-- Backing-window rows with their last contents (R292). -/
  rows : List Val
  o : List Cell
  m : List Cell
  /-- Open forks with the depth recorded at each, innermost first (R143). -/
  forkD : List (Nat × Nat)
  origin : BitVec 128
  /-- The record that readback shows: the last one written, or the oldest held one (R363, R364). -/
  fault : FaultRec
  /-- The shown record waits to be appended. -/
  held : Bool
  /-- Later records, oldest first, with whether they wait to be appended (R364). -/
  behind : List (FaultRec × Bool)
  /-- The record that the thread stopped with last; a REPORT record leaves it (R177, R366, R381). -/
  stopRec : FaultRec
  latch : Latch
  /-- The thread entered `.onpoison` and keeps class 0 (R98, R250). -/
  onPoison : Bool
  /-- The set-fault group that stopped it (R83, R366). -/
  group : Option Nat
  deriving DecidableEq, Repr

/-- A use of the sector's main-file port by an instruction: its issue cycle, the cells it transfers afterwards, and whether
its collector read the main file (R90, R140). -/
structure PortUse where
  issued : Nat
  cells : Nat
  read : Bool
  deriving DecidableEq, Repr

/-- The run a path is in (R91, R93, R97): `slot` and `last` are those of the last instruction issued; `xfer` the cells its
main-file transfers move (R139); `port` the latest uses of the main-file port, newest first; `base` the first cycle an
unpaired instruction may issue in (R291); `owed` results that return in the next cycle, `awaits` those that a later step of
an engine returns, by the path that issued and the mark. -/
structure RunState where
  id : Nat
  pc : Word
  count : Nat
  slot : Nat
  last : Nat
  xfer : Nat
  port : List PortUse
  paired : Bool
  base : Nat
  ready : Nat
  owed : Nat
  awaits : List (Nat × Mark)
  sleep : Nat
  yieldPt : Bool
  deriving DecidableEq, Repr

/-- Why a path holds at an instruction inside its run (R45, R100, R104, R107, R273, R275, R350, R408, R427). -/
inductive Hold where
  | ephemeris | matrixQueue | engineQueue | finderQueue | finderRoom | pageCheck | tile | context | ats
  deriving DecidableEq, Repr

/-- Where a path stands. -/
inductive Wait where
  /-- Ready since a cycle; takes part in arbitration (R98). -/
  | ready (since : Nat)
  /-- Parked at a boundary, not yet ready (R97). -/
  | parked
  /-- Holds its port and issues. -/
  | issuing
  /-- Holds its port and waits inside the run. -/
  | holding (h : Hold)
  | joining (fork : Nat)
  | meeting (inst : Nat)
  | rehoming
  /-- Waits at `reform` for a bin (R85). -/
  | binning
  /-- A cause was raised; the threads stop when the results owed have returned (R362). -/
  | trapping
  /-- Stopped by a trap, until system software acts (R366). -/
  | stopped
  deriving DecidableEq, Repr

/-- A path: the lanes that issue together (R75, R92). Threads are keyed by block lane, finder lanes from 1,024 up. `warp` owns
the slot the path occupies; `slot` is that slot's number (R98). -/
structure Path where
  warp : Nat
  finder : Bool
  formed : Bool
  slot : Nat
  lanes : List Nat
  pc : Word
  ust : List Cell
  w : List Cell
  run : RunState
  wait : Wait
  /-- Cycle at which the path became blocked (R380). -/
  since : Nat
  forks : List Nat
  /-- Nesting depth and E of an emulation routine (R367). -/
  nest : Option Nat
  /-- Debugger stepping (R381): 0 none, 1 released for one instruction, 3 issued it inside a run, 2 stopped inside a run. -/
  stepping : Nat
  /-- Halt requested at the next boundary (R366), or suspension (R105). -/
  haltAt : Option (ThreadRun × Nat)
  /-- Progress of a held command or matrix instruction (R275, R350). -/
  prog : Nat
  /-- The page check of the held instruction is done (R275, R350). -/
  checked : Bool
  /-- Cause and address that a held matrix instruction will raise, and the collector time it has had (R350). -/
  pageFault : Option (Nat × Nat × Nat)
  /-- Records of the threads that stop when the results owed have returned (R362). -/
  stops : List (Nat × FaultRec)
  deriving DecidableEq, Repr

/-- An open fork of the warp in a slot (R212, R145): the lanes of each arm. -/
structure Fork where
  warp : Nat
  finder : Bool
  fall : List Nat
  taken : List Nat
  /-- PC of the join at which the first arm arrived (R214). -/
  joinPc : Option Word
  deriving DecidableEq, Repr

/-- An open rendezvous instance (R78, R79). -/
structure Rdv where
  scope : Scope
  pc : Word
  warps : Word
  op : Instr
  paths : List Nat
  faulted : Bool
  deriving DecidableEq, Repr

/-- An entry of a finder queue (R103): a cell per lane position, lane positions whose cell holds an uncorrectable file error
(R397), and whether its data has arrived. -/
structure QEntry where
  cells : Tab Val
  bad : List Nat
  arrived : Bool
  deriving DecidableEq, Repr

/-- The finder queue of a warp, oldest entry first; `slots` keeps each window slot's last cells, `head` the oldest slot. -/
structure FQueue where
  entries : List QEntry
  head : Nat
  slots : Tab (Tab Val)
  deriving DecidableEq, Repr

/-- A matrix tile (R332, R342): elements by 16 × row + column; KIND 0 unset, 1 f32, 2 i32; the cause when VALID is clear;
checksum sums and counts by row and by column. -/
structure Tile where
  elems : Tab Word
  kind : Nat
  invalid : Option Byte
  rowSum : Tab Int
  rowCnt : Tab Int
  colSum : Tab Int
  colCnt : Tab Int
  deriving DecidableEq, Repr

def Tile.fresh : Tile := ⟨[], 0, none, [], [], [], []⟩

/-- One quarter operation in a sector's matrix queue (R107, R333): the instruction it belongs to, its lanes with their A and
index cells, p and q, checked pages, the next chunk, the chunk it ends before, and its issue cycle. Quarter 4 is an `mclr`
or an MDR instruction that waits in order and takes no entry (R354, R355, R427). `kind` is the KIND that the instruction has for
its tile, `settles` the lanes of an instruction issued again from its replay latches (R351). -/
structure MOp where
  id : Nat
  inst : Nat
  blk : Nat
  path : Nat
  warp : Nat
  quarter : Nat
  op : Instr
  lanes : List (Nat × List Word × List Word)
  p : Word
  q : Word
  pages : List (Nat × Nat × Bool)
  chunk : Nat
  stop : Nat
  since : Nat
  /-- PC of the instruction that placed it. -/
  pc : Word
  kind : Nat
  settles : List Nat
  deriving DecidableEq, Repr

/-- Matrix state of a warp (R332, R340, R345, R352): tiles, LUT entries by 128 × row + 16 × group + pattern, LUT type (1 f32,
2 i32), halt. -/
structure WarpMatrix where
  tiles : Tab Tile
  lut : Tab Word
  lutKind : Nat
  halt : Option (BitVec 6)
  deriving DecidableEq, Repr

def WarpMatrix.fresh : WarpMatrix := ⟨[], [], 1, none⟩

/-- A command of an engine queue, or a wait that stands in it: the instruction, its operands by lane position, who issued it,
the mark of what it pushes, the progress it starts from, and the pages its issue-time check translated: twice the virtual
page number plus 1 for writing, the physical page, NCO (R273-R275). -/
structure Cmd where
  op : Instr
  args : List (Tab Word)
  blk : Nat
  path : Nat
  pc : Word
  mark : Mark
  start : Nat
  pages : List (Nat × Nat × Bool)
  deriving DecidableEq, Repr

/-- A read-only staging record of a copy channel (R244): the command it came from gives source, shape and strides. -/
structure Staging where
  /-- Destination bytes in the order they were written. -/
  offs : List Nat
  cmd : Cmd
  crc : Word
  mismatched : Bool
  deriving DecidableEq, Repr

/-- A copy-channel context of a block (R242, R243, R276). -/
structure Chan where
  queue : List Cmd
  wptr : Word
  halt : Option (BitVec 6)
  staging : List Staging
  deriving DecidableEq, Repr

/-- A save area of a home warp (R86). -/
structure SaveArea where
  w : List Cell
  ust : List Cell
  deriving DecidableEq, Repr

/-- A launch record (R32): the snapshot's bytes and the handles. -/
structure LaunchRec where
  ident : Nat
  node : Nat
  batch : BitVec 16
  snap : Tab Byte
  handles : List Word
  deriving DecidableEq, Repr

/-- Where a block stands (R61). -/
structure Place where
  die : Nat
  cluster : Nat
  core : Nat
  deriving DecidableEq, Repr

/-- What a block is vacated for (R371, R376, R378), or that the engine still restores it (R372). -/
inductive VacKind where
  | preempt | ctxs | vf | move | restore
  deriving DecidableEq, Repr

/-- A block that is vacated: for what, whether a cooperative request still waits for its yield points (R373), whether the save
has begun (R382), the path that waits for it, and where its context goes. -/
structure Vacate where
  kind : VacKind
  coop : Bool
  started : Bool
  requester : Option (Nat × Nat)
  target : Nat
  /-- Section that the next save step writes, and the context's serial number once it has one. -/
  step : Nat
  serial : Nat
  deriving DecidableEq, Repr

/-- A resident block. -/
structure Block where
  graph : GraphId
  launch : LaunchRec
  place : Place
  homeSlice : Nat
  asid : Nat
  warps : Nat
  depths : List Nat
  gang : List Nat
  /-- Loop iterations its emitted records belong to, its own first (R64). -/
  iters : List Nat
  /-- Records reserved by its threads, with the block lane (R226). -/
  records : List (Word × Nat)
  threads : Tab Thread
  paths : Tab Path
  forks : Tab Fork
  rdvs : Tab Rdv
  stall : Tab Word
  spad : Memory
  badWords : List Nat
  chans : Tab Chan
  gatherHalt : Tab (BitVec 6)
  collHalt : Tab (BitVec 6)
  /-- Buffer elements that a command whose check failed has transferred, by collective channel (R275). -/
  collSent : Tab (List Word)
  smpHalt : Option (BitVec 6)
  queues : Tab FQueue
  matrix : Tab WarpMatrix
  /-- Matrix entries of a vacated block (R360). -/
  mops : List MOp
  saves : Tab SaveArea
  /-- Threads waiting at `rehome`, with its PC (R87). -/
  homing : Tab Word
  /-- Threads saved as filed, with their next PC, that a restored block has still to file (R88). -/
  filed : Tab Word
  /-- E and the uniform stack of threads that were saved as filed inside an emulation routine (R88, R368). -/
  routine : Tab (Nat × List Cell)
  /-- Threads whose path is not ready before a cycle: a latency or a main-file transfer that they took along (R97, R139). -/
  ripe : Tab Nat
  /-- Threads in bins or at `rehome` that their pair's fault suspends there (R105). -/
  toSuspend : List Nat
  slots : Tab Nat
  vacate : Option Vacate
  /-- Paths that a `step` or `step all` has still to let issue, the one that issues first (R381). -/
  stepList : List Nat
  /-- Threads stepped through a bin or a `rehome`, which stop once they stand in a path again (R381). -/
  stepped : List Nat
  /-- Row of R397 and address of the last uncorrectable error that the block met; its gang is being killed (R399). -/
  errAt : Nat × Nat
  killed : Bool
  resumed : Bool
  deriving DecidableEq, Repr

/-- A thread filed in a bin: block, thread key, cycle (R84, R85). -/
structure Filed where
  blk : Nat
  key : Nat
  since : Nat
  deriving DecidableEq, Repr

/-- A bin of a sector, keyed by block and next PC. -/
structure Bin where
  blk : Nat
  pc : Word
  filed : List Filed
  deriving DecidableEq, Repr

/-- A pass that runs in a sector's array: the entries it takes and the cycle after its last (R337, R338). -/
structure Pass where
  ids : List Nat
  endAt : Nat
  deriving DecidableEq, Repr

/-- A sector of a core (R89). -/
structure Sector where
  exec : Option (Nat × Nat)
  find : Option (Nat × Nat)
  mq : List MOp
  pass : Option Pass
  bins : Tab Bin
  /-- Cycles in which data returned into the main file took a cell of the port, newest first (R140). -/
  returns : List Nat
  deriving DecidableEq, Repr

def Sector.idle : Sector := ⟨none, none, [], none, [], []⟩

/-- A record counted by a launcher (R48, R59): its handle, package slice and depth. -/
structure Pending where
  handle : Word
  slice : Nat
  deriving DecidableEq, Repr

/-- A record launcher of a node on a die (R48). `held` is the timer's remainder while EN is clear (R52). -/
structure Launcher where
  pend : List Pending
  timerAt : Option Nat
  held : Option Nat
  x : Bool
  waitSince : Option Nat
  /-- Cycle of the last decision: a launcher takes one a cycle (R50). -/
  decided : Option Nat
  deriving DecidableEq, Repr

def Launcher.idle : Launcher := ⟨[], none, none, false, none, none⟩

/-- What a node has at a partition's graph beside its status word (R59): the copied affinity table, unassigned records. -/
structure NodeState where
  table : List Byte
  /-- Committed records whose key could not be read, or that wait for their node. -/
  unread : List (Word × CommitSrc)
  deriving DecidableEq, Repr

/-- An open iteration of a loop instance (R64): blocks resident, records that belong to it. -/
structure Iteration where
  graph : GraphId
  node : Nat
  die : Nat
  batch : List Pending
  members : List Word
  blocks : List Nat
  reissue : Bool
  recheck : Bool
  since : Nat
  deriving DecidableEq, Repr

/-- A block, gang or context waiting to be placed (R372, R400): the block data as saved, with the members of a gang. -/
structure Queued where
  die : Nat
  blocks : List Block
  restored : Bool
  deriving DecidableEq, Repr

/-- A ring in memory (R364, R398). -/
structure Ring where
  base : DWord
  size : BitVec 4
  head : BitVec 16
  tail : BitVec 16
  ovf : Word
  lost : Word
  next : DWord
  deriving DecidableEq, Repr

def Ring.reset : Ring := ⟨0, 0, 0, 0, 0, 0, 1⟩

/-- An error record (R398). -/
structure ErrRec where
  bytes : List Byte
  deriving DecidableEq, Repr

/-- A binding of a collective channel (R285, R411). -/
structure Bind where
  mtab : DWord
  cfg : Word
  rankn : Word
  members : List Word
  queue : List Cmd
  deriving DecidableEq, Repr

def Bind.reset : Bind := ⟨0, 0, 0, [], []⟩

/-- What the context-switch engine of a partition does (R378). -/
inductive EngineOp where
  | idle | save | restore
  deriving DecidableEq, Repr

structure CtxEngine where
  op : EngineOp
  blk : Nat
  target : Nat
  step : Nat
  serial : Nat
  deriving DecidableEq, Repr

def CtxEngine.idle : CtxEngine := ⟨.idle, 0, 0, 0, 0⟩

/-- A pre-emption in progress (R369). -/
structure Preempt where
  cores : List Nat
  blocks : List Nat
  coop : Bool
  deadline : Nat
  saved : Nat
  deriving DecidableEq, Repr

/-- A page request in flight (R408). -/
structure PageReq where
  idx : Nat
  asid : Nat
  page : Nat
  deriving DecidableEq, Repr

/-- Reporting registers of a partition (R364, R398, R411). -/
structure Reports where
  fault : Ring
  error : Ring
  /-- Records held for the fault ring, oldest first: whether REPORT is set, block, thread, record (R364). -/
  heldFaults : List (Bool × Nat × Nat × FaultRec)
  heldErrors : List ErrRec
  emuc : Word
  waitNo : Word
  irqs : BitVec 4
  irqm : BitVec 4
  deriving DecidableEq, Repr

/-- Control registers of a partition that level 1 writes (R411). -/
structure GuestRegs where
  gusr : DWord
  gsys : DWord
  gstat : Word
  tctl : DWord
  tstat : Word
  tnpc : Word
  ctxDrop : DWord
  ctxDs : Word
  xmode : Word
  refused : Word
  atreq : BitVec 128
  prLost : Word
  prgr : Word
  /-- Status of the last attestation request: 3 refused (R420). -/
  atStatus : Nat
  pageReqs : List PageReq
  deriving DecidableEq, Repr

/-- Registers of a partition that level 2 writes (R412). -/
structure HyperRegs where
  pfm : BitVec 512
  pfmr : Bool
  xmr : Bool
  preq : DWord
  pstat : Word
  cpBase : DWord
  cpSize : Word
  cpUsed : List Nat
  vfsAddr : DWord
  vfsCtl : Word
  vfsStat : Word
  pen : Word
  perr : Word
  deriving DecidableEq, Repr

/-- A line-maintenance unit of a partition on a die (R320, R411). -/
structure LineMaint where
  addr : DWord
  cnt : Word
  ctl : Word
  stat : Word
  deriving DecidableEq, Repr

/-- A partition. -/
structure Partition where
  rep : Reports
  guest : GuestRegs
  hyper : HyperRegs
  lm : List LineMaint
  bind : List Bind
  engine : CtxEngine
  preempt : Option Preempt
  vfSaved : Option Nat
  /-- Sections that the running VF operation has done (R412). -/
  vfDone : Nat
  deriving DecidableEq, Repr

def Reports.reset : Reports := ⟨.reset, .reset, [], [], 0, 0, 0, 0xF⟩
def GuestRegs.reset : GuestRegs := ⟨0, 0, 0, 0, 0, 0, 0, 0, 0, 0xFFFF_FFFF, 0, 0, 0, 0, []⟩
def HyperRegs.reset : HyperRegs := ⟨BitVec.allOnes 512, false, false, 0, 0, 0, 0, [], 0, 0, 0, 0, 0⟩

def Partition.reset : Partition :=
  ⟨.reset, .reset, .reset, List.replicate 4 ⟨0, 0, 0, 0⟩, List.replicate 16 .reset, CtxEngine.idle, none, none, 0⟩

/-- Permissions of a walk (R230). -/
structure Perm where
  w : Bool
  x : Bool
  u : Bool
  ro : Bool
  nco : Bool
  deriving DecidableEq, Repr

/-- An entry of a cluster TLB (R232, R234): the page's start and size in the virtual space, where it lies, permissions. -/
structure TlbEntry where
  clus : Nat
  part : Nat
  asid : Nat
  base : Nat
  size : Nat
  pa : Nat
  perm : Perm
  deriving DecidableEq, Repr

/-- A die's L2 copy of a line of an NCO page (R319): 64 bytes and the written 64-bit mask. -/
structure NcoLine where
  die : Nat
  line : Nat
  bytes : List Byte
  written : DWord
  deriving DecidableEq, Repr

/-- A translation asked of the host for a cluster: its page, the cause it failed with once it is answered so, and who waits for
it: paths, or a step of the device (R408). -/
structure AtsAsk where
  clus : Nat
  part : Nat
  asid : Nat
  page : Nat
  answer : Option Nat
  askers : List (Option (Nat × Nat))
  deriving DecidableEq, Repr

/-- A `tlbi`, or an invalidation from the host, that waits for accesses through the entries it dropped (R233, R409): the path
that issued it and the mark it waits under, its partition, its kind, address space and page. -/
structure TlbiWait where
  blk : Nat
  path : Nat
  mark : Mark
  part : Nat
  kind : Nat
  asid : Nat
  page : Nat
  deriving DecidableEq, Repr

/-- Directory, snoop filters, NCO lines, word owners, TLBs and lines in error (R302, R313, R317, R319, R397). -/
structure Coherence where
  dir : Tab DWord
  /-- Snoop-filter entries by die, set and way; most recently used first in `lru`. -/
  sf : Tab DWord
  lru : Tab (List Nat)
  nco : List NcoLine
  owners : Tab Nat
  /-- Lines in error with the row of R397 that holds them. -/
  ue : Tab Nat
  tlb : List TlbEntry
  ats : List AtsAsk
  tlbis : List TlbiWait
  /-- Set within a step when an access has to wait for the host's answer; clear between steps. -/
  atsWait : Bool
  deriving DecidableEq, Repr

/-- Counters of a die (R403) and its core clock (R422, R423). -/
structure DieState where
  mhz : Nat
  fileCorr : Word
  memCorr : Word
  uncorr : Word
  darkFail : Word
  sfrc : Word
  counter : Nat
  deriving DecidableEq, Repr

/-- A cluster's power and test state (R401, R403, R424): gated, being woken, idle since, the last test's result, failing
test, wake count and last duration. -/
structure ClusterState where
  gated : Bool
  waking : Bool
  idleSince : Nat
  dark : Option Bool
  failing : Byte
  wakes : Word
  duration : Word
  deriving DecidableEq, Repr

def ClusterState.fresh : ClusterState := ⟨false, false, 0, none, 0, 0, 0⟩

/-- A matching entry (R66) as its eight words. -/
abbrev MatchEntry := List Word

/-- Package registers (R413) and the power and fabric state. -/
structure Package where
  ghyp : DWord
  epid : BitVec 19
  ptab : List (BitVec 16)
  crel : List Byte
  matching : Tab MatchEntry
  pfsel : BitVec 6
  bstat : Word
  /-- The training of phase 2 has passed (R421). -/
  trained : Bool
  pcap : Word
  thrc : Word
  gidle : BitVec 16
  hyperErr : Ring
  hyperHeld : List ErrRec
  /-- The cycle in which the thermal trip stopped issue, while it does (R425). -/
  thermal : Option Nat
  dies : List DieState
  clusters : Tab ClusterState
  ports : Tab (Bool × Word)
  /-- The firmware image that runs (R419). -/
  image : Option Firmware
  reject : Nat
  reports : Nat
  report : List Byte
  power : Bool
  deriving DecidableEq, Repr

def Package.reset : Package :=
  ⟨0, 0, List.replicate 96 0, List.replicate 96 0, [], 0, 0, false, 2400, 0, 0, .reset, [], none,
    List.replicate 4 ⟨700, 0, 0, 0, 0, 0, 0⟩, [], [], none, 0, 0, [], false⟩

/-- Messages the device sends outside (R287, R408-R410): an ATS request carries its address space as PASID and the
privileged-mode bit; a page request has its Last flag set. -/
inductive OutMsg where
  | msix (part : Nat) (vec : Nat)
  | atsRequest (part asid page : Nat) (write priv : Bool)
  | pageRequest (part asid page idx : Nat) (write : Bool)
  | invalidateDone (part asid page : Nat)
  | message (part : Nat) (endpoint tag : Word) (addr : Nat) (data : List Byte)
  | hostMsix (vec : Nat)
  | fabricData (addr : Nat) (data : List Byte)
  deriving DecidableEq, Repr

/-- A program stage that a sampler request waits for (R393, R394): its die, the number of its command, the block that issued
it, request and stage, the record, its block once launched, the budget left, the cycles used, the cycle from which it is
counted, and why it failed. -/
structure ProgStage where
  die : Nat
  cmd : Nat
  issuer : Nat
  req : Nat
  stage : Nat
  handle : Word
  blk : Option Nat
  left : Nat
  used : Nat
  since : Option Nat
  failed : Option (Nat × List Byte)
  graph : GraphId
  deriving DecidableEq, Repr

/-- Requests in the device's engines outside the cores (R45, R282, R289, R393). -/
structure Engines where
  gather : Tab (List Cmd)
  sampler : Tab (List Cmd)
  programs : List ProgStage
  /-- Ephemeris requests: block, path, mark of the results, cycles still to serve. -/
  ephemeris : Tab (List (Nat × Nat × Mark × Nat))
  deriving DecidableEq, Repr

/-- A saved context (R374): its block, the mask, its SIZE. -/
structure SavedCtx where
  blk : Block
  mask : BitVec 512
  size : Nat
  deriving DecidableEq, Repr

/-- A saved VF (R378). -/
structure SavedVf where
  part : Partition
  blocks : List Block
  queued : List Queued
  launchers : Tab Launcher
  /-- The cluster map: physical clusters with their table entries. -/
  map : List (Nat × Nat)
  deriving DecidableEq, Repr

/-- A cluster move in progress (R376): the clusters, the issuer, the mark of its status cell. -/
structure ClusterMove where
  old : Nat
  new : Nat
  blk : Nat
  path : Nat
  mark : Mark
  deriving DecidableEq, Repr

structure State where
  cycle : Nat
  cur : Option (Nat × Nat)
  free : Nat
  ids : Nat
  events : List (Nat × Event)
  /-- The event being served: what a device step acts on. -/
  due : Option Event
  mem : Memory
  coh : Coherence
  blocks : Tab Block
  queued : List Queued
  /-- Gangs killed with RP, until the launcher requeues them (R400). -/
  killed : List Queued
  sectors : Tab Sector
  engines : Engines
  launchers : Tab Launcher
  nodes : Tab NodeState
  iters : Tab Iteration
  saved : Tab SavedCtx
  moves : List ClusterMove
  vfs : Tab SavedVf
  parts : List Partition
  pkg : Package
  /-- Page-table roots by partition and address space (log 6): first stage root, second stage root. -/
  roots : Tab (Nat × Option Nat)
  out : List OutMsg
  hostRead : DWord
  deriving DecidableEq, Repr

/-- Reasons a step stops with a fault. -/
inductive Fault where
  /-- Raised by every encoded instruction when no path issues it (`cur` is none, or names none): safe, since the step
  function issues instructions only from a path that holds its port. -/
  | noIssuingPath
  /-- Raised by every device step when the event being served (`due`) is none or another step's: safe, since the step
  function serves an event only with its own row of the table. -/
  | noDueEvent
  deriving DecidableEq, Repr

/-- Reasons a step is refused. -/
inductive Refusal where
  /-- An instruction that has no meaning in the model yet: safe. -/
  | notModelled (mnemonic : String)
  deriving DecidableEq, Repr

/-- The package right after reset (R413; log 1 to log 9 for what no rule gives). -/
def State.reset : State where
  cycle := 0
  cur := none
  free := 0
  ids := 1
  events := []
  due := none
  mem := []
  coh := ⟨[], [], [], [], [], [], [], [], [], false⟩
  blocks := []
  queued := []
  killed := []
  sectors := []
  engines := ⟨[], [], [], []⟩
  launchers := []
  nodes := []
  iters := []
  saved := []
  moves := []
  vfs := []
  parts := List.replicate 48 .reset
  pkg := .reset
  roots := []
  out := []
  hostRead := 0

end Sys2Proof.Machine
end

