-- ==== Sys2Proof/Machine/Tables.lean ====
section
/-! DEFINITION. Sparse tables, memory bytes, little-endian words and small list helpers. -/

namespace Sys2Proof.Machine

/-- The value a table holds at a key. -/
def tget {α : Type} : Tab α → Nat → Option α
  | [], _ => none
  | (k, v) :: r, a => if k = a then some v else tget r a

/-- A table with the value at a key replaced or added, keys still rising. -/
def tset {α : Type} : Tab α → Nat → α → Tab α
  | [], a, x => [(a, x)]
  | (k, v) :: r, a, x =>
    if a < k then (a, x) :: (k, v) :: r
    else if a = k then (a, x) :: r
    else (k, v) :: tset r a x

/-- A table without a key. -/
def tdel {α : Type} : Tab α → Nat → Tab α
  | [], _ => []
  | (k, v) :: r, a => if k = a then r else (k, v) :: tdel r a

/-- A table with the value at a key, if there is one, changed. -/
def tmod {α : Type} (t : Tab α) (a : Nat) (f : α → α) : Tab α :=
  match tget t a with
  | some v => tset t a (f v)
  | none => t

/-- The value at a key, or a default. -/
def tgetD {α : Type} (t : Tab α) (a : Nat) (d : α) : α := (tget t a).getD d

/-- A list with the element at an index replaced. -/
def lset {α : Type} : List α → Nat → α → List α
  | [], _, _ => []
  | _ :: r, 0, x => x :: r
  | y :: r, n + 1, x => y :: lset r n x

/-- A list with the element at an index changed. -/
def lmod {α : Type} : List α → Nat → (α → α) → List α
  | [], _, _ => []
  | y :: r, 0, f => f y :: r
  | y :: r, n + 1, f => y :: lmod r n f

/-- Membership of a number, by equality tests. -/
def mem? (l : List Nat) (n : Nat) : Bool := l.any (· == n)

/-- The numbers 0 to n − 1. -/
def upto (n : Nat) : List Nat := List.range n

/-- Keys rise strictly above `lo` and no byte is zero, the value of an unlisted byte (log 1, DESIGN CHOICE). -/
def Memory.wfFrom : Option Nat → Memory → Bool
  | _, [] => true
  | lo, (k, v) :: r => (match lo with | none => true | some l => decide (l < k)) && v != 0 && wfFrom (some k) r

/-- The canonical form of memory. (log 1, DESIGN CHOICE) -/
def Memory.wf (m : Memory) : Bool := Memory.wfFrom none m

/-- One byte of memory. (log 1, DESIGN CHOICE) -/
def rdByte (m : Memory) (a : Nat) : Byte := (tget m a).getD 0

/-- Memory with one byte written; a zero byte is not listed. (log 1, DESIGN CHOICE) -/
def wrByte (m : Memory) (a : Nat) (v : Byte) : Memory := if v = 0 then tdel m a else tset m a v

/-- `n` bytes from an address, least significant first (R3). -/
def rdLE (m : Memory) (a : Nat) : Nat → Nat
  | 0 => 0
  | n + 1 => (rdByte m a).toNat + 256 * rdLE m (a + 1) n

/-- Memory with `n` bytes of a number written, least significant first. -/
def wrLE (m : Memory) (a : Nat) : Nat → Nat → Memory
  | 0, _ => m
  | n + 1, v => wrLE (wrByte m a (BitVec.ofNat 8 v)) (a + 1) n (v / 256)

/-- Memory with a list of bytes written from an address. -/
def wrBytes (m : Memory) (a : Nat) : List Byte → Memory
  | [] => m
  | v :: r => wrBytes (wrByte m a v) (a + 1) r

/-- A list of bytes read from an address. -/
def rdBytes (m : Memory) (a : Nat) : Nat → List Byte
  | 0 => []
  | n + 1 => rdByte m a :: rdBytes m (a + 1) n

/-- The listed bytes in `[lo, lo + n)`, moved so that `lo` becomes `dest`. -/
def window (m : Memory) (lo n dest : Nat) : Memory :=
  (m.filter (fun c => decide (lo ≤ c.1) && decide (c.1 < lo + n))).map (fun c => (c.1 - lo + dest, c.2))

/-- The number that a list of bytes spells, least significant first. -/
def ofBytes : List Byte → Nat
  | [] => 0
  | v :: r => v.toNat + 256 * ofBytes r

/-- `n` bytes of a number, least significant first. -/
def toBytes : Nat → Nat → List Byte
  | 0, _ => []
  | n + 1, v => BitVec.ofNat 8 v :: toBytes n (v / 256)

/-- Bits `hi:lo` of a number (R3). -/
def bits (v hi lo : Nat) : Nat := v / 2 ^ lo % 2 ^ (hi + 1 - lo)

/-- One bit of a number. -/
def bit? (v i : Nat) : Bool := v / 2 ^ i % 2 == 1

/-- A number with bits `hi:lo` replaced. -/
def setBits (v hi lo x : Nat) : Nat :=
  v - bits v hi lo * 2 ^ lo + x % 2 ^ (hi + 1 - lo) * 2 ^ lo

def b2n (b : Bool) : Nat := if b then 1 else 0

/-- A word from a number, modulo 2^32. -/
def wd (n : Nat) : Word := BitVec.ofNat 32 n

/-- A word from an integer, modulo 2^32. -/
def wi (i : Int) : Word := BitVec.ofInt 32 i

/-- A saturating increment of a 32-bit counter. -/
def satInc (w : Word) : Word := if w = BitVec.allOnes 32 then w else w + 1

/-- A saturating sum of a 32-bit counter. -/
def satAdd (w : Word) (n : Nat) : Word := if w.toNat + n ≥ 2 ^ 32 then BitVec.allOnes 32 else wd (w.toNat + n)

/-- Insertion of a number into a rising list. -/
def insSorted (n : Nat) : List Nat → List Nat
  | [] => [n]
  | k :: r => if n < k then n :: k :: r else if n = k then k :: r else k :: insSorted n r

/-- A list of numbers in rising order, each once. -/
def sortNat (l : List Nat) : List Nat := l.foldr insSorted []

/-- The element of a list with the least measure, the first on ties. -/
def minBy {α : Type} (f : α → Nat) : List α → Option α
  | [] => none
  | a :: r =>
    match minBy f r with
    | none => some a
    | some b => if f b < f a then some b else some a

/-- The sum of a measure over a list. -/
def sumBy {α : Type} (f : α → Nat) (l : List α) : Nat := l.foldl (fun n a => n + f a) 0

end Sys2Proof.Machine
end

