-- ==== Sys2Proof/Machine/Float.lean ====
section
/-! DEFINITION. Exact values of the floating formats, their rounding, and correctly rounded functions (R152-R157, R161,
R167, R191, R203, R204). -/

namespace Sys2Proof.Machine

/-- A floating format: precision, exponent of its least quantum, bits of infinity, of a written NaN, weight of the sign. -/
structure Fmt where
  p : Nat
  qmin : Int
  inf : Nat
  nan : Nat
  sign : Nat

def Fmt.f32 : Fmt := ⟨24, -149, 0x7F80_0000, 0x7FC0_0000, 2 ^ 31⟩
def Fmt.bf16 : Fmt := ⟨8, -133, 0x7F80, 0x7FC0, 2 ^ 15⟩

/-- A value: a NaN, an infinity, or ± m × 2^e; a sign with m = 0 is a signed zero. -/
inductive FVal where
  | nan
  | inf (neg : Bool)
  | fin (neg : Bool) (m : Nat) (e : Int)
  deriving DecidableEq, Repr

/-- The value that bits of a format hold (R161). -/
def Fmt.decode (f : Fmt) (b : Nat) : FVal :=
  let neg := decide (f.sign ≤ b % (2 * f.sign))
  let mag := b % f.sign
  if f.inf < mag then .nan
  else if mag = f.inf then .inf neg
  else
    let ex := mag / 2 ^ (f.p - 1)
    let fr := mag % 2 ^ (f.p - 1)
    if ex = 0 then .fin neg fr f.qmin else .fin neg (fr + 2 ^ (f.p - 1)) (f.qmin + ((ex : Int) - 1))

/-- A number is rounded up in magnitude: `rem` of `2^sh` is dropped, `odd` the kept part's last bit, `sticky` more below. -/
def roundsUp (rm : RM) (neg odd : Bool) (rem half : Nat) (inexact sticky : Bool) : Bool :=
  match rm with
  | .rn => decide (half < rem) || (rem == half && half != 0 && (sticky || odd))
  | .rz => false
  | .ru => !neg && inexact
  | .rd => neg && inexact

/-- m × 2^e cut to a multiple of 2^q under a rounding mode, as a multiple of 2^q; `sticky` says that a little more than
m × 2^e is meant. -/
def quantize (rm : RM) (neg : Bool) (m : Nat) (e q : Int) (sticky : Bool) : Nat :=
  if q ≤ e then
    let n := m * 2 ^ (e - q).toNat
    if roundsUp rm neg (n % 2 == 1) 0 0 sticky sticky then n + 1 else n
  else
    let sh := (q - e).toNat
    let n := m / 2 ^ sh
    let rem := m % 2 ^ sh
    if roundsUp rm neg (n % 2 == 1) rem (2 ^ (sh - 1)) (rem != 0 || sticky) sticky then n + 1 else n

/-- Bits of a magnitude that reaches infinity under a rounding mode (R154). -/
def Fmt.overflow (f : Fmt) (rm : RM) (neg : Bool) : Nat :=
  match rm, neg with
  | .rn, _ => f.inf
  | .rz, _ => f.inf - 1
  | .ru, true => f.inf - 1
  | .ru, false => f.inf
  | .rd, true => f.inf
  | .rd, false => f.inf - 1

def Fmt.signed (f : Fmt) (neg : Bool) (mag : Nat) : Nat := if neg then mag + f.sign else mag

/-- ± m × 2^e, and a little more in magnitude when `sticky`, rounded once to a format (R154). -/
def Fmt.round (f : Fmt) (rm : RM) (neg : Bool) (m : Nat) (e : Int) (sticky : Bool) : Nat :=
  if m = 0 then f.signed neg 0
  else
    let q := max ((m.log2 : Int) + e - ((f.p : Int) - 1)) f.qmin
    let bits := (q - f.qmin).toNat * 2 ^ (f.p - 1) + quantize rm neg m e q sticky
    f.signed neg (if f.inf ≤ bits then f.overflow rm neg else bits)

/-- A value rounded to a format; a NaN is canonical (R155). -/
def Fmt.encode (f : Fmt) (rm : RM) : FVal → Nat
  | .nan => f.nan
  | .inf neg => f.signed neg f.inf
  | .fin neg m e => f.round rm neg m e false

def FVal.neg? : FVal → Bool
  | .nan => false
  | .inf n => n
  | .fin n _ _ => n

def FVal.isNan : FVal → Bool
  | .nan => true
  | _ => false

def FVal.isZero : FVal → Bool
  | .fin _ 0 _ => true
  | _ => false

def FVal.negate : FVal → FVal
  | .nan => .nan
  | .inf n => .inf (!n)
  | .fin n m e => .fin (!n) m e

def FVal.absolute : FVal → FVal
  | .nan => .nan
  | .inf _ => .inf false
  | .fin _ m e => .fin false m e

/-- The exact product; infinity times zero is a NaN. -/
def FVal.mul : FVal → FVal → FVal
  | .nan, _ => .nan
  | _, .nan => .nan
  | .inf a, .inf b => .inf (a != b)
  | .inf a, .fin b m _ => if m = 0 then .nan else .inf (a != b)
  | .fin a m _, .inf b => if m = 0 then .nan else .inf (a != b)
  | .fin a m e, .fin b n k => .fin (a != b) (m * n) (e + k)

/-- ± m × 2^e as a multiple of 2^q, for q at or below e. -/
def scaled (q : Int) : FVal → Int
  | .fin neg m e => let n : Int := (m * 2 ^ (e - q).toNat : Nat); if neg then -n else n
  | _ => 0

/-- The least exponent among finite values. -/
def leastExp (l : List FVal) : Int :=
  l.foldl (fun q v => match v with | .fin _ m e => if m = 0 then q else min q e | _ => q) 0

/-- The exact sum of values (R167). A zero sum of terms of one sign keeps it; any other zero is −0 only under RD.
(log 13, DEDUCED) -/
def FVal.sum (rm : RM) (l : List FVal) : FVal :=
  if l.any FVal.isNan then .nan
  else
    let pos := l.any (fun v => v == .inf false)
    let neg := l.any (fun v => v == .inf true)
    if pos && neg then .nan
    else if pos then .inf false
    else if neg then .inf true
    else
      let q := leastExp l
      let n := l.foldl (fun n v => n + (if v.isZero then 0 else scaled q v)) (0 : Int)
      if n = 0 then
        if !l.isEmpty && l.all FVal.neg? then .fin true 0 0
        else if l.all (fun v => !v.neg?) then .fin false 0 0
        else .fin (rm == .rd) 0 0
      else .fin (decide (n < 0)) n.natAbs q

/-- Order of values for comparisons: none when either is a NaN. -/
def FVal.cmp (a b : FVal) : Option Ordering :=
  match a, b with
  | .nan, _ => none
  | _, .nan => none
  | .inf x, .inf y => some (if x = y then .eq else if x then .lt else .gt)
  | .inf x, .fin .. => some (if x then .lt else .gt)
  | .fin .., .inf y => some (if y then .gt else .lt)
  | .fin .., .fin .. =>
    let q := leastExp [a, b]
    let x := if a.isZero then 0 else scaled q a
    let y := if b.isZero then 0 else scaled q b
    some (compare x y)

/-- Square root of a natural number, bit by bit from bit `n` down. -/
def isqrtFrom (v : Nat) : Nat → Nat → Nat
  | 0, acc => acc
  | n + 1, acc => let t := acc + 2 ^ n; isqrtFrom v n (if t * t ≤ v then t else acc)

def isqrt (v : Nat) : Nat := isqrtFrom v (v.log2 / 2 + 1) 0

/-- The quotient, rounded once (R191). -/
def Fmt.div (f : Fmt) (rm : RM) (a b : FVal) : Nat :=
  let neg := a.neg? != b.neg?
  match a, b with
  | .nan, _ => f.nan
  | _, .nan => f.nan
  | .inf _, .inf _ => f.nan
  | .inf _, .fin .. => f.signed neg f.inf
  | .fin .., .inf _ => f.signed neg 0
  | .fin _ m e, .fin _ n k =>
    if n = 0 then (if m = 0 then f.nan else f.signed neg f.inf)
    else if m = 0 then f.signed neg 0
    else
      let sh := 64 + n.log2
      let q := m * 2 ^ sh / n
      f.round rm neg q (e - k - sh) (m * 2 ^ sh % n != 0)

/-- The square root, rounded once (R191). -/
def Fmt.sqrt (f : Fmt) (rm : RM) : FVal → Nat
  | .nan => f.nan
  | .inf true => f.nan
  | .inf false => f.inf
  | .fin neg m e =>
    if m = 0 then f.signed neg 0
    else if neg then f.nan
    else
      let odd := e % 2
      let v := m * 2 ^ (64 + odd.toNat)
      let r := isqrt v
      f.round rm false r ((e - odd) / 2 - 32) (r * r != v)

/-- The reciprocal square root, rounded once (R203). -/
def Fmt.rsqrt (f : Fmt) : FVal → Nat
  | .nan => f.nan
  | .inf true => f.nan
  | .inf false => 0
  | .fin neg m e =>
    if m = 0 then f.signed neg f.inf
    else if neg then f.nan
    else
      let odd := e % 2
      let v := m * 2 ^ odd.toNat
      let k := 64 + v.log2
      let r := isqrt (2 ^ (2 * k) / v)
      f.round .rn false r (-(e - odd) / 2 - k) (r * r * v != 2 ^ (2 * k))

/-- A value rounded to an integer, in exact terms: sign and magnitude; ±0 and infinities are handled by callers. -/
def FVal.toInt (rm : RM) : FVal → Int
  | .fin neg m e => let n : Int := (quantize rm neg m e 0 false : Nat); if neg then -n else n
  | _ => 0

/-- rint (R191). -/
def Fmt.rint (f : Fmt) (rm : RM) : FVal → Nat
  | .nan => f.nan
  | .inf neg => f.signed neg f.inf
  | .fin neg m e => if m = 0 then f.signed neg 0 else f.round .rn neg (quantize rm neg m e 0 false) 0 false

/-- a − ⌊a⌋, rounded; a result of 1 becomes the value below it (R191). -/
def Fmt.fract (f : Fmt) (rm : RM) : FVal → Nat
  | .nan => f.nan
  | .inf _ => f.nan
  | .fin neg m e =>
    if m = 0 then 0
    else
      let q := min e 0
      let n := scaled q (.fin neg m e)
      let d := n % (2 ^ (-q).toNat : Nat)
      let r := if d = 0 then 0 else f.round rm false d.toNat q false
      let one := f.round .rn false 1 0 false
      if r = one then one - 1 else r

/-- a × 2^m with m the value n truncated and clamped (R191). -/
def Fmt.ldexp (f : Fmt) (rm : RM) (a n : FVal) : Nat :=
  match n with
  | .nan => f.nan
  | _ =>
    let k : Int := match n with
      | .inf neg => if neg then -1000 else 1000
      | v => max (-1000) (min 1000 (v.toInt .rz))
    match a with
    | .fin neg m e => f.round rm neg m (e + k) false
    | v => f.encode rm v

/-- ⌊log2 |a|⌋ (R191). -/
def Fmt.expo (f : Fmt) : FVal → Nat
  | .nan => f.nan
  | .inf _ => f.inf
  | .fin _ m e =>
    if m = 0 then f.signed true f.inf
    else
      let k := (m.log2 : Int) + e
      f.round .rn (decide (k < 0)) k.natAbs 0 false

/-- SAT: a rounded result clamped to 0 … 1 (R156). -/
def Fmt.saturate (f : Fmt) (b : Nat) : Nat :=
  let v := f.decode b
  let one := f.round .rn false 1 0 false
  if v.isNan || v.neg? then 0
  else if one < b then one
  else b

/-- min or max in the order of R192, with −0 below +0; a single NaN gives way. -/
def Fmt.minmax (f : Fmt) (isMax : Bool) (a b : Nat) : Nat :=
  let x := f.decode a
  let y := f.decode b
  if x.isNan then (if y.isNan then f.nan else b)
  else if y.isNan then a
  else
    match x.cmp y with
    | some .lt => if isMax then b else a
    | some .gt => if isMax then a else b
    | _ => if x.neg? = isMax then b else a

/-! Correctly rounded functions: intervals of multiples of 2^−p -/

/-- A non-negative real between `lo` and `hi` multiples of 2^−p. -/
structure Iv where
  lo : Nat
  hi : Nat

def Iv.add (a b : Iv) : Iv := ⟨a.lo + b.lo, a.hi + b.hi⟩
def Iv.sub (a b : Iv) : Iv := ⟨a.lo - b.hi, a.hi - b.lo⟩
def Iv.mul (p : Nat) (a b : Iv) : Iv := ⟨a.lo * b.lo / 2 ^ p, a.hi * b.hi / 2 ^ p + 1⟩
def Iv.divN (a : Iv) (n : Nat) : Iv := ⟨a.lo / n, a.hi / n + 1⟩
def Iv.mulN (a : Iv) (n : Nat) : Iv := ⟨a.lo * n, a.hi * n⟩
def Iv.div (p : Nat) (a b : Iv) : Iv := ⟨a.lo * 2 ^ p / b.hi, a.hi * 2 ^ p / b.lo + 1⟩
def Iv.one (p : Nat) : Iv := ⟨2 ^ p, 2 ^ p⟩
def Iv.widen (a : Iv) : Iv := ⟨a.lo - 1, a.hi + 1⟩

/-- m × 2^e as an interval. -/
def Iv.ofDyadic (p m : Nat) (e : Int) : Iv :=
  let k := e + p
  if 0 ≤ k then ⟨m * 2 ^ k.toNat, m * 2 ^ k.toNat⟩ else ⟨m / 2 ^ (-k).toNat, m / 2 ^ (-k).toNat + 1⟩

/-- Σ t_i with t_(i+1) = t_i × z / den(i + 1): sums of the even and of the odd terms. -/
def termSums (p : Nat) (z : Iv) (den : Nat → Nat) : Nat → Nat → Iv → Iv → Iv → Iv × Iv
  | 0, _, _, ev, od => (ev.widen, od.widen)
  | n + 1, i, t, ev, od =>
    let t' := (Iv.mul p t z).divN (den (i + 1))
    if i % 2 = 0 then termSums p z den n (i + 1) t' (ev.add t) od else termSums p z den n (i + 1) t' ev (od.add t)

/-- Σ z^i / (2i + 1): sums of the even and of the odd terms. -/
def powerSums (p : Nat) (z : Iv) : Nat → Nat → Iv → Iv → Iv → Iv × Iv
  | 0, _, _, ev, od => (ev.widen, od.widen)
  | n + 1, i, t, ev, od =>
    let v := t.divN (2 * i + 1)
    let t' := Iv.mul p t z
    if i % 2 = 0 then powerSums p z n (i + 1) t' (ev.add v) od else powerSums p z n (i + 1) t' ev (od.add v)

def Iv.zero : Iv := ⟨0, 0⟩

/-- e^x for 0 ≤ x < 1. -/
def expIv (p : Nat) (x : Iv) : Iv :=
  let r := termSums p x (fun i => i) (p / 2 + 8) 0 (.one p) .zero .zero
  r.1.add r.2

/-- artanh(1/n)'s partner: Σ (1/n²)^i / (2i + 1) / n, with or without alternating signs. -/
def invSeries (p n : Nat) (alt : Bool) : Iv :=
  let r := powerSums p ((Iv.one p).divN (n * n)) (p / 3 + 8) 0 (.one p) .zero .zero
  (if alt then r.1.sub r.2 else r.1.add r.2).divN n

def ln2Iv (p : Nat) : Iv := (invSeries p 3 false).mulN 2
def piIv (p : Nat) : Iv := ((invSeries p 5 true).mulN 16).sub ((invSeries p 239 true).mulN 4)

/-- A result between lo × 2^e and hi × 2^e in magnitude. -/
structure Approx where
  lo : Nat
  hi : Nat
  e : Int

/-- Rounded to nearest when both ends agree, else again with the next precision. -/
def Fmt.settle (f : Fmt) (neg : Bool) (g : Nat → Approx) : List Nat → Nat
  | [] => f.nan
  | [p] => let a := g p; f.round .rn neg a.lo a.e false
  | p :: r =>
    let a := g p
    let lo := f.round .rn neg a.lo a.e false
    if lo = f.round .rn neg a.hi a.e false then lo else Fmt.settle f neg g r

def precisions : List Nat := [96, 192, 384, 768]

/-- e^a for a finite a: the interval and the power of two beside it. -/
def expApprox (p : Nat) (neg : Bool) (m : Nat) (e : Int) : Approx :=
  let ln2 := ln2Iv p
  let x := Iv.ofDyadic p m e
  if neg then
    -- a = −x: k is one more than the whole multiples of ln 2 in x
    let k := x.hi / ln2.lo + 1
    let y := expIv p ((ln2.mulN k).sub x)
    ⟨y.lo, y.hi, -(k : Int) - p⟩
  else
    let k := x.lo / ln2.hi
    let y := expIv p (x.sub (ln2.mulN k))
    ⟨y.lo, y.hi, (k : Int) - p⟩

/-- 2^a (R203). -/
def Fmt.ex2 (f : Fmt) : FVal → Nat
  | .nan => f.nan
  | .inf neg => if neg then 0 else f.inf
  | .fin neg m e =>
    let one := f.round .rn false 1 0 false
    if m = 0 then one
    else
      let k := (m.log2 : Int) + e
      if 8 ≤ k then (if neg then 0 else f.inf)
      else if k ≤ -64 then one
      else
        let q := min e 0
        let n := scaled q (.fin neg m e)
        let u : Int := (2 ^ (-q).toNat : Nat)
        let fl := n / u
        let fr := (n % u).toNat
        if fr = 0 then f.round .rn false 1 fl false
        else
          f.settle false (fun p =>
            let y := expIv p (Iv.mul p (Iv.ofDyadic p fr q) (ln2Iv p))
            ⟨y.lo, y.hi, fl - p⟩) precisions

/-- log2 a (R203). -/
def Fmt.lg2 (f : Fmt) : FVal → Nat
  | .nan => f.nan
  | .inf neg => if neg then f.nan else f.inf
  | .fin neg m e =>
    if m = 0 then f.signed true f.inf
    else if neg then f.nan
    else
      let l := m.log2
      -- a = (m / 2^l) × 2^(l + e); a mantissa above √2 is halved
      let up := decide (2 ^ (2 * l + 1) < m * m)
      let d := if up then l + 1 else l
      let k := (d : Int) + e
      if m = 2 ^ l then f.round .rn (decide (k < 0)) k.natAbs 0 false
      else
        let below := decide (m < 2 ^ d)
        let num := if below then 2 ^ d - m else m - 2 ^ d
        let lnOf := fun p =>
          let u : Iv := ⟨num * 2 ^ p / (m + 2 ^ d), num * 2 ^ p / (m + 2 ^ d) + 1⟩
          let r := powerSums p (Iv.mul p u u) (p / 5 + 8) 0 (.one p) .zero .zero
          Iv.div p ((Iv.mul p u (r.1.add r.2)).mulN 2) (ln2Iv p)
        if k = 0 then f.settle below (fun p => let y := lnOf p; ⟨y.lo, y.hi, -(p : Int)⟩) precisions
        else
          let minus := decide (k < 0)
          f.settle minus (fun p =>
            let y := lnOf p
            let z := (Iv.one p).mulN k.natAbs
            let r := if minus = below then z.add y else z.sub y
            ⟨r.lo, r.hi, -(p : Int)⟩) precisions

/-- sin(π x) for the dyadic 0 < x ≤ 1/2 with x = n × 2^q: the magnitude. -/
def sinPi (n : Nat) (q : Int) (p : Nat) : Approx :=
  let y := Iv.mul p (Iv.ofDyadic p n q) (piIv p)
  let r := termSums p (Iv.mul p y y) (fun i => 2 * i * (2 * i + 1)) (p / 2 + 8) 0 (.one p) .zero .zero
  let g := Iv.mul p (piIv p) (r.1.sub r.2)
  ⟨n * g.lo, n * g.hi, q - p⟩

/-- sin(π x) for x = n × 2^q, 0 ≤ x < 2, with `zneg` the sign of an exact zero. -/
def Fmt.sinRound (f : Fmt) (n : Nat) (q : Int) (zneg flip : Bool) : Nat :=
  let u := 2 ^ (-q).toNat
  let big := decide (u ≤ n)
  let n := if big then n - u else n
  let neg := big != flip
  if n = 0 then f.signed zneg 0
  else if 2 * n = u then f.round .rn neg 1 0 false
  else f.settle neg (sinPi (if u < 2 * n then u - n else n) q) precisions

/-- sin(π a) (R203, R204). -/
def Fmt.sinp (f : Fmt) : FVal → Nat
  | .nan => f.nan
  | .inf _ => f.nan
  | .fin neg m e =>
    if m = 0 then f.signed neg 0
    else
      let q := min e (-1)
      f.sinRound (m * 2 ^ (e - q).toNat % (2 * 2 ^ (-q).toNat)) q neg neg

/-- cos(π a) = sin(π (|a| + 1/2)) (R203, R204). -/
def Fmt.cosp (f : Fmt) : FVal → Nat
  | .nan => f.nan
  | .inf _ => f.nan
  | .fin _ m e =>
    let q := min e (-1)
    let u := 2 ^ (-q).toNat
    f.sinRound ((m * 2 ^ (e - q).toNat + u / 2) % (2 * u)) q false false

/-- tanh a (R203). -/
def Fmt.tanh (f : Fmt) : FVal → Nat
  | .nan => f.nan
  | .inf neg => f.round .rn neg 1 0 false
  | .fin neg m e =>
    if m = 0 then f.signed neg 0
    else
      let k := (m.log2 : Int) + e
      if 4 ≤ k then f.round .rn neg 1 0 false
      else if k < 0 then
        f.settle neg (fun p =>
          let x := Iv.ofDyadic p m e
          let z := Iv.mul p x x
          let s := termSums p z (fun i => 2 * i * (2 * i + 1)) (p / 2 + 8) 0 (.one p) .zero .zero
          let c := termSums p z (fun i => (2 * i - 1) * (2 * i)) (p / 2 + 8) 0 (.one p) .zero .zero
          let r := Iv.div p (s.1.add s.2) (c.1.add c.2)
          ⟨m * r.lo, m * r.hi, e - p⟩) precisions
      else
        f.settle neg (fun p =>
          let a := expApprox p true (2 * m) e
          let sh := 2 ^ (-(a.e + p)).toNat
          let t : Iv := ⟨a.lo / sh, a.hi / sh + 1⟩
          let r := Iv.div p ((Iv.one p).sub t) ((Iv.one p).add t)
          ⟨r.lo, r.hi, -(p : Int)⟩) precisions

/-- 1 / (1 + e^−a) (R203). -/
def Fmt.sigm (f : Fmt) : FVal → Nat
  | .nan => f.nan
  | .inf neg => if neg then 0 else f.round .rn false 1 0 false
  | .fin neg m e =>
    if m = 0 then f.round .rn false 1 (-1) false
    else
      let k := (m.log2 : Int) + e
      if 8 ≤ k then (if neg then 0 else f.round .rn false 1 0 false)
      else
        f.settle false (fun p =>
          let a := expApprox p true m e
          let sh := 2 ^ (-(a.e + p)).toNat
          let t : Iv := ⟨a.lo / sh, a.hi / sh + 1⟩
          if neg then
            let r := Iv.div p ⟨a.lo, a.hi⟩ ((Iv.one p).add t)
            ⟨r.lo, r.hi, a.e⟩
          else
            let r := Iv.div p (.one p) ((Iv.one p).add t)
            ⟨r.lo, r.hi, -(p : Int)⟩) precisions

/-- e^a rounded to the nearest f32 (R389). -/
def Fmt.expRound (f : Fmt) : FVal → Nat
  | .nan => f.nan
  | .inf neg => if neg then 0 else f.inf
  | .fin neg m e =>
    if m = 0 then f.round .rn false 1 0 false
    else
      let k := (m.log2 : Int) + e
      if 8 ≤ k then (if neg then 0 else f.inf)
      else f.settle false (fun p => expApprox p neg m e) precisions

/-! Words -/

def f32 (w : Word) : FVal := Fmt.f32.decode w.toNat
def bfLo (w : Word) : FVal := Fmt.bf16.decode (w.toNat % 65536)
def bfHi (w : Word) : FVal := Fmt.bf16.decode (w.toNat / 65536)
def mkPair (hi lo : Nat) : Word := wd (hi * 65536 + lo)

/-- An f32 result under a rounding mode. -/
def toF32 (rm : RM) (v : FVal) : Word := wd (Fmt.f32.encode rm v)
def toF32Sat (rm : RM) (sat : Bool) (v : FVal) : Word :=
  let b := Fmt.f32.encode rm v
  wd (if sat then Fmt.f32.saturate b else b)

/-- Each half computed from the matching halves and rounded once to bf16 (R157). -/
def perHalf (f : List FVal → Nat) (l : List Word) : Word := mkPair (f (l.map bfHi)) (f (l.map bfLo))

/-- The value of an integer. -/
def FVal.ofInt (n : Int) : FVal := .fin (decide (n < 0)) n.natAbs 0

end Sys2Proof.Machine
end

