-- ==== Sys2Proof/Machine/Access.lean ====
section
/-! DEFINITION. Reading and changing blocks, threads, paths, sectors and partitions; the event list; the fields of a node
descriptor held in a block's snapshot. -/

namespace Sys2Proof.Machine

/-- An address of the CXL second tier (R229). -/
def isCxl (pa : Nat) : Bool := decide (0x1000_0000_0000 ≤ pa) && decide (pa < 0x2000_0000_0000)

/-- Home die of a physical address (R236). -/
def homeDie (pa : Nat) : Nat := if isCxl pa then bits pa 13 12 else bits pa 38 37

/-- The order of device steps within a cycle: the gating of idle clusters (R424), commits and requests, timers, vacates (R382),
requeued blocks and relaunched gangs, loop re-issues, launch decisions, the rest, port choices (R50, R51, R98, R372).
(log 2, DESIGN CHOICE) -/
def phaseOf : Event → Nat
  | .clusterIdleGate .. => 0
  | .commitArrival .. => 0
  | .preemptImmediate .. => 0
  | .preemptCooperative .. => 0
  | .preemptDeadlineExpiry .. => 0
  | .vacateBegin .. => 2
  | .coalescingTimerExpiry .. => 1
  | .blockRequeuePlace .. => 2
  | .gangRelaunch .. => 2
  | .loopReissue .. => 3
  | .launchDecision .. => 4
  | .portChoice .. => 6
  | _ => 5

/-- The order of steps of one phase of a cycle: requests for a line come before other steps, the home die's own first, then
those of the other dies as their numbers rise, then those of the host and the fabric; an eviction is never queued (R314).
(log 2, DESIGN CHOICE) -/
def rankOf : Event → Nat
  | .dirHomeWrite d l _ | .dirHomeLoad d l _ => if d = homeDie (64 * l) then 0 else 1 + d
  | .dirRemoteLoad d _ | .dirRemoteStore d _ _ => 1 + d
  | .dirEvict .. | .snoopFilterRecall .. => 0
  | _ => 6

/-- A reading of the rules (log 2, DESIGN CHOICE). -/
def insEvent (t : Nat) (i : Event) : List (Nat × Event) → List (Nat × Event)
  | [] => [(t, i)]
  | (u, j) :: r =>
    if u < t ∨ (u = t ∧ 8 * phaseOf j + rankOf j ≤ 8 * phaseOf i + rankOf i) then (u, j) :: insEvent t i r
    else (t, i) :: (u, j) :: r

/-- A device step put into the event list at a cycle. (log 2, DESIGN CHOICE) -/
def State.post (s : State) (t : Nat) (i : Event) : State := { s with events := insEvent t i s.events }

/-- A device step put into the event list once at a cycle. (log 2, DESIGN CHOICE) -/
def State.postOnce (s : State) (t : Nat) (i : Event) : State :=
  if s.events.any (fun e => e.1 == t && decide (e.2 = i)) then s else s.post t i

def State.modBlock (s : State) (bid : Nat) (f : Block → Block) : State := { s with blocks := tmod s.blocks bid f }
def Block.modThread (b : Block) (k : Nat) (f : Thread → Thread) : Block := { b with threads := tmod b.threads k f }
def Block.modPath (b : Block) (p : Nat) (f : Path → Path) : Block := { b with paths := tmod b.paths p f }
def State.modThread (s : State) (bid k : Nat) (f : Thread → Thread) : State := s.modBlock bid (·.modThread k f)
def State.modPath (s : State) (bid p : Nat) (f : Path → Path) : State := s.modBlock bid (·.modPath p f)
def State.thread? (s : State) (bid k : Nat) : Option Thread := (tget s.blocks bid).bind (fun b => tget b.threads k)
def State.path? (s : State) (bid p : Nat) : Option Path := (tget s.blocks bid).bind (fun b => tget b.paths p)

def State.sector (s : State) (k : Nat) : Sector := tgetD s.sectors k .idle
def State.modSector (s : State) (k : Nat) (f : Sector → Sector) : State :=
  { s with sectors := tset s.sectors k (f (s.sector k)) }

def State.part (s : State) (p : Nat) : Partition := s.parts.getD p .reset
def State.modPart (s : State) (p : Nat) (f : Partition → Partition) : State := { s with parts := lmod s.parts p f }
def State.modPkg (s : State) (f : Package → Package) : State := { s with pkg := f s.pkg }

/-- Saved partitions that no restore has brought back yet (R378). -/
def State.vfsAway (s : State) : Tab SavedVf := s.vfs.filter (fun e => s.parts.any (fun p => p.vfSaved == some e.1))

/-- Blocks that are not resident but known: waiting to be placed, in saved contexts, in saved partitions, or killed while their
commands go on (R277, R399). -/
def State.away (s : State) : List Block :=
  s.queued.flatMap (·.blocks) ++ s.saved.map (·.2.blk) ++ (s.killed.flatMap (·.blocks)).filter (·.killed)
    ++ s.vfsAway.flatMap (fun e => e.2.blocks ++ e.2.queued.flatMap (·.blocks))

/-- A block by its identity, resident, vacated to memory or waiting to be placed: engines go on for a vacated block
(R277). -/
def State.anyBlock (s : State) (bid : Nat) : Option Block :=
  match tget s.blocks bid with
  | some b => some b
  | none => s.away.find? (fun b => b.launch.ident == bid)

/-- A change of a block wherever it stands. -/
def State.modAny (s : State) (bid : Nat) (f : Block → Block) : State :=
  if (tget s.blocks bid).isSome then s.modBlock bid f
  else
    let g := fun (b : Block) => if b.launch.ident = bid then f b else b
    { s with
      queued := s.queued.map (fun q => { q with blocks := q.blocks.map g })
      killed := s.killed.map (fun q => { q with blocks := q.blocks.map g })
      saved := s.saved.map (fun (e : Nat × SavedCtx) => (e.1, { e.2 with blk := g e.2.blk }))
      vfs := s.vfs.map (fun (e : Nat × SavedVf) => (e.1, { e.2 with
        blocks := e.2.blocks.map g, queued := e.2.queued.map (fun q => { q with blocks := q.blocks.map g }) })) }

/-- Package-wide number of the cluster, core and sector of a warp (R62). -/
def Place.clus (p : Place) : Nat := 24 * p.die + p.cluster
def Place.coreNo (p : Place) : Nat := 8 * p.clus + p.core
def Block.sectorOf (b : Block) (warp : Nat) : Nat := 4 * b.place.coreNo + warp % 4

/-- A field of the snapshot's header or tables (R13). -/
def Block.snap (b : Block) (off n : Nat) : Nat := rdLE b.launch.snap off n
def Block.entry (b : Block) : Nat := b.snap 0x00 8
def Block.fentry (b : Block) : Nat := b.snap 0x08 8
def Block.config0 (b : Block) : Nat := b.snap 0x10 4
def Block.config1 (b : Block) : Nat := b.snap 0x14 4
def Block.frame (b : Block) : Nat := b.snap 0x18 1
def Block.stack (b : Block) : Nat := b.snap 0x19 1
def Block.queue (b : Block) : Nat := b.snap 0x1A 1
def Block.acc (b : Block) : Nat := b.snap 0x1B 1 % 16
def Block.spadKiB (b : Block) : Nat := b.snap 0x1C 4 % 1024
def Block.cbase (b : Block) : Nat := b.snap 0x48 8
def Block.csize (b : Block) : Nat := b.snap 0x50 4
def Block.poent (b : Block) : Nat := b.snap 0x54 4
def Block.emtb (b : Block) : Nat := b.snap 0x58 8
def Block.emcnt (b : Block) : Nat := b.snap 0x60 2
def Block.edge (b : Block) (e : Nat) : Nat := b.snap (0x34 + 2 * e) 2
def Block.recBytes (b : Block) : Nat := 16 * (b.config0 % 16 + 1)
def Block.target (b : Block) : Nat := bits b.config0 13 4 + 1
def Block.setSize (b : Block) : Nat := 2 ^ bits b.config1 5 4
def Block.gangSize (b : Block) : Nat := bits b.config1 8 6 + 1
def Block.heavy (b : Block) : Nat := bits b.config1 10 9 + 1
def Block.relaunch (b : Block) : Bool := bit? b.config1 14
def Block.isLoop (b : Block) : Bool := bits b.config1 16 15 == 1
def Block.part (b : Block) : Nat := b.graph.part
def Block.lvl (b : Block) : Nat := b.graph.lvl
/-- Member index within the gang (R32). -/
def Block.member (b : Block) : Nat := bits b.launch.batch.toNat 14 11

/-- A lane position (R70): finder lanes stand 1,024 keys above their block lanes. -/
def lanePos (key : Nat) : Nat := key % 32
def blockLane (key : Nat) : Nat := key % 1024
def homeWarp (key : Nat) : Nat := key % 1024 / 32
def isFinderKey (key : Nat) : Bool := decide (1024 ≤ key)

/-- A lane mask of thread keys (R7). -/
def laneMask (keys : List Nat) : Nat := sumBy (fun k => 2 ^ lanePos k) keys

/-- A fresh number for a path, run, fork or instance (log 2). -/
def State.fresh (s : State) : Nat × State := (s.ids, { s with ids := s.ids + 1 })

/-- A fresh free value: the next argument of `Config.freeWord` (log 5). -/
def State.drawWord (s : State) : Word × State := (Config.freeWord s.free, { s with free := s.free + 1 })

/-- The phase of bring-up (R421); reduced service is phase 2 (R422). -/
def State.phase (s : State) : Nat := bits s.pkg.bstat.toNat 2 0
def State.reduced (s : State) : Bool := s.phase == 2

/-- The effective mask of a partition (R40), bits 0 and 1 only in reduced service (R422). -/
def State.effMask (s : State) (part : Nat) : BitVec 512 :=
  (s.part part).hyper.pfm &&& (if s.reduced then Config.deviceMask &&& 3#512 else Config.deviceMask)

def State.feature (s : State) (part bit : Nat) : Bool := bit? (s.effMask part).toNat bit

/-- Blocks of a partition, and blocks resident on a core. -/
def State.blocksOf (s : State) (part : Nat) : List (Nat × Block) := s.blocks.filter (fun e => e.2.part == part)
def State.blocksOn (s : State) (core : Nat) : List (Nat × Block) := s.blocks.filter (fun e => e.2.place.coreNo == core)

/-- Threads that the lanes of a key list name. -/
def Block.lanesOf (b : Block) (keys : List Nat) : List (Nat × Thread) :=
  keys.filterMap (fun k => (tget b.threads k).map (fun t => (k, t)))

/-- The path that holds a thread. -/
def Block.pathOf (b : Block) (key : Nat) : Option (Nat × Path) := b.paths.find? (fun e => mem? e.2.lanes key)

/-- The gang of a block, itself included: identities in member order (R63). -/
def Block.members (b : Block) (bid : Nat) : List Nat := if b.gang.isEmpty then [bid] else b.gang

end Sys2Proof.Machine
end

