-- ==== Sys2Proof/Machine/Translate.lean ====
section
/-! DEFINITION. Physical addresses, the four-level walk in one and two stages, and cluster TLB use (R229-R235). -/

namespace Sys2Proof.Machine

/-- Who accesses memory: partition, address space, privilege level and cluster. -/
structure Who where
  part : Nat
  asid : Nat
  lvl : Nat
  clus : Nat
  deriving DecidableEq, Repr

def Block.who (b : Block) : Who := ⟨b.part, b.asid, b.lvl, b.place.clus⟩

/-- What an access needs: a store or atomic (W), a fetch (X), an engine write (no RO). -/
inductive Need where
  | load | store | fetch | engineLoad | engineStore
  deriving DecidableEq, Repr

/-- A physical address that maps memory (R229). -/
def physMaps (pa : Nat) : Bool :=
  decide (pa < 0x80_0000_0000)
  || (decide (0x1000_0000_0000 ≤ pa) && decide (pa < 0x2000_0000_0000))
  || (bits pa 51 51 == 1 && decide (pa % 2 ^ 40 < 0x80_0000_0000) && decide (pa < 2 ^ 52))

/-- A reading of the rules (log 29, DEDUCED). -/
def isFabric (pa : Nat) : Bool := bits pa 51 51 == 1

/-- The L2 slice and set of a physical line's home, and the colour of its 4 KiB page (R236). -/
def homeSlice (pa : Nat) : Nat := bits pa 36 12 % 24
def homeSet (pa : Nat) : Nat := bits pa 17 6 ^^^ bits pa 29 18
def pageColour (pa : Nat) : Nat × Nat × Nat := (homeDie pa, homeSlice pa, (pa / 2 ^ 12 ^^^ pa / 2 ^ 24) % 64)

def Perm.all : Perm := ⟨true, true, true, false, false⟩

/-- Permissions of an entry joined with those of the walk so far (R230). -/
def Perm.meet (p : Perm) (e : Nat) : Perm :=
  ⟨p.w && bit? e 2, p.x && bit? e 3, p.u && bit? e 4, p.ro || bit? e 6, p.nco || bit? e 5⟩

/-- Reserved bits of an entry are clear (R231). -/
def entryOk (e : Nat) : Bool := bit? e 0 && bits e 63 52 == 0 && bits e 11 7 == 0

/-- A walk from a table: address, bytes of the page, permissions; none is a translation failure. `n` levels remain below
the present one, whose index starts at bit 12 + 9 × n. -/
def walkFrom (rd : Nat → Option Nat) (va : Nat) : Nat → Nat → Perm → Option (Nat × Nat × Perm)
  | n, table, perm =>
    match rd (table + 8 * (va / 2 ^ (12 + 9 * n) % 512)) with
    | none => none
    | some e =>
      if entryOk e then
        let base := bits e 51 12 * 4096
        let p := perm.meet e
        let size := 2 ^ (12 + 9 * n)
        if bit? e 1 then
          if n < 3 ∧ base % size = 0 then some (base + va % size, size, p) else none
        else
          match n with
          | 0 => none
          | m + 1 => walkFrom rd va m base p
      else none

/-- One stage of translation for a 48-bit address. -/
def walk (rd : Nat → Option Nat) (root va : Nat) : Option (Nat × Nat × Perm) :=
  if va < 2 ^ 48 then walkFrom rd va 3 root .all else none

/-- The package that a fabric address names is this one (R229, R417). -/
def ownPackage (s : State) (pa : Nat) : Bool := bits pa 50 40 == s.pkg.epid.toNat % 2048

/-- A fabric access finds a package that answers: this one, or another behind a port that is up (R417). (log 29, DEDUCED) -/
def fabricAnswers (s : State) (pa : Nat) : Bool :=
  ownPackage s pa || (s.pkg.ports.any (fun p => p.2.1) && Config.packageAnswers (bits pa 50 40))

/-- The place of a physical address in this package's memory: its own fabric range is its bonded DRAM (R229). -/
def localPa (s : State) (pa : Nat) : Nat := if isFabric pa && ownPackage s pa then pa % 2 ^ 40 else pa

/-- The place in this package's memory of a physical address that a register or a table entry gives: none where it maps nothing
here, in reduced service outside die 0's DRAM, or in the CXL tier without CXLT, as the partition's mask has it
(R229, R237, R422). (log 84, DEDUCED) -/
def physPlace (s : State) (part pa : Nat) : Option Nat :=
  let q := localPa s pa
  if physMaps pa && !isFabric q && (!s.reduced || decide (q < 0x20_0000_0000)) && (!isCxl q || s.feature part 7) then some q else none

/-- An entry of a partition's tables; none where its address has no place here. (log 84, DEDUCED) -/
def physRead8 (s : State) (part a : Nat) : Option Nat := (physPlace s part a).map (fun q => rdLE s.mem q 8)

/-- The second stage of a partition's address space; the identity where there is none (R230). (log 6, DESIGN CHOICE) -/
def stage2 (s : State) (part : Nat) (root2 : Option Nat) (ia : Nat) : Option (Nat × Nat × Perm) :=
  match root2 with
  | none => some (ia, 2 ^ 48, .all)
  | some r => walk (physRead8 s part) r ia

def Perm.both (a b : Perm) : Perm := ⟨a.w && b.w, a.x && b.x, a.u && b.u, a.ro || b.ro, a.nco || b.nco⟩

/-- Both stages of translation of a virtual address (R230). (log 6, DESIGN CHOICE) -/
def walkVa (s : State) (part asid va : Nat) : Option (Nat × Nat × Perm) :=
  match tget s.roots (65536 * part + asid) with
  | none => none
  | some (r1, r2) =>
    match walk (fun a => (stage2 s part r2 a).bind (fun x => physRead8 s part x.1)) r1 va with
    | none => none
    | some (ia, n1, p1) => (stage2 s part r2 ia).map (fun x => (x.1, min n1 x.2.1, p1.both x.2.2))

/-- Protection of an access, given its page's permissions and its physical address (R230, R231, R237). (log 17, DEDUCED) -/
def allowed (s : State) (w : Who) (need : Need) (pa : Nat) (p : Perm) : Bool :=
  physMaps pa
  && (!s.reduced || decide (pa < 0x20_0000_0000))
  && (!isCxl pa || s.feature w.part 7)
  && (!isFabric pa || fabricAnswers s pa)
  && (decide (0 < w.lvl) || p.u)
  && (match need with
      | .load | .engineLoad => true
      | .store => p.w
      | .engineStore => p.w && !p.ro
      | .fetch => p.x)

/-- The TLB entry of a cluster that covers an address. (log 7, DESIGN CHOICE) -/
def tlbFind (s : State) (w : Who) (va : Nat) : Option TlbEntry :=
  s.coh.tlb.find? (fun e => e.clus == w.clus && e.part == w.part && e.asid == w.asid
    && decide (e.base ≤ va) && decide (va < e.base + e.size))

/-- A walk's result kept in the cluster TLB, the oldest entry of a full TLB giving way (log 7, DESIGN CHOICE). -/
def tlbInsert (s : State) (w : Who) (va pa size : Nat) (p : Perm) : State :=
  let e : TlbEntry := ⟨w.clus, w.part, w.asid, va - va % size, size, pa - va % size, p⟩
  let mine := (s.coh.tlb.filter (fun x => x.clus == w.clus)).length
  let rest := if mine < Config.tlbEntries then s.coh.tlb
    else
      match s.coh.tlb.reverse.find? (fun x => x.clus == w.clus) with
      | some o => s.coh.tlb.erase o
      | none => s.coh.tlb
  { s with coh := { s.coh with tlb := e :: rest } }

/-- The outcome of a translation: a physical address with its permissions, or a cause. -/
inductive Xlate where
  | ok (pa : Nat) (perm : Perm)
  | fail (cause : Nat)
  deriving DecidableEq, Repr

/-- Translation mode of a partition (R406): with XMODE set a miss is a request to the host (R408). -/
def State.atsMode (s : State) (part : Nat) : Bool := (s.part part).guest.xmode.toNat % 2 == 1

def Need.isWrite : Need → Bool
  | .store | .engineStore => true
  | _ => false

/-- One page request for a page whose translation the host refused; beyond 64 outstanding PRLOST counts (R408). -/
def pageRequest (s : State) (w : Who) (page : Nat) (write : Bool) : State :=
  let g := (s.part w.part).guest
  if g.pageReqs.any (fun r => r.asid == w.asid && r.page == page) then s
  else if Config.pageRequests ≤ g.pageReqs.length then
    s.modPart w.part (fun p => { p with guest := { p.guest with
      prLost := satInc p.guest.prLost } })
  else
    let idx := ((upto Config.pageRequests).find? (fun i => g.pageReqs.all (fun r => r.idx != i))).getD 0
    { s.modPart w.part (fun p => { p with guest := { p.guest with
        pageReqs := p.guest.pageReqs ++ [⟨idx, w.asid, page⟩] } }) with
      out := s.out ++ [.pageRequest w.part w.asid page idx write] }

/-- An access waits for the host's answer to a request for its page. -/
def AtsAsk.serves (a : AtsAsk) (w : Who) (page : Nat) : Bool :=
  a.clus == w.clus && a.part == w.part && a.asid == w.asid && a.page == page

/-- A cluster TLB miss under ATS (R408): a refusal that answered a request of the same path, or a request to the host, for
whose answer the access waits, beside those that wait for it already. -/
def atsMiss (s : State) (w : Who) (need : Need) (va : Nat) : State × Xlate :=
  let page := va / 4096
  let mine := fun (a : AtsAsk) => a.serves w page && a.askers.contains s.cur
  match s.coh.ats.find? (fun a => mine a && a.answer.isSome), s.coh.ats.any (fun a => a.serves w page && a.answer.isNone) with
  | some a, _ =>
    let k := a.answer.getD 0x0A
    (if k = 0x0A then pageRequest s w page need.isWrite else s, .fail k)
  | none, true =>
    ({ s with
      coh := { s.coh with
        atsWait := true
        ats := s.coh.ats.map (fun a =>
          if a.serves w page && a.answer.isNone && !a.askers.contains s.cur then { a with askers := s.cur :: a.askers } else a) } }, .fail 0x0A)
  | none, false =>
    ({ s with
      coh := { s.coh with atsWait := true, ats := ⟨w.clus, w.part, w.asid, page, none, [s.cur]⟩ :: s.coh.ats }
      out := s.out ++ [.atsRequest w.part w.asid page need.isWrite (decide (0 < w.lvl))] }, .fail 0x0A)

/-- Translation of a virtual address for an access: cluster TLB, then the walk or the host (R234, R408), then protection
(R231). A walk that succeeds installs its entry whatever the access lacks (R329). (log 6, DESIGN CHOICE) -/
def xlate (s : State) (w : Who) (need : Need) (va : Nat) : State × Xlate :=
  match tlbFind s w va with
  | some e =>
    let pa := e.pa + (va - e.base)
    (s, if allowed s w need pa e.perm then .ok pa e.perm else .fail 0x0B)
  | none =>
    if s.atsMode w.part then (if va < 2 ^ 48 then atsMiss s w need va else (s, .fail 0x0A))
    else
      match walkVa s w.part w.asid va with
      | none => (s, .fail 0x0A)
      | some (pa, size, p) =>
        (tlbInsert s w va pa size p, if allowed s w need pa p then .ok pa p else .fail 0x0B)

/-- What an access that waits for the host leaves of its step: the requests and nothing else (R408). -/
def keepAsks (s t : State) : State :=
  let asked := (t.out.drop s.out.length).filter (fun m => match m with | .atsRequest .. => true | _ => false)
  { s with coh := { s.coh with ats := t.coh.ats, atsWait := false }, out := s.out ++ asked }

/-- Refusals that answered what is now complete are dropped; those that others wait for stay (R408). -/
def dropAnswers (s : State) : State :=
  { s with coh := { s.coh with ats := s.coh.ats.filterMap (fun a =>
    if a.answer.isNone then some a
    else
      let l := a.askers.filter (· != s.cur)
      if l.isEmpty then none else some { a with askers := l }) } }

/-- The number, past the clusters, under which the TLB keeps translations for the device's own accesses under ATS.
(log 67, DEDUCED) -/
def deviceTlb : Nat := 96

/-- A translation of a partition's address space 0 that the host has given, for the device's own accesses under ATS. -/
def heldXlate (s : State) (part va : Nat) : Option (Nat × Perm) :=
  (s.coh.tlb.find? (fun e => e.part == part && e.asid == 0 && decide (e.base ≤ va) && decide (va < e.base + e.size))).map
    (fun e => (e.pa + (va - e.base), e.perm))

/-- A device's own access to a structure in an address space of a partition: V, W for a write (R11), and CXLT for the second
tier (R237); its place in this package, or its fabric address where another package answers (R229, R417), and NCO.
(log 17, DEDUCED) -/
def devXlate (s : State) (part va : Nat) (write : Bool) : Option (Nat × Bool) :=
  let x := if s.atsMode part then heldXlate s part va else (walkVa s part 0 va).map (fun r => (r.1, r.2.2))
  match x with
  | none => none
  | some (pa, p) =>
    let far := isFabric pa && !ownPackage s pa && physMaps pa && !s.reduced && fabricAnswers s pa
    if write && !p.w then none
    else if far then some (pa, false)
    else (physPlace s part pa).map (fun q => (q, p.nco && !isFabric pa))

/-- The die whose agent acts in a step: that of the issuing path, or of the launcher, engine or block that an event concerns; a
committed record's key is read on its committer's die (R294). (log 84, DEDUCED) -/
def State.agentDie (s : State) : Option Nat :=
  let blockDie := fun (bid : Nat) => (tget s.blocks bid).map (·.place.die)
  match s.cur, s.due with
  | some (bid, _), _ => blockDie bid
  | none, some (.launchDecision _ _ d) | none, some (.coalescingTimerExpiry _ _ d) => some d
  | none, some (.blockRequeuePlace d) | none, some (.gangRelaunch d) | none, some (.samplerRequest d) => some d
  | none, some (.loopReissue i) | none, some (.iterationEnd i) => (tget s.iters i).map (·.die)
  | none, some (.blockRetire b) => blockDie b
  | none, some (.programStageComplete b) => (s.engines.programs.find? (fun p => p.blk == some b)).map (·.die)
  | none, some (.commitArrival _ _ _ (.sampler d)) | none, some (.commitArrival _ _ _ (.lane d _ _ _ _)) => some d
  | none, _ => none

/-- The state as an agent of a die sees memory in it; for reads only. -/
def State.seenFrom (s : State) (die : Nat) : State := { s with cur := none, due := some (.samplerRequest die) }

/-! Directory requests (R315) -/

/-- The words of a line that bytes touch. -/
def wordMask (pa n : Nat) : BitVec 16 :=
  BitVec.ofNat 16 (2 ^ ((pa % 64 + n + 3) / 4) - 2 ^ (pa % 64 / 4))

/-- Requests of a cycle reach the home slice together in the next one (R314). (log 63, DEDUCED) -/
def State.request (s : State) (e : Event) : State := s.postOnce (s.cycle + 1) e

/-- A write of bytes by the host or the fabric interface, served at the home die as HW (R324). -/
def agentWrite (s : State) (pa : Nat) (l : List Byte) : State :=
  let s := { s with mem := wrBytes s.mem pa l }
  (upto ((pa % 64 + l.length + 63) / 64)).foldl (fun s i =>
    let lo := max pa (64 * (pa / 64 + i))
    let hi := min (pa + l.length) (64 * (pa / 64 + i + 1))
    s.request (.dirHomeWrite 4 (pa / 64 + i) (wordMask lo (hi - lo)))) s

/-- Bytes that the device itself writes at a physical address, served as HW at their homes; nothing where the address has no
place here (R229, R315). (log 84, DEDUCED) -/
def physWrite (s : State) (part pa : Nat) (l : List Byte) : State := (physPlace s part pa).elim s (fun q => agentWrite s q l)

/-- Many bytes so written: only the lines that some die holds or asks for make a request, since HW leaves the others U (R315).
(log 84, DEDUCED) -/
def physWriteAll (s : State) (part pa : Nat) (l : List Byte) : State :=
  match physPlace s part pa with
  | none => s
  | some q =>
    let t := { s with mem := wrBytes s.mem q l }
    let mine := fun (line : Nat) => decide (q / 64 ≤ line) && decide (64 * line < q + l.length)
    let asked := s.events.filterMap (fun e => match e.2 with
      | .dirRemoteLoad _ k | .dirRemoteStore _ k _ => if mine k then some k else none
      | _ => none)
    (sortNat ((s.coh.dir.map (·.1)).filter mine ++ asked)).foldl (fun t line =>
      t.request (.dirHomeWrite 4 line (BitVec.allOnes 16))) t

/-- A load's request at the line's home (R315); fabric-homed lines and NCO pages make none (R319, R323). -/
def noteLoad (s : State) (die pa : Nat) (nco : Bool) : State :=
  if nco || isFabric pa then s
  else if homeDie pa = die then s.request (.dirHomeLoad die (pa / 64) (pa % 64 / 4))
  else s.request (.dirRemoteLoad die (pa / 64))

/-- A store's request at the line's home (R315). -/
def noteStore (s : State) (die pa n : Nat) (nco : Bool) : State :=
  if nco || isFabric pa then s
  else if homeDie pa = die then s.request (.dirHomeWrite die (pa / 64) (wordMask pa n))
  else s.request (.dirRemoteStore die (pa / 64) (wordMask pa n))

/-! Die copies of NCO lines (R319) -/

def ncoFind (s : State) (die line : Nat) : Option NcoLine :=
  s.coh.nco.find? (fun x => x.die == die && x.line == line)

/-- A reading of the rules (log 33, DESIGN CHOICE). -/
def setNco (s : State) (l : List NcoLine) : State := { s with coh := { s.coh with nco := l } }

/-- Bytes of an NCO copy that its die has written go to the home. -/
def cleanCopy (m : Memory) (x : NcoLine) : Memory :=
  (upto 64).foldl (fun m i => if bit? x.written.toNat i then wrByte m (64 * x.line + i) (x.bytes.getD i 0) else m) m

/-- Two lines share a set of a die's L2 (R236). -/
def sameL2Set (a b : Nat) : Bool := homeSlice (64 * a) == homeSlice (64 * b) && homeSet (64 * a) == homeSet (64 * b)

/-- A die's NCO copy leaves its L2: what the die has written goes home, and its cores own nothing of it any more. -/
def ncoEvict (s : State) (x : NcoLine) : State :=
  { s with
    mem := cleanCopy s.mem x
    coh := { s.coh with
      nco := s.coh.nco.filter (fun y => !(y.die == x.die && y.line == x.line))
      owners := s.coh.owners.filter (fun e => !(e.1 / 2 ^ 50 == x.die + 1 && e.1 % 2 ^ 50 / 16 == x.line)) } }

/-- A set of a die's L2 holds no more NCO copies than it has ways: the oldest that is not on its way out is evicted in the next
cycle (R2, R236). (log 33, DESIGN CHOICE) -/
def ncoRoom (s : State) (die line : Nat) : State :=
  let mine := (s.coh.nco.filter (fun x => x.die == die && sameL2Set x.line line)).reverse
  if mine.length < Config.l2Ways then s
  else (mine[mine.length - Config.l2Ways]?).elim s (fun x => s.request (.dirEvict die x.line))

/-- The die's copy of an NCO line, filled from the home when there is none. (log 33, DESIGN CHOICE) -/
def ncoFill (s : State) (die line : Nat) : State × NcoLine :=
  match ncoFind s die line with
  | some x => (s, x)
  | none =>
    let s := ncoRoom s die line
    let x : NcoLine := ⟨die, line, rdBytes s.mem (64 * line) 64, 0⟩
    (setNco s (x :: s.coh.nco), x)

/-- A reading of the rules (log 33, DESIGN CHOICE). -/
def ncoPut (s : State) (x : NcoLine) : State :=
  setNco s (s.coh.nco.map (fun y => if y.die = x.die ∧ y.line = x.line then x else y))

/-- Bytes of one line as a die reads them: its copy of an NCO line homed elsewhere, or memory (R308, R315, R319). -/
def readFrom (s : State) (die pa n : Nat) (nco : Bool) : State × List Byte :=
  if nco && homeDie pa != die then
    let x := ncoFill s die (pa / 64)
    (x.1, (x.2.bytes.drop (pa % 64)).take n)
  else (noteLoad s die pa nco, rdBytes s.mem pa n)

/-- A list with bytes put in from an index. -/
def putAt {α : Type} (l : List α) (i : Nat) (v : List α) : List α := l.take i ++ v ++ l.drop (i + v.length)

/-- Physical bytes of one line written from a die: its copy of an NCO line homed elsewhere, or memory (R315, R319). -/
def writeFrom (s : State) (die pa : Nat) (nco : Bool) (v : List Byte) : State :=
  if nco && homeDie pa != die then
    let x := ncoFill s die (pa / 64)
    ncoPut x.1 { x.2 with
      bytes := putAt x.2.bytes (pa % 64) v
      written := x.2.written ||| BitVec.ofNat 64 (2 ^ (pa % 64 + v.length) - 2 ^ (pa % 64)) }
  else noteStore { s with mem := wrBytes s.mem pa v } die pa v.length nco

/-- The line holds an uncorrectable error (R397). -/
def State.lineBad (s : State) (pa : Nat) : Bool := (tget s.coh.ue (pa / 64)).isSome

/-- The row of R397 in which bytes of a line in error stand. -/
def State.lineDom (s : State) (pa n : Nat) : Nat := (tget s.coh.ue (pa / 64)).getD (tgetD s.coh.ue ((pa + n - 1) / 64) 4)

/-- A byte as the acting agent's die sees it: its own copy of an NCO line, or memory (R308, R319); one of another package is a
free value (log 5). -/
def devByte (s : State) (pa : Nat) (nco : Bool) : Byte :=
  if isFabric pa then Config.farByte s.cycle pa
  else
  match s.agentDie with
  | some d =>
    if nco && homeDie pa != d then
      match ncoFind s d (pa / 64) with
      | some x => x.bytes.getD (pa % 64) 0
      | none => rdByte s.mem pa
    else rdByte s.mem pa
  | none => rdByte s.mem pa

/-- The translation of the byte after `va`: that of its page, which begins with it or holds `va` at `x`. -/
def nextByte (s : State) (part va : Nat) (store : Bool) (x : Nat × Bool) : Option (Nat × Bool) :=
  if (va + 1) % 4096 = 0 then devXlate s part (va + 1) store else some (x.1 + 1, x.2)

/-- `n` bytes read by the device from the virtual address `va`, which stands at `x`. -/
def devReadAt (s : State) (part va : Nat) (x : Option (Nat × Bool)) : Nat → Option Nat
  | 0 => some 0
  | n + 1 =>
    match x with
    | none => none
    | some y =>
      if s.lineBad y.1 then none
      else (devReadAt s part (va + 1) (nextByte s part va false y) n).map (fun r => (devByte s y.1 y.2).toNat + 256 * r)

/-- `n` bytes read by the device at a virtual address, page by page; none is a fault. (log 17, DEDUCED) -/
def devRead (s : State) (part va n : Nat) : Option Nat := devReadAt s part va (devXlate s part va false) n

/-- The loads of `n` bytes by an agent of a die reach the directory (R315); the die keeps its copies of NCO lines (R319). -/
def State.noteReadOn (s : State) (d part va n : Nat) : State :=
  (upto ((va % 64 + n + 63) / 64)).foldl (fun s i =>
    match devXlate s part (max va (64 * (va / 64 + i))) false with
    | some (pa, nco) => if nco && homeDie pa != d then (ncoFill s d (pa / 64)).1 else noteLoad s d pa nco
    | none => s) s

/-- The loads of `n` bytes by the acting agent. -/
def State.noteRead (s : State) (part va n : Nat) : State := s.agentDie.elim s (fun d => s.noteReadOn d part va n)

/-- `n` bytes written by the device from the virtual address `va`, which stands at `x`. -/
def devWriteAt (s : State) (part va : Nat) (x : Option (Nat × Bool)) : Nat → Nat → Option State
  | 0, _ => some s
  | n + 1, v =>
    match x with
    | none => none
    | some y =>
      let l := [BitVec.ofNat 8 v]
      let t := if isFabric y.1 then s
        else match s.agentDie with | some d => writeFrom s d y.1 y.2 l | none => agentWrite s y.1 l
      devWriteAt t part (va + 1) (nextByte s part va true y) n (v / 256)

/-- `n` bytes written by the device at a virtual address, from the acting agent's die. (log 17, DEDUCED) -/
def devWrite (s : State) (part va n v : Nat) : Option State := devWriteAt s part va (devXlate s part va true) n v

end Sys2Proof.Machine
end

