-- ==== Sys2Proof/Machine/Ops.lean ====
section
/-! DEFINITION. The shared operations of issue: where an instruction stands, ending it, parking, ports, and taking an
exception with its records and rings (R90-R99, R111, R362-R368). -/

namespace Sys2Proof.Machine

/-- Where an instruction stands: its run, its slot, its PC (R93). -/
structure Env where
  run : Nat
  slot : Nat
  pc : Word
  deriving DecidableEq, Repr

/-- The issuing path with its block; `coll` is the instruction's collector time (R90). -/
structure Ctx where
  bid : Nat
  pid : Nat
  b : Block
  p : Path
  env : Env
  coll : Nat

/-- A cause raised by an instruction, with the fields of the record that its rule gives (R363). `derived` marks consumed
derived poison (R250); `dom` is the row of R397 of cause 0x13; `bit` the feature bit that governs an undefined word (R110, R365). -/
structure TrapInfo where
  cause : Nat
  addr : Nat := 0
  depth : Option Nat := none
  prog : Nat := 0
  derived : Bool := false
  dom : Nat := 4
  bit : Option Nat := none

/-- A lane's outcome: its value, a cause in that lane alone, or a cause for the whole path. -/
inductive LaneRes (α : Type) where
  | ok (a : α)
  | lane (t : TrapInfo)
  | path (t : TrapInfo)

def LaneRes.bind {α β : Type} (r : LaneRes α) (f : α → LaneRes β) : LaneRes β :=
  match r with
  | .ok a => f a
  | .lane t => .lane t
  | .path t => .path t

def LaneRes.map {α β : Type} (r : LaneRes α) (f : α → β) : LaneRes β := r.bind (fun a => .ok (f a))

/-! Interrupts and rings -/

/-- An event's vector is sent when neither its status nor its mask bit is set (R410). (log 47, DEDUCED) -/
def sendIrq (s : State) (part vec : Nat) : State :=
  let r := (s.part part).rep
  if bit? r.irqs.toNat vec || bit? r.irqm.toNat vec then s
  else
    { s.modPart part (fun p => { p with rep := { p.rep with irqs := p.rep.irqs ||| BitVec.ofNat 4 (2 ^ vec) } }) with
      out := s.out ++ [.msix part vec] }

def Ring.enabled (r : Ring) : Bool := decide (4 ≤ r.size.toNat) && decide (r.size.toNat ≤ 14)
def Ring.entries (r : Ring) : Nat := 2 ^ r.size.toNat
def Ring.full (r : Ring) : Bool := (r.head.toNat + 1) % r.entries == r.tail.toNat % r.entries

/-- The 64 bytes of a fault record (R363). -/
def FaultRec.bytes (f : FaultRec) : List Byte :=
  toBytes 4 f.pc.toNat ++ toBytes 1 f.cause.toNat ++ [f.flags] ++ toBytes 2 f.depth.toNat ++ toBytes 8 f.addr.toNat
    ++ toBytes 4 f.mask.toNat ++ toBytes 4 f.runPc.toNat ++ [f.udepth, f.lvl] ++ toBytes 2 f.blane.toNat
    ++ toBytes 4 f.prog.toNat ++ toBytes 16 f.origin.toNat ++ toBytes 4 f.block.toNat ++ toBytes 2 f.node.toNat
    ++ [0, 0] ++ toBytes 8 f.seq.toNat

/-- The thread's latest record. -/
def Thread.last (t : Thread) : FaultRec := (t.behind.getLast?.map (·.1)).getD t.fault

/-- REPORT: the record's thread was not stopped (R363, R365). -/
def FaultRec.report (f : FaultRec) : Bool := bit? f.flags.toNat 1

/-- A record written into a thread's context: behind that of a stop which is still held, else in place of the shown one
(R363, R364); where no stop's record is held none stands behind. -/
def Thread.record (t : Thread) (f : FaultRec) (held : Bool) : Thread :=
  if t.held && !t.fault.report then { t with behind := t.behind ++ [(f, held)] }
  else { t with fault := f, held := held, behind := [] }

/-- The thread's held record has been appended under a sequence number; the next held one, or else the latest, is shown
(R364). -/
def Thread.appended (t : Thread) (seq : DWord) : Thread :=
  match t.behind.dropWhile (fun x : FaultRec × Bool => !x.2), t.behind.getLast? with
  | x :: rest, _ => { t with fault := x.1, held := true, behind := rest }
  | [], some x => { t with fault := x.1, held := false, behind := [] }
  | [], none => { t with fault := { t.fault with seq := seq }, held := false }

/-- One fault record put at the head of an enabled ring that is not full; it takes the next sequence number (R364).
(log 16, DEDUCED) -/
def putFault (s : State) (part bid key : Nat) (f : FaultRec) : State :=
  let r := (s.part part).rep.fault
  let shown := f
  let f := { f with seq := r.next }
  let s := physWrite s part (r.base.toNat + 64 * r.head.toNat) f.bytes
  let s := s.modPart part (fun p => { p with rep := { p.rep with fault :=
    { r with head := BitVec.ofNat 16 ((r.head.toNat + 1) % r.entries), next := r.next + 1 } } })
  sendIrq (s.modAny bid (·.modThread key (fun t => if t.held && decide (t.fault = shown) then t.appended f.seq else t))) part 0

/-- A record that goes to system software is written into the thread's context and appended, or held while the ring is full
or disabled; a REPORT record that finds its holding queue full is dropped (R363, R364). -/
def reportFault (s : State) (part : Nat) (report : Bool) (bid key : Nat) (f : FaultRec) : State :=
  let rep := (s.part part).rep
  let write := fun (s : State) (held : Bool) => s.modThread bid key (·.record f held)
  if rep.fault.enabled && !rep.fault.full && rep.heldFaults.isEmpty then putFault (write s true) part bid key f
  else if report && decide (Config.holdQueue ≤ (rep.heldFaults.filter (·.1)).length) then
    (write s false).modPart part (fun p => { p with rep := { p.rep with fault :=
      { p.rep.fault with lost := satInc p.rep.fault.lost } } })
  else
    (write s true).modPart part (fun p => { p with rep := { p.rep with
      fault := { p.rep.fault with ovf := satInc p.rep.fault.ovf }
      heldFaults := p.rep.heldFaults ++ [(report, bid, key, f)] } })

/-- Held records are appended in order while entries are free (R364). -/
def drainFaults (s : State) (part : Nat) : Nat → State
  | 0 => s
  | n + 1 =>
    let rep := (s.part part).rep
    match rep.heldFaults with
    | [] => s
    | h :: rest =>
      if rep.fault.enabled && !rep.fault.full then
        let s := s.modPart part (fun p => { p with rep := { p.rep with heldFaults := rest } })
        drainFaults (putFault s part h.2.1 h.2.2.1 h.2.2.2) part n
      else s

/-- An error record's bytes (R398). -/
structure ErrInfo where
  kind : Nat
  cause : Nat
  domain : Nat
  die : Nat
  core : Nat
  sector : Nat
  addr : Nat
  block : Nat
  node : Nat
  cell : Nat
  old : Nat
  new : Nat

def ErrInfo.toRec (e : ErrInfo) : ErrRec :=
  ⟨toBytes 1 e.kind ++ toBytes 1 e.cause ++ toBytes 1 e.domain ++ [0]
    ++ toBytes 4 (e.die % 4 + 4 * (e.core % 256) + 1024 * (e.sector % 4)) ++ toBytes 8 e.addr ++ toBytes 4 e.block
    ++ toBytes 2 e.node ++ toBytes 2 e.cell ++ toBytes 4 e.old ++ toBytes 4 e.new⟩

/-- The bytes of a record with its sequence number, 64 in all (R398). -/
def ErrRec.full (e : ErrRec) (seq : DWord) : List Byte := e.bytes ++ toBytes 8 seq.toNat ++ List.replicate 24 0

/-- A reading of the rules (log 16, DEDUCED; log 24, DESIGN CHOICE). -/
def putError (s : State) (part : Nat) (e : ErrRec) : State :=
  let r := (s.part part).rep.error
  let s := physWrite s part (r.base.toNat + 64 * r.head.toNat) (e.full r.next)
  let s := s.modPart part (fun p => { p with rep := { p.rep with error :=
    { r with head := BitVec.ofNat 16 ((r.head.toNat + 1) % r.entries), next := r.next + 1 } } })
  sendIrq s part 1

def DieState.count (d : DieState) (e : ErrInfo) : DieState :=
  if e.kind = 4 then
    (if e.domain = 0 then { d with fileCorr := satInc d.fileCorr } else { d with memCorr := satInc d.memCorr })
  else if e.cause = 0x13 ∧ e.kind ≠ 7 then { d with uncorr := satInc d.uncorr }
  else d

/-- The counters of the record's die, and what its block's kill will name (R399, R403). (log 58, DEDUCED) -/
def countError (s : State) (e : ErrInfo) : State :=
  let s := s.modPkg (fun k => { k with dies := lmod k.dies e.die (·.count e) })
  if e.cause = 0x13 then s.modAny e.block (fun b => { b with errAt := (e.domain, e.addr) }) else s

/-- An error record for a partition's error ring, held or dropped as R398 gives. -/
def reportError (s : State) (part : Nat) (e : ErrInfo) : State :=
  let s := countError s e
  let rep := (s.part part).rep
  if rep.error.enabled && !rep.error.full && rep.heldErrors.isEmpty then putError s part e.toRec
  else if rep.heldErrors.length < Config.holdQueue then
    s.modPart part (fun p => { p with rep := { p.rep with
      error := { p.rep.error with ovf := satInc p.rep.error.ovf }
      heldErrors := p.rep.heldErrors ++ [e.toRec] } })
  else
    s.modPart part (fun p => { p with rep := { p.rep with
      error := { p.rep.error with lost := satInc p.rep.error.lost } } })

def drainErrors (s : State) (part : Nat) : Nat → State
  | 0 => s
  | n + 1 =>
    let rep := (s.part part).rep
    match rep.heldErrors with
    | [] => s
    | e :: rest =>
      if rep.error.enabled && !rep.error.full then
        drainErrors (putError (s.modPart part (fun p => { p with rep := { p.rep with heldErrors := rest } })) part e)
          part n
      else s

/-- A record at the head of the hypervisor's error ring (R398). -/
def putHyper (s : State) (e : ErrRec) : State :=
  let r := s.pkg.hyperErr
  (physWrite s 0 (r.base.toNat + 64 * r.head.toNat) (e.full r.next)).modPkg (fun k => { k with hyperErr :=
    { r with head := BitVec.ofNat 16 ((r.head.toNat + 1) % r.entries), next := r.next + 1 } })

/-- Held records of the hypervisor's ring are appended in order while entries are free (R398). -/
def drainHyper (s : State) : Nat → State
  | 0 => s
  | n + 1 =>
    match s.pkg.hyperHeld with
    | [] => s
    | e :: rest =>
      if s.pkg.hyperErr.enabled && !s.pkg.hyperErr.full then
        drainHyper (putHyper (s.modPkg (fun k => { k with hyperHeld := rest })) e) n
      else s

/-- An error that concerns no single partition: the hypervisor's ring (R398), whose registers no rule places (log 8).
(log 24, DESIGN CHOICE) -/
def reportHyper (s : State) (e : ErrInfo) : State :=
  let s := drainHyper (countError s e) Config.holdQueue
  let r := s.pkg.hyperErr
  if r.enabled && !r.full && s.pkg.hyperHeld.isEmpty then putHyper s e.toRec
  else if s.pkg.hyperHeld.length < Config.holdQueue then
    s.modPkg (fun k => { k with hyperErr := { r with ovf := satInc r.ovf }, hyperHeld := k.hyperHeld ++ [e.toRec] })
  else s.modPkg (fun k => { k with hyperErr := { r with lost := satInc r.lost } })

/-! Ports, readiness -/

/-- The port's choice takes place in the present cycle (R98). -/
def wakePort (s : State) (sector : Nat) (finder : Bool) : State := s.postOnce s.cycle (.portChoice sector finder)

/-- A port that a path held becomes free; at this run boundary of the execute port warps may form (R85). -/
def releasePort (s : State) (bid pid : Nat) : State :=
  match tget s.blocks bid, s.path? bid pid with
  | some b, some p =>
    let k := b.sectorOf p.warp
    let sec := s.sector k
    if p.finder then
      if sec.find = some (bid, pid) then wakePort (s.modSector k (fun x => { x with find := none })) k true else s
    else
      if sec.exec = some (bid, pid) then
        let s := wakePort (s.modSector k (fun x => { x with exec := none })) k false
        if sec.bins.all (fun n => n.2.filed.isEmpty) then s else s.postOnce s.cycle (.warpFormation k)
      else s
  | _, _ => s

/-- The partition-table entry of a physical cluster as it acts (R414): in reduced service partition 0 holds cluster 0 and
nothing else is held (R422). -/
def State.ptEntry (s : State) (clus : Nat) : Nat :=
  if s.reduced then (if clus = 0 then 0x8000 else 0) else (s.pkg.ptab.getD clus 0).toNat

/-- The logical cluster of a physical cluster (R414). -/
def State.logical (s : State) (clus : Nat) : Nat := bits (s.ptEntry clus) 12 6

/-- The unit number of the threads of a warp that wait at `rehome`, beside those of paths (R379). -/
def homeUnit (warp : Nat) : Nat := 2 ^ 32 + warp

/-- Threads that count toward a join: neither exited nor stopped by a trap (R210, R214); a suspended thread and one that the
debugger halted count (R99, R381). (log 12, DEDUCED) -/
def Block.live (b : Block) (keys : List Nat) : List Nat :=
  keys.filter (fun k => match tget b.threads k with
    | some t => t.run == .running || t.run == .rehoming || t.run == .suspended || (t.run == .stopped && t.stopRec.cause == 0x16)
    | none => false)

/-- Lanes of an arm that wait at their join. (log 12, DEDUCED; log 20, DEDUCED) -/
def Block.joined (b : Block) (fid : Nat) (keys : List Nat) : List Nat :=
  keys.filter (fun k => b.paths.any (fun e => e.2.wait == .joining fid && mem? e.2.lanes k))

/-- An arm is in when each of its live lanes waits at the join (R213). -/
def Block.armIn (b : Block) (fid : Nat) (keys : List Nat) : Bool :=
  (b.live keys).all (fun k => mem? (b.joined fid keys) k)

/-- A join can complete: both arms are in and some lane waits. -/
def Block.joinReady (b : Block) (fid : Nat) (f : Fork) : Bool :=
  b.armIn fid f.fall && b.armIn fid f.taken && b.paths.any (fun e => e.2.wait == .joining fid)

/-- Threads a rendezvous expects: those of its warps that have not exited (R78). -/
def Block.expected (b : Block) (r : Rdv) : List (Nat × Thread) :=
  b.threads.filter (fun e => decide (e.1 < 1024) && bit? r.warps.toNat (homeWarp e.1) && e.2.run != .exited)

def Block.arrived (b : Block) (r : Rdv) : List Nat :=
  (r.paths.filterMap (fun p => tget b.paths p)).flatMap (·.lanes)

/-- An instance can complete: every expected lane arrived, or, when it is faulted, was stopped (R78, R79). -/
def Block.meetReady (b : Block) (r : Rdv) : Bool :=
  let arr := b.arrived r
  (b.expected r).all (fun e => mem? arr e.1 || (r.faulted && (e.2.run == .stopped || e.2.run == .suspended)))

/-- Joins, meetings and returns home that the block's present state completes are put into the event list. -/
def recheck (s : State) (bid : Nat) : State :=
  match tget s.blocks bid with
  | none => s
  | some b =>
    let s := b.forks.foldl (fun s e => if b.joinReady e.1 e.2 then s.postOnce s.cycle (.joinMerge bid e.1) else s) s
    let s := b.rdvs.foldl (fun s e =>
      if b.meetReady e.2 then s.postOnce s.cycle (.rendezvousComplete bid e.1) else s) s
    let s := (b.threads.filter (fun e => e.2.run == .rehoming)).foldl (fun s e =>
      s.postOnce s.cycle (.rehomeRelease bid (homeWarp e.1))) s
    if b.threads.all (fun e => decide (1024 ≤ e.1) || e.2.run == .exited) then
      s.postOnce s.cycle (.blockRetire bid) else s

/-- A fresh run: its first instruction is unpaired and stands at the slot of its collector time (R93). -/
def RunState.start (id : Nat) (pc : Word) (base : Nat) : RunState :=
  ⟨id, pc, 0, 0, 0, 0, [], false, base, 0, 0, [], 0, false⟩

/-- Every long-latency result that the path is owed has returned (R97, R362). -/
def RunState.settled (r : RunState) : Bool := r.owed == 0 && r.awaits.isEmpty

/-- A path made ready at a cycle with a new run (R97), and its port woken; it stays at its yield point until it issues
(R178). -/
def makeReady (s : State) (bid pid : Nat) : State :=
  match tget s.blocks bid, s.path? bid pid with
  | some b, some p =>
    let (id, s) := s.fresh
    let y := p.run.yieldPt && p.wait == .parked
    let s := s.modPath bid pid (fun p =>
      { p with wait := .ready s.cycle, run := { RunState.start id p.pc s.cycle with yieldPt := y, port := p.run.port } })
    wakePort s (b.sectorOf p.warp) p.finder
  | _, _ => s

/-- A path whose run a trap, a release or a regathering has ended waits for what it is owed, and then begins its next run
(R92, R97, R100, R362). -/
def beginRun (s : State) (bid pid : Nat) : State :=
  match s.path? bid pid with
  | none => s
  | some p =>
    let base := max p.run.base s.cycle
    (s.modPath bid pid (fun p => { p with
      wait := .parked, since := s.cycle
      run := { p.run with base := base, count := 0, sleep := 0, yieldPt := false } })).post base (.pathReady bid pid)

/-- A path stopped at a boundary by a halt or a suspension that waited for it (R105, R366); the debugger stops lanes that wait at
a `join` as well, and they stay blocked there (R99, R381). (log 57, DEDUCED) -/
def Path.takesHalt (p : Path) : Bool :=
  match p.wait, p.haltAt with
  | .ready _, some _ => p.run.count == 0
  | .parked, some _ => p.run.settled
  | .joining _, some h => p.run.settled && h.1 == .stopped
  | _, _ => false

/-! Taking an exception -/

/-- The record of a trap of one thread of an issuing path (R363). -/
def mkFault (b : Block) (bid : Nat) (p : Path) (key : Nat) (t : Thread) (i : TrapInfo) (ufull : Bool) : FaultRec where
  pc := p.pc
  cause := BitVec.ofNat 6 i.cause
  flags := BitVec.ofNat 8 (b2n p.nest.isSome + 4 * b2n p.finder + 8 * b2n p.formed + 16 * b2n ufull)
  depth := BitVec.ofNat 16 (i.depth.getD t.stack.length)
  addr := BitVec.ofNat 64 i.addr
  mask := wd (laneMask p.lanes)
  runPc := p.run.pc
  udepth := BitVec.ofNat 8 p.ust.length
  lvl := BitVec.ofNat 8 (b.lvl + 4 * b2n p.nest.isSome)
  blane := BitVec.ofNat 16 (blockLane key)
  prog := wd i.prog
  origin := t.origin
  block := wd bid
  node := BitVec.ofNat 16 b.launch.node
  seq := 0

/-- The routine bound to a feature bit in the node's emulation table (R38, R365). (log 23, DEDUCED) -/
def findBinding (s : State) (b : Block) (bit : Nat) : Nat → Option Nat
  | 0 => none
  | n + 1 =>
    match devRead s b.part (b.emtb + 8 * (b.emcnt - (n + 1))) 8 with
    | none => none
    | some v => if v % 65536 = bit then some (bits v 63 32) else findBinding s b bit n

/-- The loads of an emulation table up to the entry found reach the directory (R315). (log 23, DEDUCED) -/
def noteBinding (s : State) (b : Block) (bit : Option Nat) : State :=
  match bit with
  | some k =>
    let seen := ((upto b.emcnt).find? (fun i => (devRead s b.part (b.emtb + 8 * i) 2).getD k == k)).getD (b.emcnt - 1)
    if b.emtb = 0 ∨ b.emcnt = 0 then s
    else
      (upto ((b.emtb % 64 + 8 * (seen + 1) + 63) / 64)).foldl (fun s i =>
        match devXlate s b.part (max b.emtb (64 * (b.emtb / 64 + i))) false with
        | some (pa, nco) => noteLoad s b.place.die pa nco
        | none => s) s
  | none => s

/-- A reading of the rules (log 23, DEDUCED). -/
def boundRoutine (s : State) (b : Block) (bit : Option Nat) : Option Nat :=
  match bit with
  | some k => if b.emtb = 0 then none else findBinding s b k b.emcnt
  | none => none

/-- Long-latency results return in later cycles (R94, R426). (log 10, DESIGN CHOICE) -/
def postReturns (s : State) (bid pid : Nat) : Nat → State
  | 0 => s
  | n + 1 => postReturns (s.post (s.cycle + 1) (.resultReturn bid pid)) bid pid n

/-- Some lanes of a path leave it as a path of their own; all of them keep the path. The new path's number is returned.
(log 12, DEDUCED) -/
def splitPath (s : State) (bid pid : Nat) (keys : List Nat) : Nat × State :=
  match s.path? bid pid with
  | none => (pid, s)
  | some p =>
    let rest := p.lanes.filter (fun k => !mem? keys k)
    if rest.isEmpty then (pid, s)
    else
      let (id, s) := s.fresh
      let s := s.modPath bid pid (fun p => { p with lanes := rest })
      let s := s.modBlock bid (fun b => { b with paths := tset b.paths id { p with lanes := keys } })
      (id, postReturns s bid id p.run.owed)

/-- A bin without some threads of a block. -/
def unfile (bid : Nat) (keys : List Nat) (n : Nat × Bin) : Nat × Bin :=
  (n.1, { n.2 with filed := n.2.filed.filter (fun f => f.blk != bid || !mem? keys f.key) })

/-- The bins of all sectors without some threads of a block. -/
def State.unfile (s : State) (bid : Nat) (keys : List Nat) : State :=
  { s with sectors := s.sectors.map (fun (x : Nat × Sector) => (x.1, { x.2 with bins := x.2.bins.map (Machine.unfile bid keys) })) }

/-- The next PC under which a thread of a block is filed in a bin. -/
def State.filedPc (s : State) (bid key : Nat) : Option Word :=
  s.sectors.findSome? (fun x => x.2.bins.findSome? (fun n =>
    if n.2.filed.any (fun f => f.blk == bid && f.key == key) then some n.2.pc else none))

/-- Those of some threads that stand in bins or wait at `rehome` are suspended there; a binned one leaves its bin and is filed
again when it resumes (R84, R87, R105). (log 12, DEDUCED) -/
def suspendFiled (s : State) (bid : Nat) (b : Block) (which : Nat → Bool) : State :=
  let ks := (b.threads.filter (fun e => decide (e.1 < 1024) && which e.1
    && (e.2.run == .binned || e.2.run == .rehoming) && (b.pathOf e.1).isNone)).map (·.1)
  let filed := ks.foldl (fun t k => match s.filedPc bid k with | some pc => tset t k pc | none => t) b.filed
  let s := (s.unfile bid ks).modBlock bid (fun b => { b with filed := filed })
  ks.foldl (fun s k => s.modThread bid k (fun t => { t with run := .suspended })) s

/-- A warp and its finder warp depend on each other: a fault in threads of either suspends the other at its next boundary
(R105). -/
def suspendPair (s : State) (bid : Nat) (finder : Bool) (keys : List Nat) : State :=
  match tget s.blocks bid with
  | none => s
  | some b =>
    if b.fentry = 0 then s
    else
      let warps := sortNat (keys.map homeWarp)
      let s := (b.paths.filter (fun e => e.2.finder != finder && e.2.wait != .stopped && e.2.haltAt.isNone
          && e.2.lanes.any (fun k => mem? warps (homeWarp k)))).foldl
        (fun s e => s.modPath bid e.1 (fun q => { q with haltAt := some (.suspended, 0) })) s
      if finder then suspendFiled s bid b (fun k => mem? warps (homeWarp k)) else s

/-- Threads that took a pending suspension into a bin or to `rehome` are suspended before they go on (R105). -/
def suspendGathered (s : State) (bid : Nat) : State :=
  match tget s.blocks bid with
  | none => s
  | some b =>
    if b.toSuspend.isEmpty then s
    else (suspendFiled s bid b (mem? b.toSuspend)).modBlock bid (fun b => { b with toSuspend := [] })

def State.modPrograms (s : State) (f : ProgStage → ProgStage) : State :=
  { s with engines := { s.engines with programs := s.engines.programs.map f } }

/-- A program stage of the sampler runs in this block. -/
def isProgram (s : State) (bid : Nat) : Bool := s.engines.programs.any (fun p => p.blk == some bid)

/-- The cycles of its budget that a program stage has used at a cycle, never more than it had (R394). -/
def ProgStage.usedAt (p : ProgStage) (cycle : Nat) : Nat :=
  p.used + (match p.since with | some t => min (cycle - t) p.left | none => 0)

/-- A program stage whose budget stands still from a cycle on. -/
def ProgStage.paused (p : ProgStage) (cycle : Nat) : ProgStage :=
  { p with used := p.usedAt cycle, left := p.left - (p.usedAt cycle - p.used), since := none }

/-- The budget of a program stage has reached 0 in this very cycle. -/
def ProgStage.expires (p : ProgStage) (cycle : Nat) : Bool :=
  p.failed.any (fun f => f.1 == 2) && p.since.any (fun t => t + p.left == cycle)

/-- A program stage fails for a reason, the first one counting, but a trap before the budget's expiry in the same cycle; its
engine acts on it in this cycle (R394). -/
def failProgram (s : State) (bid reason : Nat) (info : List Byte) : State :=
  let s := s.modPrograms (fun p =>
    if p.blk = some bid ∧ (p.failed.isNone ∨ p.expires s.cycle) then { p with failed := some (reason, info) } else p)
  s.postOnce s.cycle (.programStageComplete bid)

/-- The record of a stopped thread goes to system software, or ends the sampler's program stage (R364, R394). -/
def reportStop (s : State) (part bid key : Nat) (f : FaultRec) : State :=
  if isProgram s bid then failProgram (s.modThread bid key (·.record f false)) bid 1 (f.bytes.take 48)
  else reportFault s part false bid key f

/-- A path that takes a pending halt now: its threads stop or are suspended. A halt writes a record (R366). -/
def applyHalt (s : State) (bid pid : Nat) : State :=
  match tget s.blocks bid, s.path? bid pid with
  | some b, some p =>
    if p.takesHalt then
      match p.haltAt with
      | some (r, cause) =>
        let s := (b.lanesOf p.lanes).foldl (fun s e =>
          let s := s.modThread bid e.1 (fun t => { t with run := r })
          if cause = 0 then s
          else
            let f := mkFault b bid p e.1 e.2 { cause := cause } false
            reportStop (s.modThread bid e.1 (fun t => { t with stopRec := f })) b.part bid e.1 f) s
        s.modPath bid pid (fun q => { q with
          wait := (match q.wait with | .joining f => .joining f | _ => .stopped)
          haltAt := none, since := s.cycle, stepping := if q.stepping = 3 then 2 else 0 })
      | none => s
    else s
  | _, _ => s

def applyHalts (s : State) (bid : Nat) : State :=
  match tget s.blocks bid with
  | none => s
  | some b => b.paths.foldl (fun s e => applyHalt s bid e.1) s

/-- The record of an uncorrectable error that lanes of a path consume; that of a tile has been written (R344, R398).
(log 22, DEDUCED; log 58, DEDUCED) -/
def reportConsumed (s : State) (b : Block) (bid : Nat) (p : Path) (lanes : List (Nat × TrapInfo)) : State :=
  match lanes.find? (fun e => e.2.cause == 0x13 && e.2.dom != 5) with
  | none => s
  | some e => reportError s b.part ⟨5, 0x13, e.2.dom, b.place.die, 8 * b.place.cluster + b.place.core, p.warp % 4, 0, bid,
      b.launch.node, 0, 0, 0⟩

/-- The threads of a trapping path stop once every result owed has returned: each thread's record is written and reported, and
what waited on them is looked at again (R362, R363, R365). -/
def stopNow (s : State) (bid pid : Nat) : State :=
  match tget s.blocks bid, s.path? bid pid with
  | some b, some p =>
    if p.wait = .trapping ∧ p.run.settled then
      let s := (p.stops.filter (fun e => mem? p.lanes e.1)).foldl (fun s e =>
        reportStop (s.modThread bid e.1 (fun t => { t with run := .stopped, stopRec := e.2 })) b.part bid e.1 e.2) s
      let s := s.modPath bid pid (fun q => { q with wait := .stopped, since := s.cycle, stops := [] })
      recheck (applyHalts (suspendPair s bid p.finder p.lanes) bid) bid
    else s
  | _, _ => s

/-- Lanes stop at their instruction with a cause: they leave the path `p` that issued it, and stop when the results owed have
returned (R362, R365). (log 12, DEDUCED) -/
def stopLanes (s : State) (bid pid : Nat) (p : Path) (lanes : List (Nat × TrapInfo)) (ufull : Bool) : State :=
  match tget s.blocks bid with
  | some b =>
    let (id, s) := splitPath s bid pid (lanes.map (·.1))
    let s := if id = pid then releasePort s bid pid else s
    let stops := lanes.filterMap (fun e => (s.thread? bid e.1).map (fun t => (e.1, mkFault b bid p e.1 t e.2 ufull)))
    let s := s.modPath bid id (fun q => { q with
      wait := .trapping, stops := stops, haltAt := none, since := s.cycle, stepping := 0, prog := 0, checked := false
      pageFault := none })
    let s := if lanes.any (fun e => e.2.cause == 0x13) then
        (reportConsumed s b bid p lanes).postOnce (s.cycle + 1) (.gangKill bid) else s
    stopNow s bid id
  | none => s

/-- Lanes enter the node's `.onpoison` routine in a path of their own at class 0 (R250, R365). -/
def enterPoison (s : State) (bid pid : Nat) (p : Path) (lanes : List (Nat × TrapInfo)) : State :=
  match tget s.blocks bid with
  | some b =>
    let (id, s) := splitPath s bid pid (lanes.map (·.1))
    let s := if id = pid then releasePort s bid pid else s
    let s := lanes.foldl (fun s e => s.modThread bid e.1 (fun t =>
      { t.record (mkFault b bid p e.1 t e.2 false) false with onPoison := true })) s
    let s := s.modPart b.part (fun q => { q with rep := { q.rep with emuc := q.rep.emuc + wd lanes.length } })
    beginRun (s.modPath bid id (fun q => { q with
      pc := wd b.poent, prog := 0, checked := false, pageFault := none })) bid id
  | none => s

/-- TAKING AN EXCEPTION in some lanes of a path (R362-R365): derived poison goes to `.onpoison` where the node has one,
everything else to system software with the thread stopped. (log 12, DEDUCED) -/
def trapLanes (s : State) (bid pid : Nat) (lanes : List (Nat × TrapInfo)) : State :=
  match tget s.blocks bid, s.path? bid pid with
  | some b, some p =>
    let toPo := fun (e : Nat × TrapInfo) => e.2.cause == 0x09 && e.2.derived && b.poent != 0xFFFF_FFFF
    let stop := lanes.filter (fun e => !toPo e)
    let po := lanes.filter toPo
    let s := if stop.isEmpty then s else stopLanes s bid pid p stop false
    if po.isEmpty then s else enterPoison s bid pid p po
  | _, _ => s

/-- A path enters an emulation routine (R367): the return address and the word are pushed on its uniform stack. -/
def enterRoutine (s : State) (c : Ctx) (routine : Nat) (word : Word) (i : TrapInfo) : State :=
  let s := releasePort s c.bid c.pid
  let s := (c.b.lanesOf c.p.lanes).foldl (fun s e =>
    s.modThread c.bid e.1 (fun t => t.record (mkFault c.b c.bid c.p e.1 t i false) false)) s
  let s := s.modPart c.b.part (fun q => { q with rep := { q.rep with emuc := q.rep.emuc + wd c.p.lanes.length } })
  let s := s.modPath c.bid c.pid (fun p => { p with
    nest := some p.ust.length
    ust := Cell.ofWord word :: Cell.ofWord (p.pc + 4) :: p.ust
    pc := wd routine })
  beginRun s c.bid c.pid

/-- TAKING AN EXCEPTION in every active lane of the issuing path. -/
def trapPath (s : State) (c : Ctx) (i : TrapInfo) : State := trapLanes s c.bid c.pid (c.p.lanes.map (fun k => (k, i)))

/-- An undefined word: to the bound routine, to cause 0x10 inside one, or to system software (R110, R365, R368). -/
def trapUndefined (s : State) (c : Ctx) (bit : Option Nat) (word : Word) : State :=
  let i : TrapInfo := { cause := 0x01, bit := bit }
  if c.p.nest.isSome then trapPath s c { cause := 0x10 }
  else
    let r := boundRoutine s c.b bit
    let s := noteBinding s c.b bit
    match r with
    | some r =>
      if c.p.finder then trapPath s c i
      else if c.p.ust.length ≤ 6 then enterRoutine s c r word i
      else stopLanes s c.bid c.pid c.p (c.p.lanes.map (fun k => (k, i))) true
    | none => trapPath s c i

/-- THE RETURN from an emulation routine: a `ret` that brings the uniform depth back to E ends the nesting (R367). -/
def endNest (p : Path) : Path := if p.nest = some p.ust.length then { p with nest := none } else p

/-! Ending an instruction -/

/-- What an instruction leaves to its end: next PC, highest ready slot written, long results owed, the marks of those
that a later step of an engine returns, transfer count. -/
structure Retire where
  pc : Word
  ready : Nat := 0
  owed : Nat := 0
  await : List Mark := []
  xfer : Nat := 0
  sleep : Nat := 0
  yieldPt : Bool := false

/-- Stall counters are kept per home warp; those of finder warps stand 32 above (R101). -/
def addStall (b : Block) (p : Path) (n : Nat) : Block :=
  if n = 0 then b
  else
    let ws := sortNat (p.lanes.map (fun k => homeWarp k + 32 * b2n p.finder))
    { b with stall := ws.foldl (fun t w => tset t w (satAdd (tgetD t w 0) n)) b.stall }

/-- Cycles lost between the previous instruction of the run and this one, which stands at `slot` (R101, R291); cycles that the
run's first instruction is held are not counted. (log 72, DESIGN CHOICE) -/
def lostCycles (s : State) (p : Path) (slot : Nat) : Nat :=
  if p.run.paired then (s.cycle - p.run.last) - (slot - p.run.slot) else 0

/-- The path after an instruction has issued: counted, timed, at its next PC. -/
def Path.advance (p : Path) (c : Ctx) (cycle : Nat) (r : Retire) : Path :=
  let reads := c.coll == 2
  { p with
    pc := r.pc
    prog := 0
    checked := false
    run := { p.run with
      count := p.run.count + 1, slot := c.env.slot, last := cycle, xfer := r.xfer, paired := true
      port := if r.xfer = 0 ∧ !reads then p.run.port else ((⟨cycle, r.xfer, reads⟩ : PortUse) :: p.run.port).take Config.portUses
      ready := max p.run.ready r.ready, owed := p.run.owed + r.owed
      awaits := p.run.awaits ++ r.await.map (fun m => (c.pid, m))
      sleep := max p.run.sleep r.sleep, yieldPt := p.run.yieldPt || r.yieldPt } }

/-- First cycle at which a path parked at the present cycle may be ready (R97, R139, R179). -/
def RunState.readyAt (r : RunState) (cycle : Nat) : Nat := cycle + max (max ((r.xfer + 1) / 2) (r.ready - r.slot)) r.sleep

/-- A path parks at its boundary: the port is free, and readiness is looked at when it is due (R97). -/
def parkPath (s : State) (bid pid : Nat) (w : Wait) : State :=
  match s.path? bid pid with
  | none => s
  | some p =>
    let s := releasePort s bid pid
    let due := p.run.readyAt s.cycle
    let s := s.modPath bid pid (fun p => { p with wait := w, since := s.cycle, run := { p.run with base := due } })
    let s := if p.run.sleep = 0 then s else s.post (s.cycle + p.run.sleep) (.sleepExpiry bid pid)
    if w = .parked then s.post due (.pathReady bid pid)
    else s.post (s.cycle + Config.probePeriod) (.transitProbeSend bid pid)

/-- An instruction is counted and timed in the lanes that completed it (R91, R93). A path whose lanes have all left is
not counted on. -/
def account (s : State) (c : Ctx) (r : Retire) : State :=
  match s.path? c.bid c.pid with
  | none => s
  | some p =>
    if p.wait = .issuing then
      let s := s.modPath c.bid c.pid (fun p => p.advance c s.cycle r)
      let s := if r.xfer = 0 then s else s.post (s.cycle + 1) (.mainFileTransfer c.bid c.pid)
      postReturns s c.bid c.pid r.owed
    else s

/-- A released path has issued its one instruction; `b` tells whether that closed the run (R381). -/
def Path.stepDone (p : Path) (b : Bool) : Path := if p.stepping = 1 ∧ !b then { p with stepping := 3 } else p

/-- The path parks after this instruction: at its boundary, or because it is stepped (R97, R381). -/
def Path.parksAfter (p : Path) (h : Hdr) : Bool := h.b || p.stepping == 1

/-- THE END of an instruction: counted, and at a boundary the path parks (R91, R97). -/
def retire (s : State) (c : Ctx) (h : Hdr) (r : Retire) : State :=
  match s.path? c.bid c.pid with
  | none => s
  | some p =>
    let s := account s c r
    if p.wait = .issuing ∧ p.parksAfter h then
      parkPath (s.modPath c.bid c.pid (·.stepDone h.b)) c.bid c.pid .parked
    else s

def Wait.isHold : Wait → Bool
  | .holding _ => true
  | _ => false

/-- A path holds at its instruction inside the run; the instruction issues again when room comes (R45, R104, R107, R273). -/
def holdPath (s : State) (c : Ctx) (h : Hold) : State :=
  let s := s.modPath c.bid c.pid (fun p => { p with wait := .holding h, since := s.cycle })
  match h with
  | .finderQueue | .finderRoom => s.postOnce (s.cycle + Config.probePeriod) (.transitProbeSend c.bid c.pid)
  | _ => s

/-- A held path issues again in the present cycle; the held cycles count as stall (R101). -/
def unhold (s : State) (bid pid : Nat) (h : Hold) : State :=
  s.modPath bid pid (fun p => if p.wait = .holding h then
    { p with wait := .issuing, run := { p.run with base := s.cycle } } else p)

/-! Issue -/

def Ctx.next (c : Ctx) : Word := c.p.pc + 4

/-- The slot at which an instruction with a collector time stands (R93). -/
def slotFor (r : RunState) (coll : Nat) : Nat := if r.count = 0 then coll else r.slot + 1 + coll

/-- Data returns through a sector's main-file port from a cycle on, two cells a cycle (R140). -/
def State.takePort (s : State) (sector start cells : Nat) : State :=
  if cells = 0 then s
  else s.modSector sector (fun k => { k with
    returns := ((upto cells).map (fun i => start + i / 2) ++ k.returns).take Config.portReturns })

/-- The port serves some cells from a cycle in which it has given away `taken` of its two, returning data first: the cycle of
the last one, and what is given away in it (R139, R140). -/
def serveCells (returns : List Nat) : Nat → Nat → Nat → Nat → Nat × Nat
  | 0, at_, taken, _ => (at_, taken)
  | n + 1, at_, taken, cells =>
    let room := 2 - (returns.filter (· == at_)).length - taken
    if cells ≤ room then (at_, taken + cells) else serveCells returns n (at_ + 1) 0 (cells - room)

/-- One more use served after those before it: its cells are asked for from the cycle after its issue. -/
def serveUse (returns : List Nat) (x : Nat × Nat) (u : PortUse) : Nat × Nat :=
  if u.cells = 0 then x
  else
    let y := if x.1 < u.issued + 1 then (u.issued + 1, 0) else x
    serveCells returns (u.cells + returns.length + 1) y.1 y.2 u.cells

/-- A use put among others in the order of issue. -/
def PortUse.insert (u : PortUse) : List PortUse → List PortUse
  | [] => [u]
  | v :: r => if v.issued ≤ u.issued then v :: u.insert r else u :: v :: r

/-- The first cycle in which the transfers of a use are done, among the sector's uses: the port serves them one after the
other in the order of their instructions (R140). -/
def PortUse.doneAt (returns : List Nat) (uses : List PortUse) (u : PortUse) : Nat :=
  if u.cells = 0 then u.issued + 1
  else
    let before := (uses.filter (fun v => decide (v.issued < u.issued))).foldl (fun l v => v.insert l) []
    (serveUse returns (before.foldl (serveUse returns) (0, 0)) u).1 + 1

/-- The first cycle in which the transfers of the run's last instruction are done (R139). -/
def RunState.movedBy (r : RunState) (returns : List Nat) (uses : List PortUse) : Nat :=
  PortUse.doneAt returns uses ⟨r.last, r.xfer, false⟩

/-- The first cycle from `q` on in which the main-file port serves a collector read: after returning data that takes both cells,
transfers, and an earlier read of the other port (R140). (log 10, DESIGN CHOICE) -/
def readServed (returns : List Nat) (uses : List PortUse) (q : Nat) : Nat :=
  let q := uses.foldl (fun q u =>
    let t := u.doneAt returns uses
    if decide (u.issued < q) && decide (q < t) then t else q) q
  let q := if uses.any (fun u => u.read && u.issued == q + 2) then q + 1 else q
  if 2 ≤ (returns.filter (· == q)).length then q + 1 else q

/-- The first cycle in which the path's next instruction may issue: after its own transfers, then its collector time, which a
main-file read begins when the port serves it (R93, R98, R139, R140). `others` are the port uses of the sector's other
paths. -/
def issueCycle (returns : List Nat) (others : List PortUse) (r : RunState) (coll : Nat) : Nat :=
  let all := others ++ r.port
  let q := if r.paired then r.movedBy returns all
    else r.port.foldl (fun q u => max q (u.doneAt returns all)) (r.base + 1)
  let served := if coll = 2 then readServed returns others q else q
  if r.paired then max (served + coll) r.base else served + coll

/-- What a form needs beside its operands: legal scopes, governing feature bits, privilege, and whether its format slot is
QN4 in the issuing block, which feature bit 2 governs (R39). -/
structure FormInfo where
  scopes : List Scope
  feats : List Nat := [0]
  priv : Bool := false
  qn4 : Block → Bool := fun _ => false

/-- Collector time of an operand at a stack position (R90, R137). -/
def posColl (pos : Nat) : Nat := if 8 ≤ pos then 2 else 0

/-- Collector time of a named cell (R90); uniform cells take none. -/
def tierColl (tier : Tier) (k : Nat) : Nat :=
  match tier with
  | .t => posColl k
  | .o => 1
  | .m => 2
  | .w => 0

/-- Cells that an addressing field pops: two of a flat address, or its coordinates (R120, R238). -/
def addrPops (a : Addr) : Nat := if a.nc = 0 then 2 else a.nc.toNat

/-- Positions of K in one chunk under a B format, and the A cells that a lane supplies for it (R334). -/
def chunkLen (fmt : Nat) : Nat := if fmt = 3 then 16 else 32
def chunkCells (fmt : Nat) : Nat := if fmt = 8 then 16 else 8

/-- A cells and index cells that a matrix form takes from a lane when its latch is empty (R339, R348, R352), from the FMT of
its slot and extent 1 of its shape; a last group of fewer than 32 positions has its own index cell. (log 38, DEDUCED) -/
def matrixCells (b : Block) (i : Instr) : Nat × Nat :=
  let fmt := fun (fs : BitVec 3) => b.snap (0x080 + 32 * fs.toNat) 1 % 16
  let k := fun (wb : BitVec 4) => b.snap (0x180 + 64 * wb.toNat + 0x0C) 4
  match i with
  | .mma _ _ fs _ wb => (k wb / chunkLen (fmt fs) * chunkCells (fmt fs), 0)
  | .mmas _ _ fs _ wb _ => (k wb / chunkLen (fmt fs) * chunkCells (fmt fs) / 2, max 1 ((k wb + 31) / 32))
  | .mtab _ _ fs => (if fmt fs = 3 then 16 else 8, 0)
  | _ => (0, 0)

/-- The path's lanes have full A latches. -/
def latchFull (b : Block) (p : Path) : Bool :=
  match p.lanes with
  | [] => false
  | k :: _ => ((tget b.threads k).map (fun t => t.latch.full)).getD false

/-- Cells that a matrix form pops from a lane's stack (R336, R348, R351). -/
def matrixPops (b : Block) (full replay : Bool) (i : Instr) : Nat :=
  let m := matrixCells b i
  let n := if full then 0 else m.1 + m.2
  if replay then 0
  else
    match i with
    | .mma .. | .mmas .. => n + 2
    | .mtab .. => n
    | .mdst .. | .mld .. => 2
    | _ => 0

/-- Collector time of an instruction: that of the slowest operand it reads (R90, R100); a matrix instruction that issues again to
raise its page failure has read its operands already (R350). -/
def collectorOf (b : Block) (p : Path) (i : Instr) : Nat :=
  let lane := fun (h : Hdr) (n : Nat) => if h.sc = .lane then n else 0
  match p.pageFault with
  | some (_, _, n) => n
  | none =>
  match i with
  | .pick h n => lane h (posColl n.toNat)
  | .roll h n => lane h (if n = 0 then 0 else posColl n.toNat)
  | .push h tier idx => if h.sc = .set then 1 else lane h (tierColl tier idx.toNat)
  | .xch h tier idx => if h.sc = .set then 1 else lane h (tierColl tier idx.toNat)
  | .pushn h tier _ _ => lane h (tierColl tier 0)
  | .popn h _ _ n => lane h (posColl (n.toNat - 1))
  | .stn h a _ _ n => lane h (posColl (addrPops a + n.toNat - 1))
  | .qpop .. => 2
  | .cas h a _ => lane h (posColl (addrPops a + 1))
  | .mma h .. => lane h (posColl (matrixPops b (latchFull b p) false i - 1))
  | .mmas h .. => lane h (posColl (matrixPops b (latchFull b p) false i - 1))
  | .mtab h .. => lane h (posColl (matrixPops b (latchFull b p) false i - 1))
  | _ => 0

/-- The set-like scopes demand a boundary, a home warp and a warp that is no finder (R76, R102). -/
def scopeBad (h : Hdr) (f : FormInfo) (p : Path) : Bool :=
  !f.scopes.any (· == h.sc) || ((h.sc == .set || h.sc == .blk) && (!h.b || p.formed || p.finder))

/-- The first governing feature bit that the effective mask lacks, the group's own bit before bit 2 of a QN4 slot (R40).
(log 85, DESIGN CHOICE) -/
def missingBit (s : State) (b : Block) (l : List Nat) : Option Nat := l.find? (fun k => !s.feature b.part k)

/-- An instruction whose access waits for the host holds its path and leaves only its requests (R408). -/
def settleAts (s t : State) (bid pid : Nat) : State :=
  if t.coh.atsWait then (keepAsks s t).modPath bid pid (fun p => { p with wait := .holding .ats, since := s.cycle })
  else dropAnswers t

/-- An instruction that holds has not issued: the stall counters stay as they were (R101). -/
def settleHold (stall : Tab Word) (t : State) (bid pid : Nat) : State :=
  match t.path? bid pid with
  | some p => if p.wait.isHold then t.modBlock bid (fun b => { b with stall := stall }) else t
  | none => t

/-- Where an instruction of a path stands as it issues, the cycles lost before it counted in its block (R93, R101). -/
def atIssue (s : State) (bid pid : Nat) (b : Block) (p : Path) (i : Instr) : Ctx :=
  let coll := collectorOf b p i
  let slot := slotFor p.run coll
  ⟨bid, pid, addStall b p (lostCycles s p slot), p, ⟨p.run.id, slot, p.pc⟩, coll⟩

/-- ISSUE of an encoded instruction by the current path: the checks of R111 in their order, then the form's body. Cause
0x0D, 0x06 or 0x01 that these checks raise at a set-scope or block-scope word marks no open instance.
(log 79, DESIGN CHOICE) -/
def issue (i : Instr) (h : Hdr) (f : FormInfo) (body : State → Ctx → State) (s : State) :
    Host.Outcome State Fault Refusal :=
  match s.cur with
  | none => .fault .noIssuingPath
  | some (bid, pid) =>
    match tget s.blocks bid with
    | none => .fault .noIssuingPath
    | some b =>
      match tget b.paths pid with
      | none => .fault .noIssuingPath
      | some p =>
        let c : Ctx := atIssue s bid pid b p i
        let t := s.modBlock bid (fun _ => c.b)
        if Config.runLimit ≤ p.run.count then .next (trapPath t c { cause := 0x06 })
        else
          match missingBit s b (f.feats ++ (if f.qn4 b then [2] else [])) with
          | some k => .next (trapUndefined t c (some k) ((encode i).getD 0))
          | none =>
            if f.priv && b.lvl == 0 then .next (trapPath t c { cause := 0x0B })
            else if scopeBad h f p then .next (trapPath t c { cause := 0x0D })
            else .next (settleHold b.stall (settleAts s (body t c) bid pid) bid pid)

/-- A device step: the event being served gives its operands; always a next state for its own event. -/
def device (s : State) (f : Event → Option State) : Host.Outcome State Fault Refusal :=
  match s.due with
  | none => .fault .noDueEvent
  | some e =>
    match f e with
    | some t => .next t
    | none => .fault .noDueEvent

end Sys2Proof.Machine
end

