-- ==== Sys2Proof/Machine/Operands.lean ====
section
/-! DEFINITION. Operand forms: consuming and moving cells, stack checks, IMM8 constants, collector and transfer counts, and
the ways an instruction acts on lanes or on the path (R90, R95, R96, R125-R127, R137-R139, R171, R173). -/

namespace Sys2Proof.Machine

/-! Marks -/

/-- The mark of a fixed-latency result (R94). -/
def Env.fixed (e : Env) (lat : Nat) : Mark := ⟨e.run, e.slot + lat, false, e.pc⟩
/-- The mark of a long-latency result (R94). (log 10, DESIGN CHOICE) -/
def Env.longMark (e : Env) : Mark := ⟨e.run, e.slot, true, e.pc⟩

/-- A cell's mark forbids its consumption here (R96). -/
def Env.early (e : Env) (m : Mark) : Bool := m.run == e.run && (m.long || decide (e.slot < m.slot))

/-- The mark a move gives its destination (R95). -/
def Env.moved (e : Env) (m : Mark) : Mark :=
  if m.run = e.run then (if m.long then m else if m.slot ≤ e.slot + 1 then ⟨e.run, e.slot + 1, false, e.pc⟩ else m)
  else ⟨e.run, e.slot + 1, false, e.pc⟩

/-- A moved cell: bits, poison and divided state unchanged (R186). -/
def Env.move (e : Env) (c : Cell) : Cell := { c with mark := e.moved c.mark }

/-- A new value with a fixed latency. -/
def Env.result (e : Env) (lat : Nat) (v : Val) : Cell := ⟨v, none, e.fixed lat, false⟩
/-- A new value that is long-latency. (log 10, DESIGN CHOICE) -/
def Env.longResult (e : Env) (v : Val) : Cell := ⟨v, none, e.longMark, false⟩

def Val.clean (w : Word) : Val := ⟨w, .clean⟩
def Val.poisoned (v : Val) : Bool := v.poison != .clean

/-- The poison of a computed result: derived when any operand is poisoned (R159, R248). -/
def poisonOf (l : List Val) : Poison := if l.any Val.poisoned then .derived else .clean

/-- Consuming cells: none divided (R148), none early (R96), none in error (R397). (log 22, DEDUCED) -/
def consume (e : Env) (l : List Cell) : LaneRes (List Val) :=
  if l.any (fun c => c.hi.isSome) then .path { cause := 0x08 }
  else
    match l.find? (fun c => e.early c.mark) with
    | some c => .path { cause := 0x05, addr := c.mark.pc.toNat }
    | none => if l.any (·.err) then .lane { cause := 0x13, dom := 0 } else .ok (l.map (·.val))

/-- Consumed poison raises cause 0x09 (R250). (log 52, DEDUCED) -/
def refusePoison (l : List Val) : LaneRes Unit :=
  if l.any Val.poisoned then .lane { cause := 0x09, derived := l.any (fun v => v.poison == .derived) } else .ok ()

/-- The depth checks of R138 for a form that needs `need` cells and changes the depth from `pops` to `pushes`. -/
def checkDepth (depth need pops pushes ceil : Nat) : LaneRes Unit :=
  if depth < need then .path { cause := 0x04 }
  else if ceil < depth - pops + pushes then .path { cause := 0x03 }
  else .ok ()

/-- The ceiling of a lane's stack (R137, R141). -/
def laneCeil (b : Block) (p : Path) : Nat := if p.finder then 8 else 8 + b.stack

/-! Stacks, rows and transfers -/

/-- Backing rows after the stack has changed: a cell at b below D − 8 stands in row b (R137, R292). -/
def settleRows (rows : List Val) (stack : List Cell) : List Val :=
  if stack.length ≤ 8 then rows
  else
    let deep := (stack.reverse.take (stack.length - 8)).map (·.val)
    deep ++ rows.drop deep.length

/-- A thread with a new expression stack; its backing rows follow in the main-file transfer (R139). -/
def Thread.withStack (t : Thread) (st : List Cell) : Thread := { t with stack := st }

/-- Drains or refills of a change of depth (R139). -/
def transfers (before after : Nat) : Nat :=
  if before < after then (after - 8) - (before - 8) else min 8 ((before - 8) - (after - 8))

/-- The depth of the lanes of a path. -/
def laneDepth (b : Block) (p : Path) : Nat :=
  match p.lanes with
  | [] => 0
  | k :: _ => match tget b.threads k with | some t => t.stack.length | none => 0

/-! Constants (R125-R127) -/

/-- The i32 and n32 constants (R127). -/
def intConst (c : Byte) : Word :=
  let n := c.toNat
  if n ≤ 191 then wd n
  else if n ≤ 223 then wi (191 - (n : Int))
  else if n ≤ 247 then wd (2 ^ (n - 216))
  else
    match n with
    | 248 => 0x0000_FFFF
    | 249 => 0x0000_FF00
    | 250 => 0x00FF_00FF
    | 251 => 0x0F0F_0F0F
    | 252 => 0x3333_3333
    | 253 => 0x5555_5555
    | 254 => 0x7FFF_FFFF
    | _ => 0xAAAA_AAAA

/-- The bits of a positive integer below 2^24 as an f32. -/
def natF32 (n : Nat) : Word := if n = 0 then 0 else wd ((127 + n.log2) * 2 ^ 23 + (n * 2 ^ (23 - n.log2) - 2 ^ 23))

/-- The table of f32 constants from code 224 (R126). -/
def f32Table : List Word :=
  [0x3EAA_AAAB, 0x3E4C_CCCD, 0x3E2A_AAAB, 0x3E12_4925, 0x3DE3_8E39, 0x3DCC_CCCD, 0x3DAA_AAAB, 0x3D2A_AAAB,
   0x3C08_8889, 0x3AB6_0B61, 0x3950_0D01, 0x3EA2_F983, 0x3F22_F983, 0x3FB8_AA3B, 0x3F31_7218, 0x3F35_04F3,
   0x4049_0FDB, 0x3FC9_0FDB, 0x3F49_0FDB, 0x402D_F854, 0x3FB5_04F3, 0x3FDD_B3D7, 0x4013_5D8E, 0x3E9A_209B,
   0x3DCC_CCCD, 0x3C23_D70A, 0x8000_0000, 0x7F80_0000, 0xFF80_0000, 0x7FC0_0000, 0x7F7F_FFFF, 0x0080_0000]

/-- The f32 constants (R126). -/
def f32Const (c : Byte) : Word :=
  let n := c.toNat
  if n ≤ 191 then natF32 n
  else if n ≤ 207 then wd ((127 + n - 200) * 2 ^ 23)
  else if n ≤ 223 then wd ((127 + n - 216) * 2 ^ 23 + 2 ^ 31)
  else f32Table.getD (n - 224) 0

/-- An f32 constant rounded to bf16, nearest-even (R126); a NaN keeps its canonical form. -/
def bf16OfConst (w : Word) : Nat :=
  let n := w.toNat
  if n % 2 ^ 31 > 0x7F80_0000 then 0x7FC0
  else
    let q := n / 65536
    let r := n % 65536
    if r > 0x8000 ∨ (r = 0x8000 ∧ q % 2 = 1) then q + 1 else q

/-- The constant that IMM8 encodes for a type (R125). (log 54, DEDUCED) -/
def constOf (ty : RTy) (c : Byte) : Word :=
  match ty with
  | .i32 | .n32 => intConst c
  | .f32 => f32Const c
  | .bf16x2 => let h := bf16OfConst (f32Const c); wd (h * 65536 + h)

def ityReg : ITy → RTy
  | .i32 => .i32
  | .n32 => .n32
def ftyReg : FTy → RTy
  | .f32 => .f32
  | .bf16x2 => .bf16x2

/-! Acting on lanes -/

/-- What lanes did: their new threads and the lanes that trapped, or a cause for the whole path. -/
inductive LanesRes where
  | all (ok : List (Nat × Thread)) (trapped : List (Nat × TrapInfo))
  | path (t : TrapInfo)

def LanesRes.cons (k : Nat) (r : LaneRes Thread) (l : LanesRes) : LanesRes :=
  match r, l with
  | .path t, _ => .path t
  | _, .path t => .path t
  | .ok t, .all ok tr => .all ((k, t) :: ok) tr
  | .lane i, .all ok tr => .all ok ((k, i) :: tr)

/-- Every active lane of the path, lowest key first. -/
def perLane (c : Ctx) (f : Nat → Thread → LaneRes Thread) : LanesRes :=
  (c.b.lanesOf c.p.lanes).foldr (fun e l => LanesRes.cons e.1 (f e.1 e.2) l) (.all [] [])

/-- Threads written back. -/
def putThreads (s : State) (bid : Nat) (l : List (Nat × Thread)) : State :=
  l.foldl (fun s e => s.modThread bid e.1 (fun _ => e.2)) s

/-- Lanes' results take effect, the trapped lanes stop, and the instruction ends in the others (R362). -/
def finishLanes (s : State) (c : Ctx) (h : Hdr) (r : LanesRes) (ret : Retire) : State :=
  match r with
  | .path t => trapPath s c t
  | .all ok tr =>
    let s := putThreads s c.bid ok
    let s := if tr.isEmpty then s else trapLanes s c.bid c.pid tr
    if ok.isEmpty then s else retire s c h ret

/-- A result for the path's own cells: a changed path, or a cause in every active lane. -/
def finishPath (s : State) (c : Ctx) (h : Hdr) (r : LaneRes Path) (ret : Retire) : State :=
  match r with
  | .path t => trapPath s c t
  | .lane t => trapPath s c t
  | .ok p => retire (s.modPath c.bid c.pid (fun _ => p)) c h ret

/-- A function of one stack: depth limits by its ceiling, cells top first. -/
abbrev StackFn := Env → Nat → List Cell → LaneRes (List Cell)

/-- A form that changes one stack and nothing else, at lane scope in each lane, at warp scope on the uniform stack
(R171, R172). `after` is the depth it leaves, `lat` its latency, `extra` backing cells rewritten in place. -/
def stackForm (h : Hdr) (after : Nat → Nat) (lat : Nat) (extra : Nat → Nat) (f : StackFn) (s : State) (c : Ctx) :
    State :=
  match h.sc with
  | .lane =>
    let d := laneDepth c.b c.p
    finishLanes s c h (perLane c (fun _ t => (f c.env (laneCeil c.b c.p) t.stack).map t.withStack))
      { pc := c.next, ready := c.env.slot + lat, xfer := transfers d (after d) + extra d }
  | _ =>
    finishPath s c h ((f c.env 8 c.p.ust).map (fun st => { c.p with ust := st }))
      { pc := c.next, ready := c.env.slot + lat }

/-- A computing form (R171): operand count, constant in the top operand's place, latency, and the result for the operands
deepest first. -/
structure Alu where
  pops : Nat
  k : Option Word
  lat : Nat
  fn : List Val → LaneRes Val

def Alu.need (a : Alu) : Nat := match a.k with | some _ => a.pops - 1 | none => a.pops

/-- The operands of a computing form, deepest first: popped cells, then the constant. -/
def Alu.operands (a : Alu) (popped : List Val) : List Val :=
  popped.reverse ++ (match a.k with | some w => [Val.clean w] | none => [])

def Alu.run (a : Alu) : StackFn := fun e ceil st =>
  (checkDepth st.length a.need a.need 1 ceil).bind fun _ =>
  (consume e (st.take a.need)).bind fun vs =>
  (a.fn (a.operands vs)).map fun v => e.result a.lat v :: st.drop a.need

/-- A computing form as an instruction body. -/
def aluForm (h : Hdr) (a : Alu) (s : State) (c : Ctx) : State :=
  stackForm h (fun d => d - a.need + 1) a.lat (fun _ => 0) a.run s c

/-- A pure function of operand words, poisoned when any operand is (R159). -/
def pureFn (f : List Word → Word) (l : List Val) : LaneRes Val := .ok ⟨f (l.map (·.bits)), poisonOf l⟩

def fn1 (f : Word → Word) : List Val → LaneRes Val := pureFn fun
  | [a] => f a
  | _ => 0
def fn2 (f : Word → Word → Word) : List Val → LaneRes Val := pureFn fun
  | [a, b] => f a b
  | _ => 0
def fn3 (f : Word → Word → Word → Word) : List Val → LaneRes Val := pureFn fun
  | [a, b, c] => f a b c
  | _ => 0
def fn4 (f : Word → Word → Word → Word → Word) : List Val → LaneRes Val := pureFn fun
  | [a, b, c, d] => f a b c d
  | _ => 0

/-- The legal scopes of computing forms (R172). -/
def laneWarp : List Scope := [.lane, .warp]

/-- In a finder warp a floating form is undefined, and no routine runs for it; this comes after the scope check of issue
(R174). (log 85, DESIGN CHOICE) -/
def noFinder (s : State) (c : Ctx) (body : State → Ctx → State) : State :=
  if c.p.finder then
    if c.p.nest.isSome then trapPath s c { cause := 0x10 } else trapPath s c { cause := 0x01 }
  else body s c

/-- Every form of a group that a finder warp may not issue raises cause 0x0D there (R205, R251, R361). -/
def warpOnly (s : State) (c : Ctx) (body : State → Ctx → State) : State :=
  if c.p.finder then trapPath s c { cause := 0x0D } else body s c

/-- A computing form as an instruction: issue, then its body. -/
def alu (i : Instr) (h : Hdr) (a : Alu) (s : State) : Host.Outcome State Fault Refusal :=
  issue i h { scopes := laneWarp } (aluForm h a) s

/-- A floating computing form. -/
def fpu (i : Instr) (h : Hdr) (a : Alu) (s : State) : Host.Outcome State Fault Refusal :=
  issue i h { scopes := laneWarp } (fun s c => noFinder s c (aluForm h a)) s

end Sys2Proof.Machine
end

