-- ==== Sys2Proof/Machine/Flags.lean ====
section
/-! DEFINITION. The device has no flag register (R154); this file holds what stands in a flag's place: truth values,
comparisons, class tests, integer reading and fitting (R158, R175, R188, R198-R200). -/

namespace Sys2Proof.Machine

/-- A truth value of a 32-bit cell (R175). -/
def truth (b : Bool) : Word := if b then 0xFFFF_FFFF else 0
/-- A truth value of a bf16 half (R175). -/
def truth16 (b : Bool) : Nat := if b then 0xFFFF else 0

/-- A cell read as an integer of a type (R152). -/
def ityVal (ty : ITy) (w : Word) : Int :=
  match ty with
  | .i32 => w.toInt
  | .n32 => w.toNat

def ityLeast : ITy → Int
  | .i32 => -2147483648
  | .n32 => 0
def ityMost : ITy → Int
  | .i32 => 2147483647
  | .n32 => 4294967295

def clampInt (lo hi v : Int) : Int := if v < lo then lo else if hi < v then hi else v

/-- An exact integer result wrapped, or clamped when SAT is set (R158). -/
def ityFit (ty : ITy) (sat : Bool) (v : Int) : Word := if sat then wi (clampInt (ityLeast ty) (ityMost ty) v) else wi v

/-- The relations of `cmp` (R198). -/
inductive Cond where
  | eq | ne | lt | le | gt | ge | ord | unord
  deriving DecidableEq, Repr

/-- A relation on an order; no order means that an operand is a NaN. -/
def Cond.holds (c : Cond) (o : Option Ordering) : Bool :=
  match o with
  | none => c == .ne || c == .unord
  | some .lt => c == .ne || c == .lt || c == .le || c == .ord
  | some .eq => c == .eq || c == .le || c == .ge || c == .ord
  | some .gt => c == .ne || c == .gt || c == .ge || c == .ord

/-- Comparison of two cells under a type (R198). -/
def compareCells (ty : RTy) (c : Cond) (a b : Word) : Word :=
  match ty with
  | .i32 => truth (c.holds (some (compare a.toInt b.toInt)))
  | .n32 => truth (c.holds (some (compare a.toNat b.toNat)))
  | .f32 => truth (c.holds ((f32 a).cmp (f32 b)))
  | .bf16x2 =>
    mkPair (truth16 (c.holds ((bfHi a).cmp (bfHi b)))) (truth16 (c.holds ((bfLo a).cmp (bfLo b))))

/-- The class bit of a value (R200). -/
def Fmt.classBit (f : Fmt) (b : Nat) : Nat :=
  let mag := b % f.sign
  let neg := decide (f.sign ≤ b % (2 * f.sign))
  if f.inf < mag then 0
  else if mag = f.inf then (if neg then 1 else 7)
  else if mag = 0 then 4
  else if mag < 2 ^ (f.p - 1) then (if neg then 3 else 5)
  else (if neg then 2 else 6)

/-- A selection by a condition cell, half by half for bf16x2 (R199). -/
def selectCells (ty : RTy) (a b f : Word) : Word :=
  match ty with
  | .bf16x2 =>
    mkPair (if f.toNat / 65536 ≠ 0 then a.toNat / 65536 else b.toNat / 65536)
      (if f.toNat % 65536 ≠ 0 then a.toNat % 65536 else b.toNat % 65536)
  | _ => if f ≠ 0 then a else b

/-- A class test (R200). -/
def classCells (ty : FTy) (mask : Byte) (a : Word) : Word :=
  match ty with
  | .f32 => truth (bit? mask.toNat (Fmt.f32.classBit a.toNat))
  | .bf16x2 =>
    mkPair (truth16 (bit? mask.toNat (Fmt.bf16.classBit (a.toNat / 65536))))
      (truth16 (bit? mask.toNat (Fmt.bf16.classBit (a.toNat % 65536))))

end Sys2Proof.Machine
end

