-- ==== Sys2Proof/Machine/IntArith.lean ====
section
/-! DEFINITION. IAR: integer arithmetic (R187-R189). -/

namespace Sys2Proof.Machine

def Alu.int (pops lat : Nat) (k : Option Byte) (fn : List Val → LaneRes Val) : Alu := ⟨pops, k.map intConst, lat, fn⟩

/-- Division by a divisor that may be poisoned or zero (R189). -/
def divFn (f : Word → Word → Word) : List Val → LaneRes Val
  | [a, b] =>
    if b.poisoned then .ok ⟨0, .derived⟩
    else if b.bits = 0 then .lane { cause := 0x0F }
    else .ok ⟨f a.bits b.bits, poisonOf [a, b]⟩
  | _ => .ok ⟨0, .clean⟩

def intMin (ty : ITy) (a b : Word) : Word := if ityVal ty b < ityVal ty a then b else a
def intMax (ty : ITy) (a b : Word) : Word := if ityVal ty a < ityVal ty b then b else a

/-- add (R188). -/
def execIarAdd (h : Hdr) (ty : ITy) (sat : Bool) (k : Option Byte) (s : State) : Host.Outcome State Fault Refusal :=
  alu (.iarAdd h ty sat k) h (.int 2 2 k (fn2 fun a b => ityFit ty sat (ityVal ty a + ityVal ty b))) s

/-- sub (R188). -/
def execIarSub (h : Hdr) (ty : ITy) (sat : Bool) (k : Option Byte) (s : State) : Host.Outcome State Fault Refusal :=
  alu (.iarSub h ty sat k) h (.int 2 2 k (fn2 fun a b => ityFit ty sat (ityVal ty a - ityVal ty b))) s

/-- mul (R188). -/
def execIarMul (h : Hdr) (ty : ITy) (sat : Bool) (k : Option Byte) (s : State) : Host.Outcome State Fault Refusal :=
  alu (.iarMul h ty sat k) h (.int 2 4 k (fn2 fun a b => ityFit ty sat (ityVal ty a * ityVal ty b))) s

/-- mulhi: bits 63:32 of the product (R188). -/
def execIarMulhi (h : Hdr) (ty : ITy) (k : Option Byte) (s : State) : Host.Outcome State Fault Refusal :=
  alu (.iarMulhi h ty k) h (.int 2 4 k (fn2 fun a b => wi (ityVal ty a * ityVal ty b / 2 ^ 32))) s

/-- mad (R188). -/
def execIarMad (h : Hdr) (ty : ITy) (sat : Bool) (k : Option Byte) (s : State) : Host.Outcome State Fault Refusal :=
  alu (.iarMad h ty sat k) h (.int 3 4 k (fn3 fun a b c => ityFit ty sat (ityVal ty a * ityVal ty b + ityVal ty c))) s

/-- neg (R188). -/
def execIarNeg (h : Hdr) (ty : ITy) (sat : Bool) (k : Option Byte) (s : State) : Host.Outcome State Fault Refusal :=
  alu (.iarNeg h ty sat k) h (.int 1 2 k (fn1 fun a => ityFit ty sat (-ityVal ty a))) s

/-- abs (R188). -/
def execIarAbs (h : Hdr) (ty : ITy) (sat : Bool) (k : Option Byte) (s : State) : Host.Outcome State Fault Refusal :=
  alu (.iarAbs h ty sat k) h (.int 1 2 k (fn1 fun a => ityFit ty sat (ityVal ty a).natAbs)) s

/-- min (R188). -/
def execIarMin (h : Hdr) (ty : ITy) (k : Option Byte) (s : State) : Host.Outcome State Fault Refusal :=
  alu (.iarMin h ty k) h (.int 2 2 k (fn2 (intMin ty))) s

/-- max (R188). -/
def execIarMax (h : Hdr) (ty : ITy) (k : Option Byte) (s : State) : Host.Outcome State Fault Refusal :=
  alu (.iarMax h ty k) h (.int 2 2 k (fn2 (intMax ty))) s

/-- clamp (R188). -/
def execIarClamp (h : Hdr) (ty : ITy) (k : Option Byte) (s : State) : Host.Outcome State Fault Refusal :=
  alu (.iarClamp h ty k) h (.int 3 2 k (fn3 fun x lo hi => intMin ty (intMax ty x lo) hi)) s

/-- div, truncated toward zero (R188, R189). -/
def execIarDiv (h : Hdr) (ty : ITy) (k : Option Byte) (s : State) : Host.Outcome State Fault Refusal :=
  alu (.iarDiv h ty k) h (.int 2 16 k (divFn fun a b => wi ((ityVal ty a).tdiv (ityVal ty b)))) s

/-- rem, with the sign of a (R188, R189). -/
def execIarRem (h : Hdr) (ty : ITy) (k : Option Byte) (s : State) : Host.Outcome State Fault Refusal :=
  alu (.iarRem h ty k) h (.int 2 16 k (divFn fun a b => wi ((ityVal ty a).tmod (ityVal ty b)))) s

end Sys2Proof.Machine
end

