-- ==== Sys2Proof/Machine/Bits.lean ====
section
/-! DEFINITION. BIT: bit operations (R201, R202). -/

namespace Sys2Proof.Machine

def shl (a n : Word) : Word := if n.toNat < 32 then a <<< n.toNat else 0
def shr (a n : Word) : Word := if n.toNat < 32 then a >>> n.toNat else 0
def sar (a n : Word) : Word := a.sshiftRight (min n.toNat 31)
def rotl (a n : Word) : Word := a.rotateLeft (n.toNat % 32)

/-- The number of set bits. -/
def popc (a : Word) : Word := wd (sumBy (fun i => b2n (bit? a.toNat i)) (upto 32))
def clz (a : Word) : Word := if a = 0 then 32 else wd (31 - a.toNat.log2)

/-- Trailing zeros, with `n` bits left to look at. -/
def ctzFrom (v : Nat) : Nat → Nat
  | 0 => 0
  | n + 1 => if v % 2 = 1 then 0 else 1 + ctzFrom (v / 2) n
def ctz (a : Word) : Word := wd (ctzFrom a.toNat 32)
def brev (a : Word) : Word := a.reverse

/-- A field of a, extended as the type says (R202). -/
def bfe (ty : ITy) (a p l : Word) : Word :=
  let l := min l.toNat 32
  let p := min p.toNat 32
  if l = 0 then 0
  else
    let f := (ityVal ty a / 2 ^ p) % (2 ^ l : Nat)
    match ty with
    | .n32 => wi f
    | .i32 => if f < (2 ^ (l - 1) : Nat) then wi f else wi (f - (2 ^ l : Nat))

/-- A field of b put into a; bits at 32 and above are dropped (R202). -/
def bfi (a b p l : Word) : Word :=
  let l := min l.toNat 32
  let p := p.toNat
  if 32 ≤ p then a
  else
    let mask := wd ((2 ^ l - 1) * 2 ^ p)
    (a &&& ~~~mask) ||| (wd (b.toNat % 2 ^ l * 2 ^ p) &&& mask)

/-- The three-input table lookup of each bit (R202). -/
def lop3 (t : Byte) (a b c : Word) : Word :=
  let pick := fun (i : Nat) (m : Word) => if bit? t.toNat i then m else 0
  pick 0 (~~~a &&& ~~~b &&& ~~~c) ||| pick 1 (~~~a &&& ~~~b &&& c) ||| pick 2 (~~~a &&& b &&& ~~~c)
    ||| pick 3 (~~~a &&& b &&& c) ||| pick 4 (a &&& ~~~b &&& ~~~c) ||| pick 5 (a &&& ~~~b &&& c)
    ||| pick 6 (a &&& b &&& ~~~c) ||| pick 7 (a &&& b &&& c)

/-- and (R202). -/
def execBitAnd (h : Hdr) (ty : ITy) (k : Option Byte) (s : State) : Host.Outcome State Fault Refusal :=
  alu (.bitAnd h ty k) h (.int 2 2 k (fn2 fun a b => a &&& b)) s

/-- or (R202). -/
def execBitOr (h : Hdr) (ty : ITy) (k : Option Byte) (s : State) : Host.Outcome State Fault Refusal :=
  alu (.bitOr h ty k) h (.int 2 2 k (fn2 fun a b => a ||| b)) s

/-- xor (R202). -/
def execBitXor (h : Hdr) (ty : ITy) (k : Option Byte) (s : State) : Host.Outcome State Fault Refusal :=
  alu (.bitXor h ty k) h (.int 2 2 k (fn2 fun a b => a ^^^ b)) s

/-- not (R202). -/
def execBitNot (h : Hdr) (ty : ITy) (k : Option Byte) (s : State) : Host.Outcome State Fault Refusal :=
  alu (.bitNot h ty k) h (.int 1 2 k (fn1 fun a => ~~~a)) s

/-- andn (R202). -/
def execBitAndn (h : Hdr) (ty : ITy) (k : Option Byte) (s : State) : Host.Outcome State Fault Refusal :=
  alu (.bitAndn h ty k) h (.int 2 2 k (fn2 fun a b => a &&& ~~~b)) s

/-- shl (R202). -/
def execBitShl (h : Hdr) (ty : ITy) (k : Option Byte) (s : State) : Host.Outcome State Fault Refusal :=
  alu (.bitShl h ty k) h (.int 2 2 k (fn2 shl)) s

/-- shr (R202). -/
def execBitShr (h : Hdr) (ty : ITy) (k : Option Byte) (s : State) : Host.Outcome State Fault Refusal :=
  alu (.bitShr h ty k) h (.int 2 2 k (fn2 shr)) s

/-- sar (R202). -/
def execBitSar (h : Hdr) (ty : ITy) (k : Option Byte) (s : State) : Host.Outcome State Fault Refusal :=
  alu (.bitSar h ty k) h (.int 2 2 k (fn2 sar)) s

/-- rot (R202). -/
def execBitRot (h : Hdr) (ty : ITy) (k : Option Byte) (s : State) : Host.Outcome State Fault Refusal :=
  alu (.bitRot h ty k) h (.int 2 2 k (fn2 rotl)) s

/-- popc (R202). -/
def execBitPopc (h : Hdr) (ty : ITy) (k : Option Byte) (s : State) : Host.Outcome State Fault Refusal :=
  alu (.bitPopc h ty k) h (.int 1 2 k (fn1 popc)) s

/-- clz (R202). -/
def execBitClz (h : Hdr) (ty : ITy) (k : Option Byte) (s : State) : Host.Outcome State Fault Refusal :=
  alu (.bitClz h ty k) h (.int 1 2 k (fn1 clz)) s

/-- ctz (R202). -/
def execBitCtz (h : Hdr) (ty : ITy) (k : Option Byte) (s : State) : Host.Outcome State Fault Refusal :=
  alu (.bitCtz h ty k) h (.int 1 2 k (fn1 ctz)) s

/-- bfe (R202). -/
def execBitBfe (h : Hdr) (ty : ITy) (k : Option Byte) (s : State) : Host.Outcome State Fault Refusal :=
  alu (.bitBfe h ty k) h (.int 3 2 k (fn3 (bfe ty))) s

/-- bfi (R202). -/
def execBitBfi (h : Hdr) (ty : ITy) (k : Option Byte) (s : State) : Host.Outcome State Fault Refusal :=
  alu (.bitBfi h ty k) h (.int 4 2 k (fn4 bfi)) s

/-- brev (R202). -/
def execBitBrev (h : Hdr) (ty : ITy) (k : Option Byte) (s : State) : Host.Outcome State Fault Refusal :=
  alu (.bitBrev h ty k) h (.int 1 2 k (fn1 brev)) s

/-- lop3 (R202). -/
def execBitLop3 (h : Hdr) (ty : ITy) (table : Byte) (s : State) : Host.Outcome State Fault Refusal :=
  alu (.bitLop3 h ty table) h (.int 3 2 none (fn3 (lop3 table))) s

end Sys2Proof.Machine
end

