-- ==== Sys2Proof/Machine/Control.lean ====
section
/-! DEFINITION. CTL: branches, calls, jumps and `exit` (R207-R211). -/

namespace Sys2Proof.Machine

/-- A branch target: PC + 4 + 4 × OFF16, the offset signed (R116, R207). -/
def branchTarget (pc : Word) (off : BitVec 16) : Word := pc + 4 + 4 * off.signExtend 32

/-- bra (R208). -/
def execBra (h : Hdr) (off : BitVec 16) (s : State) : Host.Outcome State Fault Refusal :=
  issue (.bra h off) h { scopes := [.lane] } (fun s c => retire s c h { pc := branchTarget c.p.pc off }) s

/-- What a lane-scope transfer popped: lanes with their value, lanes with a poisoned one, or a cause for the path. -/
structure Popped where
  good : List (Nat × Thread × Word)
  bad : List (Nat × TrapInfo)

def popLanes (c : Ctx) : LaneRes Popped :=
  (c.b.lanesOf c.p.lanes).foldr (fun e acc =>
    acc.bind fun p =>
      match (checkDepth e.2.stack.length 1 1 0 (laneCeil c.b c.p)).bind (fun _ => consume c.env (e.2.stack.take 1)) with
      | .path t => .path t
      | .lane t => .ok { p with bad := (e.1, t) :: p.bad }
      | .ok vs =>
        match refusePoison vs with
        | .ok _ => .ok { p with good := (e.1, e.2, (vs.getD 0 ⟨0, .clean⟩).bits) :: p.good }
        | .lane t => .ok { p with bad := (e.1, t) :: p.bad }
        | .path t => .path t) (.ok ⟨[], []⟩)

/-- Every value of a list has the same key. -/
def agree {α β : Type} [DecidableEq β] (f : α → β) : List α → Bool
  | [] => true
  | a :: r => r.all (fun x => decide (f x = f a))

/-- A lane-scope transfer (R208, R209): poisoned lanes stop, and the others must agree on `key`; `go` gives the next PC or a
cause. -/
def laneTransfer (h : Hdr) (key : Word → Word) (go : Word → LaneRes Word) (s : State) (c : Ctx) : State :=
  match popLanes c with
  | .path t => trapPath s c t
  | .lane t => trapPath s c t
  | .ok p =>
    let stop := fun (s : State) (l : List (Nat × TrapInfo)) => if l.isEmpty then s else trapLanes s c.bid c.pid l
    match p.good with
    | [] => stop s p.bad
    | g :: _ =>
      let all := fun (t : TrapInfo) => stop s (p.bad ++ p.good.map (fun e => (e.1, t)))
      if agree (fun e : Nat × Thread × Word => key e.2.2) p.good then
        match go g.2.2 with
        | .path t => all t
        | .lane t => all t
        | .ok pc =>
          let d := laneDepth c.b c.p
          retire (putThreads (stop s p.bad) c.bid (p.good.map (fun e => (e.1, e.2.1.withStack (e.2.1.stack.drop 1))))) c h
            { pc := pc, xfer := transfers d (d - 1) }
      else all { cause := 0x08 }

/-- A transfer that pops the uniform stack (R208, R209). -/
def pathTransfer (h : Hdr) (fin : Path → Path) (go : Word → LaneRes Word) (s : State) (c : Ctx) : State :=
  match (checkDepth c.p.ust.length 1 1 0 8).bind fun _ =>
      (consume c.env (c.p.ust.take 1)).bind fun vs =>
      (refusePoison vs).bind fun _ => go (vs.getD 0 ⟨0, .clean⟩).bits with
  | .path t => trapPath s c t
  | .lane t => trapPath s c t
  | .ok pc =>
    let p := fin { c.p with ust := c.p.ust.drop 1 }
    retire (s.modPath c.bid c.pid (fun _ => p)) c h { pc := pc }

def flagWord (w : Word) : Word := if w = 0 then 0 else 1

def condBranch (onZero : Bool) (h : Hdr) (off : BitVec 16) (s : State) (c : Ctx) : State :=
  let go := fun (f : Word) =>
    LaneRes.ok (if (f = 0) = (onZero = true) then branchTarget c.p.pc off else c.next)
  if h.sc = .lane then laneTransfer h flagWord go s c else pathTransfer h id go s c

/-- bz (R208). -/
def execBz (h : Hdr) (off : BitVec 16) (s : State) : Host.Outcome State Fault Refusal :=
  issue (.bz h off) h { scopes := laneWarp } (condBranch true h off) s
/-- bnz (R208). -/
def execBnz (h : Hdr) (off : BitVec 16) (s : State) : Host.Outcome State Fault Refusal :=
  issue (.bnz h off) h { scopes := laneWarp } (condBranch false h off) s

/-- call (R208, R209): a target beyond the code is told by the fetch after the call has pushed. (log 86, DEDUCED) -/
def callBody (h : Hdr) (off : BitVec 16) (s : State) (c : Ctx) : State :=
  match checkDepth c.p.ust.length 0 0 1 8 with
  | .path t => trapPath s c t
  | .lane t => trapPath s c t
  | .ok _ =>
    retire (s.modPath c.bid c.pid (fun p => { p with ust := c.env.longResult (.clean c.next) :: p.ust })) c h
      { pc := branchTarget c.p.pc off, owed := 1 }

/-- call: the pushed return address is long-latency (R209). -/
def execCall (h : Hdr) (off : BitVec 16) (s : State) : Host.Outcome State Fault Refusal :=
  issue (.call h off) h { scopes := [.lane] } (callBody h off) s

/-- A popped target: misaligned, then beyond the code section (R209). -/
def codeTarget (b : Block) (a : Word) : LaneRes Word :=
  if a.toNat % 4 ≠ 0 then .path { cause := 0x0C }
  else if b.csize ≤ a.toNat then .path { cause := 0x0B }
  else .ok a

/-- ret, which also ends an emulation routine (R209, R367). -/
def execRet (h : Hdr) (s : State) : Host.Outcome State Fault Refusal :=
  issue (.ret h) h { scopes := [.lane] } (fun s c => pathTransfer h endNest (codeTarget c.b) s c) s

/-- jx (R209). -/
def execJx (h : Hdr) (s : State) : Host.Outcome State Fault Refusal :=
  issue (.jx h) h { scopes := laneWarp }
    (fun s c => if h.sc = .lane then laneTransfer h id (codeTarget c.b) s c
      else pathTransfer h id (codeTarget c.b) s c) s

/-- Every lane of a warp has exited. -/
def warpGone (b : Block) (warp : Nat) : Bool :=
  b.threads.all (fun e => decide (1024 ≤ e.1) || homeWarp e.1 != warp || e.2.run == .exited)

/-- Threads end (R210): they leave their paths, a path without lanes leaves its port, a warp whose threads have all exited
takes its finder warp with it, and everything that counted on them is looked at again. -/
def exitThreads (s : State) (bid : Nat) (keys : List Nat) : State :=
  match tget s.blocks bid with
  | none => s
  | some b =>
    let gone := b.threads.filter (fun e => mem? keys e.1 && e.2.run != .exited)
    let s := gone.foldl (fun s e => s.modThread bid e.1 (fun t => { t with run := .exited })) s
    let s := b.paths.foldl (fun s e =>
      if e.2.lanes.all (mem? keys) then
        let s := releasePort s bid e.1
        s.modBlock bid (fun b => { b with paths := tdel b.paths e.1 })
      else s.modPath bid e.1 (fun p => { p with lanes := p.lanes.filter (fun k => !mem? keys k) })) s
    (s.unfile bid keys).modBlock bid (fun b => { b with
      homing := b.homing.filter (fun e => !mem? keys e.1)
      filed := b.filed.filter (fun e => !mem? keys e.1)
      routine := b.routine.filter (fun e => !mem? keys e.1)
      toSuspend := b.toSuspend.filter (fun k => !mem? keys k)
      stepped := b.stepped.filter (fun k => !mem? keys k)
      matrix := (b.matrix.map (fun (e : Nat × WarpMatrix) => (e.1, if warpGone b e.1 then { e.2 with halt := none } else e.2))) })

/-- Finder threads of warps whose threads have all exited (R105, R210). -/
def orphanFinders (b : Block) : List Nat :=
  (b.threads.filter (fun e => decide (1024 ≤ e.1) && e.2.run != .exited
    && b.threads.all (fun x => decide (1024 ≤ x.1) || homeWarp x.1 != homeWarp e.1 || x.2.run == .exited))).map (·.1)

/-- Exits with what follows in the block: finders stop, joins and meetings complete, bins and queues are looked at. -/
def exitLanes (s : State) (bid : Nat) (keys : List Nat) : State :=
  let s := exitThreads s bid keys
  match tget s.blocks bid with
  | none => s
  | some b =>
    let s := exitThreads s bid (orphanFinders b)
    let s := recheck s bid
    (sortNat (keys.map homeWarp)).foldl (fun s w =>
      let s := s.postOnce s.cycle (.warpFormation (b.sectorOf w))
      s.postOnce s.cycle (.queueEntryArrival bid w)) s

/-- exit (R210). -/
def execExit (h : Hdr) (s : State) : Host.Outcome State Fault Refusal :=
  issue (.exit h) h { scopes := [.lane] }
    (fun s c => exitLanes s c.bid c.p.lanes) s

end Sys2Proof.Machine
end

