-- ==== Sys2Proof/Machine/Converge.lean ====
section
/-! DEFINITION. PATH: fork, join, reform, rehome and umerge, with the device steps that merge, form and release
(R84-R87, R143-R148, R212-R216). -/

namespace Sys2Proof.Machine

/-! fork -/

/-- Open forks of the warp a path runs in (R145); one whose lanes have all left still counts. (log 86, DEDUCED) -/
def openForks (b : Block) (p : Path) : Nat :=
  (b.forks.filter (fun e => e.2.warp == p.warp && e.2.finder == p.finder)).length

/-- A path that waits for its port from the present cycle and continues its run there (R92, R98, R291). -/
def Path.waitPort (p : Path) (cycle : Nat) : Path :=
  { p with wait := .ready cycle, run := { p.run with paired := false, base := cycle } }

/-- The fork's two arms (R212): the fall-through arm keeps the port, the taken arm becomes a ready path. -/
def openFork (h : Hdr) (off : BitVec 16) (s : State) (c : Ctx) (good : List (Nat × Thread × Word)) : State :=
  let t := good.filter (fun e => e.2.2 != 0)
  let f := good.filter (fun e => e.2.2 == 0)
  let (fid, s) := s.fresh
  let s := putThreads s c.bid (good.map (fun e =>
    let st := e.2.1.stack.drop 1
    (e.1, { e.2.1.withStack st with forkD := (fid, st.length) :: e.2.1.forkD })))
  let s := s.modBlock c.bid (fun b =>
    { b with forks := tset b.forks fid ⟨c.p.warp, c.p.finder, f.map (·.1), t.map (·.1), none⟩ })
  let d := laneDepth c.b c.p
  let s := s.modPath c.bid c.pid (fun p => { p with forks := fid :: p.forks })
  let s := account s c { pc := c.next, xfer := transfers d (d - 1) }
  let stop := c.p.parksAfter h
  let s := s.modPath c.bid c.pid (·.stepDone h.b)
  match s.path? c.bid c.pid with
  | none => s
  | some p =>
    let taken := { p.waitPort s.cycle with lanes := t.map (·.1), pc := branchTarget c.p.pc off }
    let k := c.b.sectorOf p.warp
    if f.isEmpty then
      if stop then parkPath (s.modPath c.bid c.pid (fun _ => { taken with wait := .issuing })) c.bid c.pid .parked
      else
        let s := releasePort s c.bid c.pid
        wakePort (s.modPath c.bid c.pid (fun _ => taken)) k p.finder
    else
      let s := s.modPath c.bid c.pid (fun p => { p with lanes := f.map (·.1) })
      let s := if stop then parkPath s c.bid c.pid .parked else s
      if t.isEmpty then s
      else
        let (id, s) := s.fresh
        let s := s.modBlock c.bid (fun b => { b with paths := tset b.paths id taken })
        let s := postReturns s c.bid id p.run.owed
        if stop then parkPath s c.bid id .parked else wakePort s k p.finder

def forkBody (h : Hdr) (off : BitVec 16) (s : State) (c : Ctx) : State :=
  match popLanes c with
  | .path t => if t.cause ≠ 0x04 ∧ Config.maxForks ≤ openForks c.b c.p then trapPath s c { cause := 0x03 }
      else trapPath s c t
  | .lane t => trapPath s c t
  | .ok p =>
    if Config.maxForks ≤ openForks c.b c.p then trapPath s c { cause := 0x03 }
    else
      let s := if p.bad.isEmpty then s else trapLanes s c.bid c.pid p.bad
      if p.good.isEmpty then s else openFork h off s c p.good

/-- fork (R212). -/
def execFork (h : Hdr) (off : BitVec 16) (s : State) : Host.Outcome State Fault Refusal :=
  issue (.fork h off) h { scopes := [.lane] } (forkBody h off) s

/-! join -/

/-- The depth a lane must have at its join (R143): D_f + d. -/
def joinDepth (t : Thread) (d : BitVec 4) : Int := ((t.forkD.head?.map (·.2)).getD 0 : Nat) + d.toInt

/-- The lanes of an arm at its join (R143, R213, R214): the first arm to come fixes the join's PC, also when none of its
lanes passes the depth check. (log 86, DEDUCED) -/
def joinLanes (d : BitVec 4) (s : State) (c : Ctx) (fid : Nat) : State :=
  let ts := c.b.lanesOf c.p.lanes
  let bad := (ts.filter (fun e => (e.2.stack.length : Int) ≠ joinDepth e.2 d)).map (fun e =>
    (e.1, ({ cause := 0x02, addr := (BitVec.ofInt 64 (joinDepth e.2 d)).toNat } : TrapInfo)))
  let s := account s c { pc := c.p.pc }
  let s := s.modBlock c.bid (fun b => { b with forks := tmod b.forks fid (fun f =>
    { f with joinPc := some (f.joinPc.getD c.p.pc) }) })
  let s := if bad.isEmpty then s else trapLanes s c.bid c.pid bad
  let s := if bad.length = ts.length then s else parkPath s c.bid c.pid (.joining fid)
  let s := if c.p.haltAt.isSome then s.postOnce s.cycle (.stepComplete c.bid c.pid) else s
  recheck s c.bid

def joinBody (h : Hdr) (d : BitVec 4) (s : State) (c : Ctx) : State :=
  if !h.b then trapPath s c { cause := 0x0D }
  else
    match c.p.forks with
    | [] => trapPath s c { cause := 0x0D }
    | fid :: _ =>
      match tget c.b.forks fid with
      | none => trapPath s c { cause := 0x0D }
      | some f =>
        match f.joinPc with
        | some pc => if pc = c.p.pc then joinLanes d s c fid else trapPath s c { cause := 0x0D }
        | none => joinLanes d s c fid

/-- join (R143, R206, R213, R214). -/
def execJoin (h : Hdr) (d : BitVec 4) (s : State) : Host.Outcome State Fault Refusal :=
  issue (.join h d) h { scopes := [.lane] } (joinBody h d) s

/-- The lowest and highest candidates of a uniform cell (R147). -/
def Cell.low (c : Cell) : Val := c.val
def Cell.high (c : Cell) : Val := c.hi.getD c.val

/-- One cell merged from the forks of a join: `l` begins with the fork of the lowest lane, `last` is the fork of the highest
(R147). (log 68, DEDUCED) -/
def mergeCell (l : List Cell) (last : Cell) : Cell :=
  match l with
  | [] => last
  | a :: r =>
    if l.all (fun c => c.hi.isNone && c.val.bits == a.val.bits && (c.val.poisoned == a.val.poisoned)) then
      { a with
        val := { a.val with poison := if r.all (fun c => c.val.poison == a.val.poison) then a.val.poison else .derived }
        err := l.any (·.err) }
    else { a with val := a.low, hi := some last.high, err := l.any (·.err) }

/-- A file of uniform cells merged cell by cell. (log 68, DEDUCED) -/
def mergeCells (files : List (List Cell)) (last : List Cell) : List Cell :=
  (upto last.length).map (fun i =>
    mergeCell (files.map (fun f => f.getD i (.ofWord 0))) (last.getD i (.ofWord 0)))

def lowLane (p : Path) : Nat := p.lanes.foldl (fun n k => min n (lanePos k)) 32
def highLane (p : Path) : Nat := p.lanes.foldl (fun n k => max n (lanePos k)) 0

/-- Keys in order of their lane positions. -/
def keysByLane (keys : List Nat) : List Nat :=
  (upto 32).flatMap (fun l => keys.filter (fun k => lanePos k == l))

/-- MERGE of the paths that wait at a join (R144, R147, R213); lanes that the debugger stopped there stop again at the next PC
(R381); where their uniform depths differ every lane stops, as one
group (R83). (log 68, DEDUCED) -/
def mergePaths (s : State) (bid fid : Nat) (ps : List (Nat × Path)) : State :=
  match minBy (fun e : Nat × Path => lowLane e.2) ps with
  | none => s
  | some (pid, p) =>
    if !agree (fun e : Nat × Path => e.2.ust.length) ps then
      let (g, s) := s.fresh
      let s := ps.foldl (fun s e => trapLanes s bid e.1 (e.2.lanes.map (fun k => (k, { cause := 0x02 })))) s
      let keys := ps.flatMap (·.2.lanes)
      s.modBlock bid (fun b => { b with
        forks := tmod b.forks fid (fun f => { f with joinPc := none })
        threads := b.threads.map (fun e => (e.1, if mem? keys e.1 then { e.2 with group := some g } else e.2)) })
    else
      let ps := (pid, p) :: ps.filter (fun e => e.1 != pid)
      let last := (minBy (fun e : Nat × Path => 32 - highLane e.2) ps).getD (pid, p)
      let lanes := keysByLane (ps.flatMap (·.2.lanes))
      let base := ps.foldl (fun n e => max n e.2.run.base) s.cycle
      let owed := sumBy (fun e : Nat × Path => e.2.run.owed) ps
      let halted := (ps.flatMap (fun e => (tget s.blocks bid).elim [] (·.lanesOf e.2.lanes))).any (fun e => e.2.run == .stopped)
      let awaits := ps.foldl (fun l e => l ++ e.2.run.awaits.filter (fun a => !l.any (fun x => decide (x = a)))) []
      let merged : Path := { p with
        lanes := lanes
        pc := p.pc + 4
        w := mergeCells (ps.map (·.2.w)) last.2.w
        ust := mergeCells (ps.map (·.2.ust)) last.2.ust
        forks := p.forks.drop 1
        wait := .parked
        since := s.cycle
        run := { p.run with
          base := base, owed := owed, awaits := awaits
          yieldPt := ps.any (fun e => e.2.run.yieldPt) }
        haltAt := if halted then some (.stopped, 0x16) else (ps.find? (fun e => e.2.haltAt.isSome)).bind (·.2.haltAt)
        stepping := if ps.any (fun e => e.2.stepping != 0) then 1 else 0
        stops := ps.flatMap (·.2.stops) }
      let s := s.modBlock bid (fun b => { b with
        paths := tset (ps.foldl (fun t e => tdel t e.1) b.paths) pid merged
        forks := tdel b.forks fid
        threads := b.threads.map (fun e =>
          (e.1, if mem? lanes e.1 then { e.2 with
              forkD := e.2.forkD.filter (fun d => d.1 != fid), run := if e.2.run = .stopped then .running else e.2.run }
            else e.2)) })
      let s := postReturns s bid pid (owed - p.run.owed)
      s.post base (.pathReady bid pid)

/-- The join of a fork completes when both arms are in (R213). -/
def joinMerge (bid fid : Nat) (s : State) : State :=
  match tget s.blocks bid with
  | none => s
  | some b =>
    match tget b.forks fid with
    | none => s
    | some f =>
      if b.joinReady fid f then mergePaths s bid fid (b.paths.filter (fun e => e.2.wait == .joining fid)) else s

def execJoinMerge (s : State) : Host.Outcome State Fault Refusal :=
  device s fun
    | .joinMerge bid fid => some (joinMerge bid fid s)
    | _ => none

/-! umerge -/

/-- A divided cell settled to one candidate; it is ready at once (R148, R216). -/
def settleCell (high : Bool) (c : Cell) : Cell :=
  match c.hi with
  | none => c
  | some v => ⟨if high then v else c.val, none, ⟨0, 0, false, 0⟩, c.err⟩

def umergeBody (h : Hdr) (p : Policy) (s : State) (c : Ctx) : State :=
  let settle := fun (high : Bool) => { c.p with w := c.p.w.map (settleCell high), ust := c.p.ust.map (settleCell high) }
  match p with
  | .low => finishPath s c h (.ok (settle false)) { pc := c.next }
  | .high => finishPath s c h (.ok (settle true)) { pc := c.next }
  | .fault =>
    if (c.p.w ++ c.p.ust).any (fun x => x.hi.isSome) then trapPath s c { cause := 0x08 }
    else retire s c h { pc := c.next }

/-- umerge (R148, R216). -/
def execUmerge (h : Hdr) (p : Policy) (s : State) : Host.Outcome State Fault Refusal :=
  issue (.umerge h p) h { scopes := [.lane] } (umergeBody h p) s

/-! reform -/

/-- The bin of a key, or an empty one, lowest first (R85). (log 19, DEDUCED) -/
def binFor (sec : Sector) (bid : Nat) (pc : Word) : Option Nat :=
  match sec.bins.find? (fun e => e.2.blk == bid && e.2.pc == pc && !e.2.filed.isEmpty) with
  | some e => some e.1
  | none => (upto Config.bins).find? (fun i => match tget sec.bins i with | some n => n.filed.isEmpty | none => true)

/-- What the threads of a path that leaves for a bin or for `rehome` take along: a step or a halt, which stops them once they
stand in a path again, a suspension, and the latencies of its run (R97, R105, R366, R381). -/
def Block.regather (b : Block) (p : Path) (keys : List Nat) : Block :=
  let stops := p.stepping != 0 || (p.haltAt.any (fun h => h.1 == .stopped))
  let ripe := p.since + (p.run.ready - p.run.slot)
  { b with
    stepped := if stops then b.stepped ++ keys else b.stepped
    toSuspend := if p.haltAt.any (fun h => h.1 == .suspended) then b.toSuspend ++ keys else b.toSuspend
    ripe := if p.run.ready ≤ p.run.slot then b.ripe else keys.foldl (fun t k => tset t k ripe) b.ripe }

/-- Threads filed with their next PC; a path that finds no bin, sleeps, or is owed results of an engine waits at its `reform`
(R84, R85, R97, R179). (log 19, DEDUCED) -/
def fileThreads (s : State) (bid pid : Nat) : State :=
  match tget s.blocks bid, s.path? bid pid with
  | some b, some p =>
    let k := b.sectorOf p.warp
    let pc := p.pc + 4
    if s.cycle < p.since + p.run.sleep then
      (s.modPath bid pid (fun p => { p with wait := .binning })).postOnce (p.since + p.run.sleep) (.warpFormation k)
    else if !p.run.awaits.isEmpty then s.modPath bid pid (fun p => { p with wait := .binning })
    else if !p.stops.isEmpty then beginRun s bid pid
    else match binFor (s.sector k) bid pc with
    | none => s.modPath bid pid (fun p => { p with wait := .binning })
    | some i =>
      let filed := p.lanes.map (fun key => (⟨bid, key, s.cycle⟩ : Filed))
      let before := match tget (s.sector k).bins i with
        | some n => n.filed
        | none => []
      let bin : Bin := ⟨bid, pc, before ++ filed⟩
      let s := s.modSector k (fun x => { x with bins := tset x.bins i bin })
      let s := p.lanes.foldl (fun s key => s.modThread bid key (fun t =>
        { t with run := .binned, forkD := if p.forks.isEmpty then [] else t.forkD })) s
      let s := s.modBlock bid (fun b => { b.regather p p.lanes with
        paths := tdel b.paths pid
        saves := if p.formed then b.saves else tset b.saves p.warp (SaveArea.mk p.w p.ust)
        routine := if p.nest.isNone then b.routine
          else p.lanes.foldl (fun t k => tset t k (p.nest.getD 0, p.ust)) b.routine })
      let s := s.post (s.cycle + Config.binAge) (.binAged k i)
      recheck (s.postOnce s.cycle (.warpFormation k)) bid
  | _, _ => s

def reformBody (h : Hdr) (d : BitVec 4) (s : State) (c : Ctx) : State :=
  if !h.b || c.p.finder || !c.p.forks.isEmpty then trapPath s c { cause := 0x0D }
  else
    let ts := c.b.lanesOf c.p.lanes
    let bad := (ts.filter (fun e => e.2.stack.length ≠ d.toNat)).map (fun e => (e.1, ({ cause := 0x02 } : TrapInfo)))
    let s := account s c { pc := c.p.pc }
    let s := if bad.isEmpty then s else trapLanes s c.bid c.pid bad
    let s := s.modPath c.bid c.pid (fun p => { p with since := s.cycle })
    if bad.length = ts.length then s else fileThreads (releasePort s c.bid c.pid) c.bid c.pid

/-- reform (R84-R86). -/
def execReform (h : Hdr) (d : BitVec 4) (s : State) : Host.Outcome State Fault Refusal :=
  issue (.reform h d) h { scopes := [.lane] } (reformBody h d) s

/-- Home warps of a sector whose slot of the block no warp is using (R85). -/
def freeSlots (b : Block) (sector : Nat) : List Nat :=
  (upto b.warps).filter (fun w => b.sectorOf w == sector && b.paths.all (fun e => e.2.finder || e.2.warp != w))

/-- Lane positions at which the sector holds an unexited thread of a block (R85). -/
def heldPositions (b : Block) (sector : Nat) : List Nat :=
  sortNat ((b.threads.filter (fun e => decide (e.1 < 1024) && b.sectorOf (homeWarp e.1) == sector
    && e.2.run != .exited)).map (fun e => lanePos e.1))

def Bin.fullFor (n : Bin) (b : Block) (sector : Nat) : Bool :=
  !n.filed.isEmpty && (heldPositions b sector).all (fun l => n.filed.any (fun f => lanePos f.key == l))

def Bin.oldest (n : Bin) : Nat := n.filed.foldl (fun m f => min m f.since) (n.filed.headD ⟨0, 0, 0⟩).since

/-- A reading of the rules (log 19, DEDUCED). -/
def Bin.agedAt (n : Bin) (cycle : Nat) : Bool := !n.filed.isEmpty && decide (n.oldest + Config.binAge ≤ cycle)

/-- Open forks of a filed thread: a pre-empted one may have some (R88). -/
def Block.forksOf (b : Block) (key : Nat) : List Nat := ((tget b.threads key).map (·.forkD.map (·.1))).getD []

/-- The bin's oldest thread at each lane position, the lower home warp on ties (R85); threads with other open forks than the
oldest one's, or another emulation routine, stay. (log 19, DEDUCED) -/
def Bin.choose (b : Block) (n : Bin) : List Nat :=
  let rank := fun (f : Filed) => f.since * 1024 + f.key
  let forks := (minBy rank n.filed).elim [] (fun f => b.forksOf f.key)
  let routine := (minBy rank n.filed).bind (fun f => tget b.routine f.key)
  (upto 32).filterMap (fun l => (minBy rank
    (n.filed.filter (fun f => lanePos f.key == l && b.forksOf f.key == forks && decide (tget b.routine f.key = routine)))).map
      (·.key))

/-- Free values for the cells w32 to w63 of a formed warp (R86, log 5). -/
def drawCells : Nat → State → List Cell × State
  | 0, s => ([], s)
  | n + 1, s =>
    let (w, s) := s.drawWord
    let (r, s) := drawCells n s
    (Cell.ofWord w :: r, s)

/-- A path of regathered threads begins its run once what they took along is over (R97); stepped threads among them stop it at
its first instruction (R381). -/
def startFormed (s : State) (bid pid : Nat) (keys : List Nat) : State :=
  match tget s.blocks bid with
  | none => s
  | some b =>
    let ripe := keys.foldl (fun n k => max n (tgetD b.ripe k 0)) 0
    let s := s.modPath bid pid (fun p => { p with run := { p.run with base := max p.run.base ripe } })
    if b.stepped.any (mem? keys) then
      let s := s.modBlock bid (fun b => { b with stepped := b.stepped.filter (fun k => !mem? keys k) })
      let s := s.modPath bid pid (fun p => { p with haltAt := some (.stopped, 0x16) })
      beginRun s bid pid
    else beginRun s bid pid

/-- Threads in no path stand in one of their own at a PC, in the slot of a home warp, with the uniform state that R86 gives a
formed warp; those saved inside an emulation routine go on in it (R368). The path's number is returned. -/
def gatherPath (s : State) (bid : Nat) (b : Block) (owner : Nat) (keys : List Nat) (pc : Word) : Nat × State :=
  let first := keys.headD 0
  let forks := b.forksOf first
  let routine := tget b.routine first
  let (high, s) := drawCells 32 s
  let low := (match tget b.saves (homeWarp first) with | some a => a.w | none => []).take 32
  let (id, s) := s.fresh
  let p : Path := {
    warp := owner, finder := false, formed := true, slot := tgetD b.slots owner 0, lanes := keys, pc := pc
    ust := routine.elim [] (·.2), w := low ++ high, run := .start 0 pc s.cycle, wait := .parked, since := s.cycle
    forks := forks, nest := routine.map (·.1), stepping := 0, haltAt := none, prog := 0, checked := false, pageFault := none
    stops := [] }
  let s := (s.unfile bid keys).modBlock bid (fun b => { b with
    paths := tset b.paths id p
    homing := b.homing.filter (fun e => !mem? keys e.1)
    filed := b.filed.filter (fun e => !mem? keys e.1)
    routine := b.routine.filter (fun e => !mem? keys e.1)
    forks := forks.foldl (fun t f => tmod t f (fun x => { x with warp := owner })) b.forks })
  (id, keys.foldl (fun s k => s.modThread bid k (fun t => { t with run := .running })) s)

/-- A warp formed from a bin in a free slot (R85, R86). -/
def formWarp (s : State) (n : Bin) (slotOwner : Nat) : State :=
  match tget s.blocks n.blk with
  | none => s
  | some b =>
    let keys := n.choose b
    let x := gatherPath s n.blk b slotOwner keys n.pc
    startFormed x.2 n.blk x.1 keys

/-- The next bin from which a warp can form: full bins, then aged ones, the oldest thread first (R85). -/
def nextBin (s : State) (sector : Nat) : Option (Bin × Nat) :=
  let can := (s.sector sector).bins.filterMap (fun e =>
    match tget s.blocks e.2.blk with
    | none => none
    | some b =>
      match freeSlots b sector with
      | [] => none
      | w :: _ =>
        if e.2.fullFor b sector then some (0, e.1, e.2, w)
        else if e.2.agedAt s.cycle then some (1, e.1, e.2, w)
        else none)
  (minBy (fun x : Nat × Nat × Bin × Nat => (x.1 * 2 ^ 64 + x.2.2.1.oldest) * Config.bins + x.2.1) can).map (·.2.2)

def formWarps (s : State) (sector : Nat) : Nat → State
  | 0 => s
  | n + 1 =>
    match nextBin s sector with
    | none => s
    | some (bin, w) => formWarps (formWarp s bin w) sector n

/-- Paths of a sector that wait for a bin try again (R85). -/
def retryBinning (s : State) (sector : Nat) : State :=
  s.blocks.foldl (fun s e =>
    e.2.paths.foldl (fun s x =>
      if x.2.wait = .binning ∧ e.2.sectorOf x.2.warp = sector then fileThreads s e.1 x.1 else s) s) s

/-- A restored block's threads that were saved as filed go into bins again (R88). (log 70, DEDUCED) -/
def fileSaved (s : State) (bid : Nat) : State :=
  match tget s.blocks bid with
  | none => s
  | some b =>
    (b.filed.filter (fun e => ((tget b.threads e.1).map (·.run)) == some .binned)).foldl (fun s e =>
      let k := b.sectorOf (homeWarp e.1)
      match binFor (s.sector k) bid e.2 with
      | none => s
      | some i =>
        let before := match tget (s.sector k).bins i with
          | some n => n.filed
          | none => []
        let s := s.modSector k (fun x => { x with bins := tset x.bins i ⟨bid, e.2, before ++ [⟨bid, e.1, s.cycle⟩]⟩ })
        let s := s.modBlock bid (fun b => { b with filed := tdel b.filed e.1 })
        (s.postOnce (s.cycle + Config.binAge) (.binAged k i)).postOnce s.cycle (.warpFormation k)) s

/-- Warps form while no run holds the execute port, which is at each run boundary (R85); waiting threads go into bins. -/
def warpFormation (sector : Nat) (s : State) : State :=
  let s := (s.blocksOn (sector / 4)).foldl (fun s e => suspendGathered s e.1) s
  let s := if (s.sector sector).exec.isSome then s else formWarps s sector Config.bins
  let s := retryBinning s sector
  (s.blocksOn (sector / 4)).foldl (fun s e => if e.2.filed.isEmpty then s else fileSaved s e.1) s

def execWarpFormation (s : State) : Host.Outcome State Fault Refusal :=
  device s fun
    | .warpFormation sector => some (warpFormation sector s)
    | _ => none

/-- A bin has aged: the sector forms warps, at once or at its next run boundary (R85). -/
def execBinAged (s : State) : Host.Outcome State Fault Refusal :=
  device s fun
    | .binAged sector _ => some (warpFormation sector s)
    | _ => none

/-! rehome -/

/-- Threads of a home warp that wait at `rehome` (R87). -/
def homingOf (b : Block) (warp : Nat) : List (Nat × Word) := b.homing.filter (fun e => homeWarp e.1 == warp)

/-- A formed path's threads wait at `rehome`; one whose home warp waits at another PC raises cause 0x07 (R87).
(log 20, DEDUCED) -/
def goHome (s : State) (bid pid : Nat) : State :=
  match tget s.blocks bid, s.path? bid pid with
  | some b, some p =>
    let bad := p.lanes.filter (fun k => (homingOf b (homeWarp k)).any (fun e => e.2 != p.pc))
    let s := if bad.isEmpty then s else trapLanes s bid pid (bad.map (fun k => (k, { cause := 0x07 })))
    let good := p.lanes.filter (fun k => !mem? bad k)
    if good.isEmpty then s
    else
      let s := releasePort s bid pid
      let s := good.foldl (fun s k => s.modThread bid k (fun t => { t with run := .rehoming })) s
      let s := s.modBlock bid (fun b => { b.regather p good with
        paths := tdel b.paths pid
        homing := good.foldl (fun t k => tset t k p.pc) b.homing })
      let s := s.post (s.cycle + Config.probePeriod) (.transitProbeSend bid (homeUnit p.warp))
      recheck (s.postOnce s.cycle (.warpFormation (b.sectorOf p.warp))) bid
  | _, _ => s

/-- A formed path at `rehome`: its threads wait there, after its sleep and the results that engines owe it (R87, R97,
R179). (log 20, DEDUCED) -/
def arriveHome (s : State) (c : Ctx) : State :=
  let s := (account s c { pc := c.p.pc }).modPath c.bid c.pid (fun p => { p with since := s.cycle })
  if c.p.run.sleep = 0 ∧ c.p.run.awaits = [] then goHome s c.bid c.pid
  else
    let s := releasePort s c.bid c.pid
    (s.modPath c.bid c.pid (fun p => { p with wait := .rehoming, since := s.cycle })).post (s.cycle + c.p.run.sleep)
      (.sleepExpiry c.bid c.pid)

/-- rehome: no effect for a thread in its home warp (R87). -/
def execRehome (h : Hdr) (s : State) : Host.Outcome State Fault Refusal :=
  issue (.rehome h) h { scopes := [.lane] }
    (fun s c =>
      if !h.b || c.p.finder then trapPath s c { cause := 0x0D }
      else if c.p.formed then arriveHome s c
      else retire s c h { pc := c.next }) s

/-- The thread is still in its home warp (R87): in a path of the warp that no `reform` formed. -/
def atHome (b : Block) (key : Nat) : Bool :=
  match b.pathOf key with
  | some (_, p) => !p.formed
  | none => false

/-- A home warp resumes when each of its unexited threads waits at `rehome` or is at home (R87), and no formed warp occupies
its slot. (log 80, DESIGN CHOICE) -/
def homeReady (b : Block) (warp : Nat) : Bool :=
  let ts := b.threads.filter (fun e => decide (e.1 < 1024) && homeWarp e.1 == warp && e.2.run != .exited)
  ts.any (fun e => e.2.run == .rehoming) && ts.all (fun e => e.2.run == .rehoming || atHome b e.1)
    && b.paths.all (fun e => e.2.finder || e.2.warp != warp || !e.2.formed)

/-- Threads that have gone home count in no fork of a formed warp; a fork without lanes is gone. (log 20, DEDUCED) -/
def dropArms (forks : Tab Fork) (keys : List Nat) : Tab Fork :=
  (forks.map (fun (e : Nat × Fork) => (e.1, { e.2 with
    fall := e.2.fall.filter (fun k => !mem? keys k), taken := e.2.taken.filter (fun k => !mem? keys k) }))).filter
    (fun e => !(e.2.fall.isEmpty && e.2.taken.isEmpty))

/-- A reading of the rules (log 20, DEDUCED). -/
def rehomeRelease (bid warp : Nat) (s : State) : State :=
  let s := suspendGathered s bid
  match tget s.blocks bid with
  | none => s
  | some b =>
    if homeReady b warp then
      let home := homingOf b warp
      let save := (tget b.saves warp).getD ⟨List.replicate 64 (.ofWord 0), []⟩
      let (id, s) := s.fresh
      let p : Path := {
        warp := warp, finder := false, formed := false, slot := tgetD b.slots warp 0, lanes := home.map (·.1)
        pc := (home.headD (0, 0)).2 + 4, ust := save.ust, w := save.w, run := .start 0 0 s.cycle, wait := .parked
        since := s.cycle, forks := [], nest := none, stepping := 0, haltAt := none, prog := 0, checked := false, pageFault := none, stops := [] }
      let s := s.modBlock bid (fun b => { b with
        paths := tset b.paths id p
        homing := b.homing.filter (fun e => homeWarp e.1 != warp)
        saves := tdel b.saves warp
        forks := dropArms b.forks (home.map (·.1)) })
      let s := home.foldl (fun s e => s.modThread bid e.1 (fun t => { t with run := .running, forkD := [] })) s
      recheck (startFormed s bid id (home.map (·.1))) bid
    else s

def execRehomeRelease (s : State) : Host.Outcome State Fault Refusal :=
  device s fun
    | .rehomeRelease bid warp => some (rehomeRelease bid warp s)
    | _ => none

end Sys2Proof.Machine
end

