-- ==== Sys2Proof/Machine/Issue.lean ====
section
/-! DEFINITION. Fetching, the ports' choices, readiness, returns and transfers (R89, R97-R101, R139, R179). -/

namespace Sys2Proof.Machine

/-- What a fetch gives: a word, or a cause with the address of its record (R208, R209). -/
inductive Fetched where
  | word (w : Word)
  | fail (t : TrapInfo)

/-- The word at a code offset, fetched through the address space with X (R13, R230); nothing is fetched beyond the code
section (R209). A word that another package holds is a free value (log 5). A fetch from a line homed on the path's own die
makes no request, since HL changes nothing (R315). -/
def fetchWord (s : State) (b : Block) (pc : Word) : State × Fetched :=
  if b.csize ≤ pc.toNat then (s, .fail { cause := 0x0B, addr := pc.toNat })
  else
    let x := xlate s b.who .fetch (b.cbase + pc.toNat)
    match x.2 with
    | .fail k => (x.1, .fail { cause := k, addr := b.cbase + pc.toNat })
    | .ok pa p =>
      let q := localPa s pa
      if isFabric q then let d := x.1.drawWord; (d.2, .word d.1)
      else if s.lineBad q then (x.1, .fail { cause := 0x13, addr := b.cbase + pc.toNat, dom := s.lineDom q 4 })
      else if homeDie q = b.place.die then (x.1, .word (wd (rdLE s.mem q 4)))
      else
        let r := readFrom x.1 b.place.die q 4 (p.nco && !isFabric pa)
        (r.1, .word (wd (ofBytes r.2)))

/-- The instruction a path would issue next, without a change of state; none when it cannot be fetched. -/
def peekInstr (s : State) (b : Block) (p : Path) : Option Instr :=
  match (fetchWord s b p.pc).2 with
  | .word w => some (decodeWord w)
  | .fail _ => none

/-- Uses of a sector's main-file port by the runs of other paths (R140). -/
def otherUses (s : State) (sector : Nat) (p : Path) : List PortUse :=
  (s.blocksOn (sector / 4)).flatMap (fun e =>
    (e.2.paths.filter (fun x => e.2.sectorOf x.2.warp == sector && !(x.2.run.id == p.run.id && x.2.lanes == p.lanes))).flatMap
      (·.2.run.port))

/-- The cycle in which a path that holds its port issues next (R93, R98, R139, R140). -/
def nextIssueAt (s : State) (b : Block) (p : Path) : Nat :=
  let k := b.sectorOf p.warp
  issueCycle (s.sector k).returns (otherUses s k p) p.run (match peekInstr s b p with | some i => collectorOf b p i | none => 0)

/-- Entries of a warp's finder queue that `qpop` may take: the arrived ones at its head (R103). -/
def FQueue.available (q : FQueue) : Nat := (q.entries.takeWhile (·.arrived)).length

def queueOf (b : Block) (warp : Nat) : FQueue := (tget b.queues warp).getD ⟨[], 0, []⟩

/-- The warp's finder has no thread left that could supply entries (R105). -/
def finderGone (b : Block) (warp : Nat) : Bool :=
  b.threads.all (fun e => decide (e.1 < 1024) || homeWarp e.1 != warp || e.2.run == .exited)

/-- What a parked path waits for before it is ready, when its results have returned. -/
inductive HeadWait where
  | go | wait | cycle
  deriving DecidableEq, Repr

/-- A `qpop` that raises a cause at its issue whatever its queue holds: not at lane scope or in a finder warp (R205), above
QUEUE or without a finder (R260), or its feature masked (R111). -/
def qpopIllegal (s : State) (b : Block) (p : Path) (h : Hdr) (n : Nat) : Bool :=
  p.finder || h.sc != .lane || decide (b.queue < n) || b.fentry == 0 || !s.feature b.part 0

/-- A run that begins with `qpop n` waits for n available entries; with an exited finder it is a wait cycle (R100, R105). -/
def headWait (s : State) (b : Block) (p : Path) : HeadWait :=
  match peekInstr s b p with
  | some (.qpop h n) =>
    let q := queueOf b p.warp
    if n.toNat ≤ q.available ∨ qpopIllegal s b p h n.toNat then .go
    else if finderGone b p.warp && decide (q.entries.length < n.toNat) then .cycle
    else .wait
  | _ => .go

/-- The identity of a unit for wait cycles (R379). -/
def unitId (bid : Nat) (warp : Nat) (finder : Bool) (lane : Nat) : Nat :=
  bid * 2 ^ 32 + warp * 2 ^ 27 + b2n finder * 2 ^ 26 + lane * 2 ^ 21

/-- Cause 0x0E in every lane of a path: ADDR the awaited unit, PROG the partition's wait-cycle number (R105, R380). -/
def trapWaitCycle (s : State) (bid pid : Nat) (p : Path) (awaited num : Nat) : State :=
  trapLanes s bid pid (p.lanes.map (fun k => (k, { cause := 0x0E, addr := awaited, prog := num })))

/-- A fresh wait-cycle number of a partition (R380). -/
def nextCycleNo (s : State) (part : Nat) : Nat × State :=
  let n := (s.part part).rep.waitNo + 1
  (n.toNat, s.modPart part (fun p => { p with rep := { p.rep with waitNo := n } }))

/-- Every home path of a block is at a yield point, not ready under R99, or stopped (R373). -/
def atYield (p : Path) : Bool :=
  match p.wait with
  | .ready _ => p.run.yieldPt && p.run.count == 0
  | .parked | .meeting _ => p.run.yieldPt
  | .joining _ | .rehoming | .binning | .stopped => true
  | .issuing | .holding _ | .trapping => false

def allAtYield (b : Block) : Bool := b.paths.all (fun e => e.2.finder || atYield e.2)

/-- The other one of a warp and its finder holds inside a run for what this path supplies: the hold is finished before a
vacate begins (R371). (log 42, DEDUCED) -/
def mateHolds (b : Block) (p : Path) : Bool :=
  b.paths.any (fun e => e.2.finder != p.finder && e.2.warp == p.warp
    && e.2.wait == .holding (if p.finder then .finderQueue else .finderRoom))

/-- A vacate keeps a parked path from running: at any boundary, or, while a cooperative request waits, at a yield point; the
finder paths follow when every other path is there (R371, R373). -/
def heldBack (b : Block) (p : Path) : Bool :=
  match b.vacate with
  | none => false
  | some v => (!v.coop || (if p.finder then allAtYield b else p.run.yieldPt)) && !mateHolds b p

/-- The cycle before which lanes of a path are not ready, beside the path's own (R97, R139). -/
def Block.ripeAt (b : Block) (keys : List Nat) : Nat :=
  if b.ripe.isEmpty then 0 else keys.foldl (fun n k => max n (tgetD b.ripe k 0)) 0

/-- READINESS (R97): results returned, transfers done, sleep over, the run's head satisfied, no halt and no vacate. -/
def tryReady (bid pid : Nat) (s : State) : State :=
  match tget s.blocks bid, s.path? bid pid with
  | some b, some p =>
    if p.wait = .parked ∧ p.run.settled ∧ max p.run.base (b.ripeAt p.lanes) ≤ s.cycle then
      if p.haltAt.isSome then applyHalt s bid pid
      else if p.stepping ≠ 0 then s.postOnce s.cycle (.stepComplete bid pid)
      else if heldBack b p then s
      else
        match headWait s b p with
        | .go => makeReady s bid pid
        | .wait =>
          let t := s.cycle + Config.probePeriod - (s.cycle - p.since) % Config.probePeriod
          s.postOnce t (.transitProbeSend bid pid)
        | .cycle =>
          let (n, s) := nextCycleNo s b.part
          trapWaitCycle s bid pid p (unitId bid p.warp true (lowestLane p)) n
    else s
  | _, _ => s
where
  lowestLane (p : Path) : Nat := p.lanes.foldl (fun n k => min n (lanePos k)) 31

def execPathReady (s : State) : Host.Outcome State Fault Refusal :=
  device s fun
    | .pathReady bid pid => some (tryReady bid pid s)
    | _ => none

/-- A path that is owed nothing more may be ready, go on at `rehome` or `reform`, or its threads stop (R84, R87, R97, R362). -/
def whenSettled (s : State) (bid pid : Nat) : State :=
  match s.path? bid pid with
  | some p =>
    if !p.run.settled then s
    else if p.wait = .parked then s.post (max s.cycle p.run.base) (.pathReady bid pid)
    else if p.wait = .trapping then stopNow s bid pid
    else if p.haltAt.isSome ∧ p.takesHalt then s.postOnce s.cycle (.stepComplete bid pid)
    else if p.wait = .rehoming ∧ p.since + p.run.sleep ≤ s.cycle then goHome s bid pid
    else
      match p.wait, tget s.blocks bid with
      | .binning, some b => s.postOnce s.cycle (.warpFormation (b.sectorOf p.warp))
      | _, _ => s
  | none => s

/-- The cells of a lane, at most, that lie in the main file and take a long-latency result: m cells and those of the backing
window (R140). -/
def Block.returning (b : Block) (keys : List Nat) (m : Mark → Bool) : Nat :=
  (b.lanesOf keys).foldl (fun n e => max n ((e.2.stack.drop 8 ++ e.2.m).filter (fun c => m c.mark)).length) 0

/-- A result that returns into the main file takes the port of its path's sector (R140). -/
def portReturn (s : State) (bid : Nat) (p : Path) (m : Mark → Bool) : State :=
  match tget s.blocks bid with
  | some b => s.takePort (b.sectorOf p.warp) s.cycle (b.returning p.lanes m)
  | none => s

/-- A long-latency result returns (R97), to a vacated block's saved path as well (R371); the last one may make its path ready.
(log 10, DESIGN CHOICE) -/
def resultReturn (bid pid : Nat) (s : State) : State :=
  let s := match s.path? bid pid with
    | some p => portReturn s bid p (fun m => m.long && m.run == p.run.id && m.slot == p.run.slot)
    | none => s
  whenSettled (s.modAny bid (·.modPath pid (fun p => { p with run := { p.run with owed := p.run.owed - 1 } }))) bid pid

/-- A result that an engine owed under a mark to the path that issued, and to the paths that forked from it, returns (R92,
R97). -/
def engineReturn (bid pid : Nat) (m : Mark) (s : State) : State :=
  let drop := fun (p : Path) => { p with run := { p.run with awaits := p.run.awaits.filter (fun a => !decide (a = (pid, m))) } }
  match s.anyBlock bid with
  | none => s
  | some b =>
    let ids := (b.paths.filter (fun e => e.2.run.awaits.any (fun a => decide (a = (pid, m))))).map (·.1)
    ids.foldl (fun s id =>
      let s := match tget b.paths id with
        | some p => portReturn s bid p (fun x => decide (x = m))
        | none => s
      whenSettled (s.modAny bid (·.modPath id drop)) bid id) s

def execResultReturn (s : State) : Host.Outcome State Fault Refusal :=
  device s fun
    | .resultReturn bid pid => some (resultReturn bid pid s)
    | _ => none

/-- The sleep of a boundary is over (R179); a formed path's threads then wait at `rehome` (R87). -/
def sleepExpiry (bid pid : Nat) (s : State) : State :=
  match s.path? bid pid with
  | some p =>
    if p.wait = .rehoming then
      (if p.since + p.run.sleep ≤ s.cycle ∧ p.run.awaits = [] then goHome s bid pid else s)
    else tryReady bid pid s
  | none => s

def execSleepExpiry (s : State) : Host.Outcome State Fault Refusal :=
  device s fun
    | .sleepExpiry bid pid => some (sleepExpiry bid pid s)
    | _ => none

/-- Drains of a path's block reach their rows; refills leave the rows as they were (R139, R142, R292). -/
def mainFileTransfer (bid : Nat) (s : State) : State :=
  s.modBlock bid (fun b => { b with threads := b.threads.map (fun e =>
    (e.1, { e.2 with rows := settleRows e.2.rows e.2.stack })) })

def execMainFileTransfer (s : State) : Host.Outcome State Fault Refusal :=
  device s fun
    | .mainFileTransfer bid _ => some (mainFileTransfer bid s)
    | _ => none

/-- Threads of the warp that a path runs: those of its finder warp, of the formed warp in its slot, or of its home warp that no
formed warp holds (R86). -/
def Block.warpThreads (b : Block) (p : Path) : List (Nat × Thread) :=
  let held := fun (f : Path → Bool) (k : Nat) => b.paths.any (fun e => f e.2 && mem? e.2.lanes k)
  b.threads.filter (fun e => isFinderKey e.1 == p.finder && e.2.run != .exited
    && (if p.formed then held (fun q => q.formed && q.warp == p.warp) e.1
      else homeWarp e.1 == p.warp && !held (·.formed) e.1))

/-! The ports' choice -/

/-- Priority class of a path (R98). -/
def classOf (b : Block) (p : Path) : Nat :=
  if p.finder then 0
  else if p.nest.isSome || (b.lanesOf p.lanes).any (fun e => e.2.onPoison) then 0
  else 1

/-- Ready paths of a port with their rank: class, readiness, slot, lowest lane (R98). A vacate keeps back those that would
begin a run (R371). -/
def candidates (s : State) (sector : Nat) (finder : Bool) : List (Nat × Nat × Nat) :=
  (s.blocksOn (sector / 4)).flatMap (fun e =>
    e.2.paths.filterMap (fun x =>
      match x.2.wait with
      | .ready since =>
        if x.2.finder = finder ∧ e.2.sectorOf x.2.warp = sector ∧ !(x.2.run.count == 0 && heldBack e.2 x.2) then
          some (((classOf e.2 x.2 * 2 ^ 64 + since) * 64 + x.2.slot) * 64
            + x.2.lanes.foldl (fun n k => min n (lanePos k)) 32, e.1, x.1)
        else none
      | _ => none))

/-- The budget of a program stage runs from the issue of its block's first instruction, that of a relaunched one too (R393,
R400). -/
def startBudget (s : State) (bid : Nat) (t : Nat) : State :=
  let back := (tget s.blocks bid).any (·.resumed)
  match s.engines.programs.find? (fun p => p.blk == some bid && p.since.isNone && (p.used == 0 || !back)) with
  | none => s
  | some p =>
    (s.modPrograms (fun q => if q.blk = some bid then { q with since := some t } else q)).post (t + p.left)
      (.programBudgetExpiry bid)

/-- A port passes to a path: its first instruction may issue in the next cycle (R98). -/
def grantPort (s : State) (sector : Nat) (finder : Bool) (bid pid : Nat) : State :=
  let s := s.modPath bid pid (fun p => { p with wait := .issuing, run := { p.run with base := s.cycle, yieldPt := false } })
  let s := match tget s.blocks bid, s.path? bid pid with
    | some b, some p => startBudget s bid (nextIssueAt s b p)
    | _, _ => s
  s.modSector sector (fun x => if finder then { x with find := some (bid, pid) } else { x with exec := some (bid, pid) })

/-- A free port chooses its next run (R98). -/
def portChoice (sector : Nat) (finder : Bool) (s : State) : State :=
  let sec := s.sector sector
  let holder := if finder then sec.find else sec.exec
  if holder.isSome then s
  else
    match minBy (fun c : Nat × Nat × Nat => c.1) (candidates s sector finder) with
    | none => s
    | some (_, bid, pid) => grantPort s sector finder bid pid

def execPortChoice (s : State) : Host.Outcome State Fault Refusal :=
  device s fun
    | .portChoice sector finder => some (portChoice sector finder s)
    | _ => none

end Sys2Proof.Machine
end

