-- ==== Sys2Proof/Machine/Legacy.lean ====
section
/-! DEFINITION. The legacy group and the ephemeris unit of a die (R44, R45). -/

namespace Sys2Proof.Machine

/-- ext24: bits 23:0 read as an integer of a type (R44). -/
def ext24 (ty : ITy) (a : Word) : Int :=
  match ty with
  | .i32 => (a.setWidth 24).toInt
  | .n32 => (a.setWidth 24).toNat

/-- byte(x, j) read as an integer of a type (R44). -/
def byteOf (ty : ITy) (a : Word) (j : Nat) : Int :=
  let v := BitVec.ofNat 8 (a.toNat / 256 ^ j)
  match ty with
  | .i32 => v.toInt
  | .n32 => v.toNat

def mul24Word (ty : ITy) (a b : Word) : Word := wi (ext24 ty a * ext24 ty b)
def mad24Word (ty : ITy) (sat : Bool) (a b c : Word) : Word :=
  ityFit ty sat (ext24 ty a * ext24 ty b + ityVal ty c)
def fdot4Word (ty : ITy) (sat : Bool) (a b c : Word) : Word :=
  ityFit ty sat (ityVal ty c + byteOf ty a 0 * byteOf ty b 0 + byteOf ty a 1 * byteOf ty b 1
    + byteOf ty a 2 * byteOf ty b 2 + byteOf ty a 3 * byteOf ty b 3)

/-- A legacy form on a stack: its result is long-latency (R45). -/
def legacyFn (a : Alu) : StackFn := fun e ceil st =>
  (checkDepth st.length a.need a.need 1 ceil).bind fun _ =>
  (consume e (st.take a.need)).bind fun vs =>
  (a.fn (a.operands vs)).map fun v => e.longResult v :: st.drop a.need

def ephemerisQueue (s : State) (die : Nat) : List (Nat × Nat × Mark × Nat) := tgetD s.engines.ephemeris die []
def setEphemeris (s : State) (die : Nat) (q : List (Nat × Nat × Mark × Nat)) : State :=
  { s with engines := { s.engines with ephemeris := tset s.engines.ephemeris die q } }

/-- One request with the path's active lanes into the die's queue; the unit serves one lane a cycle (R45). -/
def sendLegacy (s : State) (c : Ctx) : State :=
  let die := c.b.place.die
  let q := ephemerisQueue s die
  let n := c.p.lanes.length
  let s := setEphemeris s die (q ++ [(c.bid, c.pid, c.env.longMark, n)])
  if q.isEmpty then s.post (s.cycle + n) (.legacyRequestServe die) else s

def legacyBody (h : Hdr) (a : Alu) (s : State) (c : Ctx) : State :=
  let d := laneDepth c.b c.p
  match perLane c (fun _ t => (legacyFn a c.env (laneCeil c.b c.p) t.stack).map t.withStack) with
  | .path t => trapPath s c t
  | .all ok tr =>
    if Config.legacyQueue ≤ (ephemerisQueue s c.b.place.die).length then holdPath s c .ephemeris
    else
      finishLanes (sendLegacy s c) c h (.all ok tr)
        { pc := c.next, await := [c.env.longMark], xfer := transfers d (d - a.need + 1) }

def legacy (i : Instr) (h : Hdr) (a : Alu) (s : State) : Host.Outcome State Fault Refusal :=
  issue i h { scopes := [.lane], feats := [1] } (legacyBody h a) s

def Alu.leg (ty : ITy) (pops : Nat) (k : Option Byte) (fn : List Val → LaneRes Val) : Alu :=
  ⟨pops, k.map (constOf (ityReg ty)), 0, fn⟩

/-- mul24 (R44). -/
def execMul24 (h : Hdr) (ty : ITy) (k : Option Byte) (s : State) : Host.Outcome State Fault Refusal :=
  legacy (.mul24 h ty k) h (.leg ty 2 k (fn2 (mul24Word ty))) s
/-- mad24 (R44). -/
def execMad24 (h : Hdr) (ty : ITy) (sat : Bool) (k : Option Byte) (s : State) : Host.Outcome State Fault Refusal :=
  legacy (.mad24 h ty sat k) h (.leg ty 3 k (fn3 (mad24Word ty sat))) s
/-- fdot4 (R44). -/
def execFdot4 (h : Hdr) (ty : ITy) (sat : Bool) (k : Option Byte) (s : State) : Host.Outcome State Fault Refusal :=
  legacy (.fdot4 h ty sat k) h (.leg ty 3 k (fn3 (fdot4Word ty sat))) s

/-- The oldest request is done: its result returns, an entry is free, the next request is served (R45). -/
def serveLegacy (die : Nat) (s : State) : State :=
  match ephemerisQueue s die with
  | [] => s
  | (bid, pid, m, _) :: rest =>
    let s := setEphemeris s die rest
    let s := engineReturn bid pid m s
    let s := s.postOnce s.cycle (.legacyQueueRoom die)
    match rest with
    | [] => s
    | (_, _, _, n) :: _ => s.post (s.cycle + n) (.legacyRequestServe die)

def execLegacyRequestServe (s : State) : Host.Outcome State Fault Refusal :=
  device s fun
    | .legacyRequestServe die => some (serveLegacy die s)
    | _ => none

/-- Paths of some blocks that wait inside a run for a kind of room issue again (R45, R107, R273). -/
def wakeHolders (s : State) (blocks : List (Nat × Block)) (h : Hold) : State :=
  blocks.foldl (fun s e => e.2.paths.foldl (fun s x => unhold s e.1 x.1 h) s) s

def legacyRoom (die : Nat) (s : State) : State :=
  wakeHolders s (s.blocks.filter (fun e => e.2.place.die == die)) .ephemeris

def execLegacyQueueRoom (s : State) : Host.Outcome State Fault Refusal :=
  device s fun
    | .legacyQueueRoom die => some (legacyRoom die s)
    | _ => none

end Sys2Proof.Machine
end

