-- ==== Sys2Proof/Machine/Formats.lean ====
section
/-! DEFINITION. Format slots, shape records and the conversions between memory elements and cells (R20-R22, R160-R166,
R238, R239). -/

namespace Sys2Proof.Machine

/-! Format slots -/

/-- A format slot as its descriptor gives it (R20). -/
structure Slot where
  fmt : Nat
  rnd : RM
  satc : Bool
  blk : Nat
  sl : Nat
  scb : Nat
  gsb : Nat
  deriving DecidableEq, Repr

/-- Format slot k of a block's node (R12, R20). -/
def Block.slotOf (b : Block) (k : Nat) : Slot :=
  let at0 := 0x080 + 32 * k
  let c := b.snap at0 4
  ⟨bits c 3 0, rmOf (bits c 5 4), bit? c 6, bits c 9 8, bits c 11 10, b.snap (at0 + 8) 8, b.snap (at0 + 16) 8⟩

/-- Bits of an element (R160). -/
def elemBits (fmt : Nat) : Nat :=
  match fmt with
  | 1 | 2 => 32
  | 3 => 16
  | 4 | 5 | 6 => 8
  | _ => 4

/-- Elements in one cell (R164). -/
def Slot.perCell (f : Slot) : Nat := if f.sl = 0 ∧ 3 ≤ f.fmt ∧ f.fmt ≤ 5 then 2 else 1

/-- Elements of a block that share a scale (R20, R163). -/
def Slot.blockLen (f : Slot) : Nat := 16 * 2 ^ f.blk

/-- The FMT and SL pairs of R164 that a load accepts. -/
def Slot.loads (f : Slot) : Bool :=
  match f.fmt with
  | 1 | 2 | 3 => f.sl == 0
  | 4 | 5 | 6 | 7 => decide (f.sl ≤ 2)
  | 8 => f.sl == 1
  | _ => false

/-- The pairs that a store accepts (R164). -/
def Slot.stores (f : Slot) : Bool := decide (1 ≤ f.fmt) && decide (f.fmt ≤ 7) && f.sl == 0

/-- A flat access takes whole bytes and no scales (R164, R238, R255). -/
def Slot.flat (f : Slot) : Bool := f.sl == 0 && decide (f.fmt ≤ 6)

/-! Elements -/

def fmtE4M3 : Fmt := ⟨4, -9, 2 ^ 20, 0x7F, 2 ^ 21⟩
def fmtE5M2 : Fmt := ⟨3, -16, 2 ^ 20, 0x7E, 2 ^ 21⟩

/-- The value of an FP8 element (R160, R161). -/
def fp8Value (fmt : Nat) (b : Nat) : FVal :=
  let neg := bit? b 7
  let mag := b % 128
  if fmt = 4 then
    if mag = 0x7F then .nan else fmtE4M3.decode (mag + (if neg then 2 ^ 21 else 0))
  else if mag = 0x7C then .inf neg
  else if 0x7C < mag then .nan
  else fmtE5M2.decode (mag + (if neg then 2 ^ 21 else 0))

def signed8 (neg : Bool) (mag : Nat) : Nat := mag + (if neg then 128 else 0)

/-- A value narrowed to E4M3 (R165): the rounded value decides overflow. -/
def toE4M3 (rm : RM) (sat : Bool) (v : FVal) : Nat :=
  match v with
  | .nan => 0x7F
  | .inf neg => if sat then signed8 neg 0x7E else 0x7F
  | .fin neg _ _ =>
    let mag := fmtE4M3.encode rm v % 2 ^ 21
    if 0x7E < mag then (if sat then signed8 neg 0x7E else 0x7F) else signed8 neg mag

/-- Magnitude that an E5M2 overflow gives without saturation (R165). -/
def e5m2Overflow (rm : RM) (neg : Bool) : Nat :=
  match rm, neg with
  | .rn, _ => 0x7C
  | .rz, _ => 0x7B
  | .ru, true => 0x7B
  | .ru, false => 0x7C
  | .rd, true => 0x7C
  | .rd, false => 0x7B

/-- A value narrowed to E5M2 (R165). -/
def toE5M2 (rm : RM) (sat : Bool) (v : FVal) : Nat :=
  match v with
  | .nan => 0x7E
  | .inf neg => signed8 neg (if sat then 0x7B else 0x7C)
  | .fin neg _ _ =>
    let mag := fmtE5M2.encode rm v % 2 ^ 21
    if 0x7B < mag then signed8 neg (if sat then 0x7B else e5m2Overflow rm neg) else signed8 neg mag

def toFp8 (fmt : Nat) (rm : RM) (sat : Bool) (v : FVal) : Nat :=
  if fmt = 4 then toE4M3 rm sat v else toE5M2 rm sat v

/-- The codebook of QN4 as bf16 bits (R162). -/
def qn4Bits : List Nat :=
  [0xBF80, 0xBF32, 0xBF06, 0xBECA, 0xBE92, 0xBE3C, 0xBDB8, 0x0000,
   0x3DA2, 0x3E24, 0x3E7C, 0x3EAD, 0x3EE2, 0x3F10, 0x3F39, 0x3F80]

/-- Q(q) (R162). -/
def qn4Value (q : Nat) : FVal := Fmt.bf16.decode (qn4Bits.getD q 0)

/-- The range of the small integers (R160). -/
def intWidth (fmt : Nat) : Nat := if fmt = 6 then 8 else 4
def smallInt (fmt n : Nat) : Int := (BitVec.ofNat (intWidth fmt) n).toInt
def smallLeast (fmt : Nat) : Int := -(2 ^ (intWidth fmt - 1) : Nat)
def smallMost (fmt : Nat) : Int := (2 ^ (intWidth fmt - 1) : Nat) - 1

/-- The number that an element's bits hold, for scaling (R163). -/
def elemValue (fmt n : Nat) : FVal :=
  match fmt with
  | 1 => .ofInt (wd n).toInt
  | 2 => f32 (wd n)
  | 3 => Fmt.bf16.decode n
  | 4 | 5 => fp8Value fmt n
  | 8 => qn4Value n
  | _ => .ofInt (smallInt fmt n)

/-- The block scale s: an FP32 word, or a group's FP32 scale times the block's 8-bit code (R163). -/
def scaleOf (f : Slot) (code group : Nat) : FVal :=
  if f.sl = 2 then f32 (wd code) else f32 (toF32 .rn (FVal.mul (f32 (wd group)) (.ofInt code)))

/-- What an element gives its cell: a whole cell, or a 16-bit half (R164). -/
def elemPart (f : Slot) (n code group : Nat) : Nat :=
  if f.sl ≠ 0 then (toF32 .rn (FVal.mul (scaleOf f code group) (elemValue f.fmt n))).toNat
  else
    match f.fmt with
    | 4 | 5 => Fmt.bf16.encode .rn (fp8Value f.fmt n)
    | 6 | 7 => (wi (smallInt f.fmt n)).toNat
    | _ => n

/-- The element bits that a store writes for a cell part (R165). -/
def narrowPart (f : Slot) (part : Nat) : Nat :=
  match f.fmt with
  | 4 | 5 => toFp8 f.fmt f.rnd f.satc (Fmt.bf16.decode part)
  | 6 | 7 =>
    let v := (wd part).toInt
    let w := if f.satc then clampInt (smallLeast f.fmt) (smallMost f.fmt) v else v
    (wi w).toNat % 2 ^ intWidth f.fmt
  | _ => part

/-- Part j of a cell of a slot (R153, R164). -/
def cellPart (f : Slot) (w : Word) (j : Nat) : Nat :=
  if f.perCell = 2 then (if j = 0 then w.toNat % 65536 else w.toNat / 65536) else w.toNat

/-- A cell from its parts. -/
def joinParts (f : Slot) (l : List Nat) : Word :=
  if f.perCell = 2 then wd (l.getD 0 0 + 65536 * l.getD 1 0) else wd (l.getD 0 0)

/-! qround (R166) -/

/-- The codebook index nearest a value, the lower on a tie. -/
def nearestQ (v : FVal) : Nat :=
  match v with
  | .nan => 0
  | .inf neg => if neg then 0 else 15
  | .fin .. =>
    let dist := fun (q : Nat) => (FVal.sum .rn [v, (qn4Value q).negate]).absolute
    (upto 16).foldl (fun best q => if (dist q).cmp (dist best) = some .lt then q else best) 0

/-- The rounded value in a slot's grid; none is cause 0x14. -/
def qroundWord (f : Slot) (sat : Bool) (a : Word) : Option Word :=
  let v := f32 a
  let sat := f.satc || sat
  match f.fmt with
  | 2 => some (toF32 .rn v)
  | 3 => some (toF32 .rn (Fmt.bf16.decode (Fmt.bf16.encode f.rnd v)))
  | 4 | 5 => some (toF32 .rn (fp8Value f.fmt (toFp8 f.fmt f.rnd sat v)))
  | 6 | 7 =>
    let lo := smallLeast f.fmt
    let hi := smallMost f.fmt
    match v with
    | .nan => some 0
    | .inf neg => some (toF32 .rn (.ofInt (if sat && !neg then hi else lo)))
    | .fin .. =>
      let n := v.toInt f.rnd
      some (toF32 .rn (.ofInt (if sat then clampInt lo hi n else (BitVec.ofInt (intWidth f.fmt) n).toInt)))
  | 8 => if v.isNan then some 0x7FC0_0000 else some (toF32 .rn (qn4Value (nearestQ v)))
  | _ => none

/-! Shape records -/

/-- What a coordinate out of range does (R22, R239). -/
inductive Clip where
  | zero | clamp | fault
  deriving DecidableEq, Repr

/-- A shape record (R22): extents and strides of its RANK dimensions. -/
structure Shape where
  used : Bool
  base : Nat
  rank : Nat
  fsl : Nat
  clip : Clip
  spad : Bool
  bpm : Nat
  ext : List Nat
  stride : List Int
  deriving DecidableEq, Repr

/-- Shape record k of a block's node (R12, R22). -/
def Block.shapeOf (b : Block) (k : Nat) : Shape :=
  let at0 := 0x180 + 64 * k
  let d := b.snap at0 8
  let rank := bits d 50 48
  { used := b.snap at0 64 != 0
    base := bits d 47 0
    rank := rank
    fsl := bits d 53 51
    clip := if bits d 55 54 = 0 then .zero else if bits d 55 54 = 1 then .clamp else .fault
    spad := bit? d 56
    bpm := bits d 58 57
    ext := (upto rank).map (fun i => b.snap (at0 + 8 + 4 * i) 4)
    stride := (upto rank).map (fun i => (wd (b.snap (at0 + 0x24 + 4 * i) 4)).toInt) }

/-- Elements of a shape. -/
def Shape.count (h : Shape) : Nat := h.ext.foldl (· * ·) 1

/-- Coordinates of a linear index, dimension 0 fastest (R242, R283). -/
def linearCoords : List Nat → Nat → List Int
  | [], _ => []
  | e :: r, i => ((i % e : Nat) : Int) :: linearCoords r (i / e)

/-- The element offset of coordinates (R238). -/
def Shape.offset (h : Shape) (c : List Int) : Int := (c.zip h.stride).foldl (fun e p => e + p.1 * p.2) 0

/-- Coordinate k is in range: below its extent, or 0 beyond RANK (R238, R239). -/
def Shape.inRange (h : Shape) (c : List Int) : Bool :=
  (upto c.length).all (fun k =>
    let x := c.getD k 0
    if k < h.rank then decide (0 ≤ x) && decide (x < (h.ext.getD k 0 : Int)) else x == 0)

/-- Coordinates clamped into their extents (R239). -/
def Shape.clampTo (h : Shape) (c : List Int) : List Int :=
  (upto h.rank).map (fun k => clampInt 0 ((h.ext.getD k 1 : Int) - 1) (c.getD k 0))

/-- Where an element lies: the address of its first byte modulo 2^64, and its nibble in the 4-bit formats (R238). -/
structure ElemPos where
  addr : Int
  off : Int
  nib : Nat
  deriving DecidableEq, Repr

def Shape.elemAt (h : Shape) (fmt : Nat) (off : Int) : ElemPos :=
  if elemBits fmt = 4 then ⟨h.base + off / 2, off, (off % 2).toNat⟩
  else ⟨h.base + off * (elemBits fmt / 8 : Nat), off, 0⟩

/-- A scratchpad offset after bank permutation (R240) and swizzle (R246). -/
def bankPermute (bpm z a : Nat) : Nat :=
  let row := bits a 18 8
  let bank := bits a 7 3
  let b1 := if bpm = 1 then Nat.xor bank (row % 32) else if bpm = 2 then (bank + row) % 32 else bank
  let b2 := if z = 0 then b1 else Nat.xor b1 (row / 2 ^ (z - 1) % 32)
  a - bank * 8 + b2 * 8

end Sys2Proof.Machine
end

