-- ==== Sys2Proof/Machine/Memory.lean ====
section
/-! DEFINITION. Accesses to virtual memory and scratchpads: flat addresses, elements of shapes, translation, the die copies
of NCO lines, directory requests and read-only staging (R228-R241, R244, R255, R312-R319, R323). -/

namespace Sys2Proof.Machine

/-- What an address names (R228): virtual memory, a byte of a gang member's scratchpad, or nothing. -/
inductive Spot where
  | virt (va : Nat)
  | spad (member off : Nat)
  | nowhere
  deriving DecidableEq, Repr

/-- A flat address decoded (R228). -/
def flatSpot (a : Nat) : Spot :=
  let a := a % 2 ^ 64
  if bits a 63 48 = 0 then .virt a
  else if bits a 63 60 = 8 ∧ bits a 59 23 = 0 ∧ a % 2 ^ 20 < 0x8_0000 then .spad (bits a 22 20) (a % 2 ^ 19)
  else .nowhere

/-- An integer address as the record's address field holds it. -/
def addrField (a : Int) : Nat := (a % (2 ^ 64 : Int)).toNat

/-- An outcome of an access: its value, a translation failure, a protection failure, an error at the bytes (cause
0x13, or 0x12 for a mismatched span). -/
inductive AccRes (α : Type) where
  | ok (a : α)
  | miss
  | prot
  | bad (cause : Nat)

/-- Two outcomes of one access: a translation failure before protection, before an error (step 8 and 9 of R252). -/
def AccRes.both {α β γ : Type} (f : α → β → γ) : AccRes α → AccRes β → AccRes γ
  | .ok a, .ok b => .ok (f a b)
  | .miss, _ => .miss
  | _, .miss => .miss
  | .prot, _ => .prot
  | _, .prot => .prot
  | .bad k, _ => .bad k
  | _, .bad k => .bad k

def AccRes.map {α β : Type} (f : α → β) : AccRes α → AccRes β
  | .ok a => .ok (f a)
  | .miss => .miss
  | .prot => .prot
  | .bad k => .bad k

/-- A stretch of bytes resolved for access. -/
inductive Target where
  /-- Physical bytes; `nco` when the translation sets NCO. -/
  | mem (pa n : Nat) (nco : Bool)
  /-- Bytes of a resident block's scratchpad. -/
  | spad (blk off n : Nat)
  /-- Bytes of the scratchpad of a gang member that has retired, whose contents no rule gives. -/
  | gone (n : Nat)
  deriving DecidableEq, Repr

def Target.len : Target → Nat
  | .mem _ n _ => n
  | .spad _ _ n => n
  | .gone n => n

/-- A scratchpad byte under a read-only staging record (R244). -/
def stagedAt (b : Block) (off n : Nat) : Bool :=
  b.chans.any (fun e => e.2.staging.any (fun r => r.offs.any (fun o => decide (off ≤ o) && decide (o < off + n))))

/-- A scratchpad byte whose refetch at restore did not match (R375). -/
def mismatchedAt (b : Block) (off n : Nat) : Bool :=
  b.chans.any (fun e => e.2.staging.any (fun r =>
    r.mismatched && r.offs.any (fun o => decide (off ≤ o) && decide (o < off + n))))

/-- Bytes of one page, resolved. -/
def resolvePage (s : State) (w : Who) (need : Need) (va n : Nat) : State × AccRes Target :=
  let x := xlate s w need va
  match x.2 with
  | .fail k => (x.1, if k = 0x0A then .miss else .prot)
  | .ok pa p =>
    let q := localPa s pa
    (x.1, if s.lineBad q || s.lineBad (q + n - 1) then .bad (0x13 + 64 * s.lineDom q n) else .ok (.mem q n (p.nco && !isFabric pa)))

/-- Bytes at a spot resolved for an access by a block (R228, R231, R244, R397): one target, or two across a page end.
(log 30, DESIGN CHOICE) -/
def resolve (s : State) (w : Who) (bid : Nat) (need : Need) (sp : Spot) (n : Nat) : State × AccRes (List Target) :=
  match sp with
  | .nowhere => (s, .prot)
  | .virt va =>
    let first := min n (4096 - va % 4096)
    let x := resolvePage s w need va first
    if first = n then
      (x.1, x.2.map (fun t => [t]))
    else
      let y := resolvePage x.1 w need (va + first) (n - first)
      (y.1, AccRes.both (fun t u => [t, u]) x.2 y.2)
  | .spad m off =>
    match tget s.blocks bid with
    | none => (s, .prot)
    | some b =>
      if b.gangSize ≤ m ∨ 1024 * b.spadKiB < off + n then (s, .prot)
      else
        let mid := (b.members bid).getD m bid
        match tget s.blocks mid with
        | none => (s, .ok [.gone n])
        | some mb =>
          if need.isWrite && stagedAt mb off n then (s, .prot)
          else if (upto n).any (fun i => mem? mb.badWords ((off + i) / 8)) then (s, .bad (0x13 + 64))
          else if !need.isWrite && mismatchedAt mb off n then (s, .bad 0x12)
          else (s, .ok [.spad mid off n])

/-! Reading and writing resolved bytes -/

/-- Free bytes: what the model reads where no rule gives the value (log 5). -/
def freeBytes (s : State) : Nat → State × List Byte
  | 0 => (s, [])
  | n + 1 =>
    let w := s.drawWord
    let r := freeBytes w.2 n
    (r.1, w.1.setWidth 8 :: r.2)

/-- Bytes of one target, seen from a die. (log 29, DEDUCED; log 30, DESIGN CHOICE) -/
def readTarget (s : State) (die : Nat) (t : Target) : State × List Byte :=
  match t with
  | .gone n => freeBytes s n
  | .spad bid off n =>
    match tget s.blocks bid with
    | none => (s, [])
    | some b => (s, rdBytes b.spad off n)
  | .mem pa n nco =>
    if isFabric pa then freeBytes s n
    else readFrom s die pa n nco

def readTargets (s : State) (die : Nat) : List Target → State × List Byte
  | [] => (s, [])
  | t :: r =>
    let x := readTarget s die t
    let y := readTargets x.1 die r
    (y.1, x.2 ++ y.2)

/-- Bytes written to one target from a die. (log 29, DEDUCED; log 30, DESIGN CHOICE) -/
def writeTarget (s : State) (die : Nat) (t : Target) (v : List Byte) : State :=
  match t with
  | .gone _ => s
  | .spad bid off _ => s.modBlock bid (fun b => { b with spad := wrBytes b.spad off v })
  | .mem pa n nco =>
    if isFabric pa then s
    else writeFrom s die pa nco (v.take n)

def writeTargets (s : State) (die : Nat) : List Target → List Byte → State
  | [], _ => s
  | t :: r, v => writeTargets (writeTarget s die t (v.take t.len)) die r (v.drop t.len)

/-! Word ownership (R302) -/

/-- The key of a word's owner: in memory, or in a die's own copy of an NCO line homed elsewhere (R302, R319). -/
def ownerKey (die pa : Nat) (nco : Bool) : Nat := pa / 4 + (if nco && homeDie pa != die then 2 ^ 50 * (die + 1) else 0)

/-- The words that a core's store has written are its own; a fabric line has no owners (R302, R319, R323). -/
def ownTarget (core : Nat) (s : State) (t : Target) : State :=
  match t with
  | .mem pa n nco =>
    if isFabric pa then s
    else
      { s with coh := { s.coh with owners :=
        (upto ((pa % 4 + n + 3) / 4)).foldl (fun o i => tset o (ownerKey (core / 192) pa nco + i) core) s.coh.owners } }
  | _ => s

/-! Elements of an access -/

/-- One element as an access finds it: nothing there (zero-fill, or unwritten), a fault of its own, or its place; a misaligned
one that is in range has a place too. `scale` gives the spots of its scale code and of its group's scale (R163). -/
inductive Elem where
  | absent
  | misaligned (addr : Nat) (spot : Option Spot)
  | clipped (addr : Nat)
  | at (addr : Nat) (spot : Spot) (nib : Nat) (scale : List (Spot × Nat))
  deriving DecidableEq, Repr

/-- Bytes of one element in memory; a 4-bit element is a nibble of one byte. -/
def elemBytes (fmt : Nat) : Nat := (elemBits fmt + 7) / 8

/-- The scale bytes of an element at offset e (R163). -/
def scaleSpots (f : Slot) (e : Int) : List (Spot × Nat) :=
  let b := e / f.blockLen
  match f.sl with
  | 1 => [(.virt (addrField (f.scb + b)), 1), (.virt (addrField (f.gsb + 4 * (b / 256))), 4)]
  | 2 => [(.virt (addrField (f.scb + 4 * b)), 4)]
  | _ => []

/-- The spot of an element of a shape, with the shape's bank permutation and a swizzle (R238, R240, R246). An offset outside
the scratchpad window names nothing. -/
def Shape.spotOf (h : Shape) (member z : Nat) (a : Int) : Spot :=
  if h.spad then (if 0 ≤ a ∧ a < 0x8_0000 then .spad member (bankPermute h.bpm z a.toNat) else .nowhere)
  else .virt (addrField a)

/-- The coordinates at which an element is accessed: clamped where the clip mode clamps a load (R239). -/
def Shape.coordsFor (h : Shape) (store : Bool) (c : List Int) : List Int :=
  if h.clip = .clamp && !store && !h.inRange c then h.clampTo c else c

/-- The element of a shape at coordinates (R238, R239). -/
def placeElem (h : Shape) (f : Slot) (member : Nat) (store : Bool) (c : List Int) : Elem :=
  let p := h.elemAt f.fmt (h.offset (h.coordsFor store c))
  if h.inRange (h.coordsFor store c) then .at (addrField p.addr) (h.spotOf member 0 p.addr) p.nib (scaleSpots f p.off)
  else if h.clip = .fault then .clipped (addrField p.addr)
  else .absent

/-- The element of a shape at coordinates, for a thread's access: its alignment is checked in range or out (R238, R239,
R252). -/
def shapeElem (h : Shape) (f : Slot) (member : Nat) (store : Bool) (c : List Int) : Elem :=
  let e := placeElem h f member store c
  let a := (h.elemAt f.fmt (h.offset (h.coordsFor store c))).addr
  if elemBits f.fmt ≠ 4 ∧ a % (elemBytes f.fmt : Nat) ≠ 0 then
    .misaligned (addrField a) (match e with | .at _ sp _ _ => some sp | _ => none)
  else e

/-- Coordinates with dimension 0 advanced. -/
def bumpCoord (c : List Int) (k : Nat) : List Int :=
  match c with
  | [] => if k = 0 then [] else [(k : Int)]
  | x :: r => (x + k) :: r

/-- The elements of `n` cells from an access's operands: for a flat address `hi` and `lo`, else coordinates (R255). -/
def cellElems (b : Block) (bid : Nat) (a : Addr) (store : Bool) (ops : List Word) (n : Nat) : List (List Elem) :=
  if a.nc = 0 then
    let f := b.slotOf a.fs.toNat
    let at0 := (ops.getD 1 0).toNat * 2 ^ 32 + (ops.getD 0 0).toNat
    let span := f.perCell * elemBytes f.fmt
    (upto n).map (fun j => (upto f.perCell).map (fun e =>
      let ad := (at0 + j * span + e * elemBytes f.fmt) % 2 ^ 64
      if at0 % span ≠ 0 then .misaligned at0 (some (flatSpot ad)) else .at ad (flatSpot ad) 0 []))
  else
    let h := b.shapeOf a.h.toNat
    let f := b.slotOf h.fsl
    let m := ((b.members bid).idxOf bid)
    let c := ops.map (·.toInt)
    (upto n).map (fun j => (upto f.perCell).map (fun e => shapeElem h f m store (bumpCoord c (j * f.perCell + e))))

/-- The address that an access's operands give: the flat address, or that of the first element (R238, R249). -/
def accessAddr (b : Block) (a : Addr) (ops : List Word) : Nat :=
  if a.nc = 0 then (ops.getD 1 0).toNat * 2 ^ 32 + (ops.getD 0 0).toNat
  else
    let h := b.shapeOf a.h.toNat
    addrField (h.elemAt (b.slotOf h.fsl).fmt (h.offset (ops.map (·.toInt)))).addr

/-- The slot that an access names (R120, R238). -/
def accessSlot (b : Block) (a : Addr) : Slot :=
  b.slotOf (if a.nc = 0 then a.fs.toNat else (b.shapeOf a.h.toNat).fsl)

/-- The access names a QN4 slot (R39). -/
def usesQn4 (a : Addr) (b : Block) : Bool := (accessSlot b a).fmt == 8

/-- Step 5 of R252: slot and shape. -/
def slotOk (b : Block) (a : Addr) (store : Bool) : Bool :=
  let f := accessSlot b a
  (if store then f.stores else f.loads) && (if a.nc = 0 then f.flat else (b.shapeOf a.h.toNat).used)

/-- Steps 6 and 7 of R252: alignment, then clip mode fault, over all elements. -/
def elemFault (l : List Elem) : Option (Nat × Nat) :=
  match l.find? (fun e => match e with | .misaligned .. => true | _ => false) with
  | some (.misaligned a _) => some (0x0C, a)
  | _ =>
    match l.find? (fun e => match e with | .clipped _ => true | _ => false) with
    | some (.clipped a) => some (0x0B, a)
    | _ => none

/-- An element resolved: its bytes, then its scale bytes. -/
structure Resolved where
  addr : Nat
  nib : Nat
  data : List Target
  scale : List (List Target)

def resolveAll (s : State) (w : Who) (bid : Nat) (need : Need) : List (Spot × Nat) → State × AccRes (List (List Target))
  | [] => (s, .ok [])
  | (sp, n) :: r =>
    let x := resolve s w bid need sp n
    let y := resolveAll x.1 w bid need r
    (y.1, AccRes.both List.cons x.2 y.2)

/-- Step 8 and 9 of R252 for one element. -/
def resolveElem (s : State) (w : Who) (bid : Nat) (need : Need) (fmt : Nat) (e : Elem) :
    State × AccRes (Option Resolved) :=
  match e with
  | .at addr sp nib scale =>
    let x := resolve s w bid need sp (elemBytes fmt)
    let y := resolveAll x.1 w bid .load scale
    (y.1, AccRes.both (fun t l => some ⟨addr, nib, t, l⟩) x.2 y.2)
  | _ => (s, .ok none)

/-- All elements of a cell resolved in turn. -/
def resolveCell (s : State) (w : Who) (bid : Nat) (need : Need) (fmt : Nat) :
    List Elem → State × List (Elem × AccRes (Option Resolved))
  | [] => (s, [])
  | e :: r =>
    let x := resolveElem s w bid need fmt e
    let y := resolveCell x.1 w bid need fmt r
    (y.1, (e, x.2) :: y.2)

def Elem.addr : Elem → Nat
  | .absent => 0
  | .misaligned a _ => a
  | .clipped a => a
  | .at a _ _ _ => a

def firstAddr (p : AccRes (Option Resolved) → Bool) (l : List (Elem × AccRes (Option Resolved))) : Option Nat :=
  (l.find? (fun e => p e.2)).map (fun e => e.1.addr)

def AccRes.isMiss {α : Type} : AccRes α → Bool
  | .miss => true
  | _ => false
def AccRes.isProt {α : Type} : AccRes α → Bool
  | .prot => true
  | _ => false
def AccRes.isBad {α : Type} : AccRes α → Bool
  | .bad _ => true
  | _ => false

/-- A cause with the row of R397 that it comes from. -/
def badInfo (k addr : Nat) : TrapInfo := { cause := k % 64, dom := k / 64, addr := addr }

/-- The first error at accessed bytes: its cause and address (step 9 of R252). -/
def firstBad (l : List (Elem × AccRes (Option Resolved))) : Option TrapInfo :=
  match l.find? (fun e => e.2.isBad) with
  | some (e, .bad k) => some (badInfo k e.addr)
  | _ => none

/-- The bits of a resolved element, and its scale words. -/
def readElem (s : State) (die fmt : Nat) (r : Resolved) : State × Nat × List Nat :=
  let x := readTargets s die r.data
  let n := ofBytes x.2
  let v := if elemBits fmt = 4 then bits n (4 * r.nib + 3) (4 * r.nib) else n
  let y := r.scale.foldl (fun (acc : State × List Nat) t =>
    let z := readTargets acc.1 die t
    (z.1, acc.2 ++ [ofBytes z.2])) (x.1, [])
  (y.1, v, y.2)

/-- A cell read from its elements, those out of range as zero (R164, R239). -/
def readCell (s : State) (die : Nat) (f : Slot) (l : List (Elem × AccRes (Option Resolved))) : State × Word :=
  let x := l.foldl (fun (acc : State × List Nat) e =>
    match e.2 with
    | .ok (some r) =>
      let y := readElem acc.1 die f.fmt r
      (y.1, acc.2 ++ [elemPart f y.2.1 (y.2.2.getD 0 0) (y.2.2.getD 1 0)])
    | _ => (acc.1, acc.2 ++ [0])) (s, [])
  (x.1, joinParts f x.2)

/-- The bytes an element's store leaves: itself, or its nibble beside the other. -/
def mergedBytes (s : State) (die fmt : Nat) (r : Resolved) (v : Nat) : State × List Byte :=
  if elemBits fmt = 4 then
    let x := readTargets s die r.data
    (x.1, toBytes 1 (setBits (ofBytes x.2) (4 * r.nib + 3) (4 * r.nib) v))
  else (s, toBytes (elemBytes fmt) v)

def writeElem (s : State) (die fmt : Nat) (r : Resolved) (v : Nat) : State :=
  let x := mergedBytes s die fmt r v
  writeTargets x.1 die r.data x.2

/-- A cell written to its elements (R164, R165, R239). -/
def writeCell (s : State) (die : Nat) (f : Slot) (l : List (Elem × AccRes (Option Resolved))) (w : Word) : State :=
  ((upto l.length).zip l).foldl (fun s e =>
    match e.2.2 with
    | .ok (some r) => writeElem s die f.fmt r (narrowPart f (cellPart f w e.1))
    | _ => s) s

/-- A thread's store of a cell: the bytes, then their ownership (R302). -/
def storeCell (s : State) (c : Place) (f : Slot) (l : List (Elem × AccRes (Option Resolved))) (w : Word) : State :=
  l.foldl (fun s e => match e.2 with
    | .ok (some r) => r.data.foldl (ownTarget c.coreNo) s
    | _ => s) (writeCell s c.die f l w)

/-! Acting on lanes in turn -/

/-- Keys in rising lane order (R254). -/
def byLane (l : List (Nat × Thread)) : List (Nat × Thread) :=
  (upto 32).flatMap (fun i => l.filter (fun e => lanePos e.1 == i))

/-- Lanes in rising order, each seeing the state the lanes before it left. -/
def lanesInTurn (s : State) (f : State → Nat → Thread → State × LaneRes Thread) :
    List (Nat × Thread) → State × LanesRes
  | [] => (s, .all [] [])
  | e :: r =>
    let x := f s e.1 e.2
    let y := lanesInTurn x.1 f r
    (y.1, LanesRes.cons e.1 x.2 y.2)

/-- Operands of every active lane popped and checked by steps 1 and 3 of R252; a register error stays with its lane. -/
def checkLanes (c : Ctx) (pops pushes : Nat) : LanesRes :=
  perLane c (fun _ t =>
    (checkDepth t.stack.length pops pops pushes (laneCeil c.b c.p)).bind fun _ =>
      (consume c.env (t.stack.take pops)).map fun _ => t)

/-- A form in which each active lane accesses memory for itself (R252, R253). `run` gets the popped values, top first, and
answers the cells to push with the changed thread; a helper lane pushes `pushes` zeros. -/
def laneAccess (h : Hdr) (pops pushes : Nat) (run : State → Nat → Thread → List Val → State × LaneRes Thread)
    (s : State) (c : Ctx) : State :=
  match checkLanes c pops pushes with
  | .path t => trapPath s c t
  | .all ok tr =>
    let zero := List.replicate pushes (c.env.longResult (.clean 0))
    let f := fun s k (t : Thread) =>
      if t.cls = .helper then (s, LaneRes.ok (t.withStack (zero ++ t.stack.drop pops)))
      else run s k { t with stack := t.stack.drop pops } ((t.stack.take pops).map (·.val))
    let x := lanesInTurn s f (byLane ok)
    let d := laneDepth c.b c.p
    let res := match x.2 with
      | .all ok2 tr2 => LanesRes.all ok2 (tr ++ tr2)
      | p => p
    finishLanes x.1 c h res
      { pc := c.next, owed := if pushes = 0 then 0 else 1, xfer := transfers d (d - pops + pushes) }

/-- The poison-origin record of a faulting load (R249). -/
def originOf (addr pc slot tier idx : Nat) (uni : Bool) : BitVec 128 :=
  BitVec.ofNat 128 (addr % 2 ^ 64 + pc * 2 ^ 64
    + (2 ^ 15 + b2n uni * 2 ^ 13 + slot * 2 ^ 10 + tier * 2 ^ 8 + idx % 256) * 2 ^ 96)

/-- A record filled only while VALID is 0 (R249). -/
def fillOrigin (t : Thread) (o : BitVec 128) : Thread :=
  if bit? t.origin.toNat 111 then t else { t with origin := o }

/-- Number of the slot an access names, for records. -/
def slotNo (b : Block) (a : Addr) : Nat := if a.nc = 0 then a.fs.toNat else (b.shapeOf a.h.toNat).fsl

/-- A cell's outcome in an ordinary load: a value, or poison with the failing address. -/
inductive Loaded where
  | value (w : Word)
  | poison (addr : Nat)

/-- Cells loaded after step 5: a cause, or each cell's outcome (R252, R257). An acquire is no ordinary load: a failed
translation is its cause (R248). (log 26, DEDUCED; log 69, DEDUCED) -/
def loadCells (s : State) (w : Who) (bid : Nat) (f : Slot) (die : Nat) (acq : Bool) (cells : List (List Elem)) :
    State × LaneRes (List Loaded) :=
  match elemFault cells.flatten with
  | some (k, a) => (s, .lane { cause := k, addr := a })
  | none =>
    let x := cells.foldl (fun (acc : State × List (List (Elem × AccRes (Option Resolved)))) l =>
      let y := resolveCell acc.1 w bid .load f.fmt l
      (y.1, acc.2 ++ [y.2])) (s, [])
    let all := x.2.flatten
    match if acq then firstAddr AccRes.isMiss all else none, firstAddr AccRes.isProt all, firstBad all with
    | some a, _, _ => (x.1, .lane { cause := 0x0A, addr := a })
    | none, some a, _ => (x.1, .lane { cause := 0x0B, addr := a })
    | none, none, some t => (x.1, .lane t)
    | none, none, none =>
      let y := x.2.foldl (fun (acc : State × List Loaded) l =>
        match firstAddr AccRes.isMiss l with
        | some a => (acc.1, acc.2 ++ [.poison a])
        | none =>
          let z := readCell acc.1 die f l
          (z.1, acc.2 ++ [.value z.2])) (x.1, [])
      (y.1, .ok y.2)

/-- The value of a loaded cell; the bits beneath direct poison are a free value, since the load writes no data (R248).
(log 26, DEDUCED) -/
def loadedVals (s : State) : List Loaded → State × List Val
  | [] => (s, [])
  | .value w :: r => let x := loadedVals s r; (x.1, ⟨w, .clean⟩ :: x.2)
  | .poison _ :: r =>
    let d := s.drawWord
    let x := loadedVals d.2 r
    (x.1, ⟨d.1, .direct⟩ :: x.2)

/-- The first failing cell of a load with its address. -/
def firstPoison : List Loaded → Nat → Option (Nat × Nat)
  | [], _ => none
  | .poison a :: _, i => some (i, a)
  | .value _ :: r, i => firstPoison r (i + 1)

end Sys2Proof.Machine
end

