-- ==== Sys2Proof/Machine/Loads.lean ====
section
/-! DEFINITION. LDS: loads, queue-writing loads, qpop and prefetch (R103, R104, R256-R262). -/

namespace Sys2Proof.Machine

def Block.dieOf (b : Block) : Nat := b.place.die

/-- A load of n cells with its operands, steps 4 to 9 of R252. (log 69, DEDUCED) -/
def loadOps (c : Ctx) (a : Addr) (acq : Bool) (n : Nat) (s : State) (vs : List Val) : State × LaneRes (List Loaded) :=
  match refusePoison vs with
  | .lane t => (s, .lane t)
  | .path t => (s, .path t)
  | .ok _ =>
    if slotOk c.b a false then
      loadCells s c.b.who c.bid (accessSlot c.b a) c.b.dieOf acq (cellElems c.b c.bid a false (vs.map (·.bits)) n)
    else (s, .lane { cause := 0x14 })

/-- Cells of an ordinary load pushed on a lane's stack, v0 deepest, with the origin record of the first that failed (R248,
R249, R257). -/
def pushLoaded (c : Ctx) (a : Addr) (t : Thread) (l : List Loaded) (vs : List Val) : Thread :=
  let base := t.stack.length
  let t := { t with stack := (vs.map c.env.longResult).reverse ++ t.stack }
  match firstPoison l 0 with
  | some (i, ad) => fillOrigin t (originOf ad c.p.pc.toNat (slotNo c.b a) 0 (base + i) false)
  | none => t

/-- ld and ldn of a warp's lane. (log 69, DEDUCED) -/
def loadLane (c : Ctx) (a : Addr) (acq : Bool) (n : Nat) (s : State) (_k : Nat) (t : Thread) (vs : List Val) :
    State × LaneRes Thread :=
  let x := loadOps c a acq n s vs
  match x.2 with
  | .ok l => let y := loadedVals x.1 l; (y.1, .ok (pushLoaded c a t l y.2))
  | .lane i => (x.1, .lane i)
  | .path i => (x.1, .path i)

/-! Queue-writing loads -/

/-- Entry i of the window, from the oldest, stands in this slot of the window (R103). -/
def FQueue.slotAt (q : FQueue) (size i : Nat) : Nat := if size = 0 then 0 else (q.head + i) % size

/-- One entry allocated: each lane's cell, over the previous contents of the window slot (R103). -/
def FQueue.alloc (q : FQueue) (size : Nat) (cells : Tab Val) : FQueue :=
  let k := q.slotAt size q.entries.length
  let merged := cells.foldl (fun m e => tset m e.1 e.2) (tgetD q.slots k [])
  { q with entries := q.entries ++ [⟨merged, [], false⟩], slots := tset q.slots k merged }

/-- A finder lane's cells for the queue, collected beside its popped stack: its lane position and the cells. -/
abbrev QueueCells := List (Nat × List Val)

/-- Each finder lane in turn: the cells it loads, its thread, or its cause. Helper lanes give zeros (R253).
(log 28, DEDUCED) -/
def finderLanes (c : Ctx) (a : Addr) (acq : Bool) (n : Nat) (base : Nat) : State → List (Nat × Thread) →
    State × QueueCells × LanesRes
  | s, [] => (s, [], .all [] [])
  | s, e :: r =>
    let p := addrPops a
    let t := { e.2 with stack := e.2.stack.drop p }
    if t.cls = .helper then
      let y := finderLanes c a acq n base s r
      (y.1, (lanePos e.1, List.replicate n ⟨0, .clean⟩) :: y.2.1, LanesRes.cons e.1 (.ok t) y.2.2)
    else
      let x := loadOps c a acq n s ((e.2.stack.take p).map (·.val))
      match x.2 with
      | .ok l =>
        let v := loadedVals x.1 l
        let t := match firstPoison l 0 with
          | some (i, ad) =>
            fillOrigin t (originOf ad c.p.pc.toNat (slotNo c.b a) 3 ((base + i) % max 1 c.b.queue) false)
          | none => t
        let y := finderLanes c a acq n base v.1 r
        (y.1, (lanePos e.1, v.2) :: y.2.1, LanesRes.cons e.1 (.ok t) y.2.2)
      | .lane i =>
        let y := finderLanes c a acq n base x.1 r
        (y.1, y.2.1, LanesRes.cons e.1 (.lane i) y.2.2)
      | .path i => (x.1, [], .path i)

/-- ld and ldn of a finder warp (R262): entries are allocated in issue order; a window without room holds the finder
(R104). (log 28, DEDUCED) -/
def queueLoad (h : Hdr) (a : Addr) (acq : Bool) (n : Nat) (s : State) (c : Ctx) : State :=
  let p := addrPops a
  match checkLanes c p 0 with
  | .path t => trapPath s c t
  | .all ok tr =>
    let size := c.b.queue
    if size < n then trapPath s c { cause := 0x0B }
    else
      let q := queueOf c.b c.p.warp
      if size < q.entries.length + n then holdPath s c .finderRoom
      else
        let x := finderLanes c a acq n (q.head + q.entries.length) s (byLane ok)
        match x.2.2 with
        | .path t => trapPath x.1 c t
        | .all ok2 tr2 =>
          let q := (upto n).foldl (fun q i =>
            q.alloc size (x.2.1.map (fun e => (e.1, e.2.getD i ⟨0, .clean⟩)))) q
          let s := if ok2.isEmpty then x.1
            else (x.1.modBlock c.bid (fun b => { b with queues := tset b.queues c.p.warp q })).post (x.1.cycle + 1)
              (.queueEntryArrival c.bid c.p.warp)
          let d := laneDepth c.b c.p
          finishLanes s c h (.all ok2 (tr ++ tr2)) { pc := c.next, xfer := transfers d (d - p) }

/-- ld (R257, R262). -/
def execLd (h : Hdr) (a : Addr) (acq : Bool) (hint : Hint) (s : State) : Host.Outcome State Fault Refusal :=
  issue (.ld h a acq hint) h { scopes := [.lane], qn4 := usesQn4 a }
    (fun s c => if c.p.finder then queueLoad h a acq 1 s c else laneAccess h (addrPops a) 1 (loadLane c a acq 1) s c) s

/-- ldn (R257, R262). -/
def execLdn (h : Hdr) (a : Addr) (acq : Bool) (hint : Hint) (n : BitVec 5) (s : State) :
    Host.Outcome State Fault Refusal :=
  issue (.ldn h a acq hint n) h { scopes := [.lane], qn4 := usesQn4 a }
    (fun s c => if c.p.finder then queueLoad h a acq n.toNat s c
      else laneAccess h (addrPops a) n.toNat (loadLane c a acq n.toNat) s c) s

/-! Uniform loads and stores choose one lane -/

/-- The lowest active lane that is no helper (R258). -/
def chosenLane (ts : List (Nat × Thread)) : Option (Nat × Thread) := (byLane ts).find? (fun e => e.2.cls == .live)

/-- Every active lane with `n` cells popped and the cell `f` gives it pushed. -/
def pushEach (ts : List (Nat × Thread)) (n : Nat) (f : Nat → Thread → Thread) : List (Nat × Thread) :=
  ts.map (fun e => (e.1, f e.1 { e.2 with stack := e.2.stack.drop n }))

/-- The chosen lane's address for the other lanes' origin records: that of its cause, or what its operands give (R258). -/
def faultedAddr (c : Ctx) (a : Addr) (vs : List Val) (i : TrapInfo) : Nat :=
  if i.cause = 0x09 ∨ i.cause = 0x14 then accessAddr c.b a (vs.map (·.bits)) else i.addr

/-- ldf at lane scope (R258). (log 69, DEDUCED) -/
def ldfLane (h : Hdr) (a : Addr) (acq : Bool) (s : State) (c : Ctx) : State :=
  let p := addrPops a
  match checkLanes c p 1 with
  | .path t => trapPath s c t
  | .all ok tr =>
    let d := laneDepth c.b c.p
    let ret : Retire := { pc := c.next, owed := 1, xfer := transfers d (d - p + 1) }
    let push := fun (v : Val) (t : Thread) => { t with stack := c.env.longResult v :: t.stack }
    let zero := push (.clean 0)
    match chosenLane ok with
    | none => finishLanes s c h (.all (pushEach ok p (fun _ => zero)) tr) ret
    | some (k, t0) =>
      let vs := (t0.stack.take p).map (·.val)
      let x := loadOps c a acq 1 s vs
      match x.2 with
      | .ok l =>
        let y := loadedVals x.1 l
        let v := y.2.getD 0 (.clean 0)
        let f := fun (j : Nat) (t : Thread) =>
          if t.cls = .helper then zero t
          else
            let t := push v t
            match firstPoison l 0 with
            | some (_, ad) =>
              if j = k then fillOrigin t (originOf ad c.p.pc.toNat (slotNo c.b a) 0 (d - p) false) else t
            | none => t
        finishLanes y.1 c h (.all (pushEach ok p f) tr) ret
      | .path i => trapPath x.1 c i
      | .lane i =>
        let ad := faultedAddr c a vs i
        let f := fun (_ : Nat) (t : Thread) =>
          if t.cls = .helper then zero t
          else fillOrigin (push ⟨0, .direct⟩ t) (originOf ad c.p.pc.toNat (slotNo c.b a) 0 (d - p) false)
        let rest := pushEach (ok.filter (fun e => e.1 != k)) p f
        finishLanes x.1 c h (.all rest (tr ++ [(k, i)])) ret

/-- Operands of a warp-scope form from the uniform stack (steps 1 to 3 of R252). -/
def uniformOperands (c : Ctx) (pops pushes : Nat) : LaneRes (List Val) :=
  (checkDepth c.p.ust.length pops pops pushes 8).bind fun _ => consume c.env (c.p.ust.take pops)

/-- A uniform access at warp scope whose chosen lane `k` raises a cause: that lane stops, and the others complete with another
uniform stack (R258, R264). (log 83, DEDUCED) -/
def chosenStops (h : Hdr) (k : Nat) (i : TrapInfo) (others : List (Nat × Thread)) (ust : List Cell) (ret : Retire) (s : State)
    (c : Ctx) : State :=
  let s := trapLanes s c.bid c.pid [(k, i)]
  if others.isEmpty then s
  else
    let s := putThreads s c.bid others
    retire (s.modPath c.bid c.pid (fun p => { p with ust := ust })) c h ret

/-- ldf at warp scope (R258): the uniform cell is poisoned, and the lowest lane's record names it with UNI; where the chosen lane
faults, it stops alone. (log 83, DEDUCED) -/
def ldfWarp (h : Hdr) (a : Addr) (acq : Bool) (s : State) (c : Ctx) : State :=
  let p := addrPops a
  match uniformOperands c p 1 with
  | .path t => trapPath s c t
  | .lane t => trapPath s c t
  | .ok vs =>
    let rest := c.p.ust.drop p
    let ret : Retire := { pc := c.next, owed := 1 }
    let fin := fun (s : State) (v : Val) =>
      finishPath s c h (.ok { c.p with ust := c.env.longResult v :: rest }) ret
    match chosenLane (c.b.lanesOf c.p.lanes) with
    | none => fin s (.clean 0)
    | some (k, _) =>
      let x := loadOps c a acq 1 s vs
      match x.2 with
      | .path t => trapPath x.1 c t
      | .lane t =>
        let others := (c.b.lanesOf c.p.lanes).filter (fun e => e.1 != k)
        let o := originOf (faultedAddr c a vs t) c.p.pc.toNat (slotNo c.b a) 0 rest.length true
        let v : Val := if others.any (fun e => e.2.cls == .live) then ⟨0, .direct⟩ else .clean 0
        chosenStops h k t (others.map (fun e => (e.1, if e.2.cls = .helper then e.2 else fillOrigin e.2 o)))
          (c.env.longResult v :: rest) ret x.1 c
      | .ok l =>
        let y := loadedVals x.1 l
        let s := match firstPoison l 0, byLane (c.b.lanesOf c.p.lanes) with
          | some (_, ad), e :: _ =>
            y.1.modThread c.bid e.1 (fun t =>
              fillOrigin t (originOf ad c.p.pc.toNat (slotNo c.b a) 0 rest.length true))
          | _, _ => y.1
        fin s (y.2.getD 0 (.clean 0))

/-- ldf (R258). -/
def execLdf (h : Hdr) (a : Addr) (acq : Bool) (hint : Hint) (s : State) : Host.Outcome State Fault Refusal :=
  issue (.ldf h a acq hint) h { scopes := laneWarp, qn4 := usesQn4 a }
    (fun s c => if h.sc = .lane then ldfLane h a acq s c else ldfWarp h a acq s c) s

/-! Status forms -/

/-- The status of R259 for a cell's elements, with the elements resolved; 5 marks an uncorrectable error.
(log 27, DEDUCED) -/
def accessStatus (s : State) (w : Who) (bid : Nat) (need : Need) (fmt : Nat) (l : List Elem) :
    State × Nat × List (Elem × AccRes (Option Resolved)) :=
  let probe := l.map (fun e => match e with | .misaligned a (some sp) => .at a sp 0 [] | e => e)
  let x := resolveCell s w bid need fmt probe
  let st :=
    if (firstAddr AccRes.isMiss x.2).isSome then 1
    else if (firstAddr AccRes.isProt x.2).isSome then 2
    else
      match elemFault l with
      | some (k, _) => if k = 0x0C then 3 else 4
      | none => if (firstAddr AccRes.isBad x.2).isSome then 5 else 0
  (x.1, st, x.2)

/-- Steps 4 and 5 of a status form. -/
def statusHead (c : Ctx) (a : Addr) (store : Bool) (vs : List Val) : LaneRes Unit :=
  (refusePoison vs).bind fun _ => if slotOk c.b a store then .ok () else .lane { cause := 0x14 }

/-- ldsp of a lane (R259): the value, then the status on top. (log 27, DEDUCED) -/
def ldspLane (c : Ctx) (a : Addr) (s : State) (_k : Nat) (t : Thread) (vs : List Val) : State × LaneRes Thread :=
  match statusHead c a false vs with
  | .lane i => (s, .lane i)
  | .path i => (s, .path i)
  | .ok _ =>
    let f := accessSlot c.b a
    let x := accessStatus s c.b.who c.bid .load f.fmt ((cellElems c.b c.bid a false (vs.map (·.bits)) 1).flatten)
    let push := fun (v : Word) (st : Nat) =>
      LaneRes.ok { t with stack := c.env.longResult (.clean (wd st)) :: c.env.longResult (.clean v) :: t.stack }
    match x.2.1 with
    | 0 => let y := readCell x.1 c.b.dieOf f x.2.2; (y.1, push y.2 0)
    | 5 => (x.1, .lane ((firstBad x.2.2).getD { cause := 0x13 }))
    | st => (x.1, push 0 st)

/-- ldsp (R259). -/
def execLdsp (h : Hdr) (a : Addr) (acq : Bool) (hint : Hint) (s : State) : Host.Outcome State Fault Refusal :=
  issue (.ldsp h a acq hint) h { scopes := [.lane], qn4 := usesQn4 a }
    (fun s c => laneAccess h (addrPops a) 2 (ldspLane c a) s c) s

/-- pref: the address operands are popped; what the caches hold changes no value (R261, log 4, DEDUCED). -/
def execPref (h : Hdr) (a : Addr) (hint : Hint) (s : State) : Host.Outcome State Fault Refusal :=
  issue (.pref h a hint) h { scopes := [.lane], qn4 := usesQn4 a }
    (fun s c => laneAccess h (addrPops a) 0 (fun s _ t _ => (s, .ok t)) s c) s

/-! qpop -/

/-- A lane's cells of n entries, the newest on top (R260). (log 28, DEDUCED) -/
def popEntries (mark : Mark) (l : List QEntry) (pos : Nat) : List Cell :=
  (l.map (fun e => (⟨tgetD e.cells pos ⟨0, .clean⟩, none, mark, false⟩ : Cell))).reverse

/-- qpop after its checks: the entries are freed at issue (R104, R260), and it consumes their window cells (R397).
(log 22, DEDUCED) -/
def qpopTake (h : Hdr) (n : Nat) (s : State) (c : Ctx) : State :=
  let q := queueOf c.b c.p.warp
  let head := c.p.run.count == 0
  let mark := if head then c.env.fixed 1 else c.env.longMark
  let got := q.entries.take n
  let d := laneDepth c.b c.p
  let q' : FQueue := { q with entries := q.entries.drop n, head := q.slotAt c.b.queue n }
  let s := s.modBlock c.bid (fun b => { b with queues := tset b.queues c.p.warp q' })
  let s := s.postOnce s.cycle (.finderQueueRoom c.bid c.p.warp)
  finishLanes s c h
    (perLane c (fun k t =>
      if got.any (fun e => mem? e.bad (lanePos k)) then .lane { cause := 0x13, dom := 0 }
      else .ok (t.withStack (popEntries mark got (lanePos k) ++ t.stack))))
    { pc := c.next, ready := if head then c.env.slot + 1 else 0, owed := b2n (!head), xfer := transfers d (d + n) }

/-- qpop: illegal uses, then a wait for entries, or a wait cycle when none can come (R100, R105, R260). (log 28, DEDUCED) -/
def qpopBody (h : Hdr) (n : Nat) (s : State) (c : Ctx) : State :=
  if c.p.finder then trapPath s c { cause := 0x0D }
  else
    match checkLanes c 0 n with
    | .path t => trapPath s c t
    | .all _ _ =>
      if c.b.queue < n ∨ c.b.fentry = 0 then trapPath s c { cause := 0x0B }
      else
        let q := queueOf c.b c.p.warp
        if n ≤ q.available then qpopTake h n s c
        else if finderGone c.b c.p.warp && decide (q.entries.length < n) then
          let x := nextCycleNo s c.b.part
          trapWaitCycle x.2 c.bid c.pid c.p (unitId c.bid c.p.warp true (c.p.lanes.foldl (fun n k => min n (lanePos k)) 31)) x.1
        else holdPath s c .finderQueue

/-- qpop (R260). -/
def execQpop (h : Hdr) (n : BitVec 5) (s : State) : Host.Outcome State Fault Refusal :=
  issue (.qpop h n) h { scopes := [.lane] } (qpopBody h n.toNat) s

/-- Paths of a warp that wait for entries are looked at again. -/
def wakeQueue (s : State) (bid warp : Nat) : State :=
  match tget s.blocks bid with
  | none => s
  | some b =>
    (b.paths.filter (fun e => e.2.warp == warp && !e.2.finder)).foldl (fun s e =>
      let s := unhold s bid e.1 .finderQueue
      if e.2.wait = .parked then s.postOnce (max s.cycle e.2.run.base) (.pathReady bid e.1) else s) s

/-- The first `n` entries whose data is on its way have it. -/
def arriveEntries : Nat → List QEntry → List QEntry
  | 0, l => l
  | _, [] => []
  | n + 1, e :: r => if e.arrived then e :: arriveEntries (n + 1) r else { e with arrived := true } :: arriveEntries n r

/-- Data of the queue-writing loads of a warp's finder arrives, oldest entry first, through the main-file port, which takes two
cells a cycle; the rest arrives in later cycles (R103, R140). -/
def queueArrival (bid warp : Nat) (s : State) : State :=
  match tget s.blocks bid with
  | none => s
  | some b =>
    let k := b.sectorOf warp
    let waiting := ((queueOf b warp).entries.filter (fun e : QEntry => !e.arrived)).length
    let n := min waiting (2 - ((s.sector k).returns.filter (· == s.cycle)).length)
    let s := (s.takePort k s.cycle n).modBlock bid (fun b => { b with queues := tmod b.queues warp (fun q =>
      { q with entries := arriveEntries n q.entries }) })
    let s := if n < waiting then s.postOnce (s.cycle + 1) (.queueEntryArrival bid warp) else s
    wakeQueue s bid warp

def execQueueEntryArrival (s : State) : Host.Outcome State Fault Refusal :=
  device s fun
    | .queueEntryArrival bid warp => some (queueArrival bid warp s)
    | _ => none

/-- A freed entry lets a held finder issue its load (R104). -/
def finderRoom (bid warp : Nat) (s : State) : State :=
  match tget s.blocks bid with
  | none => s
  | some b =>
    (b.paths.filter (fun e => e.2.warp == warp && e.2.finder)).foldl (fun s e => unhold s bid e.1 .finderRoom) s

def execFinderQueueRoom (s : State) : Host.Outcome State Fault Refusal :=
  device s fun
    | .finderQueueRoom bid warp => some (finderRoom bid warp s)
    | _ => none

end Sys2Proof.Machine
end

