-- ==== Sys2Proof/Machine/FloatArith.lean ====
section
/-! DEFINITION. FAR and PAIR: f32 and bf16x2 arithmetic (R190-R193). -/

namespace Sys2Proof.Machine

def Alu.flt (ty : FTy) (pops lat : Nat) (k : Option Byte) (fn : List Val → LaneRes Val) : Alu :=
  ⟨pops, k.map (constOf (ftyReg ty)), lat, fn⟩

def fprod (a b : FVal) : FVal := a.mul b
def fadd (rm : RM) (a b : FVal) : FVal := FVal.sum rm [a, b]
def ffma (rm : RM) (a b c : FVal) : FVal := FVal.sum rm [a.mul b, c]

/-- A bf16 half under a rounding mode, with SAT (R156, R157). -/
def bf16Sat (rm : RM) (sat : Bool) (v : FVal) : Nat :=
  let b := Fmt.bf16.encode rm v
  if sat then Fmt.bf16.saturate b else b

/-- Both halves of a one-, two- or three-operand form (R193). -/
def half1 (f : FVal → Nat) (a : Word) : Word := mkPair (f (bfHi a)) (f (bfLo a))
def half2 (f : FVal → FVal → Nat) (a b : Word) : Word := mkPair (f (bfHi a) (bfHi b)) (f (bfLo a) (bfLo b))
def half3 (f : FVal → FVal → FVal → Nat) (a b c : Word) : Word :=
  mkPair (f (bfHi a) (bfHi b) (bfHi c)) (f (bfLo a) (bfLo b) (bfLo c))

/-- |a| with the sign bit of b as stored (R191). -/
def copySign (a b : Word) : Word :=
  if (f32 a).isNan then 0x7FC0_0000 else wd (a.toNat % 2 ^ 31 + (if bit? b.toNat 31 then 2 ^ 31 else 0))

def minmax32 (isMax : Bool) (a b : Word) : Word := wd (Fmt.f32.minmax isMax a.toNat b.toNat)
def minmax16 (isMax : Bool) (a b : Word) : Word :=
  mkPair (Fmt.bf16.minmax isMax (a.toNat / 65536) (b.toNat / 65536))
    (Fmt.bf16.minmax isMax (a.toNat % 65536) (b.toNat % 65536))

/-- add.f32 (R191). -/
def execFarAdd (h : Hdr) (rm : RM) (sat : Bool) (k : Option Byte) (s : State) : Host.Outcome State Fault Refusal :=
  fpu (.farAdd h rm sat k) h (.flt .f32 2 4 k (fn2 fun a b => toF32Sat rm sat (fadd rm (f32 a) (f32 b)))) s

/-- sub.f32 (R191). -/
def execFarSub (h : Hdr) (rm : RM) (sat : Bool) (k : Option Byte) (s : State) : Host.Outcome State Fault Refusal :=
  fpu (.farSub h rm sat k) h (.flt .f32 2 4 k (fn2 fun a b => toF32Sat rm sat (fadd rm (f32 a) (f32 b).negate))) s

/-- mul.f32 (R191). -/
def execFarMul (h : Hdr) (rm : RM) (sat : Bool) (k : Option Byte) (s : State) : Host.Outcome State Fault Refusal :=
  fpu (.farMul h rm sat k) h (.flt .f32 2 4 k (fn2 fun a b => toF32Sat rm sat (fprod (f32 a) (f32 b)))) s

/-- fma.f32, rounded once (R191). -/
def execFarFma (h : Hdr) (rm : RM) (sat : Bool) (k : Option Byte) (s : State) : Host.Outcome State Fault Refusal :=
  fpu (.farFma h rm sat k) h (.flt .f32 3 4 k (fn3 fun a b c => toF32Sat rm sat (ffma rm (f32 a) (f32 b) (f32 c)))) s

/-- neg.f32 (R191). -/
def execFarNeg (h : Hdr) (rm : RM) (k : Option Byte) (s : State) : Host.Outcome State Fault Refusal :=
  fpu (.farNeg h rm k) h (.flt .f32 1 4 k (fn1 fun a => toF32 .rn (f32 a).negate)) s

/-- abs.f32 (R191). -/
def execFarAbs (h : Hdr) (rm : RM) (k : Option Byte) (s : State) : Host.Outcome State Fault Refusal :=
  fpu (.farAbs h rm k) h (.flt .f32 1 4 k (fn1 fun a => toF32 .rn (f32 a).absolute)) s

/-- min.f32 (R192). -/
def execFarMin (h : Hdr) (rm : RM) (k : Option Byte) (s : State) : Host.Outcome State Fault Refusal :=
  fpu (.farMin h rm k) h (.flt .f32 2 4 k (fn2 (minmax32 false))) s

/-- max.f32 (R192). -/
def execFarMax (h : Hdr) (rm : RM) (k : Option Byte) (s : State) : Host.Outcome State Fault Refusal :=
  fpu (.farMax h rm k) h (.flt .f32 2 4 k (fn2 (minmax32 true))) s

/-- clamp.f32 (R192). -/
def execFarClamp (h : Hdr) (rm : RM) (k : Option Byte) (s : State) : Host.Outcome State Fault Refusal :=
  fpu (.farClamp h rm k) h (.flt .f32 3 4 k (fn3 fun x lo hi => minmax32 false (minmax32 true x lo) hi)) s

/-- csgn.f32 (R191). -/
def execFarCsgn (h : Hdr) (rm : RM) (k : Option Byte) (s : State) : Host.Outcome State Fault Refusal :=
  fpu (.farCsgn h rm k) h (.flt .f32 2 4 k (fn2 copySign)) s

/-- div.f32 (R191). -/
def execFarDiv (h : Hdr) (rm : RM) (k : Option Byte) (s : State) : Host.Outcome State Fault Refusal :=
  fpu (.farDiv h rm k) h (.flt .f32 2 16 k (fn2 fun a b => wd (Fmt.f32.div rm (f32 a) (f32 b)))) s

/-- sqrt.f32 (R191). -/
def execFarSqrt (h : Hdr) (rm : RM) (k : Option Byte) (s : State) : Host.Outcome State Fault Refusal :=
  fpu (.farSqrt h rm k) h (.flt .f32 1 16 k (fn1 fun a => wd (Fmt.f32.sqrt rm (f32 a)))) s

/-- rint.f32 (R191). -/
def execFarRint (h : Hdr) (rm : RM) (k : Option Byte) (s : State) : Host.Outcome State Fault Refusal :=
  fpu (.farRint h rm k) h (.flt .f32 1 4 k (fn1 fun a => wd (Fmt.f32.rint rm (f32 a)))) s

/-- fract.f32 (R191). -/
def execFarFract (h : Hdr) (rm : RM) (k : Option Byte) (s : State) : Host.Outcome State Fault Refusal :=
  fpu (.farFract h rm k) h (.flt .f32 1 4 k (fn1 fun a => wd (Fmt.f32.fract rm (f32 a)))) s

/-- ldexp.f32 (R191). -/
def execFarLdexp (h : Hdr) (rm : RM) (k : Option Byte) (s : State) : Host.Outcome State Fault Refusal :=
  fpu (.farLdexp h rm k) h (.flt .f32 2 4 k (fn2 fun a n => wd (Fmt.f32.ldexp rm (f32 a) (f32 n)))) s

/-- expo.f32 (R191). -/
def execFarExpo (h : Hdr) (rm : RM) (k : Option Byte) (s : State) : Host.Outcome State Fault Refusal :=
  fpu (.farExpo h rm k) h (.flt .f32 1 4 k (fn1 fun a => wd (Fmt.f32.expo (f32 a)))) s

/-- add.bf16x2 (R193). -/
def execPairAdd (h : Hdr) (rm : RM) (sat : Bool) (k : Option Byte) (s : State) : Host.Outcome State Fault Refusal :=
  fpu (.pairAdd h rm sat k) h (.flt .bf16x2 2 4 k (fn2 (half2 fun a b => bf16Sat rm sat (fadd rm a b)))) s

/-- sub.bf16x2 (R193). -/
def execPairSub (h : Hdr) (rm : RM) (sat : Bool) (k : Option Byte) (s : State) : Host.Outcome State Fault Refusal :=
  fpu (.pairSub h rm sat k) h (.flt .bf16x2 2 4 k (fn2 (half2 fun a b => bf16Sat rm sat (fadd rm a b.negate)))) s

/-- mul.bf16x2 (R193). -/
def execPairMul (h : Hdr) (rm : RM) (sat : Bool) (k : Option Byte) (s : State) : Host.Outcome State Fault Refusal :=
  fpu (.pairMul h rm sat k) h (.flt .bf16x2 2 4 k (fn2 (half2 fun a b => bf16Sat rm sat (fprod a b)))) s

/-- fma.bf16x2 (R193). -/
def execPairFma (h : Hdr) (rm : RM) (sat : Bool) (k : Option Byte) (s : State) : Host.Outcome State Fault Refusal :=
  fpu (.pairFma h rm sat k) h (.flt .bf16x2 3 4 k (fn3 (half3 fun a b c => bf16Sat rm sat (ffma rm a b c)))) s

/-- neg.bf16x2 (R193). -/
def execPairNeg (h : Hdr) (rm : RM) (k : Option Byte) (s : State) : Host.Outcome State Fault Refusal :=
  fpu (.pairNeg h rm k) h (.flt .bf16x2 1 4 k (fn1 (half1 fun a => Fmt.bf16.encode .rn a.negate))) s

/-- abs.bf16x2 (R193). -/
def execPairAbs (h : Hdr) (rm : RM) (k : Option Byte) (s : State) : Host.Outcome State Fault Refusal :=
  fpu (.pairAbs h rm k) h (.flt .bf16x2 1 4 k (fn1 (half1 fun a => Fmt.bf16.encode .rn a.absolute))) s

/-- min.bf16x2 (R192, R193). -/
def execPairMin (h : Hdr) (rm : RM) (k : Option Byte) (s : State) : Host.Outcome State Fault Refusal :=
  fpu (.pairMin h rm k) h (.flt .bf16x2 2 4 k (fn2 (minmax16 false))) s

/-- max.bf16x2 (R192, R193). -/
def execPairMax (h : Hdr) (rm : RM) (k : Option Byte) (s : State) : Host.Outcome State Fault Refusal :=
  fpu (.pairMax h rm k) h (.flt .bf16x2 2 4 k (fn2 (minmax16 true))) s

/-- dot2.bf16x2: one exact sum, rounded once to f32 (R193). The constant of K = 1 is a bf16x2 constant read as the f32 c (R125).
(log 54, DEDUCED) -/
def execPairDot2 (h : Hdr) (rm : RM) (sat : Bool) (k : Option Byte) (s : State) : Host.Outcome State Fault Refusal :=
  fpu (.pairDot2 h rm sat k) h (.flt .bf16x2 3 4 k (fn3 fun a b c => toF32Sat rm sat (FVal.sum rm [(bfLo a).mul (bfLo b), (bfHi a).mul (bfHi b), f32 c]))) s

end Sys2Proof.Machine
end

