-- ==== Sys2Proof/Machine/Moves.lean ====
section
/-! DEFINITION. One-cell moves between a stack and named cells (R184-R186). -/

namespace Sys2Proof.Machine

/-- The four one-cell moves. -/
inductive Loc where
  | push | pop | keep | xch
  deriving DecidableEq, Repr

def Loc.need : Loc → Nat
  | .push => 0
  | _ => 1
def Loc.pops : Loc → Nat
  | .push | .keep => 0
  | _ => 1
def Loc.pushes : Loc → Nat
  | .push | .xch => 1
  | _ => 0
def Loc.writes : Loc → Bool
  | .push => false
  | _ => true

/-- A move between the top and stack position k, named tk (R185). -/
def Loc.onStack (l : Loc) (k : Nat) : StackFn := fun e ceil st =>
  (checkDepth st.length (max l.need (k + 1)) l.pops l.pushes ceil).map fun _ =>
    let top := e.move (st.getD 0 (.ofWord 0))
    let old := e.move (st.getD k (.ofWord 0))
    match l with
    | .push => old :: st
    | .pop => (lset st k top).drop 1
    | .keep => lset st k top
    | .xch => lset (lset st k top) 0 old

/-- A move between the top and cell k of a list of named cells: the new stack and the new cells. -/
def Loc.onCells (l : Loc) (k : Nat) (e : Env) (ceil : Nat) (st cells : List Cell) : LaneRes (List Cell × List Cell) :=
  (checkDepth st.length l.need l.pops l.pushes ceil).map fun _ =>
    let top := e.move (st.getD 0 (.ofWord 0))
    let old := e.move (cells.getD k (.ofWord 0))
    match l with
    | .push => (old :: st, cells)
    | .pop => (st.drop 1, lset cells k top)
    | .keep => (st, lset cells k top)
    | .xch => (old :: st.drop 1, lset cells k top)

end Sys2Proof.Machine
end

