-- ==== Sys2Proof/Machine/Scoped.lean ====
section
/-! DEFINITION. Meeting at set and block scope, and SCP: scoped collectives (R76-R83, R219-R223). -/

namespace Sys2Proof.Machine

/-! Combining elements -/

/-- The exact sum of cells under a type, rounded once (R167). -/
def sumCells (ty : RTy) (l : List Word) : Word :=
  match ty with
  | .i32 | .n32 => l.foldl (· + ·) 0
  | .f32 => toF32 .rn (FVal.sum .rn (l.map f32))
  | .bf16x2 => perHalf (fun v => Fmt.bf16.encode .rn (FVal.sum .rn v)) l

/-- A reduction of a non-empty list of cells; a lone NaN is made canonical as any result is (R155, R221). -/
def reduceCells (ty : RTy) (op : RedOp) : List Word → Word
  | [] => 0
  | x :: r =>
    match op with
    | .add => sumCells ty (x :: r)
    | .min =>
      match ty with
      | .i32 => r.foldl (intMin .i32) x
      | .n32 => r.foldl (intMin .n32) x
      | .f32 => r.foldl (minmax32 false) (minmax32 false x x)
      | .bf16x2 => r.foldl (minmax16 false) (minmax16 false x x)
    | .max =>
      match ty with
      | .i32 => r.foldl (intMax .i32) x
      | .n32 => r.foldl (intMax .n32) x
      | .f32 => r.foldl (minmax32 true) (minmax32 true x x)
      | .bf16x2 => r.foldl (minmax16 true) (minmax16 true x x)
    | .and => r.foldl (· &&& ·) x
    | .or => r.foldl (· ||| ·) x
    | .xor => r.foldl (· ^^^ ·) x

/-- A combined value with its poison. -/
def reduceVals (ty : RTy) (op : RedOp) (l : List Val) : Val := ⟨reduceCells ty op (l.map (·.bits)), poisonOf l⟩

/-- Which collective a form is. -/
inductive Coll where
  | red | scan | segred | segscan
  deriving DecidableEq, Repr

/-- Elements of the segments: each opens at the first element and where h is non-zero (R221). -/
def segments (l : List (Val × Val)) : List (List (Val × Val)) :=
  l.foldr (fun e acc =>
    match acc with
    | [] => [[e]]
    | g :: rest =>
      match g with
      | [] => [e] :: rest
      | f :: _ => if f.2.bits ≠ 0 then [e] :: g :: rest else (e :: g) :: rest) []

/-- Results over one segment: its whole, or each inclusive prefix. -/
def segResults (prefixes : Bool) (ty : RTy) (op : RedOp) (g : List (Val × Val)) : List Val :=
  let vs := g.map (·.1)
  if prefixes then (upto vs.length).map (fun i => reduceVals ty op (vs.take (i + 1)))
  else vs.map (fun _ => reduceVals ty op vs)

/-- Results of a collective for elements in ascending order, each with its a and its h (R221). -/
def collResults (k : Coll) (ty : RTy) (op : RedOp) (l : List (Val × Val)) : List Val :=
  match k with
  | .red => segResults false ty op l
  | .scan => segResults true ty op l
  | _ =>
    let r := (segments l).flatMap (segResults (k == .segscan) ty op)
    if l.any (fun e => e.2.poisoned) then r.map (fun v => ⟨v.bits, .derived⟩) else r

/-- Cells a collective pops: a, and h for the segmented forms. -/
def Coll.pops : Coll → Nat
  | .red | .scan => 1
  | _ => 2

/-- Top cells of a lane's stack as (a, h). -/
def collOperands (k : Coll) (t : Thread) : Val × Val :=
  let v := fun i => (t.stack.getD i (.ofWord 0)).val
  if k.pops = 1 then (v 0, ⟨0, .clean⟩) else (v 1, v 0)

/-! Meeting -/

/-- All warps of a warp's set, or of the block (R70, R77). -/
def scopeWarps (b : Block) (sc : Scope) (warp : Nat) : Nat :=
  let n := b.setSize
  if sc = .set then (2 ^ n - 1) * 2 ^ (warp / n * n) else 2 ^ b.warps - 1

/-- The membership bitmap a word names; a divided cell is a membership fault as R77 says, where R148 names cause 0x08 (R77).
(log 73, DEDUCED) -/
def membership (c : Ctx) (sc : Scope) (wm : BitVec 4) : LaneRes Nat :=
  let all := scopeWarps c.b sc c.p.warp
  if wm = 0 then .ok all
  else
    let cell := c.p.w.getD (48 + wm.toNat) (.ofWord 0)
    if c.env.early cell.mark then .path { cause := 0x05, addr := cell.mark.pc.toNat }
    else if cell.err then .path { cause := 0x13, dom := 0 }
    else if cell.hi.isSome || cell.val.poisoned then .path { cause := 0x07 }
    else
      let v := cell.val.bits.toNat
      if v = 0 ∨ v ||| all ≠ all ∨ bit? v c.p.warp = false then .path { cause := 0x07 } else .ok v

/-- An instance marked faulted (R79, R83). -/
def markFaulted (s : State) (bid inst : Nat) : State :=
  s.modBlock bid (fun b => { b with rdvs := tmod b.rdvs inst (fun r => { r with faulted := true }) })

/-- Open instances marked faulted (R79, R83). -/
def markAll (s : State) (bid : Nat) (insts : List Nat) : State := insts.foldl (fun s k => markFaulted s bid k) s

/-- The open instances that expect a warp (R79). (log 18, DEDUCED) -/
def expecting (b : Block) (warp : Nat) : List (Nat × Rdv) := b.rdvs.filter (fun e => bit? e.2.warps.toNat warp)

/-- An open instance of the same scope and PC in the same set or block, with another bitmap (R79): the lowest-numbered one.
(log 18, DEDUCED) -/
def rivalOf (c : Ctx) (sc : Scope) (bm : Nat) : Option (Nat × Rdv) :=
  c.b.rdvs.find? (fun e => e.2.scope == sc && e.2.pc == c.p.pc && e.2.warps.toNat != bm
    && (e.2.warps.toNat ||| scopeWarps c.b sc c.p.warp) == scopeWarps c.b sc c.p.warp)

/-- The instances whose scope, PC and set or block are those of an arriving path, whatever their bitmap (R77, R79).
(log 18, DEDUCED) -/
def sameSite (c : Ctx) (sc : Scope) : List Nat := (rivalOf c sc (2 ^ 32)).elim [] (fun r =>
  r.1 :: (c.b.rdvs.filter (fun e => e.1 != r.1 && e.2.scope == sc && e.2.pc == c.p.pc
    && (e.2.warps.toNat ||| scopeWarps c.b sc c.p.warp) == scopeWarps c.b sc c.p.warp)).map (·.1))

/-- The instance a path arrives at, opened when there is none; none when another instance stands against it. Beside it those
that a fault of the path marks: every one that expects its warp, else the one it arrives at or that stands against it
(R78, R79). (log 79, DESIGN CHOICE) (log 18, DEDUCED) -/
def arriveAt (s : State) (c : Ctx) (i : Instr) (sc : Scope) (bm : Nat) : Option Nat × List Nat × State :=
  match expecting c.b c.p.warp with
  | [(id, r)] => (if r.scope = sc ∧ r.pc = c.p.pc ∧ r.warps.toNat = bm then some id else none, [id], s)
  | [] =>
    match rivalOf c sc bm with
    | some (id, _) => (none, [id], s)
    | none =>
      let (id, s) := s.fresh
      (some id, [id], s.modBlock c.bid (fun b => { b with rdvs := tset b.rdvs id ⟨sc, c.p.pc, wd bm, i, [], false⟩ }))
  | l => (none, l.map (·.1), s)

/-- A trap at a set-scope or block-scope instruction marks the path's instance faulted (R79, R83); `bm` is the bitmap, the
whole set or block before it is known. (log 79, DESIGN CHOICE) -/
def meetTrap (s : State) (c : Ctx) (i : Instr) (sc : Scope) (bm : Nat) (lanes : List (Nat × TrapInfo)) : State :=
  let a := arriveAt s c i sc bm
  recheck (trapLanes (markAll a.2.2 c.bid a.2.1) c.bid c.pid lanes) c.bid

/-- ARRIVAL at a set-scope or block-scope instruction (R78): depth and latency checks, membership, then the path parks in
its instance. `need` cells must be there, `grow` is the net growth, `cons` cells are consumed. A bad bitmap opens no instance.
(log 79, DESIGN CHOICE) -/
def meet (i : Instr) (h : Hdr) (wm : BitVec 4) (need grow cons : Nat) (s : State) (c : Ctx) : State :=
  let sc := h.sc
  let checks := perLane c (fun _ t =>
    (checkDepth t.stack.length need 0 grow (laneCeil c.b c.p)).bind fun _ =>
      (consume c.env (t.stack.take cons)).map fun _ => t)
  let whole := scopeWarps c.b sc c.p.warp
  match checks, membership c sc wm with
  | .path t, m =>
    meetTrap s c i sc (match m with | .ok v => v | _ => whole) (c.p.lanes.map (fun k => (k, t)))
  | .all _ tr, .ok bm =>
    if tr.isEmpty then
      let a := arriveAt s c i sc bm
      match a.1 with
      | none => recheck (trapPath (markAll a.2.2 c.bid a.2.1) c { cause := 0x07 }) c.bid
      | some id =>
        let s := account a.2.2 c { pc := c.p.pc }
        let s := s.modBlock c.bid (fun b => { b with rdvs := tmod b.rdvs id (fun r => { r with paths := r.paths ++ [c.pid] }) })
        recheck (parkPath s c.bid c.pid (.meeting id)) c.bid
    else meetTrap s c i sc bm tr
  | .all _ _, .path t | .all _ _, .lane t =>
    if t.cause = 0x07 then
      recheck (trapPath (markAll s c.bid ((expecting c.b c.p.warp).map (·.1) ++ sameSite c sc)) c t) c.bid
    else meetTrap s c i sc whole (c.p.lanes.map (fun k => (k, t)))

/-! Completion -/

/-- Arrived threads of an instance in element order: ascending warp, then lane (R221). -/
def arrivedThreads (b : Block) (r : Rdv) : List (Nat × Thread) := b.lanesOf (sortNat (b.arrived r))

/-- Element number of a lane in the instance's scope (R82, R221). -/
def elementOf (b : Block) (r : Rdv) (key : Nat) : Nat :=
  if r.scope = .set then key - 32 * (homeWarp key / b.setSize * b.setSize) else key

def doneEnv (r : Rdv) : Env := ⟨0, 0, r.pc⟩

/-- A cell that is ready in every run to come. -/
def readyCell (v : Val) : Cell := ⟨v, none, ⟨0, 0, false, 0⟩, false⟩

/-- Threads with `n` cells popped and a value pushed. -/
def pushResults (l : List (Nat × Thread)) (n : Nat) (vs : List Val) : List (Nat × Thread) :=
  (l.zip vs).map (fun e => (e.1.1, e.1.2.withStack (readyCell e.2 :: e.1.2.stack.drop n)))

/-- What an instance's instruction does for all arrived lanes together: their new threads, or the lanes that fault
(R82, R83, R220-R222). -/
def scopedEffect (b : Block) (r : Rdv) : List (Nat × Thread) × List (Nat × TrapInfo) :=
  let ts := arrivedThreads b r
  let move := fun (l : Loc) (idx : Byte) =>
    (ts.filterMap (fun e =>
      match l.onCells (8 + idx.toNat) (doneEnv r) (8 + b.stack) e.2.stack e.2.o with
      | .ok x => some (e.1, { e.2.withStack x.1 with o := x.2 })
      | _ => none), [])
  let coll := fun (k : Coll) (ty : RTy) (op : RedOp) =>
    (pushResults ts k.pops (collResults k ty op (ts.map (fun e => collOperands k e.2))), [])
  match r.op with
  | .push _ _ idx => move .push idx
  | .pop _ _ idx => move .pop idx
  | .keep _ _ idx => move .keep idx
  | .xch _ _ idx => move .xch idx
  | .red _ ty op _ => coll .red ty op
  | .scan _ ty op _ => coll .scan ty op
  | .segred _ ty op _ => coll .segred ty op
  | .segscan _ ty op _ => coll .segscan ty op
  | .sbc _ _ e =>
    match ts.find? (fun x => elementOf b r x.1 == e.toNat) with
    | some x => let v := (collOperands .red x.2).1; (pushResults ts 1 (ts.map (fun _ => v)), [])
    | none => ([], ts.map (fun x => (x.1, { cause := 0x07 })))
  | _ => ([], [])

/-- Arrived lanes stay at the boundary, suspended by the set fault (R83). (log 21, DEDUCED) -/
def suspendArrived (s : State) (bid : Nat) (r : Rdv) : State :=
  r.paths.foldl (fun s pid =>
    match s.path? bid pid with
    | none => s
    | some p =>
      if p.wait = .stopped ∨ p.wait = .trapping then s
      else
        let s := p.lanes.foldl (fun s k => s.modThread bid k (fun t =>
          if t.run = .running then { t with run := .suspended } else t)) s
        s.modPath bid pid (fun p => { p with wait := .stopped, since := s.cycle, stepping := 0 })) s

/-- The threads that an instance expects are one group once a set fault has left them stopped, suspended or about to stop
(R83, R366). -/
def markGroup (s : State) (bid inst : Nat) (r : Rdv) : State :=
  s.modBlock bid (fun b => { b with threads := b.threads.map (fun e =>
    (e.1, if (b.expected r).any (fun x => x.1 == e.1) && (e.2.run == .stopped || e.2.run == .suspended
        || (b.pathOf e.1).any (fun x => x.2.wait == .trapping))
      then { e.2 with group := some inst } else e.2)) })

/-- The transfers of a completed instruction that changed the depths of a path's lanes: they take the port from the next cycle
on, and the path is not ready before they are done (R97, R139, R140). -/
def scopedTransfers (before : Block) (s : State) (bid pid : Nat) : State :=
  match tget s.blocks bid, tget before.paths pid with
  | some b, some p =>
    let x := transfers (laneDepth before p) (laneDepth b p)
    if x = 0 then s
    else
      let n := (x + 1) / 2
      let s := s.takePort (b.sectorOf p.warp) (s.cycle + 1) x
      (s.modBlock bid (fun b => { b with ripe := p.lanes.foldl (fun t k => tset t k (s.cycle + n)) b.ripe })).post (s.cycle + 1)
        (.mainFileTransfer bid pid)
  | _, _ => s

/-- Arrived paths go on past the boundary. (log 21, DEDUCED) -/
def releaseArrived (before : Block) (s : State) (bid : Nat) (r : Rdv) : State :=
  r.paths.foldl (fun s pid =>
    let s := scopedTransfers before (s.modPath bid pid (fun p => { p with wait := .parked, pc := p.pc + 4, since := s.cycle })) bid pid
    match tget s.blocks bid, s.path? bid pid with
    | some b, some p =>
      s.post (max s.cycle (max p.run.base (p.lanes.foldl (fun n k => max n (tgetD b.ripe k 0)) 0))) (.pathReady bid pid)
    | _, _ => s) s

def dropRdv (s : State) (bid inst : Nat) : State := s.modBlock bid (fun b => { b with rdvs := tdel b.rdvs inst })

/-- COMPLETION of an instance (R78, R79, R83): all-or-none. -/
def completeMeeting (bid inst : Nat) (s : State) : State :=
  match tget s.blocks bid with
  | none => s
  | some b =>
    match tget b.rdvs inst with
    | none => s
    | some r =>
      if b.meetReady r then
        let s := dropRdv s bid inst
        if r.faulted then markGroup (suspendArrived s bid r) bid inst r
        else
          let x := scopedEffect b r
          if x.2.isEmpty then recheck (releaseArrived b (putThreads s bid x.1) bid r) bid
          else
            let s := r.paths.foldl (fun s pid =>
              match s.path? bid pid with
              | some p => trapLanes s bid pid (x.2.filter (fun e => mem? p.lanes e.1))
              | none => s) s
            recheck (markGroup (suspendArrived s bid r) bid inst r) bid
      else s

def execRendezvousComplete (s : State) : Host.Outcome State Fault Refusal :=
  device s fun
    | .rendezvousComplete bid inst => some (completeMeeting bid inst s)
    | _ => none

/-! SCP at warp scope (R223) -/

/-- A float SCP word in a finder warp is undefined (R205). -/
def finderTy (ty : RTy) (s : State) (c : Ctx) (body : State → Ctx → State) : State :=
  match ty with
  | .i32 | .n32 => body s c
  | _ => noFinder s c body

/-- Operands of every active lane, or a cause: their depth, the room for what goes elsewhere, then consumption (R138).
An error or a poison in one lane's operand stops every active lane. (log 85, DESIGN CHOICE) -/
def laneOperands (c : Ctx) (n : Nat) (room : LaneRes Unit) : LaneRes (List (Nat × Thread)) :=
  let ts := c.b.lanesOf c.p.lanes
  if ts.any (fun e => decide (e.2.stack.length < n)) then .path { cause := 0x04 }
  else
    room.bind fun _ =>
      match perLane c (fun _ t => (consume c.env (t.stack.take n)).map fun _ => t) with
      | .path t => .path t
      | .all ok tr =>
        match tr with
        | [] => .ok ok
        | e :: _ => .lane e.2

/-- Lanes pop `n` cells and one result goes to the uniform stack. -/
def toUniform (h : Hdr) (n lat : Nat) (f : List (Nat × Thread) → LaneRes Val) (s : State) (c : Ctx) : State :=
  match laneOperands c n (checkDepth c.p.ust.length 0 0 1 8) with
  | .path t => trapPath s c t
  | .lane t => trapPath s c t
  | .ok ts =>
    match f ts with
    | .path t => trapPath s c t
    | .lane t => trapPath s c t
    | .ok v =>
      let s := putThreads s c.bid (ts.map (fun e => (e.1, e.2.withStack (e.2.stack.drop n))))
      let s := s.modPath c.bid c.pid (fun p => { p with ust := c.env.result lat v :: p.ust })
      let d := laneDepth c.b c.p
      retire s c h { pc := c.next, ready := c.env.slot + lat, xfer := transfers d (d - n) }

/-- Lanes pop `n` cells and each pushes its result. -/
def toLanes (h : Hdr) (n lat : Nat) (f : List (Nat × Thread) → List Val) (s : State) (c : Ctx) : State :=
  match laneOperands c n (.ok ()) with
  | .path t => trapPath s c t
  | .lane t => trapPath s c t
  | .ok ts =>
    let new := (ts.zip (f ts)).map (fun e =>
      (e.1.1, e.1.2.withStack (c.env.result lat e.2 :: e.1.2.stack.drop n)))
    let d := laneDepth c.b c.p
    retire (putThreads s c.bid new) c h { pc := c.next, ready := c.env.slot + lat, xfer := transfers d (d - n + 1) }

def collBody (k : Coll) (i : Instr) (h : Hdr) (ty : RTy) (op : RedOp) (wm : BitVec 4) (s : State) (c : Ctx) : State :=
  if h.sc = .warp then
    finderTy ty s c (fun s c =>
      let f := fun ts => collResults k ty op (ts.map (fun (e : Nat × Thread) => collOperands k e.2))
      if k = .red then toUniform h 1 4 (fun ts => .ok ((f ts).getD 0 ⟨0, .clean⟩)) s c
      else toLanes h k.pops 4 f s c)
  else meet i h wm k.pops 0 k.pops s c

def scpScopes : List Scope := [.warp, .set, .blk]

/-- sync (R220). -/
def execSync (h : Hdr) (wm : BitVec 4) (s : State) : Host.Outcome State Fault Refusal :=
  issue (.sync h wm) h { scopes := [.set, .blk] } (meet (.sync h wm) h wm 0 0 0) s
/-- arrive (R220). -/
def execArrive (h : Hdr) (wm : BitVec 4) (s : State) : Host.Outcome State Fault Refusal :=
  issue (.arrive h wm) h { scopes := [.set, .blk] } (meet (.arrive h wm) h wm 0 0 0) s
/-- await (R220). -/
def execAwait (h : Hdr) (wm : BitVec 4) (s : State) : Host.Outcome State Fault Refusal :=
  issue (.await h wm) h { scopes := [.set, .blk] } (meet (.await h wm) h wm 0 0 0) s
/-- red (R221, R223). -/
def execRed (h : Hdr) (ty : RTy) (op : RedOp) (wm : BitVec 4) (s : State) : Host.Outcome State Fault Refusal :=
  issue (.red h ty op wm) h { scopes := scpScopes } (collBody .red (.red h ty op wm) h ty op wm) s
/-- scan (R221, R223). -/
def execScan (h : Hdr) (ty : RTy) (op : RedOp) (wm : BitVec 4) (s : State) : Host.Outcome State Fault Refusal :=
  issue (.scan h ty op wm) h { scopes := scpScopes } (collBody .scan (.scan h ty op wm) h ty op wm) s
/-- segred (R221, R223). -/
def execSegred (h : Hdr) (ty : RTy) (op : RedOp) (wm : BitVec 4) (s : State) : Host.Outcome State Fault Refusal :=
  issue (.segred h ty op wm) h { scopes := scpScopes } (collBody .segred (.segred h ty op wm) h ty op wm) s
/-- segscan (R221, R223). -/
def execSegscan (h : Hdr) (ty : RTy) (op : RedOp) (wm : BitVec 4) (s : State) : Host.Outcome State Fault Refusal :=
  issue (.segscan h ty op wm) h { scopes := scpScopes } (collBody .segscan (.segscan h ty op wm) h ty op wm) s

/-- The value of lane e at warp scope; absent, cause 0x07 (R223). -/
def laneValue (e : Nat) (ts : List (Nat × Thread)) : LaneRes Val :=
  match ts.find? (fun x => lanePos x.1 == e) with
  | some x => .ok (collOperands .red x.2).1
  | none => .path { cause := 0x07 }

/-- sbc (R222, R223). -/
def execSbc (h : Hdr) (wm : BitVec 4) (e : Byte) (s : State) : Host.Outcome State Fault Refusal :=
  issue (.sbc h wm e) h { scopes := scpScopes }
    (fun s c => if h.sc = .warp then toUniform h 1 4 (laneValue e.toNat) s c else meet (.sbc h wm e) h wm 1 0 1 s c) s

end Sys2Proof.Machine
end

