-- ==== Sys2Proof/Machine/Stores.lean ====
section
/-! DEFINITION. STS, ATM and FEN: stores, atomics and fences (R254, R263-R272). -/

namespace Sys2Proof.Machine

/-- The elements of several cells resolved for a store (step 8 and 9 of R252): all of them, or the first cause. -/
def resolveStore (s : State) (w : Who) (bid : Nat) (fmt : Nat) (cells : List (List Elem)) :
    State × LaneRes (List (List (Elem × AccRes (Option Resolved)))) :=
  match elemFault cells.flatten with
  | some (k, a) => (s, .lane { cause := k, addr := a })
  | none =>
    let x := cells.foldl (fun (acc : State × List (List (Elem × AccRes (Option Resolved)))) l =>
      let y := resolveCell acc.1 w bid .store fmt l
      (y.1, acc.2 ++ [y.2])) (s, [])
    let all := x.2.flatten
    match firstAddr AccRes.isMiss all, firstAddr AccRes.isProt all, firstBad all with
    | some a, _, _ => (x.1, .lane { cause := 0x0A, addr := a })
    | none, some a, _ => (x.1, .lane { cause := 0x0B, addr := a })
    | none, none, some t => (x.1, .lane t)
    | none, none, none => (x.1, .ok x.2)

/-- A store of n cells: `vs` holds the address operands, then the data with v(n−1) first (R263, R264). -/
def storeOps (c : Ctx) (a : Addr) (n : Nat) (s : State) (vs : List Val) : State × LaneRes Unit :=
  match refusePoison vs with
  | .lane t => (s, .lane t)
  | .path t => (s, .path t)
  | .ok _ =>
    if slotOk c.b a true then
      let p := addrPops a
      let f := accessSlot c.b a
      let data := ((vs.drop p).map (·.bits)).reverse
      let x := resolveStore s c.b.who c.bid f.fmt (cellElems c.b c.bid a true ((vs.take p).map (·.bits)) n)
      match x.2 with
      | .ok cells => ((data.zip cells).foldl (fun s e => storeCell s c.b.place f e.2 e.1) x.1, .ok ())
      | .lane t => (x.1, .lane t)
      | .path t => (x.1, .path t)
    else (s, .lane { cause := 0x14 })

def storeLane (c : Ctx) (a : Addr) (n : Nat) (s : State) (_k : Nat) (t : Thread) (vs : List Val) :
    State × LaneRes Thread :=
  let x := storeOps c a n s vs
  (x.1, x.2.map (fun _ => t))

/-- st (R264). -/
def execSt (h : Hdr) (a : Addr) (rel : Bool) (hint : Hint) (s : State) : Host.Outcome State Fault Refusal :=
  issue (.st h a rel hint) h { scopes := [.lane], qn4 := usesQn4 a }
    (fun s c => warpOnly s c (fun s c => laneAccess h (addrPops a + 1) 0 (storeLane c a 1) s c)) s

/-- stn (R264). -/
def execStn (h : Hdr) (a : Addr) (rel : Bool) (hint : Hint) (n : BitVec 5) (s : State) :
    Host.Outcome State Fault Refusal :=
  issue (.stn h a rel hint n) h { scopes := [.lane], qn4 := usesQn4 a }
    (fun s c => warpOnly s c (fun s c => laneAccess h (addrPops a + n.toNat) 0 (storeLane c a n.toNat) s c)) s

/-- stf at lane scope: one store by the chosen lane; when it faults the others complete without effect (R264). -/
def stfLane (h : Hdr) (a : Addr) (s : State) (c : Ctx) : State :=
  let p := addrPops a + 1
  match checkLanes c p 0 with
  | .path t => trapPath s c t
  | .all ok tr =>
    let d := laneDepth c.b c.p
    let ret : Retire := { pc := c.next, xfer := transfers d (d - p) }
    match chosenLane ok with
    | none => finishLanes s c h (.all (pushEach ok p (fun _ t => t)) tr) ret
    | some (k, t0) =>
      let x := storeOps c a 1 s ((t0.stack.take p).map (·.val))
      match x.2 with
      | .ok _ => finishLanes x.1 c h (.all (pushEach ok p (fun _ t => t)) tr) ret
      | .path i => trapPath x.1 c i
      | .lane i =>
        finishLanes x.1 c h (.all (pushEach (ok.filter (fun e => e.1 != k)) p (fun _ t => t)) (tr ++ [(k, i)])) ret

/-- stf at warp scope: value and address from the uniform stack; the chosen lane faults alone (R264). (log 83, DEDUCED) -/
def stfWarp (h : Hdr) (a : Addr) (s : State) (c : Ctx) : State :=
  let p := addrPops a + 1
  match uniformOperands c p 0 with
  | .path t => trapPath s c t
  | .lane t => trapPath s c t
  | .ok vs =>
    let fin := fun (s : State) => finishPath s c h (.ok { c.p with ust := c.p.ust.drop p }) { pc := c.next }
    match chosenLane (c.b.lanesOf c.p.lanes) with
    | none => fin s
    | some (k, _) =>
      let x := storeOps c a 1 s vs
      match x.2 with
      | .path t => trapPath x.1 c t
      | .lane t =>
        chosenStops h k t ((c.b.lanesOf c.p.lanes).filter (fun e => e.1 != k)) (c.p.ust.drop p) { pc := c.next } x.1 c
      | .ok _ => fin x.1

/-- stf (R264). -/
def execStf (h : Hdr) (a : Addr) (rel : Bool) (hint : Hint) (s : State) : Host.Outcome State Fault Refusal :=
  issue (.stf h a rel hint) h { scopes := laneWarp, qn4 := usesQn4 a }
    (fun s c => warpOnly s c (fun s c => if h.sc = .lane then stfLane h a s c else stfWarp h a s c)) s

/-- stsp of a lane: the store only when the status is 0, then the status (R264). (log 27, DEDUCED) -/
def stspLane (c : Ctx) (a : Addr) (s : State) (_k : Nat) (t : Thread) (vs : List Val) : State × LaneRes Thread :=
  match statusHead c a true vs with
  | .lane i => (s, .lane i)
  | .path i => (s, .path i)
  | .ok _ =>
    let p := addrPops a
    let f := accessSlot c.b a
    let l := (cellElems c.b c.bid a true ((vs.take p).map (·.bits)) 1).flatten
    let x := accessStatus s c.b.who c.bid .store f.fmt l
    let push := fun (st : Nat) => LaneRes.ok { t with stack := c.env.longResult (.clean (wd st)) :: t.stack }
    match x.2.1 with
    | 0 => (storeCell x.1 c.b.place f x.2.2 ((vs.getD p (.clean 0)).bits), push 0)
    | 5 => (x.1, .lane ((firstBad x.2.2).getD { cause := 0x13 }))
    | st => (x.1, push st)

/-- stsp (R264). -/
def execStsp (h : Hdr) (a : Addr) (rel : Bool) (hint : Hint) (s : State) : Host.Outcome State Fault Refusal :=
  issue (.stsp h a rel hint) h { scopes := [.lane], qn4 := usesQn4 a }
    (fun s c => warpOnly s c (fun s c => laneAccess h (addrPops a + 1) 1 (stspLane c a) s c)) s

/-! Atomics -/

/-- The new word of an atomic operator (R266). -/
def atomWord (f : Slot) (op : AtomOp) (w v : Word) : Word :=
  match op with
  | .xch => v
  | .and => w &&& v
  | .or => w ||| v
  | .xor => w ^^^ v
  | .add =>
    match f.fmt with
    | 1 => ityFit .i32 f.satc (w.toInt + v.toInt)
    | 2 => toF32 .rn (FVal.sum .rn [f32 w, f32 v])
    | _ => sumCells .bf16x2 [w, v]
  | .min =>
    match f.fmt with
    | 1 => intMin .i32 w v
    | 2 => minmax32 false w v
    | _ => minmax16 false w v
  | .max =>
    match f.fmt with
    | 1 => intMax .i32 w v
    | 2 => minmax32 true w v
    | _ => minmax16 true w v

/-- Formats and operators that an atomic accepts, and the stride of a bf16 pair (R265, R266). -/
def atomOk (b : Block) (a : Addr) (bitwise : Bool) : Bool :=
  let f := accessSlot b a
  let h := b.shapeOf a.h.toNat
  decide (1 ≤ f.fmt) && decide (f.fmt ≤ 3) && f.sl == 0 && (!bitwise || f.fmt == 1)
    && (a.nc == 0 || (h.used && (f.fmt != 3 || h.stride.getD 0 0 == 1)))

def atomBitwise : AtomOp → Bool
  | .and | .or | .xor => true
  | _ => false

/-- The word of an atomic whose first byte stands at `addr` (R265): none when an element is out of range and nothing is done
(R267). -/
def atomElem (addr : Nat) (l : List Elem) : LaneRes (Option (Nat × Spot)) :=
  let first := match l with
    | .at a sp _ _ :: _ => some (a, sp)
    | _ => none
  if addr % 4 ≠ 0 then .lane { cause := 0x0C, addr := addr }
  else
    match elemFault l with
    | some (k, a) => .lane { cause := k, addr := a }
    | none => .ok (if l.any (fun e => e == .absent) then none else first)

/-- A word changed at its home by an atomic (R267, R296, R315): the old word. -/
def atomAt (s : State) (c : Ctx) (addr : Nat) (sp : Spot) (op : Word → Word) : State × LaneRes Word :=
  let x := resolve s c.b.who c.bid .store sp 4
  match x.2 with
  | .miss => (x.1, .lane { cause := 0x0A, addr := addr })
  | .prot => (x.1, .lane { cause := 0x0B, addr := addr })
  | .bad k => (x.1, .lane (badInfo k addr))
  | .ok ts =>
    match ts with
    | [.mem pa _ nco] =>
      if isFabric pa then
        let y := readTargets x.1 0 ts
        (y.1, .ok (wd (ofBytes y.2)))
      else
        let w := wd (rdLE x.1.mem pa 4)
        let s := { x.1 with mem := wrLE x.1.mem pa 4 (op w).toNat }
        (if nco then s else s.request (.dirHomeWrite c.b.place.die (pa / 64) (wordMask pa 4)), .ok w)
    | _ =>
      let y := readTargets x.1 0 ts
      let w := wd (ofBytes y.2)
      (writeTargets y.1 0 ts (toBytes 4 (op w).toNat), .ok w)

/-- One lane's atomic: `vs` holds the address operands, then the data. -/
def atomOps (c : Ctx) (a : Addr) (bitwise : Bool) (op : List Word → Word → Word) (s : State) (vs : List Val) :
    State × LaneRes Word :=
  match refusePoison vs with
  | .lane t => (s, .lane t)
  | .path t => (s, .path t)
  | .ok _ =>
    if atomOk c.b a bitwise then
      let ops := (vs.take (addrPops a)).map (·.bits)
      match atomElem (accessAddr c.b a ops) (cellElems c.b c.bid a true ops 1).flatten with
      | .lane t => (s, .lane t)
      | .path t => (s, .path t)
      | .ok none => (s, .ok 0)
      | .ok (some (addr, sp)) => atomAt s c addr sp (op ((vs.drop (addrPops a)).map (·.bits)))
    else (s, .lane { cause := 0x14 })

/-- An atomic that pushes the old word in each lane. -/
def atomPush (c : Ctx) (a : Addr) (bitwise : Bool) (op : List Word → Word → Word) (s : State) (_k : Nat) (t : Thread)
    (vs : List Val) : State × LaneRes Thread :=
  let x := atomOps c a bitwise op s vs
  (x.1, x.2.map (fun w => { t with stack := c.env.longResult (.clean w) :: t.stack }))

def atomForm (i : Instr) (h : Hdr) (a : Addr) (data pushes : Nat)
    (run : Ctx → State → Nat → Thread → List Val → State × LaneRes Thread) (s : State) :
    Host.Outcome State Fault Refusal :=
  issue i h { scopes := [.lane], qn4 := usesQn4 a }
    (fun s c => warpOnly s c (fun s c => laneAccess h (addrPops a + data) pushes (run c) s c)) s

/-- atom (R267). -/
def execAtom (h : Hdr) (a : Addr) (ord : MemOrd) (op : AtomOp) (s : State) : Host.Outcome State Fault Refusal :=
  atomForm (.atom h a ord op) h a 1 1
    (fun c => atomPush c a (atomBitwise op) (fun d w => atomWord (accessSlot c.b a) op w (d.getD 0 0))) s

/-- cas: the comparand beneath the new word (R265, R267). -/
def execCas (h : Hdr) (a : Addr) (ord : MemOrd) (s : State) : Host.Outcome State Fault Refusal :=
  atomForm (.cas h a ord) h a 2 1
    (fun c => atomPush c a false (fun d w => if w = d.getD 1 0 then d.getD 0 0 else w)) s

def redAtom : RedOp → AtomOp
  | .add => .add
  | .min => .min
  | .max => .max
  | .and => .and
  | .or => .or
  | .xor => .xor

/-- ared (R267). -/
def execAred (h : Hdr) (a : Addr) (ord : MemOrd) (op : RedOp) (s : State) : Host.Outcome State Fault Refusal :=
  atomForm (.ared h a ord op) h a 1 0
    (fun c s _ t vs =>
      let x := atomOps c a (atomBitwise (redAtom op)) (fun d w => atomWord (accessSlot c.b a) (redAtom op) w (d.getD 0 0)) s vs
      (x.1, x.2.map (fun _ => t))) s

/-! Fences: every access is performed at issue, in one order, so a fence has nothing left to hold back (R270, log 4) -/

def fenceEnd (h : Hdr) (s : State) (c : Ctx) : State := warpOnly s c (fun s c => retire s c h { pc := c.next })

/-- fence (R269). (log 4, DEDUCED) -/
def execFence (h : Hdr) (ord : MemOrd) (s : State) : Host.Outcome State Fault Refusal :=
  issue (.fence h ord) h { scopes := [.lane] } (fenceEnd h) s
/-- fence.sc (R269). (log 4, DEDUCED) -/
def execFenceSc (h : Hdr) (s : State) : Host.Outcome State Fault Refusal :=
  issue (.fenceSc h) h { scopes := [.lane] } (fenceEnd h) s
/-- xfence (R271). (log 4, DEDUCED) -/
def execXfence (h : Hdr) (a b : XClass) (s : State) : Host.Outcome State Fault Refusal :=
  issue (.xfence h a b) h { scopes := [.lane] } (fenceEnd h) s

end Sys2Proof.Machine
end

