-- ==== Sys2Proof/Machine/Engines.lean ====
section
/-! DEFINITION. What engine commands share: their issue, the page check, accesses through checked pages, halts and waits
(R273-R278). -/

namespace Sys2Proof.Machine

/-! Issue -/

/-- What a command's own checks lead to: a cause for the lanes that issue it, a hold, or its queueing. -/
inductive CmdRes where
  | fault (t : TrapInfo) (s : State)
  | hold (h : Hold) (s : State)
  | done (s : State)

/-- Lanes whose operands are poisoned, and the others (step 4 of R252). -/
def splitPoison (ts : List (Nat × Thread)) (n : Nat) : List (Nat × Thread) × List (Nat × TrapInfo) :=
  ts.foldr (fun e acc =>
    match refusePoison ((e.2.stack.take n).map (·.val)) with
    | .ok _ => (e :: acc.1, acc.2)
    | .lane t => (acc.1, (e.1, t) :: acc.2)
    | .path t => (acc.1, (e.1, t) :: acc.2)) ([], [])

/-- Lanes agree in their operands' bits (R273). (log 31, DEDUCED) -/
def operandsAgree (n : Nat) : List (Nat × Thread) → Bool
  | [] => true
  | e :: r => r.all (fun x => (x.2.stack.take n).map (·.val.bits) == (e.2.stack.take n).map (·.val.bits))

/-- ISSUE of an engine command for the path (R273): operands popped in every lane, one command for the lanes that are no
helpers; `run` gets those lanes with their operands still on their stacks. (log 31, DEDUCED) -/
def engineForm (h : Hdr) (pops : Nat) (agree : Bool) (run : State → Ctx → List (Nat × Thread) → CmdRes)
    (s : State) (c : Ctx) : State :=
  match checkLanes c pops 0 with
  | .path t => trapPath s c t
  | .all ok tr =>
    let live := byLane (ok.filter (fun e => e.2.cls == .live))
    let sp := splitPoison live pops
    let tr := tr ++ sp.2
    let d := laneDepth c.b c.p
    let ret : Retire := { pc := c.next, xfer := transfers d (d - pops) }
    let pop := fun (l : List (Nat × Thread)) => pushEach l pops (fun _ t => t)
    let helpers := ok.filter (fun e => e.2.cls == .helper)
    match sp.1 with
    | [] => finishLanes s c h (.all (pop helpers) tr) ret
    | good =>
      if agree && !operandsAgree pops good then
        finishLanes s c h (.all [] (tr ++ (good ++ helpers).map (fun e => (e.1, { cause := 0x08 })))) ret
      else
        match run s c good with
        | .fault t s => finishLanes s c h (.all (pop helpers) (tr ++ good.map (fun e => (e.1, t)))) ret
        | .hold k s => holdPath s c k
        | .done s => finishLanes s c h (.all (pop (good ++ helpers)) tr) ret

/-- Operand i from the top of the chosen lane. -/
def operandAt (good : List (Nat × Thread)) (i : Nat) : Word :=
  match good with
  | e :: _ => ((e.2.stack.getD i (.ofWord 0)).val).bits
  | [] => 0

/-! Accesses of a command -/

/-- One access of a command: the unit of progress it belongs to, where, how many bytes, and whether it writes. -/
structure CmdAccess where
  unit : Nat
  spot : Spot
  n : Nat
  write : Bool

/-- The key of a checked page. -/
def pageKey (va : Nat) (write : Bool) : Nat := 2 * (va / 4096) + b2n write

/-- A page check ends with the pages, or with the unit, cause and address that failed. -/
inductive PageRes where
  | ok (pages : List (Nat × Nat × Bool))
  | fail (unit cause addr : Nat) (pages : List (Nat × Nat × Bool))

/-- One page of an access checked (R275). -/
def checkPage (s : State) (w : Who) (pages : List (Nat × Nat × Bool)) (va : Nat) (write : Bool) :
    State × Option Nat × List (Nat × Nat × Bool) :=
  if pages.any (fun p => p.1 == pageKey va write) then (s, none, pages)
  else
    let x := xlate s w (if write then .engineStore else .engineLoad) va
    match x.2 with
    | .ok pa p =>
      let q := localPa s pa
      (x.1, none, (pageKey va write, q / 4096 * 4096, p.nco && !isFabric pa) :: pages)
    | .fail k => (x.1, some k, pages)

/-- One access checked: at most two pages. Scratchpad writes meet read-only staging (R244), but for the record of the channel
`own`, which its later command releases; reads meet every mismatched span (R375). -/
def checkAccess (s : State) (w : Who) (bid own : Nat) (pages : List (Nat × Nat × Bool)) (a : CmdAccess) :
    State × Option Nat × List (Nat × Nat × Bool) :=
  match a.spot with
  | .nowhere => (s, some 0x0B, pages)
  | .spad _ off =>
    match tget s.blocks bid with
    | none => (s, some 0x0B, pages)
    | some b =>
      let others := { b with chans := b.chans.filter (fun e => e.1 != own) }
      if a.write && stagedAt others off a.n then (s, some 0x0B, pages)
      else if !a.write && mismatchedAt b off a.n then (s, some 0x12, pages)
      else (s, none, pages)
  | .virt va =>
    let x := checkPage s w pages va a.write
    match x.2.1 with
    | some k => x |> fun y => (y.1, some k, y.2.2)
    | none => if va % 4096 + a.n ≤ 4096 then x else checkPage x.1 w x.2.2 (va + a.n - 1) a.write

/-- The first byte of an access that the pages checked leave out. -/
def failAddr (pages : List (Nat × Nat × Bool)) (a : CmdAccess) : Nat :=
  match a.spot with
  | .virt va => if pages.any (fun p => p.1 == pageKey va a.write) then (va / 4096 + 1) * 4096 else va
  | .spad _ o => o
  | .nowhere => 0

/-- All accesses of a command checked in their order (R275). -/
def checkAccesses (w : Who) (bid own : Nat) : State → List (Nat × Nat × Bool) → List CmdAccess → State × PageRes
  | s, pages, [] => (s, .ok pages)
  | s, pages, a :: r =>
    let x := checkAccess s w bid own pages a
    match x.2.1 with
    | some k => (x.1, .fail a.unit k (failAddr x.2.2 a) x.2.2)
    | none => checkAccesses w bid own x.1 x.2.2 r

/-- The bytes of an access through the pages its command checked: no later failure (R275). -/
def cmdTargets (s : State) (bid : Nat) (pages : List (Nat × Nat × Bool)) (a : CmdAccess) : List Target :=
  let page := fun (va n : Nat) =>
    match pages.find? (fun p => p.1 == pageKey va a.write) with
    | some (_, pa, nco) => Target.mem (pa + va % 4096) n nco
    | none => .gone n
  match a.spot with
  | .virt va =>
    let first := min a.n (4096 - va % 4096)
    if first = a.n then [page va a.n] else [page va first, page (va + first) (a.n - first)]
  | .spad m off =>
    match tget s.blocks bid with
    | none => [.gone a.n]
    | some b =>
      let mid := (b.members bid).getD m bid
      if (tget s.blocks mid).isSome then [.spad mid off a.n] else [.gone a.n]
  | .nowhere => [.gone a.n]

/-- An uncorrectable error at resolved bytes: the row of R397 and the physical address. -/
def targetBad (s : State) (l : List Target) : Option (Nat × Nat) :=
  l.findSome? (fun t =>
    match t with
    | .mem pa n _ => if s.lineBad pa || s.lineBad (pa + n - 1) then some (s.lineDom pa n, pa) else none
    | .spad bid off n =>
      match tget s.blocks bid with
      | some b => if (upto n).any (fun i => mem? b.badWords ((off + i) / 8)) then some (1, 0) else none
      | none => none
    | .gone _ => none)

/-- The member index a block's shapes with TGT = 1 refer to: its own. -/
def Block.self (b : Block) (bid : Nat) : Nat := (b.members bid).idxOf bid

/-- One element of a shape as an engine accesses it, with swizzle z. -/
def elemAccess (b : Block) (bid : Nat) (h : Shape) (fmt z unit : Nat) (write : Bool) (off : Int) : CmdAccess × Nat :=
  let p := h.elemAt fmt off
  (⟨unit, h.spotOf (b.self bid) z p.addr, elemBytes fmt, write⟩, p.nib)

/-- The least and the greatest element offset of a shape. -/
def Shape.span (h : Shape) : Int × Int :=
  (h.ext.zip h.stride).foldl (fun acc e =>
    let r := ((e.1 : Int) - 1) * e.2
    (acc.1 + min 0 r, acc.2 + max 0 r)) (0, 0)

/-- Every scratchpad byte of a shape's elements, moved by an origin, lies below 1,024 × SPAD (R274). -/
def spadFits (b : Block) (h : Shape) (fmt : Nat) (origin : Int) : Bool :=
  if h.spad then
    let sp := h.span
    let lo := (h.elemAt fmt (sp.1 + origin)).addr
    let hi := (h.elemAt fmt (sp.2 + origin)).addr + (elemBytes fmt : Nat)
    decide (0 ≤ lo) && decide (hi ≤ (1024 * b.spadKiB : Nat))
  else true

/-- The base of a shape is a multiple of the element size (R238). -/
def baseAligned (h : Shape) (fmt : Nat) : Bool := h.base % elemBytes fmt == 0

/-- Shape and slot of a command are in use (step 5 of R252). -/
def shapeOk (b : Block) (k : Nat) : Bool := (b.shapeOf k).used && (b.slotOf (b.shapeOf k).fsl).loads

def shapeFmt (b : Block) (k : Nat) : Nat := (b.slotOf (b.shapeOf k).fsl).fmt

/-- A shape of the command names a QN4 slot (R39). -/
def shapesQn4 (ks : List Nat) (b : Block) : Bool := ks.any (fun k => shapeFmt b k == 8)

/-- One element read through a command's pages: its bits. -/
def readUnit (s : State) (bid die fmt : Nat) (pages : List (Nat × Nat × Bool)) (a : CmdAccess × Nat) : State × Nat :=
  let x := readTargets s die (cmdTargets s bid pages a.1)
  let v := ofBytes x.2
  (x.1, if elemBits fmt = 4 then bits v (4 * a.2 + 3) (4 * a.2) else v)

/-- One element written through a command's pages; a 4-bit element keeps its neighbour. -/
def writeUnit (s : State) (bid die fmt : Nat) (pages : List (Nat × Nat × Bool)) (a : CmdAccess × Nat) (v : Nat) : State :=
  let ts := cmdTargets s bid pages a.1
  if elemBits fmt = 4 then
    let x := readTargets s die ts
    writeTargets x.1 die ts (toBytes 1 (setBits (ofBytes x.2) (4 * a.2 + 3) (4 * a.2) v))
  else writeTargets s die ts (toBytes (elemBytes fmt) v)

/-- The cluster TLB holds a translation for every page of the accesses (R329). -/
def pagesHeld (s : State) (w : Who) (l : List CmdAccess) : Bool :=
  l.all (fun a => match a.spot with
    | .virt va => (tlbFind s w va).isSome && (tlbFind s w (va + a.n - 1)).isSome
    | _ => true)

/-- A page check completes in the issue cycle when the TLB holds every page (R329, R350); another one, not made yet, holds
the path until it ends, after a time no rule gives (R275, log 5). -/
def awaitPages (s : State) (c : Ctx) (e : Event) (l : List CmdAccess) : Option State :=
  if c.p.checked || pagesHeld s c.b.who l then none
  else
    let s' := { s with free := s.free + 1 }
    some (s'.post (s.cycle + 1 + Config.freeCycles s.free) e)

def enginePages (s : State) (c : Ctx) (l : List CmdAccess) : Option State :=
  awaitPages s c (.enginePageCheckComplete c.bid c.pid) l

/-- The page check of a held instruction is over; it issues again (R275). -/
def pageCheckDone (bid pid : Nat) (s : State) : State :=
  unhold (s.modPath bid pid (fun p => if p.wait = .holding .pageCheck then { p with checked := true } else p))
    bid pid .pageCheck

def execEnginePageCheckComplete (s : State) : Host.Outcome State Fault Refusal :=
  device s fun
    | .enginePageCheckComplete bid pid => some (pageCheckDone bid pid s)
    | _ => none

/-- Room in an engine's queue lets a held path issue again (R273). -/
def engineRoom (bid pid : Nat) (s : State) : State := unhold s bid pid .engineQueue

def execEngineQueueRoom (s : State) : Host.Outcome State Fault Refusal :=
  device s fun
    | .engineQueueRoom bid pid => some (engineRoom bid pid s)
    | _ => none

/-- Every path that holds for an engine queue is told that an entry is free. -/
def tellRoom (s : State) : State :=
  s.blocks.foldl (fun s e => e.2.paths.foldl (fun s x =>
    if x.2.wait = .holding .engineQueue then s.postOnce s.cycle (.engineQueueRoom e.1 x.1) else s) s) s

/-! Waits -/

/-- The instruction of a queue entry is a wait, which takes no room and performs no access. -/
def isWait (i : Instr) : Bool :=
  match i with
  | .cpwait .. | .gwait .. | .cwait .. | .swait .. => true
  | _ => false

/-- Which commands a wait covers: those of its block, on its tag for a gather. -/
def sameStream (w x : Cmd) : Bool :=
  w.blk == x.blk && (match w.op, x.op with
    | .gwait _ t, .gath _ u _ _ _ => t == u
    | .gwait _ t, .scat _ u _ _ _ => t == u
    | _, _ => true)

/-- The waits of a queue that no earlier unfinished command stands before, and the queue without them. -/
def ripeWaits : List Cmd → List Cmd → List Cmd × List Cmd
  | _, [] => ([], [])
  | before, x :: r =>
    if isWait x.op then
      let y := ripeWaits before r
      if before.any (fun z => sameStream x z) then (x :: y.1, y.2) else (y.1, x :: y.2)
    else
      let y := ripeWaits (before ++ [x]) r
      (x :: y.1, y.2)

/-- A long-latency cell's value becomes known: every cell that carries the mark takes it. -/
def fillCells (m : Mark) (w : Word) (l : List Cell) : List Cell :=
  l.map (fun c => if c.mark = m then { c with val := ⟨w, .clean⟩ } else c)

def fillLong (s : State) (bid : Nat) (m : Mark) (w : Word) : State :=
  s.modAny bid (fun b => { b with
    threads := b.threads.map (fun (e : Nat × Thread) => (e.1, if e.2.cls = .helper then e.2 else { e.2 with
      stack := fillCells m w e.2.stack, o := fillCells m w e.2.o, m := fillCells m w e.2.m }))
    paths := b.paths.map (fun (e : Nat × Path) => (e.1, { e.2 with ust := fillCells m w e.2.ust })) })

/-- A wait completes: its status, when it pushes one, and its long-latency result return (R281, R284, R288, R290). -/
def finishWait (s : State) (status : Word) (x : Cmd) : State :=
  let s := match x.op with
    | .cwait .. => fillLong s x.blk x.mark status
    | _ => s
  engineReturn x.blk x.path x.mark s

/-- A wait's entry. -/
def waitCmd (i : Instr) (c : Ctx) : Cmd := ⟨i, [], c.bid, c.pid, c.p.pc, c.env.longMark, 0, []⟩

/-- The number of a block's commands in a queue (R278). -/
def queuedOf (bid : Nat) (q : List Cmd) : Nat := (q.filter (fun x => x.blk == bid && !isWait x.op)).length

/-- The status word of R278. -/
def statusWord (queued : Nat) (halt : Option (BitVec 6)) : Word :=
  wd (queued % 32 * 65536 + (match halt with | some k => k.toNat * 256 + 2 | none => 0) + b2n (queued != 0))

/-- The thread with a status pushed; a helper lane's is 0 (R253). -/
def withPushed (c : Ctx) (w : Word) (_ : Nat) (t : Thread) : Thread :=
  { t with stack := c.env.longResult (.clean (if t.cls = .helper then 0 else w)) :: t.stack }

/-- A status pushed in every active lane, or a cause in those that are no helpers (R252, R253). -/
def pushStatus (h : Hdr) (w : Except TrapInfo Word) (s : State) (c : Ctx) : State :=
  match checkLanes c 0 1 with
  | .path t => trapPath s c t
  | .all ok tr =>
    let d := laneDepth c.b c.p
    let ret : Retire := { pc := c.next, owed := 1, xfer := transfers d (d + 1) }
    match w with
    | .ok w => finishLanes s c h (.all (pushEach ok 0 (withPushed c w)) tr) ret
    | .error t =>
      let live := ok.filter (fun e => e.2.cls == .live)
      finishLanes s c h (.all (pushEach (ok.filter (fun e => e.2.cls == .helper)) 0 (withPushed c 0))
        (tr ++ live.map (fun e => (e.1, t)))) ret

/-- A wait that pushes nothing: it ends the instruction with a result owed, or returned in the next cycle when nothing is
outstanding. -/
def waitEnd (h : Hdr) (pending : Bool) (s : State) (c : Ctx) : State :=
  retire s c h { pc := c.next, owed := if pending then 0 else 1, await := if pending then [c.env.longMark] else [] }

/-! Error records of engines (R276, R398) -/

def whereOf (b : Block) (warp : Nat) (e : ErrInfo) : ErrInfo :=
  { e with die := b.place.die, core := 8 * b.place.cluster + b.place.core, sector := warp % 4 }

/-- The record of an engine halt. -/
def haltRecord (b : Block) (bid cause domain addr cell : Nat) : ErrInfo :=
  whereOf b 0 ⟨6, cause, domain, 0, 0, 0, addr, bid, b.launch.node, cell * 4096, 0, 0⟩

end Sys2Proof.Machine
end

