-- ==== Sys2Proof/Machine/Copy.lean ====
section
/-! DEFINITION. CPY: copy channels, their completion, their halts, their staging records (R242-R244, R276-R281). -/

namespace Sys2Proof.Machine

/-- One step of the CRC-32C register (Castagnoli, reflected) over a byte's bits. -/
def crcBits : Nat → Nat → Nat
  | 0, c => c
  | n + 1, c => crcBits n (if c % 2 = 1 then Nat.xor (c / 2) 0x82F6_3B78 else c / 2)

/-- CRC-32C of bytes (R244, R374). -/
def crc32c (l : List Byte) : Word :=
  wd (Nat.xor 0xFFFF_FFFF (l.foldl (fun c v => crcBits 8 (Nat.xor c v.toNat)) 0xFFFF_FFFF))

def Chan.idle : Chan := ⟨[], 0, none, []⟩
def Block.chan (b : Block) (ch : Nat) : Chan := tgetD b.chans ch .idle
def Block.modChan (b : Block) (ch : Nat) (f : Chan → Chan) : Block := { b with chans := tset b.chans ch (f (b.chan ch)) }

/-- What a copy command copies: channel, source and destination shape numbers, swizzle, read-only mark, origins. -/
structure CopyOp where
  ch : Nat
  src : Nat
  dst : Nat
  z : Nat
  ro : Bool
  so : Int
  dof : Int

/-- The copy of a queued command. -/
def copyOf (x : Cmd) : CopyOp :=
  let so := (tgetD (x.args.getD 0 []) 0 0).toInt
  let dof := (tgetD (x.args.getD 1 []) 0 0).toInt
  match x.op with
  | .cpy _ ch src dst ro z => ⟨ch.toNat, src.toNat, dst.toNat, z.toNat, ro, 0, 0⟩
  | .cpyo _ ch src dst ro z => ⟨ch.toNat, src.toNat, dst.toNat, z.toNat, ro, so, dof⟩
  | _ => ⟨0, 0, 0, 0, false, 0, 0⟩

/-- The read and the write of element i (R280). -/
def copyElem (b : Block) (bid : Nat) (k : CopyOp) (i : Nat) : (CmdAccess × Nat) × (CmdAccess × Nat) :=
  let hs := b.shapeOf k.src
  let hd := b.shapeOf k.dst
  let f := shapeFmt b k.src
  (elemAccess b bid hs f k.z i false (hs.offset (linearCoords hs.ext i) + k.so),
   elemAccess b bid hd f k.z i true (hd.offset (linearCoords hd.ext i) + k.dof))

/-- Elements `from … to − 1` copied in rising order; the element whose source is in error, if one is (R276, R280). -/
def copyRun (b : Block) (bid : Nat) (k : CopyOp) (pages : List (Nat × Nat × Bool)) :
    State → Nat → Nat → State × Option (Nat × Nat × Nat)
  | s, _, 0 => (s, none)
  | s, i, n + 1 =>
    let e := copyElem b bid k i
    match targetBad s (cmdTargets s bid pages e.1.1), targetBad s (cmdTargets s bid pages e.2.1) with
    | some t, _ => (s, some (i, t))
    | none, some t => (s, some (i, t))
    | none, none =>
      let f := shapeFmt b k.src
      let x := readUnit s bid b.place.die f pages e.1
      copyRun b bid k pages (writeUnit x.1 bid b.place.die f pages e.2 x.2) (i + 1) n

/-- Destination bytes of n elements. -/
def copyBytes (b : Block) (k : CopyOp) (n : Nat) : Nat := n * elemBits (shapeFmt b k.src) / 8

def copyCount (b : Block) (k : CopyOp) : Nat := (b.shapeOf k.dst).count

/-- The checks of R274 and R280: a cause, or none. -/
def copyCheck (b : Block) (k : CopyOp) : Option TrapInfo :=
  let hs := b.shapeOf k.src
  let hd := b.shapeOf k.dst
  let f := shapeFmt b k.src
  if (b.chan k.ch).halt.isSome then some { cause := 0x11 }
  else if f ≠ shapeFmt b k.dst ∨ hs.count ≠ hd.count ∨ 2 ^ 31 ≤ hd.count * elemBits f / 8 ∨ (k.ro ∧ hd.spad = false)
      ∨ (hd.spad ∧ elemBits f = 4 ∧ hd.count % 2 = 1) then some { cause := 0x11 }
  else if !spadFits b hs f k.so || !spadFits b hd f k.dof then some { cause := 0x0B }
  else if !baseAligned hs f || !baseAligned hd f then some { cause := 0x0C }
  else none

/-- Accesses of a copy from element i on, reads before writes. -/
def copyAccesses (b : Block) (bid : Nat) (k : CopyOp) (start n : Nat) : List CmdAccess :=
  (upto (n - start)).flatMap (fun i => let e := copyElem b bid k (start + i); [e.1.1, e.2.1])

def addPtr (s : State) (bid ch n : Nat) : State :=
  s.modBlock bid (fun b => b.modChan ch (fun c => { c with wptr := c.wptr + wd n }))

/-- Waits of a channel that nothing stands before complete (R281). -/
def settleChan (s : State) (bid ch : Nat) : State :=
  match tget s.blocks bid with
  | none => s
  | some b =>
    let x := ripeWaits [] (b.chan ch).queue
    x.2.foldl (fun s w => finishWait s 0 w) (s.modBlock bid (fun b => b.modChan ch (fun c => { c with queue := x.1 })))

/-- A channel halts: its commands are discarded, its waits complete, a record is written (R276). -/
def haltChan (s : State) (bid ch : Nat) (cause domain addr : Nat) : State :=
  match tget s.blocks bid with
  | none => s
  | some b =>
    let s := s.modBlock bid (fun b => b.modChan ch (fun c =>
      { c with queue := c.queue.filter (fun x => isWait x.op), halt := some (BitVec.ofNat 6 cause) }))
    let s := reportError (settleChan s bid ch) b.part (haltRecord b bid cause domain addr ch)
    let s := if cause = 0x13 then s.postOnce (s.cycle + 1) (.gangKill bid) else s
    tellRoom (s.postOnce s.cycle (.blockRetire bid))

/-- A command whose page check fails at unit `u` for cause `t`: the elements before it are copied, the first of them releases
an earlier command's staging record, and the write pointer moves; an element in error halts the channel, as it would have
halted the command before it came to `u` (R244, R275, R276). (log 31, DEDUCED) -/
def copyPartial (s : State) (c : Ctx) (k : CopyOp) (pages : List (Nat × Nat × Bool)) (start u : Nat) (t : TrapInfo) : CmdRes :=
  let s := if start < u then s.modBlock c.bid (fun b => b.modChan k.ch (fun ch => { ch with staging := [] })) else s
  let y := copyRun c.b c.bid k pages s start (u - start)
  let moved := fun (n : Nat) => addPtr y.1 c.bid k.ch (copyBytes c.b k n - copyBytes c.b k start)
  match y.2 with
  | none => .fault { t with prog := copyBytes c.b k u } (moved u)
  | some (i, dom, pa) => .done (haltChan (moved i) c.bid k.ch 0x13 dom pa)

/-- cpy and cpyo after their operands: checks, room, page check, queueing (R273-R275, R280). -/
def copyBody (i : Instr) (so dof : Word) (s : State) (c : Ctx) : CmdRes :=
  let cmd : Cmd := ⟨i, [[(0, so)], [(0, dof)]], c.bid, c.pid, c.p.pc, c.env.longMark, 0, []⟩
  let k := copyOf cmd
  if !shapeOk c.b k.src || !shapeOk c.b k.dst then .fault { cause := 0x14 } s
  else
    match copyCheck c.b k with
    | some t => .fault t s
    | none =>
      let chan := c.b.chan k.ch
      if Config.copyQueue ≤ queuedOf c.bid chan.queue then .hold .engineQueue s
      else
        let n := copyCount c.b k
        let start := c.p.prog * 8 / elemBits (shapeFmt c.b k.src)
        let accs := copyAccesses c.b c.bid k start n
        match enginePages s c accs with
        | some s => .hold .pageCheck s
        | none =>
          let x := checkAccesses c.b.who c.bid k.ch s [] accs
          match x.2 with
          | .ok pages =>
            let s := x.1.modBlock c.bid (fun b => b.modChan k.ch (fun ch =>
              { ch with queue := ch.queue ++ [{ cmd with start := start, pages := pages }] }))
            .done (s.post (s.cycle + 1) (.copyCommandComplete c.bid k.ch))
          | .fail u cause addr pages =>
            if cause = 0x12 then .fault { cause := cause, addr := addr } x.1
            else if queuedOf c.bid chan.queue ≠ 0 then .hold .engineQueue x.1
            else
              copyPartial x.1 c k pages start u { cause := cause, addr := addr }

/-- cpy (R280). -/
def execCpy (h : Hdr) (ch : BitVec 3) (src dst : BitVec 4) (ro : Bool) (z : BitVec 3) (s : State) :
    Host.Outcome State Fault Refusal :=
  issue (.cpy h ch src dst ro z) h { scopes := [.lane], qn4 := shapesQn4 [src.toNat, dst.toNat] }
    (fun s c => warpOnly s c (engineForm h 0 true (fun s c _ => copyBody (.cpy h ch src dst ro z) 0 0 s c))) s

/-- cpyo: the destination origin on top (R280). -/
def execCpyo (h : Hdr) (ch : BitVec 3) (src dst : BitVec 4) (ro : Bool) (z : BitVec 3) (s : State) :
    Host.Outcome State Fault Refusal :=
  issue (.cpyo h ch src dst ro z) h { scopes := [.lane], qn4 := shapesQn4 [src.toNat, dst.toNat] }
    (fun s c => warpOnly s c (engineForm h 2 true
      (fun s c good => copyBody (.cpyo h ch src dst ro z) (operandAt good 1) (operandAt good 0) s c))) s

/-- cpwait (R281). -/
def execCpwait (h : Hdr) (ch : BitVec 3) (s : State) : Host.Outcome State Fault Refusal :=
  issue (.cpwait h ch) h { scopes := [.lane] }
    (fun s c => warpOnly s c (fun s c =>
      let pending := queuedOf c.bid (c.b.chan ch.toNat).queue != 0
      let s := if pending then s.modBlock c.bid (fun b => b.modChan ch.toNat (fun k =>
          { k with queue := k.queue ++ [waitCmd (.cpwait h ch) c] })) else s
      waitEnd h pending s c)) s

/-- cpstat (R278, R281). -/
def execCpstat (h : Hdr) (ch : BitVec 3) (s : State) : Host.Outcome State Fault Refusal :=
  issue (.cpstat h ch) h { scopes := [.lane] }
    (fun s c => warpOnly s c (fun s c =>
      let k := c.b.chan ch.toNat
      pushStatus h (.ok (statusWord (queuedOf c.bid k.queue) k.halt)) s c)) s

/-- Scratchpad offsets of a copy's destination bytes, in the order they are written (R244). (log 32, DEDUCED) -/
def stagedOffs (b : Block) (bid : Nat) (k : CopyOp) : List Nat :=
  ((upto (copyCount b k)).flatMap (fun i =>
    let e := (copyElem b bid k i).2.1
    match e.spot with
    | .spad _ o => (upto e.n).map (fun j => o + j)
    | _ => [])).foldl (fun l o => if mem? l o then l else l ++ [o]) []

/-- The staging record that a finished command leaves (R244). (log 32, DEDUCED) -/
def stagingOf (s : State) (bid : Nat) (k : CopyOp) (x : Cmd) : List Staging :=
  match tget s.blocks bid with
  | none => []
  | some b =>
    if k.ro then
      let offs := stagedOffs b bid k
      [⟨offs, x, crc32c (offs.map (fun o => rdByte b.spad o)), false⟩]
    else []

/-- The channel's first command, with the queue behind it. -/
def firstCmd : List Cmd → Option (Cmd × List Cmd)
  | [] => none
  | x :: r => if isWait x.op then (firstCmd r).map (fun y => (y.1, x :: y.2)) else some (x, r)

/-- COMPLETION of a channel's oldest command: its bytes are written in order, the write pointer moves past them, an earlier
staging record is released and its own is kept (R242-R244, R280). (log 11, DESIGN CHOICE; log 32, DEDUCED) -/
def copyComplete (bid ch : Nat) (s : State) : State :=
  match tget s.blocks bid with
  | none => s
  | some b =>
    match firstCmd (b.chan ch).queue with
    | none => s
    | some (x, rest) =>
      let k := copyOf x
      let s := s.modBlock bid (fun b => b.modChan ch (fun c => { c with staging := [] }))
      let y := copyRun b bid k x.pages s x.start (copyCount b k - x.start)
      match y.2 with
      | some (i, dom, pa) =>
        haltChan (addPtr y.1 bid ch (copyBytes b k i - copyBytes b k x.start)) bid ch 0x13 dom pa
      | none =>
        let s := addPtr y.1 bid ch (copyBytes b k (copyCount b k) - copyBytes b k x.start)
        let s := s.modBlock bid (fun b => b.modChan ch (fun c =>
          { c with queue := rest, staging := stagingOf s bid k x }))
        tellRoom ((settleChan s bid ch).postOnce s.cycle (.blockRetire bid))

def execCopyCommandComplete (s : State) : Host.Outcome State Fault Refusal :=
  device s fun
    | .copyCommandComplete bid ch => some (copyComplete bid ch s)
    | _ => none

end Sys2Proof.Machine
end

