-- ==== Sys2Proof/Machine/Gather.lean ====
section
/-! DEFINITION. GTH: the gather engine of a core (R245, R276, R282-R284, R326). -/

namespace Sys2Proof.Machine

def gatherQueue (s : State) (core : Nat) : List Cmd := tgetD s.engines.gather core []
def setGather (s : State) (core : Nat) (q : List Cmd) : State :=
  { s with engines := { s.engines with gather := tset s.engines.gather core q } }

/-- A gather or scatter: its tag, table and local shape numbers, swizzle, and whether it scatters. -/
structure GatherOp where
  tag : Nat
  table : Nat
  loc : Nat
  z : Nat
  scat : Bool

def gatherOf (i : Instr) : GatherOp :=
  match i with
  | .gath _ t a b z => ⟨t.toNat, a.toNat, b.toNat, z.toNat, false⟩
  | .scat _ t a b z => ⟨t.toNat, a.toNat, b.toNat, z.toNat, true⟩
  | _ => ⟨0, 0, 0, 0, false⟩

/-- Where a linear index leads: an element offset, nothing (zero or unwritten), or the halt of clip mode fault (R245, R283).
`clampable` is set for a table, whose clamp mode clamps. -/
inductive Landing where
  | elem (off : Int)
  | absent
  | halt

/-- The coordinates of a linear index, dimension 0 fastest; the last one takes what is left (R283). -/
def openCoords : List Nat → Nat → List Int
  | [], _ => []
  | [_], i => [(i : Int)]
  | e :: r, i => ((i % e : Nat) : Int) :: openCoords r (i / e)

/-- A linear index decomposed; beyond the last element the clip mode decides (R239, R245). -/
def landing (h : Shape) (clampable : Bool) (i : Nat) : Landing :=
  if i < h.count then .elem (h.offset (linearCoords h.ext i))
  else
    match h.clip with
    | .fault => .halt
    | .clamp => if clampable then .elem (h.offset (h.clampTo (openCoords h.ext i))) else .absent
    | .zero => .absent

/-- A lane of a command: its position, its local element and its table element. -/
structure GatherLane where
  pos : Nat
  loc : Landing
  table : Landing

def gatherLane (b : Block) (g : GatherOp) (pos : Nat) (d i : Word) : GatherLane :=
  ⟨pos, landing (b.shapeOf g.loc) false d.toNat, landing (b.shapeOf g.table) true i.toNat⟩

def gatherLanes (b : Block) (g : GatherOp) (x : Cmd) : List GatherLane :=
  ((x.args.getD 0 []).filter (fun e => decide (x.start ≤ e.1))).map (fun e =>
    gatherLane b g e.1 e.2 (tgetD (x.args.getD 1 []) e.1 0))

/-- The accesses of one lane: the element read, then the element written (R283). -/
def laneAccesses (b : Block) (bid : Nat) (g : GatherOp) (l : GatherLane) : List CmdAccess :=
  let f := shapeFmt b g.table
  let acc := fun (k : Nat) (write : Bool) (x : Landing) =>
    match x with
    | .elem off => [(elemAccess b bid (b.shapeOf k) f g.z l.pos write off).1]
    | _ => []
  if g.scat then acc g.loc false l.loc ++ acc g.table true l.table
  else acc g.table false l.table ++ acc g.loc true l.loc

/-- What ends a command at a lane: the halt's cause, its domain, its address. -/
abbrev Halted := Option (Nat × Nat × Nat)

/-- One lane performed (R283). -/
def gatherStep (b : Block) (bid : Nat) (g : GatherOp) (pages : List (Nat × Nat × Bool)) (s : State) (l : GatherLane) :
    State × Halted :=
  let f := shapeFmt b g.table
  let acc := fun (k : Nat) (write : Bool) (off : Int) => elemAccess b bid (b.shapeOf k) f g.z l.pos write off
  let rk := if g.scat then g.loc else g.table
  let wk := if g.scat then g.table else g.loc
  let rl := if g.scat then l.loc else l.table
  let wl := if g.scat then l.table else l.loc
  match rl, wl with
  | .halt, _ => (s, some (0x11, 0xFF, 0))
  | _, .halt => (s, some (0x11, 0xFF, 0))
  | _, .absent => (s, none)
  | r, .elem woff =>
    let w := acc wk true woff
    let bad := targetBad s (cmdTargets s bid pages w.1)
    let rd : State × Nat × Option (Nat × Nat) := match r with
      | .elem roff =>
        let a := acc rk false roff
        let x := readUnit s bid b.place.die f pages a
        (x.1, x.2, targetBad s (cmdTargets s bid pages a.1))
      | _ => (s, 0, none)
    match rd.2.2, bad with
    | some (d, pa), _ => (s, some (0x13, d, pa))
    | none, some (d, pa) => (s, some (0x13, d, pa))
    | none, none => (writeUnit rd.1 bid b.place.die f pages w rd.2.1, none)

/-- Lanes performed in rising order, until one halts. -/
def gatherRun (b : Block) (bid : Nat) (g : GatherOp) (pages : List (Nat × Nat × Bool)) : State → List GatherLane → State × Halted
  | s, [] => (s, none)
  | s, l :: r =>
    let x := gatherStep b bid g pages s l
    match x.2 with
    | some k => (x.1, some k)
    | none => gatherRun b bid g pages x.1 r

/-- A lane's accesses stay below 1,024 × SPAD (R274). -/
def laneFits (b : Block) (g : GatherOp) (l : GatherLane) : Bool :=
  let f := shapeFmt b g.table
  let one := fun (k : Nat) (x : Landing) =>
    match x with
    | .elem off =>
      let h := b.shapeOf k
      let a := (h.elemAt f off).addr
      !h.spad || (decide (0 ≤ a) && decide (a + (elemBytes f : Nat) ≤ (1024 * b.spadKiB : Nat)))
    | _ => true
  one g.loc l.loc && one g.table l.table

/-- Waits of a core's gather engine that nothing stands before complete (R284). -/
def settleGather (s : State) (core : Nat) : State :=
  let x := ripeWaits [] (gatherQueue s core)
  x.2.foldl (fun s w => finishWait s 0 w) (setGather s core x.1)

/-- A tag halts: its block's commands on it are discarded, its waits complete, a record is written (R276). -/
def haltGather (s : State) (bid tag : Nat) (cause domain addr : Nat) : State :=
  match tget s.blocks bid with
  | none => s
  | some b =>
    let core := b.place.coreNo
    let keep := (gatherQueue s core).filter (fun x => isWait x.op || x.blk != bid || (gatherOf x.op).tag != tag)
    let s := settleGather (setGather s core keep) core
    let s := s.modBlock bid (fun b => { b with gatherHalt := tset b.gatherHalt tag (BitVec.ofNat 6 cause) })
    let s := reportError s b.part (haltRecord b bid cause domain addr tag)
    let s := if cause = 0x13 then s.postOnce (s.cycle + 1) (.gangKill bid) else s
    tellRoom (s.postOnce s.cycle (.blockRetire bid))

/-- gath and scat after their operands, one from every lane (R283). -/
def gatherBody (i : Instr) (s : State) (c : Ctx) (good : List (Nat × Thread)) : CmdRes :=
  let g := gatherOf i
  let core := c.b.place.coreNo
  let arg := fun (k : Nat) => good.map (fun e => (lanePos e.1, (e.2.stack.getD k (.ofWord 0)).val.bits))
  let cmd : Cmd := ⟨i, [arg 1, arg 0], c.bid, c.pid, c.p.pc, c.env.longMark, c.p.prog, []⟩
  if !shapeOk c.b g.table || !shapeOk c.b g.loc then .fault { cause := 0x14 } s
  else if (tget c.b.gatherHalt g.tag).isSome then .fault { cause := 0x11 } s
  else if shapeFmt c.b g.table ≠ shapeFmt c.b g.loc ∨ elemBits (shapeFmt c.b g.table) = 4 then .fault { cause := 0x11 } s
  else
    let ls := gatherLanes c.b g cmd
    if !ls.all (laneFits c.b g) then .fault { cause := 0x0B } s
    else if !baseAligned (c.b.shapeOf g.table) (shapeFmt c.b g.table) || !baseAligned (c.b.shapeOf g.loc) (shapeFmt c.b g.loc) then
      .fault { cause := 0x0C } s
    else if Config.gatherQueue ≤ ((gatherQueue s core).filter (fun x => !isWait x.op)).length then .hold .engineQueue s
    else
      match enginePages s c (ls.flatMap (laneAccesses c.b c.bid g)) with
      | some s => .hold .pageCheck s
      | none =>
        let x := checkAccesses c.b.who c.bid 8 s [] (ls.flatMap (laneAccesses c.b c.bid g))
        match x.2 with
        | .ok pages =>
          let s := setGather x.1 core (gatherQueue x.1 core ++ [{ cmd with pages := pages }])
          .done (s.post (s.cycle + 1) (.gatherCommandComplete core))
        | .fail u cause addr pages =>
          if cause = 0x12 then .fault { cause := cause, addr := addr } x.1
          else if (gatherQueue s core).any (fun x => x.blk == c.bid && !isWait x.op) then .hold .engineQueue x.1
          else
            let y := gatherRun c.b c.bid g pages x.1 (ls.filter (fun l => decide (l.pos < u)))
            match y.2 with
            | none => .fault { cause := cause, addr := addr, prog := u } y.1
            | some (k, dom, pa) => .done (haltGather y.1 c.bid g.tag k dom pa)

/-- gath (R283): d beneath, i on top. -/
def execGath (h : Hdr) (tag : BitVec 4) (table dst : BitVec 4) (z : BitVec 3) (s : State) : Host.Outcome State Fault Refusal :=
  issue (.gath h tag table dst z) h { scopes := [.lane], qn4 := shapesQn4 [table.toNat, dst.toNat] }
    (fun s c => warpOnly s c (engineForm h 2 false (gatherBody (.gath h tag table dst z)))) s

/-- scat (R283). -/
def execScat (h : Hdr) (tag : BitVec 4) (table dst : BitVec 4) (z : BitVec 3) (s : State) : Host.Outcome State Fault Refusal :=
  issue (.scat h tag table dst z) h { scopes := [.lane], qn4 := shapesQn4 [table.toNat, dst.toNat] }
    (fun s c => warpOnly s c (engineForm h 2 false (gatherBody (.scat h tag table dst z)))) s

/-- gwait: the commands of its block on its tag that have reached the engine (R284, R326). -/
def execGwait (h : Hdr) (tag : BitVec 4) (s : State) : Host.Outcome State Fault Refusal :=
  issue (.gwait h tag) h { scopes := [.lane] }
    (fun s c => warpOnly s c (fun s c =>
      let core := c.b.place.coreNo
      let w := waitCmd (.gwait h tag) c
      let pending := (gatherQueue s core).any (fun x => !isWait x.op && sameStream w x)
      let s := if pending then setGather s core (gatherQueue s core ++ [w]) else s
      waitEnd h pending s c)) s

/-- COMPLETION of the engine's oldest command (R245, R283). (log 11, DESIGN CHOICE) -/
def gatherComplete (core : Nat) (s : State) : State :=
  match firstCmd (gatherQueue s core) with
  | none => s
  | some (x, rest) =>
    match tget s.blocks x.blk with
    | none => settleGather (setGather s core rest) core
    | some b =>
      let g := gatherOf x.op
      let y := gatherRun b x.blk g x.pages s (gatherLanes b g x)
      match y.2 with
      | some (cause, dom, pa) => haltGather y.1 x.blk g.tag cause dom pa
      | none =>
        let s := settleGather (setGather y.1 core rest) core
        tellRoom (s.postOnce s.cycle (.blockRetire x.blk))

def execGatherCommandComplete (s : State) : Host.Outcome State Fault Refusal :=
  device s fun
    | .gatherCommandComplete core => some (gatherComplete core s)
    | _ => none

end Sys2Proof.Machine
end

