-- ==== Sys2Proof/Machine/Collective.lean ====
section
/-! DEFINITION. COL: collective channels, their operations and halts, fabric messages and `mtag` (R66, R273-R278,
R285-R288, R417). -/

namespace Sys2Proof.Machine

/-! Bindings -/

def Bind.size (n : Bind) : Nat := bits n.cfg.toNat 19 0
def Bind.valid (n : Bind) : Bool := bit? n.cfg.toNat 31
def Bind.rank (n : Bind) : Nat := bits n.rankn.toNat 19 0
def Bind.node (n : Bind) : Nat := bits n.rankn.toNat 31 20

/-- A reading of the rules (log 34, DEDUCED). -/
def State.binding (s : State) (part ch : Nat) : Bind := (s.part part).bind.getD ch .reset
def State.modBind (s : State) (part ch : Nat) (f : Bind → Bind) : State :=
  s.modPart part (fun p => { p with bind := lmod p.bind ch f })
def setBindQueue (s : State) (part ch : Nat) (q : List Cmd) : State := s.modBind part ch (fun n => { n with queue := q })

/-! Commands -/

/-- A collective command: its form code, operator, buffer and result shape numbers. -/
structure CollOp where
  ch : Nat
  form : Nat
  op : RedOp
  buf : Nat
  res : Nat

def collOf (i : Instr) : CollOp :=
  match i with
  | .cred _ ch a b op => ⟨ch.toNat, 0, op, a.toNat, b.toNat⟩
  | .cbc _ ch a b => ⟨ch.toNat, 1, .add, a.toNat, b.toNat⟩
  | .cag _ ch a b => ⟨ch.toNat, 2, .add, a.toNat, b.toNat⟩
  | .csend _ ch a => ⟨ch.toNat, 4, .add, a.toNat, a.toNat⟩
  | _ => ⟨0, 3, .add, 0, 0⟩

def collN (b : Block) (g : CollOp) : Nat := (b.shapeOf g.buf).count

/-- Elements of the result shape for a group of P members (R286). -/
def collOut (b : Block) (g : CollOp) (p : Nat) : Nat := if g.form = 2 then p * collN b g else collN b g

/-- The access of an element of a shape in linear order. -/
def linearAccess (b : Block) (bid k unit : Nat) (write : Bool) (i : Nat) : CmdAccess × Nat :=
  let h := b.shapeOf k
  elemAccess b bid h (shapeFmt b k) 0 unit write (h.offset (linearCoords h.ext i))

def bufAccesses (b : Block) (bid : Nat) (g : CollOp) : List CmdAccess :=
  (upto (collN b g)).map (fun i => (linearAccess b bid g.buf i false i).1)

/-- Accesses of a command: the buffer, then the result (R275). -/
def collAccesses (b : Block) (bid : Nat) (g : CollOp) (p : Nat) : List CmdAccess :=
  bufAccesses b bid g ++ (upto (collOut b g p)).map (fun i => (linearAccess b bid g.res (collN b g + i) true i).1)

/-- Accesses from a progress word on. -/
def accessesFrom (start : Nat) (l : List CmdAccess) : List CmdAccess := l.filter (fun a => decide (start ≤ a.unit))

/-! Values -/

/-- One result element of `cred` from the members' elements in rank order (R167, R286). -/
def credElem (fmt : Nat) (satc : Bool) (op : RedOp) (xs : List Word) : Word :=
  match fmt, op with
  | 1, .add => ityFit .i32 satc (xs.foldl (fun n w => n + w.toInt) 0)
  | 1, _ => reduceCells .i32 op xs
  | 2, _ => reduceCells .f32 op xs
  | _, _ => wd ((reduceCells .bf16x2 op xs).toNat % 65536)

/-- Result element i of an operation whose members' data stand in rank order (R286). -/
def collElem (form fmt : Nat) (satc : Bool) (op : RedOp) (root n : Nat) (data : List (List Word)) (i : Nat) : Word :=
  match form with
  | 0 => credElem fmt satc op (data.map (fun d => d.getD i 0))
  | 1 => (data.getD root []).getD i 0
  | _ => (data.getD (i / max 1 n) []).getD (i % max 1 n) 0

/-- Elements from i on read from a shape, until one is in error. -/
def readRun (b : Block) (bid k : Nat) (pages : List (Nat × Nat × Bool)) : State → Nat → Nat → State × List Word × Option (Nat × Nat)
  | s, _, 0 => (s, [], none)
  | s, i, n + 1 =>
    let a := linearAccess b bid k i false i
    match targetBad s (cmdTargets s bid pages a.1) with
    | some t => (s, [], some t)
    | none =>
      let x := readUnit s bid b.place.die (shapeFmt b k) pages a
      let y := readRun b bid k pages x.1 (i + 1) n
      (y.1, wd x.2 :: y.2.1, y.2.2)

/-- Elements from i on written to a shape, until one is in error. -/
def writeRun (b : Block) (bid k : Nat) (pages : List (Nat × Nat × Bool)) : State → Nat → List Word → State × Option (Nat × Nat)
  | s, _, [] => (s, none)
  | s, i, w :: r =>
    let a := linearAccess b bid k i true i
    match targetBad s (cmdTargets s bid pages a.1) with
    | some t => (s, some t)
    | none => writeRun b bid k pages (writeUnit s bid b.place.die (shapeFmt b k) pages a w.toNat) (i + 1) r

/-! Halts -/

/-- A wait's status: the block's halt on the channel, or 0 (R288). -/
def collStatus (s : State) (bid ch : Nat) : Word :=
  match (s.anyBlock bid).bind (fun b => tget b.collHalt ch) with
  | some k => wd k.toNat
  | none => 0

/-- A block's channel is halted. -/
def State.collHalted (s : State) (bid ch : Nat) : Bool := ((s.anyBlock bid).bind (fun b => tget b.collHalt ch)).isSome

/-- Waits of a channel complete that nothing stands before, or whose block's channel is halted (R276, R288). -/
def settleColl (s : State) (part ch : Nat) : State :=
  let q := (s.binding part ch).queue
  let now := fun (x : Cmd) => isWait x.op && s.collHalted x.blk ch
  let x := ripeWaits [] (q.filter (fun x => !now x))
  let x := (x.1, q.filter now ++ x.2)
  x.2.foldl (fun s w => finishWait s (collStatus s w.blk ch) w) (setBindQueue s part ch x.1)

/-- Blocks that act as the member: those of the bound node, and those with commands on the channel. -/
def collBlocks (s : State) (part ch : Nat) : List Nat :=
  let n := s.binding part ch
  let all := s.blocks ++ s.away.map (fun b => (b.launch.ident, b))
  sortNat ((if n.valid then (all.filter (fun e => e.2.part == part && e.2.launch.node == n.node)).map (·.1) else [])
    ++ (n.queue.filter (fun x => !isWait x.op)).map (·.blk))

/-- A queue without the commands from one on; the waits stay (R276). -/
def discardFrom (hit : Cmd → Bool) (q : List Cmd) : List Cmd :=
  let before := q.takeWhile (fun x => !hit x)
  before ++ (q.drop before.length).filter (fun x => isWait x.op)

/-- A channel halts at a command of a block: a record is written, the command and those behind it are discarded, and the waits
that nothing stands before complete (R276, R288). -/
def haltColl (s : State) (part ch cause domain addr bid : Nat) (hit : Cmd → Bool) : State :=
  let halted := sortNat (bid :: collBlocks s part ch)
  let s := halted.foldl (fun s k => (s.modAny k (fun b => { b with
    collHalt := tset b.collHalt ch (BitVec.ofNat 6 cause) })).postOnce s.cycle (.blockRetire k)) s
  let s := match s.anyBlock bid with
    | some b => reportError s part (haltRecord b bid cause domain addr ch)
    | none => s
  let s := if cause = 0x13 then s.postOnce (s.cycle + 1) (.gangKill bid) else s
  tellRoom (settleColl (setBindQueue s part ch (discardFrom hit (s.binding part ch).queue)) part ch)

/-! Issue -/

/-- The checks of R274, R285, R286 and R417: a cause, or none. -/
def collCheck (s : State) (b : Block) (g : CollOp) (root : Nat) : Option TrapInfo :=
  let n := s.binding b.part g.ch
  let hb := b.shapeOf g.buf
  let hr := b.shapeOf g.res
  let f := shapeFmt b g.buf
  if (tget b.collHalt g.ch).isSome ∨ n.valid = false then some { cause := 0x11 }
  else if n.node ≠ b.launch.node then some { cause := 0x11 }
  else if hb.spad ∨ hr.spad ∨ f ≠ shapeFmt b g.res ∨ f = 0 ∨ 3 < f then some { cause := 0x11 }
  else if (b.slotOf hb.fsl).sl ≠ 0 ∨ (b.slotOf hr.fsl).sl ≠ 0 then some { cause := 0x11 }
  else if (g.form = 0 ∧ (g.op = .and ∨ g.op = .or ∨ g.op = .xor) ∧ f ≠ 1) ∨ (g.form = 1 ∧ n.size ≤ root)
      ∨ hr.count ≠ collOut b g n.size then some { cause := 0x11 }
  else if !baseAligned hb f || !baseAligned hr f then some { cause := 0x0C }
  else none

/-- Buffer elements that a command's earlier issue has transferred (R275). -/
def carried (b : Block) (ch start : Nat) : List Word := (tgetD b.collSent ch []).take start

/-- A buffer read from where an earlier issue of the command left off (R275). -/
def readBuffer (s : State) (b : Block) (bid : Nat) (g : CollOp) (sent : List Word) (pages : List (Nat × Nat × Bool)) (n : Nat) :
    State × List Word × Option (Nat × Nat) :=
  let x := readRun b bid g.buf pages s sent.length (n - sent.length)
  (x.1, sent ++ x.2.1, x.2.2)

/-- Result elements `from … to − 1` of a group written to the member's result shape. -/
def writeResult (s : State) (b : Block) (bid : Nat) (g : CollOp) (root : Nat) (data : List (List Word))
    (pages : List (Nat × Nat × Bool)) (lo hi : Nat) : State × Option (Nat × Nat) :=
  let satc := (b.slotOf (b.shapeOf g.res).fsl).satc
  writeRun b bid g.res pages s lo
    ((upto (hi - lo)).map (fun i => collElem g.form (shapeFmt b g.buf) satc g.op root (collN b g) data (lo + i)))

/-- A command whose check fails at element `u` for cause `t`: buffer elements before it are transferred and kept, and a group
of one member writes its results before it; an element in error halts the channel, as it would have halted the command before
it came to `u` (R275, R276). (log 34, DEDUCED) -/
def collPartial (s : State) (c : Ctx) (g : CollOp) (root u : Nat) (pages : List (Nat × Nat × Bool)) (t : TrapInfo) : CmdRes :=
  let n := collN c.b g
  let alone := g.form = 4 ∨ (s.binding c.b.part g.ch).size = 1
  let halted := fun (s : State) (e : Nat × Nat) => CmdRes.done (haltColl s c.b.part g.ch 0x13 e.1 e.2 c.bid (fun _ => false))
  let x := readBuffer s c.b c.bid g (carried c.b g.ch c.p.prog) pages (min u n)
  let s := x.1.modBlock c.bid (fun b => { b with collSent := tset b.collSent g.ch x.2.1 })
  match x.2.2 with
  | some e => halted s e
  | none =>
    if alone ∧ n < u then
      let y := writeResult s c.b c.bid g root [x.2.1] pages (c.p.prog - n) (u - n)
      match y.2 with
      | some e => halted y.1 e
      | none => .fault { t with prog := u } y.1
    else .fault { t with prog := min u n } s

/-- The command enters its channel's queue with what an earlier issue transferred (R275). -/
def queueColl (s : State) (c : Ctx) (ch : Nat) (cmd : Cmd) (pages : List (Nat × Nat × Bool)) : State :=
  let sent := carried c.b ch c.p.prog
  let cmd := { cmd with pages := pages, args := cmd.args ++ [(upto sent.length).zip sent] }
  let s := s.modBlock c.bid (fun b => { b with collSent := tdel b.collSent ch })
  setBindQueue s c.b.part ch ((s.binding c.b.part ch).queue ++ [cmd])

/-- What an earlier issue of a queued command transferred. -/
def sentOf (x : Cmd) (k : Nat) : List Word := (x.args.getD k []).map (·.2)

/-! Groups within the package (R285, R417) -/

/-- The channel's oldest collective command, with the queue without it. -/
def firstColl : List Cmd → Option (Cmd × List Cmd)
  | [] => none
  | x :: r =>
    if isWait x.op || (collOf x.op).form == 4 then (firstColl r).map (fun y => (y.1, x :: y.2)) else some (x, r)

/-- The partition that a member entry names; none in another package (R417). -/
def memberPart (s : State) (w : Word) : Option Nat :=
  if bits w.toNat 18 0 = s.pkg.epid.toNat then some (bits w.toNat 24 19) else none

/-- The oldest command of a rank of a group, when it is a member of this package, bound to the group, and has issued.
(log 34, DEDUCED) -/
def memberCmd (s : State) (ch : Nat) (members : List Word) (rank : Nat) : Option (Nat × Cmd × Block) :=
  match memberPart s (members.getD rank 0) with
  | none => none
  | some part =>
    let n := s.binding part ch
    if n.valid && n.members == members && n.rank == rank then
      match firstColl n.queue with
      | some (x, _) => (s.anyBlock x.blk).map (fun b => (part, x, b))
      | none => none
    else none

/-- Every rank of a group is a member of this package and has issued its operation. (log 34, DEDUCED) -/
def allIssued (s : State) (part ch : Nat) : Bool :=
  let n := s.binding part ch
  (upto n.size).all (fun r => (memberCmd s ch n.members r).isSome)

/-- cred, cbc and cag after their operands (R285, R286). -/
def groupBody (i : Instr) (root : Word) (s : State) (c : Ctx) : CmdRes :=
  let g := collOf i
  let n := s.binding c.b.part g.ch
  let cmd : Cmd := ⟨i, [[(0, root)]], c.bid, c.pid, c.p.pc, c.env.longMark, c.p.prog, []⟩
  if !shapeOk c.b g.buf || !shapeOk c.b g.res then .fault { cause := 0x14 } s
  else
    match collCheck s c.b g root.toNat with
    | some t => .fault t s
    | none =>
      let accs := accessesFrom c.p.prog (collAccesses c.b c.bid g n.size)
      match enginePages s c accs with
      | some s => .hold .pageCheck s
      | none =>
        let x := checkAccesses c.b.who c.bid 8 s [] accs
        match x.2 with
        | .ok pages =>
          let s := queueColl x.1 c g.ch cmd pages
          .done (if n.size = 1 ∨ allIssued s c.b.part g.ch = true then
            s.post (s.cycle + 1) (.collectiveOperationComplete c.b.part g.ch []) else s)
        | .fail u cause addr pages =>
          if (firstColl n.queue).isSome ∨ (n.size = 1 ∧ queuedOf c.bid n.queue ≠ 0) then .hold .engineQueue x.1
          else collPartial x.1 c g root.toNat u pages { cause := cause, addr := addr }

/-- A reading of the rules (log 34, DEDUCED). -/
def collForm (i : Instr) (h : Hdr) (pops : Nat) (s : State) : Host.Outcome State Fault Refusal :=
  issue i h { scopes := [.lane], feats := [6], qn4 := shapesQn4 [(collOf i).buf, (collOf i).res] }
    (fun s c => warpOnly s c (engineForm h pops true (fun s c good =>
      groupBody i (if pops = 0 then 0 else operandAt good 0) s c))) s

/-- cred (R286). -/
def execCred (h : Hdr) (ch : BitVec 4) (buf res : BitVec 4) (op : RedOp) (s : State) : Host.Outcome State Fault Refusal :=
  collForm (.cred h ch buf res op) h 0 s
/-- cbc: the root on top (R286). -/
def execCbc (h : Hdr) (ch : BitVec 4) (buf res : BitVec 4) (s : State) : Host.Outcome State Fault Refusal :=
  collForm (.cbc h ch buf res) h 1 s
/-- cag (R286). -/
def execCag (h : Hdr) (ch : BitVec 4) (buf res : BitVec 4) (s : State) : Host.Outcome State Fault Refusal :=
  collForm (.cag h ch buf res) h 0 s

/-! csend -/

/-- Bytes that n elements of a format take in linear order. -/
def packedBytes (fmt n : Nat) : Nat := (n * elemBits fmt + 7) / 8

/-- Elements put together in linear order, least significant first. -/
def packElems (fmt : Nat) (ws : List Word) : List Byte :=
  toBytes (packedBytes fmt ws.length) (ws.foldr (fun w n => w.toNat + 2 ^ elemBits fmt * n) 0)

/-- The channel is bound to another node than the block's (R417). -/
def foreign (s : State) (b : Block) (ch : Nat) : Bool :=
  let n := s.binding b.part ch
  n.valid && n.node != b.launch.node

/-- csend: hi beneath lo beneath the tag (R287). (log 34, DEDUCED) -/
def csendBody (i : Instr) (s : State) (c : Ctx) (good : List (Nat × Thread)) : CmdRes :=
  let g := collOf i
  let va := (operandAt good 2).toNat * 2 ^ 32 + (operandAt good 1).toNat
  let hb := c.b.shapeOf g.buf
  if !shapeOk c.b g.buf then .fault { cause := 0x14 } s
  else if (tget c.b.collHalt g.ch).isSome ∨ foreign s c.b g.ch = true ∨ hb.spad then .fault { cause := 0x11 } s
  else if !baseAligned hb (shapeFmt c.b g.buf) then .fault { cause := 0x0C } s
  else
    let accs := accessesFrom c.p.prog (bufAccesses c.b c.bid g)
    match enginePages s c accs with
    | some s => .hold .pageCheck s
    | none =>
      let x := checkAccesses c.b.who c.bid 8 s [] accs
      match x.2 with
      | .fail u cause addr pages => collPartial x.1 c g 0 u pages { cause := cause, addr := addr }
      | .ok pages =>
        let y := xlate x.1 c.b.who .engineStore va
        match y.2 with
        | .fail k => collPartial y.1 c g 0 (collN c.b g) pages { cause := k, addr := va }
        | .ok pa _ =>
          if isFabric pa then
            let args := [[(0, operandAt good 0)], [(0, wd (pa / 2 ^ 32))], [(0, wd pa)]]
            let cmd : Cmd := ⟨i, args, c.bid, c.pid, c.p.pc, c.env.longMark, c.p.prog, []⟩
            let s := queueColl y.1 c g.ch cmd pages
            .done (s.post (s.cycle + 1) (.csendComplete c.bid g.ch))
          else collPartial y.1 c g 0 (collN c.b g) pages { cause := 0x0B, addr := va }

/-- csend (R287). -/
def execCsend (h : Hdr) (ch : BitVec 4) (buf : BitVec 4) (s : State) : Host.Outcome State Fault Refusal :=
  issue (.csend h ch buf) h { scopes := [.lane], feats := [6], qn4 := shapesQn4 [buf.toNat] }
    (fun s c => warpOnly s c (engineForm h 3 true (csendBody (.csend h ch buf)))) s

/-! Waits and status -/

/-- A cwait stands behind commands of its block, unless the block's channel is halted (R276, R288). -/
def collPending (s : State) (c : Ctx) (ch : Nat) : Bool :=
  queuedOf c.bid (s.binding c.b.part ch).queue != 0 && !s.collHalted c.bid ch

/-- cwait; a channel bound to another node takes no command of the block (R417). (log 34, DEDUCED) -/
def cwaitBody (h : Hdr) (ch : Nat) (s : State) (c : Ctx) : State :=
  if foreign s c.b ch then pushStatus h (.error { cause := 0x11 }) s c
  else
    match checkLanes c 0 1 with
    | .path t => trapPath s c t
    | .all ok tr =>
      let q := (s.binding c.b.part ch).queue
      let pending := collPending s c ch
      let d := laneDepth c.b c.p
      let w := collStatus s c.bid ch
      let s := if pending then setBindQueue s c.b.part ch (q ++ [waitCmd (.cwait h (BitVec.ofNat 4 ch)) c]) else s
      finishLanes s c h (.all (pushEach ok 0 (withPushed c w)) tr)
        { pc := c.next, owed := if pending then 0 else 1, await := if pending then [c.env.longMark] else []
          xfer := transfers d (d + 1) }

/-- cwait: the status is long-latency and is known when the commands before it have finished (R273, R288). -/
def execCwait (h : Hdr) (ch : BitVec 4) (s : State) : Host.Outcome State Fault Refusal :=
  issue (.cwait h ch) h { scopes := [.lane], feats := [6] } (fun s c => warpOnly s c (cwaitBody h ch.toNat)) s

/-- A matching entry as its words; an entry never written is zero (R66, R413). -/
def State.matchEntry (s : State) (e : Nat) : MatchEntry := tgetD s.pkg.matching e [0, 0, 0, 0, 0, 0, 0, 0]

/-- mtag: the CTL word of an entry of the own partition (R287). -/
def execMtag (h : Hdr) (e : Byte) (s : State) : Host.Outcome State Fault Refusal :=
  issue (.mtag h e) h { scopes := [.lane], feats := [6] }
    (fun s c => warpOnly s c (fun s c =>
      let ctl := (s.matchEntry e.toNat).getD 2 0
      pushStatus h (if bits ctl.toNat 13 8 = c.b.part then .ok ctl else .error { cause := 0x0B }) s c)) s

/-! Completion and halts -/

/-- The other members' contributions are those of the other ranks, each once. -/
def otherRanks (n : Bind) (others : List Contribution) : Bool :=
  let rs := others.map (·.rank)
  (upto n.size).all (fun r => (rs.filter (· == r)).length == (if r = n.rank then 0 else 1)) && others.length + 1 == n.size

/-- A member issues something else (R288). -/
def mismatch (g : CollOp) (root n fmt : Nat) (x : Contribution) : Bool :=
  x.form != g.form || (g.form == 0 && x.op != g.op) || (g.form == 1 && x.root != root) || x.n != n || x.fmt != fmt

/-- COMPLETION of operation k of a group, with what the other members brought (R286, R288).
(log 11, DESIGN CHOICE; log 34, DEDUCED) -/
def collComplete (part ch : Nat) (others : List Contribution) (s : State) : State :=
  let n := s.binding part ch
  match firstColl n.queue with
  | none => s
  | some (x, rest) =>
    match s.anyBlock x.blk with
    | none => settleColl (setBindQueue s part ch rest) part ch
    | some b =>
      let g := collOf x.op
      let root := (tgetD (x.args.getD 0 []) 0 0).toNat
      let cnt := collN b g
      let fmt := shapeFmt b g.buf
      let hit := fun (y : Cmd) => decide (y = x)
      if otherRanks n others then
        if others.any (mismatch g root cnt fmt) then haltColl s part ch 0x11 0xFF 0 x.blk hit
        else
          let r := readBuffer s b x.blk g (sentOf x 1) x.pages cnt
          match r.2.2 with
          | some (dom, pa) => haltColl r.1 part ch 0x13 dom pa x.blk hit
          | none =>
            let data := (upto n.size).map (fun k =>
              if k = n.rank then r.2.1 else ((others.find? (fun o => o.rank == k)).map (·.data)).getD [])
            let w := writeResult r.1 b x.blk g root data x.pages (x.start - cnt) (collOut b g n.size)
            match w.2 with
            | some (dom, pa) => haltColl w.1 part ch 0x13 dom pa x.blk hit
            | none =>
              let s := settleColl (setBindQueue w.1 part ch rest) part ch
              tellRoom (s.postOnce s.cycle (.blockRetire x.blk))
      else s

/-- What a rank brings to its oldest operation; a buffer in error halts it, and it brings nothing (R276, R286). -/
def bringOne (ch : Nat) (members : List Word) (s : State) (rank : Nat) : State × List Contribution :=
  match memberCmd s ch members rank with
  | none => (s, [])
  | some (part, x, b) =>
    let g := collOf x.op
    let r := readBuffer s b x.blk g (sentOf x 1) x.pages (collN b g)
    match r.2.2 with
    | some (dom, pa) => (haltColl r.1 part ch 0x13 dom pa x.blk (fun y => decide (y = x)), [])
    | none => (r.1, [⟨rank, g.form, g.op, (tgetD (x.args.getD 0 []) 0 0).toNat, collN b g, shapeFmt b g.buf, r.2.1⟩])

/-- What the ranks of a list bring. -/
def bringAll (ch : Nat) (members : List Word) : State → List Nat → State × List Contribution
  | s, [] => (s, [])
  | s, k :: r =>
    let x := bringOne ch members s k
    let y := bringAll ch members x.1 r
    (y.1, x.2 ++ y.2)

/-- COMPLETION for every member of a group that lies within the package (R286). (log 34, DEDUCED) -/
def collTogether (part ch : Nat) (s : State) : State :=
  let n := s.binding part ch
  if allIssued s part ch then
    let x := bringAll ch n.members s (upto n.size)
    if x.2.length = n.size then
      (upto n.size).foldl (fun s r =>
        match memberPart s (n.members.getD r 0) with
        | some q => collComplete q ch (x.2.filter (fun c => c.rank != r)) s
        | none => s) x.1
    else x.1
  else s

/-- COMPLETION of operation k: within the package, or with what members of other packages brought (R286, R288). -/
def collStep (part ch : Nat) (others : List Contribution) (s : State) : State :=
  if others.isEmpty && decide (1 < (s.binding part ch).size) then collTogether part ch s else collComplete part ch others s

def execCollectiveOperationComplete (s : State) : Host.Outcome State Fault Refusal :=
  device s fun
    | .collectiveOperationComplete part ch others => some (collStep part ch others s)
    | _ => none

/-- The oldest `csend` of a block on a channel, with the queue without it. -/
def firstSend (bid : Nat) : List Cmd → Option (Cmd × List Cmd)
  | [] => none
  | x :: r =>
    if x.blk == bid && (collOf x.op).form == 4 then some (x, r) else (firstSend bid r).map (fun y => (y.1, x :: y.2))

/-- A message leaves for its package; one for the own package arrives in the next cycle (R67, R287). -/
def sendMessage (s : State) (part : Nat) (tag : Word) (pa : Nat) (data : List Byte) : State :=
  if ownPackage s pa then s.post (s.cycle + 1) (.fabricMessageArrival part tag pa data)
  else
    let ep := bits s.pkg.epid.toNat 18 11 * 2048 + bits pa 50 40
    { s with out := s.out ++ [.message part (wd ep) tag pa data] }

/-- A `csend` is done: its buffer is read and sent (R287). -/
def csendComplete (bid ch : Nat) (s : State) : State :=
  match s.anyBlock bid with
  | none => s
  | some b =>
    match firstSend bid (s.binding b.part ch).queue with
    | none => s
    | some (x, rest) =>
      let g := collOf x.op
      let r := readBuffer s b bid g (sentOf x 3) x.pages (collN b g)
      match r.2.2 with
      | some (dom, pa) => haltColl r.1 b.part ch 0x13 dom pa bid (fun y => decide (y = x))
      | none =>
        let arg := fun k => (tgetD (x.args.getD k []) 0 0)
        let s := sendMessage r.1 b.part (arg 0) ((arg 1).toNat * 2 ^ 32 + (arg 2).toNat) (packElems (shapeFmt b g.buf) r.2.1)
        let s := settleColl (setBindQueue s b.part ch rest) b.part ch
        tellRoom (s.postOnce s.cycle (.blockRetire bid))

def execCsendComplete (s : State) : Host.Outcome State Fault Refusal :=
  device s fun
    | .csendComplete bid ch => some (csendComplete bid ch s)
    | _ => none

end Sys2Proof.Machine
end

