-- ==== Sys2Proof/Machine/Tiles.lean ====
section
/-! DEFINITION. Accumulator tiles, their checksums and the collimation check (R331, R332, R342-R345). -/

namespace Sys2Proof.Machine

def Block.warpMatrix (b : Block) (w : Nat) : WarpMatrix := tgetD b.matrix w .fresh
def Block.modWarpMatrix (b : Block) (w : Nat) (f : WarpMatrix → WarpMatrix) : Block :=
  { b with matrix := tset b.matrix w (f (b.warpMatrix w)) }
def WarpMatrix.tile (m : WarpMatrix) (k : Nat) : Tile := tgetD m.tiles k .fresh
def WarpMatrix.setTile (m : WarpMatrix) (k : Nat) (t : Tile) : WarpMatrix := { m with tiles := tset m.tiles k t }

def State.tile (s : State) (bid w k : Nat) : Tile :=
  match tget s.blocks bid with
  | some b => (b.warpMatrix w).tile k
  | none => .fresh
def State.modTile (s : State) (bid w k : Nat) (f : Tile → Tile) : State :=
  s.modBlock bid (fun b => b.modWarpMatrix w (fun m => m.setTile k (f (m.tile k))))

def Tile.get (t : Tile) (r n : Nat) : Word := tgetD t.elems (16 * r + n) 0

/-- What an element adds to its checksums: its value in units of 2^-149, or of 1 in an i32 tile, and 1 when it is not finite
(R342). -/
def sumPart (kind : Nat) (w : Word) : Int × Int :=
  if kind = 2 then (w.toInt, 0)
  else
    match f32 w with
    | .fin neg m e => (scaled (-149) (.fin neg m e), 0)
    | _ => (0, 1)

def tadd (t : Tab Int) (k : Nat) (v : Int) : Tab Int := tset t k (tgetD t k 0 + v)

/-- An element changed, with its checksum entries corrected by new − old (R342). -/
def Tile.put (t : Tile) (r n : Nat) (w : Word) : Tile :=
  let o := sumPart t.kind (t.get r n)
  let v := sumPart t.kind w
  { t with
    elems := tset t.elems (16 * r + n) w
    rowSum := tadd t.rowSum r (v.1 - o.1)
    rowCnt := tadd t.rowCnt r (v.2 - o.2)
    colSum := tadd t.colSum n (v.1 - o.1)
    colCnt := tadd t.colCnt n (v.2 - o.2) }

/-- The sum and the count of elements, recomputed. -/
def sumOf (kind : Nat) (l : List Word) : Int × Int :=
  l.foldl (fun acc w => let p := sumPart kind w; (acc.1 + p.1, acc.2 + p.2)) (0, 0)

def Tile.row (t : Tile) (r : Nat) : List Word := (upto 16).map (t.get r)

/-- A row as a drain or a store gives it: zeros while KIND is unset (R357, R358). -/
def Tile.shown (t : Tile) (r : Nat) : List Word := if t.kind = 0 then List.replicate 16 0 else t.row r
def Tile.col (t : Tile) (n : Nat) : List Word := (upto 32).map (fun r => t.get r n)

/-- Recomputed less stored: the mismatches of rows or columns (R343). -/
def Tile.rowDiffs (t : Tile) : List (Nat × Int × Int) :=
  ((upto 32).map (fun r =>
    let c := sumOf t.kind (t.row r)
    (r, c.1 - tgetD t.rowSum r 0, c.2 - tgetD t.rowCnt r 0))).filter (fun d => d.2 != (0, 0))
def Tile.colDiffs (t : Tile) : List (Nat × Int × Int) :=
  ((upto 16).map (fun n =>
    let c := sumOf t.kind (t.col n)
    (n, c.1 - tgetD t.colSum n 0, c.2 - tgetD t.colCnt n 0))).filter (fun d => d.2 != (0, 0))

/-- A number of checksum units as an element of a kind, when it is representable. -/
def unitsWord (kind : Nat) (v : Int) : Option Word :=
  if kind = 2 then (if (wi v).toInt = v then some (wi v) else none)
  else
    let w := toF32 .rn (.fin (decide (v < 0)) v.natAbs (-149))
    if sumPart kind w = (v, 0) then some w else none

/-- The corrected value of an element (R343). -/
def Tile.corrected (t : Tile) (r n : Nat) (ds dc : Int) : Option Word :=
  let p := sumPart t.kind (t.get r n)
  if dc = 0 ∧ p.2 = 0 then unitsWord t.kind (p.1 - ds)
  else if dc = 1 ∧ p.2 = 1 then
    let others := sumOf t.kind (((upto 16).filter (· != n)).map (t.get r))
    unitsWord t.kind (tgetD t.rowSum r 0 - others.1)
  else none

/-- What a check found. -/
inductive CheckRes where
  | clean
  | element (r n : Nat) (old new : Word)
  | repaired (r n : Nat)
  | bad

/-- The collimation check with the tile it leaves (R343). -/
def Tile.check (t : Tile) : CheckRes × Tile :=
  match t.rowDiffs, t.colDiffs with
  | [], [] => (.clean, t)
  | [(r, ds, dc)], [(n, es, ec)] =>
    if ds = es ∧ dc = ec then
      match t.corrected r n ds dc with
      | some w => (.element r n (t.get r n) w, { t with elems := tset t.elems (16 * r + n) w })
      | none => (.bad, { t with invalid := some 0x13 })
    else (.bad, { t with invalid := some 0x13 })
  | [(r, ds, dc)], [] => (.repaired r 0, { t with rowSum := tadd t.rowSum r ds, rowCnt := tadd t.rowCnt r dc })
  | [], [(n, es, ec)] => (.repaired 0 n, { t with colSum := tadd t.colSum n es, colCnt := tadd t.colCnt n ec })
  | _, _ => (.bad, { t with invalid := some 0x13 })

/-- A tile's record (R344, R345, R398). -/
def tileRecord (b : Block) (bid w kind cause k r n : Nat) (old new : Word) : ErrInfo :=
  whereOf b w ⟨kind, cause, 5, 0, 0, 0, 0, bid, b.launch.node, k + 8 * r + 256 * n, old.toNat, new.toNat⟩

/-- The check of a tile with its record: the status, 3 when the tile is invalid (R343-R345, R357). How the record of a repaired
checksum gives an unbounded sum in 32 bits, and the coordinate that it has none of, are free values.
(log 82, DESIGN CHOICE) -/
def checkTile (s : State) (c : Ctx) (k : Nat) : State × Nat :=
  let w := c.p.warp
  let t := s.tile c.bid w k
  if t.invalid.isSome then (s, 3)
  else if t.kind = 0 then (s, 0)
  else
    let x := t.check
    let s := s.modTile c.bid w k (fun _ => x.2)
    let rec1 := fun (kind cause r n : Nat) (old new : Word) =>
      reportError s c.b.part (tileRecord c.b c.bid w kind cause k r n old new)
    match x.1 with
    | .clean => (s, 0)
    | .element r n old new => (rec1 1 0 r n old new, 1)
    | .repaired r n =>
      let old := s.drawWord
      let new := old.2.drawWord
      let at_ := new.2.drawWord
      let free := fun (m : Nat) => at_.1.toNat % m
      let row := if t.rowDiffs.isEmpty then free 32 else r
      let col := if t.rowDiffs.isEmpty then n else free 16
      (reportError at_.2 c.b.part (tileRecord c.b c.bid w 2 0 k row col old.1 new.1), 2)
    | .bad => (rec1 3 0x13 0 0 0 0, 3)

end Sys2Proof.Machine
end

