-- ==== Sys2Proof/Machine/Matrix.lean ====
section
/-! DEFINITION. The matrix queue and its passes, and the forms mma, mmas, mtab, mlut and mclr (R106, R107, R333-R341,
R345-R356). -/

namespace Sys2Proof.Machine

/-! What a form reads -/

/-- Tile of a form that names one. -/
def tileOf (i : Instr) : Option Nat :=
  match i with
  | .mma _ _ _ a _ => some a.toNat
  | .mmas _ _ _ a _ _ => some a.toNat
  | .mlut _ _ a _ => some a.toNat
  | .mclr _ a => some a.toNat
  | .mdrain _ a => some a.toNat
  | .mdst _ _ a _ => some a.toNat
  | .mld _ _ a _ => some a.toNat
  | .mchk _ a => some a.toNat
  | _ => none

/-- Number of the B, activation or weight slot of a form. -/
def slotNoOf (b : Block) (i : Instr) : Nat :=
  match i with
  | .mma _ _ fs _ _ => fs.toNat
  | .mmas _ _ fs _ _ _ => fs.toNat
  | .mtab _ _ fs => fs.toNat
  | .mlut _ _ _ wb => (b.shapeOf wb.toNat).fsl
  | .mdst _ fs _ _ => fs.toNat
  | .mld _ fs _ _ => fs.toNat
  | _ => 0

def matSlot (b : Block) (i : Instr) : Slot := b.slotOf (slotNoOf b i)

def shapeNoOf (i : Instr) : Nat :=
  match i with
  | .mma _ _ _ _ wb => wb.toNat
  | .mmas _ _ _ _ wb _ => wb.toNat
  | .mlut _ _ _ wb => wb.toNat
  | .mdst _ _ _ wb => wb.toNat
  | .mld _ _ _ wb => wb.toNat
  | _ => 0

def matShape (b : Block) (i : Instr) : Shape := b.shapeOf (shapeNoOf i)

/-- A element format under a slot (R334). -/
def aFmt (fmt : Nat) : Nat := if fmt = 8 then 3 else fmt

/-- KIND of the results under a slot (R334). -/
def kindOf (fmt : Nat) : Nat := if fmt = 6 then 2 else 1

/-- Dense K of mma and mmas (R348). -/
def denseK (b : Block) (i : Instr) : Nat := (matShape b i).ext.getD 1 0

/-- Chunks of an entry (R333, R348, R352, R353). -/
def chunksOf (b : Block) (i : Instr) : Nat :=
  match i with
  | .mma .. | .mmas .. => denseK b i / chunkLen (matSlot b i).fmt
  | _ => 1

/-- Element (k, n) of B (R348); R347 checks no alignment. (log 38, DEDUCED) -/
def bElem (b : Block) (bid : Nat) (i : Instr) (p q : Word) (k n : Nat) : Elem :=
  placeElem (matShape b i) (matSlot b i) (b.self bid) false [(n : Int), (k : Int), p.toInt, q.toInt]

/-- Weight word of column n and plane j (R341). -/
def wElem (b : Block) (bid : Nat) (i : Instr) (j n : Nat) : Elem :=
  placeElem (matShape b i) (matSlot b i) (b.self bid) false [(n : Int), (j : Int)]

def planesOf (i : Instr) : Nat :=
  match i with
  | .mlut _ two _ _ => if two then 2 else 1
  | _ => 0

/-- The elements of a chunk's B, K position by K position (R335), or its weight words. -/
def chunkElems (b : Block) (bid : Nat) (i : Instr) (p q : Word) (j : Nat) : List (List Elem) :=
  match i with
  | .mma .. | .mmas .. =>
    let len := chunkLen (matSlot b i).fmt
    (upto len).map (fun k => (upto 16).map (bElem b bid i p q (j * len + k)))
  | .mlut .. => (upto (planesOf i)).map (fun t => (upto 16).map (wElem b bid i t))
  | _ => []

/-- Accesses of an element, scale bytes behind it. -/
def elemAccesses (fmt unit : Nat) (write : Bool) (e : Elem) : List CmdAccess :=
  match e with
  | .at _ sp _ scale => ⟨unit, sp, elemBytes fmt, write⟩ :: scale.map (fun x => ⟨unit, x.1, x.2, false⟩)
  | _ => []

def chunkAccesses (b : Block) (bid : Nat) (i : Instr) (p q : Word) (j : Nat) : List CmdAccess :=
  ((chunkElems b bid i p q j).flatten).flatMap (elemAccesses (matSlot b i).fmt j false)

/-- Accesses of chunks from `start` on, in chunk order (R350). -/
def formAccesses (b : Block) (bid : Nat) (i : Instr) (p q : Word) (start : Nat) : List CmdAccess :=
  (upto (chunksOf b i - start)).flatMap (fun j => chunkAccesses b bid i p q (start + j))

/-- Step 11 of R347: an element under clip mode fault, or a scratchpad byte beyond the block's (cause 0x0B). -/
def elemBad (b : Block) (fmt : Nat) (e : Elem) : Option Nat :=
  match e with
  | .clipped a => some a
  | .absent => none
  | .misaligned a _ => some a
  | .at a sp _ _ =>
    match sp with
    | .nowhere => some a
    | .spad _ off => if 1024 * b.spadKiB < off + elemBytes fmt then some a else none
    | .virt _ => none

/-- The block of an element for its scale, where it is read when it is clamped; none outside the shape (R163, R168, R239). -/
def scaleBlock (f : Slot) (h : Shape) (p q : Word) (k n : Nat) : Option Int :=
  let c := h.coordsFor false [(n : Int), (k : Int), p.toInt, q.toInt]
  if h.inRange c then some (h.offset c / (f.blockLen : Nat)) else none

/-- Each column of each chunk lies within one block (R168). -/
def noStraddle (b : Block) (i : Instr) (p q : Word) : Bool :=
  let f := matSlot b i
  if f.fmt = 8 then
    (upto (chunksOf b i)).all (fun j => (upto 16).all (fun n =>
      let bs := (upto 32).filterMap (fun k => scaleBlock f (matShape b i) p q (32 * j + k) n)
      match bs with
      | [] => true
      | x :: r => r.all (· == x)))
  else true

/-! Values of a chunk -/

/-- One element of B: its bits and its scale words; none outside the shape. -/
structure BVal where
  bits : Option Nat
  code : Nat
  group : Nat

/-- An element read through the pages its instruction checked. -/
def readB (s : State) (bid die fmt : Nat) (pages : List (Nat × Nat × Bool)) (e : Elem) : State × BVal :=
  let acc := elemAccesses fmt 0 false e
  let rd := acc.foldl (fun (x : State × List Nat) a =>
    let y := readTargets x.1 die (cmdTargets x.1 bid pages a)
    (y.1, x.2 ++ [ofBytes y.2])) (s, [])
  match e with
  | .at _ _ nib _ =>
    let n := rd.2.getD 0 0
    (rd.1, ⟨some (if elemBits fmt = 4 then bits n (4 * nib + 3) (4 * nib) else n), rd.2.getD 1 0, rd.2.getD 2 0⟩)
  | _ => (s, ⟨none, 0, 0⟩)

def readBRow (bid die fmt : Nat) (pages : List (Nat × Nat × Bool)) : State → List Elem → State × List BVal
  | s, [] => (s, [])
  | s, e :: r =>
    let x := readB s bid die fmt pages e
    let y := readBRow bid die fmt pages x.1 r
    (y.1, x.2 :: y.2)

def readBRows (bid die fmt : Nat) (pages : List (Nat × Nat × Bool)) : State → List (List Elem) → State × List (List BVal)
  | s, [] => (s, [])
  | s, l :: r =>
    let x := readBRow bid die fmt pages s l
    let y := readBRows bid die fmt pages x.1 r
    (y.1, x.2 :: y.2)

/-- The number of a B element; out of range it is zero, also for QN4 (R348). -/
def BVal.value (v : BVal) (fmt : Nat) : FVal :=
  match v.bits with
  | some n => elemValue fmt n
  | none => .fin false 0 0

/-- The scale of a column: that of its first element in range (R163, R168). -/
def columnScale (f : Slot) (l : List BVal) : FVal :=
  match l.find? (fun v => v.bits.isSome) with
  | some v => scaleOf f v.code v.group
  | none => .ofInt 1

/-- A elements of a lane's cells (R334). -/
def aValues (fmt : Nat) (cells : List Word) : List FVal :=
  cells.flatMap (fun w =>
    if fmt = 3 then [bfLo w, bfHi w] else (upto 4).map (fun j => elemValue fmt (bits w.toNat (8 * j + 7) (8 * j))))

/-- Position within its group of kept element e (R339). -/
def keptPos (x : List Word) (e : Nat) : Nat := bits (x.getD (e / 16) 0).toNat (2 * (e % 16) + 1) (2 * (e % 16))

/-- The A elements of a lane in chunk j, each with the K position it multiplies within the chunk (R339, R349). -/
def chunkTerms (sparse : Bool) (len j : Nat) (a : List FVal) (x : List Word) : List (Nat × FVal) :=
  if sparse then
    (upto (len / 2)).map (fun i =>
      let e := j * (len / 2) + i
      (4 * (e / 2) + keptPos x e - j * len, a.getD e .nan))
  else (upto len).map (fun k => (k, a.getD (j * len + k) .nan))

/-- The new element: incoming accumulator plus the chunk's terms, exact, rounded once (R167, R168, R349). -/
def accumulate (kind : Nat) (satc : Bool) (c : Word) (terms : List FVal) : Word :=
  if kind = 2 then
    let n := scaled 0 (FVal.sum .rn (.ofInt c.toInt :: terms))
    if satc then wi (clampInt (-(2 ^ 31)) (2 ^ 31 - 1) n) else wi n
  else toF32 .rn (FVal.sum .rn (f32 c :: terms))

/-- One row of one chunk of mma or mmas: the new element of column n. -/
def productElem (f : Slot) (c : Word) (bs : List (List BVal)) (terms : List (Nat × FVal)) (n : Nat) : Word :=
  let col := bs.map (fun r => r.getD n ⟨none, 0, 0⟩)
  let prods := terms.map (fun t => FVal.mul t.2 ((col.getD t.1 ⟨none, 0, 0⟩).value f.fmt))
  if f.fmt = 8 then accumulate 1 false c [FVal.mul (columnScale f col) (FVal.sum .rn prods)]
  else accumulate (kindOf f.fmt) f.satc c prods

/-! LUT (R340, R341) -/

def lutKey (r g p : Nat) : Nat := 128 * r + 16 * g + p

/-- The entry of group g and pattern p of a lane's activations. -/
def lutEntry (kind : Nat) (a : List FVal) (g p : Nat) : Word :=
  let terms := (upto 4).map (fun i => let v := a.getD (4 * g + i) .nan; if bit? p i then v else v.negate)
  let t := FVal.sum .rn terms
  if kind = 2 then wi (scaled 0 t) else toF32 .rn t

def WarpMatrix.putLut (m : WarpMatrix) (kind r : Nat) (a : List FVal) : WarpMatrix :=
  (upto 8).foldl (fun m g => (upto 16).foldl (fun m p => { m with lut := tset m.lut (lutKey r g p) (lutEntry kind a g p) }) m) m

def lutVal (kind : Nat) (w : Word) : FVal := if kind = 2 then .ofInt w.toInt else f32 w

/-- The chunk sum's terms for row r and weight words by plane. (log 38, DEDUCED) -/
def lutTerms (m : WarpMatrix) (kind r : Nat) (ws : List Nat) : List FVal :=
  (upto 8).flatMap (fun g =>
    mapPlanes ws g)
where
  mapPlanes (ws : List Nat) (g : Nat) : List FVal :=
    ((upto ws.length).zip ws).map (fun e =>
      FVal.mul (.ofInt (2 ^ e.1 : Nat)) (lutVal kind (tgetD m.lut (lutKey r g (bits e.2 (4 * g + 3) (4 * g))) 0)))

/-! The queue -/

/-- Takes a place among the eight entries (R107). -/
def MOp.real (x : MOp) : Bool := decide (x.quarter < 4)

def sameWarp (x y : MOp) : Bool := x.blk == y.blk && x.warp == y.warp

/-- An MDR instruction that accesses memory. -/
def touchesMemory (i : Instr) : Bool :=
  match i with
  | .mdst .. | .mld .. => true
  | _ => false

/-- An entry x need not wait for an older y (R337, R355). -/
def mayPass (y x : MOp) : Bool :=
  !sameWarp x y || y.inst == x.inst
    || !((y.real && y.quarter == x.quarter)
      || (tileOf y.op).isSome && tileOf y.op == tileOf x.op
      || touchesMemory y.op)

/-- Entries that are eligible at a cycle, in queue order (R106, R337, R355). -/
def eligibleFrom (cycle : Nat) : List MOp → List MOp → List MOp
  | _, [] => []
  | before, x :: r =>
    let rest := eligibleFrom cycle (before ++ [x]) r
    if x.real && decide (x.since < cycle) && before.all (fun y => mayPass y x) then x :: rest else rest

def formNo (i : Instr) : Nat :=
  match i with
  | .mma .. => 0
  | .mmas .. => 1
  | .mtab .. => 2
  | _ => 3

/-- The byte at which an element lies, if it lies anywhere. -/
def elemSpot (e : Elem) : Option Spot :=
  match e with
  | .at _ sp _ _ => some sp
  | _ => none

/-- The B chunk of an entry's next chunk, as what two equal chunks share (R335). -/
def bKey (s : State) (x : MOp) : Option (Nat × Nat × Nat × Nat × List (Option Spot)) :=
  match tget s.blocks x.blk with
  | none => none
  | some b =>
    some (b.part, b.asid, if (matShape b x.op).spad then x.blk + 1 else 0,
      b.snap (0x080 + 32 * slotNoOf b x.op) 32, (chunkElems b x.blk x.op x.p x.q x.chunk).flatten.map elemSpot)

def fuses (s : State) (x y : MOp) : Bool :=
  formNo x.op == formNo y.op && formNo x.op != 2 && bKey s x == bKey s y && (bKey s x).isSome

/-- Cycles of a pass (R338). -/
def passCycles (i : Instr) (q : Nat) : Nat :=
  match formNo i with
  | 3 => max 1 ((q + 1) / 2)
  | 2 => 2
  | _ => max 2 q

/-- Arrays of a core that run passes. -/
def runningPasses (s : State) (core : Nat) : Nat := ((upto 4).filter (fun k => (s.sector (4 * core + k)).pass.isSome)).length

/-- The block's vacate has begun: no pass takes its entries any more (R382). -/
def vacating (s : State) (bid : Nat) : Bool :=
  match (tget s.blocks bid).bind (·.vacate) with
  | some v => v.started
  | none => false

/-- START of a pass, when the array is idle and the heavy budget allows it (R106, R337). (log 36, DEDUCED) -/
def startPass (sector : Nat) (s : State) : State :=
  let sec := s.sector sector
  if sec.pass.isSome then s
  else
    match (eligibleFrom s.cycle [] sec.mq).filter (fun x => !vacating s x.blk) with
    | [] => s
    | x :: r =>
      let heavy := match tget s.blocks x.blk with
        | some b => b.heavy
        | none => 4
      if runningPasses s (sector / 4) < heavy then
        let more := (r.filter (fuses s x)).take 3
        let ids := x.id :: more.map (·.id)
        let t := s.cycle + passCycles x.op ids.length
        (s.modSector sector (fun k => { k with pass := some ⟨ids, t⟩ })).post t (.matrixPassEnd sector)
      else s

/-- Arrays of a core look for a pass, lower sectors first (R106). -/
def pokeArrays (s : State) (core t : Nat) : State :=
  (upto 4).foldl (fun s k => s.postOnce t (.matrixPassStart (4 * core + k))) s

/-- A pass that started in this very cycle: its end is one whole pass away. -/
def justStarted (s : State) (sec : Sector) (p : Pass) : Bool :=
  match sec.mq.find? (fun x => some x.id == p.ids.head?) with
  | some x => p.endAt == s.cycle + passCycles x.op p.ids.length
  | none => false

/-- A vacate begins: a pass over one of the block's entries that would start in the same cycle does not start (R382).
(log 42, DEDUCED) -/
def withdrawPasses (s : State) (bid : Nat) : State :=
  match tget s.blocks bid with
  | none => s
  | some b =>
    (upto 4).foldl (fun s k =>
      let n := 4 * b.place.coreNo + k
      let sec := s.sector n
      match sec.pass with
      | some p =>
        if justStarted s sec p && sec.mq.any (fun x => p.ids.contains x.id && x.blk == bid) then
          pokeArrays (s.modSector n (fun x => { x with pass := none })) b.place.coreNo s.cycle
        else s
      | none => s) s

def execMatrixPassStart (s : State) : Host.Outcome State Fault Refusal :=
  device s fun
    | .matrixPassStart sector => some (startPass sector s)
    | _ => none

/-- The U flag (R336). -/
def keepsLatch (i : Instr) : Bool :=
  match i with
  | .mma _ u _ _ _ => u
  | .mmas _ u _ _ _ _ => u
  | .mtab _ u _ => u
  | _ => false

/-- The latch that a replayed instruction leaves (R351). -/
def settledLatch (i : Instr) (t : Thread) : Thread :=
  { t with latch := if keepsLatch i then { t.latch with replay := false, next := 0, pq := [] } else .empty }

/-- The mark of the results that a matrix instruction returns with its last chunk. -/
def instMark (inst : Nat) (pc : Word) : Mark := ⟨inst, 0, true, pc⟩

/-- The last entry of an instruction is done: replay latches are set, and its result returns; the held instruction whose page
check has failed is owed no result, and its failure is raised (R107, R350, R351). -/
def finishInst (s : State) (sector : Nat) (x : MOp) : State :=
  if (s.sector sector).mq.any (fun y => y.inst == x.inst) then s
  else
    match s.path? x.blk x.path with
    | some p =>
      let owed := p.run.awaits.any (fun a => a.2 == instMark x.inst x.pc)
      if !owed ∧ p.pageFault.isSome ∧ p.wait = .holding .pageCheck then s.post s.cycle (.mmaPageFault x.blk x.path)
      else
        engineReturn x.blk x.path (instMark x.inst x.pc)
          (x.settles.foldl (fun s k => s.modThread x.blk k (settledLatch x.op)) s)
    | none => s

def dropOp (s : State) (sector id : Nat) : State :=
  s.modSector sector (fun k => { k with mq := k.mq.filter (fun y => y.id != id) })

/-- Entries are done: they leave the queue, room is told (R107). -/
def finishOps (s : State) (sector : Nat) (l : List MOp) : State :=
  let s := l.foldl (fun s x => (finishInst (dropOp s sector x.id) sector x).postOnce s.cycle (.blockRetire x.blk)) s
  if l.any (·.real) then s.postOnce s.cycle (.matrixQueueRoom sector) else s

/-- A discarded entry keeps its place in its warp's order until it has marked its tile (R345, R355). -/
def MOp.discarded (x : MOp) : MOp := { x with quarter := 4, lanes := [], pages := [], kind := 0, settles := [] }

/-- An uncorrectable error on what an entry reads: it and every later entry of the warp are discarded, their tiles marked
invalid, each when its turn comes, the warp's matrix work halts, a record is written (R345, R355). -/
def haltMatrix (s : State) (sector : Nat) (b : Block) (x : MOp) (dom pa : Nat) : State :=
  let q := (s.sector sector).mq
  let later := (q.dropWhile (fun y => y.id != x.id)).filter (fun y => y.id == x.id || (sameWarp x y && y.real))
  let s := s.modBlock x.blk (fun b => b.modWarpMatrix x.warp (fun m => { m with halt := some 0x13 }))
  let r := tileRecord b x.blk x.warp 3 0x13 ((tileOf x.op).getD 0) 0 0 0 0
  let s := finishOps (reportError s b.part { r with domain := dom, addr := pa }) sector later
  let marks := later.map (·.id)
  let s := (tileOf x.op).elim s (fun k => s.modTile x.blk x.warp k (fun t => { t with invalid := some 0x13 }))
  s.modSector sector (fun k => { k with mq := (q.filter (fun y => y.id != x.id)).map (fun y =>
    if mem? marks y.id then y.discarded else y) })

/-- One chunk of an entry applied to its rows (R349, R352, R353). -/
def applyChunk (b : Block) (x : MOp) (s : State) (j : Nat) : State :=
  let f := matSlot b x.op
  let rd := readBRows x.blk b.place.die f.fmt x.pages s (chunkElems b x.blk x.op x.p x.q j)
  rd.1.modBlock x.blk (fun b => b.modWarpMatrix x.warp (fun m =>
    x.lanes.foldl (fun m l =>
      let r := lanePos l.1
      let k := (tileOf x.op).getD 0
      match x.op with
      | .mtab .. => m.putLut (kindOf f.fmt) r (aValues (aFmt f.fmt) l.2.1)
      | .mlut .. =>
        m.setTile k ((upto 16).foldl (fun t n =>
          let ws := rd.2.map (fun row => ((row.getD n ⟨none, 0, 0⟩).bits).getD 0)
          t.put r n (accumulate x.kind f.satc (t.get r n) (lutTerms m x.kind r ws))) (m.tile k))
      | _ =>
        let terms := chunkTerms (formNo x.op == 1) (chunkLen f.fmt) j (aValues (aFmt f.fmt) l.2.1) l.2.2
        m.setTile k ((upto 16).foldl (fun t n => t.put r n (productElem f (t.get r n) rd.2 terms n)) (m.tile k))) m))

/-- Chunks of an entry in one pass, until an access meets an error (R338, R345). -/
def runChunks (sector : Nat) (b : Block) (x : MOp) : State → Nat → Nat → State
  | s, j, 0 =>
    if x.stop ≤ j then finishOps s sector [x]
    else s.modSector sector (fun k => { k with mq := k.mq.map (fun y => if y.id = x.id then { y with chunk := j } else y) })
  | s, j, n + 1 =>
    match (chunkAccesses b x.blk x.op x.p x.q j).findSome? (fun a => targetBad s (cmdTargets s x.blk x.pages a)) with
    | some (dom, pa) => haltMatrix s sector b x dom pa
    | none => runChunks sector b x (applyChunk b x s j) (j + 1) n

/-- Instructions that wait in order and whose wait is over: an `mclr` takes effect, an MDR instruction issues again (R354,
R355, R427). -/
def ripe (before : List MOp) (x : MOp) : Bool :=
  before.all (fun y => !sameWarp x y || !(tileOf y.op == tileOf x.op || touchesMemory x.op))

def ripeOps : List MOp → List MOp → List MOp
  | _, [] => []
  | before, x :: r =>
    let rest := ripeOps (before ++ [x]) r
    if !x.real && ripe before x then x :: rest else rest

/-- KIND 1 f32 or 2 i32 that an `mld` gives a tile through a slot (R359). -/
def loadKind (f : Slot) : Option Nat :=
  if f.sl = 0 then
    (if f.fmt = 1 ∨ f.fmt = 6 ∨ f.fmt = 7 then some 2 else if 2 ≤ f.fmt ∧ f.fmt ≤ 5 then some 1 else none)
  else if 4 ≤ f.fmt ∧ f.fmt ≤ 8 ∧ f.sl ≤ 2 then some 1
  else none

/-- The KIND that a tile has after the instructions of its warp that are still queued: an `mclr` unsets it, and the first one
after it that names a KIND sets it (R332, R354, R355). -/
def kindAfter (bid w k : Nat) (kind : Nat) (q : List MOp) : Nat :=
  (q.filter (fun x => x.blk == bid && x.warp == w && tileOf x.op == some k)).foldl (fun kind x =>
    match x.op with
    | .mclr .. => 0
    | _ => if kind = 0 then x.kind else kind) kind

/-- The KIND that queued entries at the head of a tile's order give it, set once what stood before them is over. -/
def fixKind (s : State) (sector bid w k : Nat) : State :=
  let q := ((s.sector sector).mq.filter (fun x => x.blk == bid && x.warp == w && tileOf x.op == some k)).takeWhile (·.real)
  s.modTile bid w k (fun t => { t with kind := kindAfter bid w k t.kind q })

/-- An instruction that stood in the order without an entry is over. -/
def dropPseudo (s : State) (sector : Nat) (x : MOp) : State :=
  match tileOf x.op with
  | some k => fixKind (dropOp s sector x.id) sector x.blk x.warp k
  | none => dropOp s sector x.id

/-- An `mclr` takes effect, or a discarded entry marks its tile (R332, R345, R354). -/
def clearTile (s : State) (sector : Nat) (x : MOp) : State :=
  let t : Tile → Tile := match x.op with
    | .mclr .. => fun _ => .fresh
    | _ => fun t => { t with invalid := some 0x13 }
  dropPseudo (match tileOf x.op with | some k => s.modTile x.blk x.warp k t | none => s) sector x

/-- What acts by itself when its turn comes: an `mclr`, and a discarded entry. -/
def actsInOrder (i : Instr) : Bool :=
  match i with
  | .mdrain .. | .mdst .. | .mld .. | .mchk .. => false
  | _ => true

/-- As many steps as there are instructions in the queue. -/
def settleSome (sector : Nat) : Nat → State → State
  | 0, s => s
  | n + 1, s =>
    match (ripeOps [] (s.sector sector).mq).find? (fun x => actsInOrder x.op) with
    | some x => settleSome sector n (clearTile s sector x)
    | none => (ripeOps [] (s.sector sector).mq).foldl (fun s x => unhold s x.blk x.path .tile) s

/-- What waits in order goes on: every `mclr` whose turn has come, then the MDR instructions (R354, R355, R427). -/
def settleOrder (sector : Nat) (s : State) : State := settleSome sector ((s.sector sector).mq.length + 1) s

/-- END of a pass: its chunks take effect, finished entries leave, what waited goes on (R337, R338, R349).
(log 36, DEDUCED) -/
def endPass (sector : Nat) (s : State) : State :=
  match (s.sector sector).pass with
  | none => s
  | some p =>
    if p.endAt ≤ s.cycle then
      let s := s.modSector sector (fun k => { k with pass := none })
      let s := p.ids.foldl (fun s id =>
        match (s.sector sector).mq.find? (fun x => x.id == id && x.real) with
        | none => s
        | some x =>
          match tget s.blocks x.blk with
          | none => finishOps s sector [x]
          | some b => runChunks sector b x s x.chunk (if formNo x.op = 1 then min 2 (x.stop - x.chunk) else 1)) s
      pokeArrays (settleOrder sector s) (sector / 4) s.cycle
    else s

def execMatrixPassEnd (s : State) : Host.Outcome State Fault Refusal :=
  device s fun
    | .matrixPassEnd sector => some (endPass sector s)
    | _ => none

/-- Room in a sector's matrix queue lets its held path issue again (R107). -/
def matrixRoom (sector : Nat) (s : State) : State :=
  (s.blocksOn (sector / 4)).foldl (fun s e => e.2.paths.foldl (fun s x =>
    if e.2.sectorOf x.2.warp = sector then unhold s e.1 x.1 .matrixQueue else s) s) s

def execMatrixQueueRoom (s : State) : Host.Outcome State Fault Refusal :=
  device s fun
    | .matrixQueueRoom sector => some (matrixRoom sector s)
    | _ => none

/-! Issue -/

/-- The form belongs to the MMA group (R345, R347). -/
def isMma (i : Instr) : Bool :=
  match i with
  | .mma .. | .mmas .. | .mtab .. | .mlut .. | .mclr .. => true
  | _ => false

/-- Steps 1 to 3 of R347: a cause, or none. -/
def matHead (c : Ctx) (i : Instr) : Option Nat :=
  if c.p.finder ∨ c.p.formed then some 0x0D
  else if isMma i ∧ (c.b.warpMatrix c.p.warp).halt.isSome then some 0x11
  else
    match tileOf i with
    | some k => if c.b.acc ≤ k then some 0x0B else none
    | none => none

/-- The active lanes with their threads, low lane positions first. -/
def matLanes (c : Ctx) : List (Nat × Thread) := byLane (c.b.lanesOf c.p.lanes)

def isReplay (c : Ctx) : Bool := !(matLanes c).isEmpty && (matLanes c).all (fun e => e.2.latch.replay)

/-- Active lanes disagree on whether their latches are full (R336). -/
def latchMixed (l : List (Nat × Thread)) : Bool := l.any (·.2.latch.full) && !l.all (·.2.latch.full)

/-- The cells a lane brings, deepest first: from its latch, or popped above p and q. -/
def laneCells (full : Bool) (above n : Nat) (t : Thread) : List Val :=
  if full then t.latch.cells else (((t.stack.drop above).take n).map (·.val)).reverse

/-- The form takes its A cells through the latch (R336). -/
def usesLatch (i : Instr) : Bool :=
  match i with
  | .mma .. | .mmas .. | .mtab .. => true
  | _ => false

/-- Steps 4, 6 and 7 of R347 in every lane: depth and latency for the path, errors and poison for a lane. -/
def matConsume (c : Ctx) (i : Instr) (full : Bool) (pushes : Nat) : LanesRes :=
  let pops := matrixPops c.b full false i
  let useLatch := usesLatch i && full
  perLane c (fun _ t =>
    (checkDepth t.stack.length pops pops pushes (laneCeil c.b c.p)).bind fun _ =>
    (consume c.env (t.stack.take pops)).bind fun vs =>
    (if useLatch && !t.latch.bad.isEmpty then LaneRes.lane { cause := 0x13, dom := 0 } else .ok ()).bind fun _ =>
    (refusePoison (vs ++ (if useLatch then t.latch.cells else []))).map fun _ => t)

/-- The lane whose p and q the path uses (R347). -/
def chosenOf (l : List (Nat × Thread)) : Option (Nat × Thread) :=
  match l.find? (fun e => e.2.cls == .live) with
  | some e => some e
  | none => l.head?

def topWord (t : Thread) (i : Nat) : Word := ((t.stack.getD i (.ofWord 0)).val).bits

/-- Non-helper lanes agree on the top n cells. -/
def topAgree (n : Nat) (l : List (Nat × Thread)) : Bool := operandsAgree n (l.filter (fun e => e.2.cls == .live))

/-- A slot that the form accepts (R334, R341, R352). -/
def slotFits (b : Block) (i : Instr) : Bool :=
  let f := matSlot b i
  match i with
  | .mma .. => (f.sl == 0 && decide (3 ≤ f.fmt) && decide (f.fmt ≤ 6)) || (f.sl == 1 && f.fmt == 8)
  | .mmas .. => f.sl == 0 && decide (3 ≤ f.fmt) && decide (f.fmt ≤ 6)
  | .mtab .. => f.sl == 0 && decide (3 ≤ f.fmt) && decide (f.fmt ≤ 6)
  | .mlut .. => f.sl == 0 && f.fmt == 1
  | _ => true

/-- The shape conditions of a form's entry, and a slot behind the shape (R21, R348, R353). -/
def shapeFits (b : Block) (i : Instr) : Bool :=
  let h := matShape b i
  match i with
  | .mma .. | .mmas .. =>
    let k := denseK b i
    let len := chunkLen (matSlot b i).fmt
    let m := matrixCells b i
    h.used && (b.slotOf h.fsl).fmt != 0 && decide (2 ≤ h.rank) && decide (h.rank ≤ 4) && k % len == 0 && decide (len ≤ k) && decide (k ≤ 8 * len)
      && decide (m.1 + m.2 ≤ 64)
  | .mlut .. => h.used && h.spad && decide (h.rank ≤ 2) && decide (planesOf i ≤ h.ext.getD 1 1)
  | _ => true

/-- The latch matches what a form that uses it needs (R336). -/
def latchFits (b : Block) (i : Instr) (t : Thread) : Bool :=
  let m := matrixCells b i
  !usesLatch i || !t.latch.full || (t.latch.cells.length == m.1 + m.2 && t.latch.fmt == aFmt (matSlot b i).fmt)

/-- The KIND that a form gives its tile, 0 for a form that gives none. -/
def formKind (b : Block) (w : Nat) (i : Instr) : Nat :=
  match i with
  | .mlut .. => (b.warpMatrix w).lutKind
  | .mma .. | .mmas .. | .mtab .. => kindOf (matSlot b i).fmt
  | .mld .. => (loadKind (matSlot b i)).getD 0
  | _ => 0

def Ctx.sector (c : Ctx) : Nat := c.b.sectorOf c.p.warp

/-- KIND of a tile at the issue of an instruction: after all that its warp has issued before it (R332, R355). -/
def issueKind (s : State) (c : Ctx) (k : Nat) : Nat :=
  kindAfter c.bid c.p.warp k (s.tile c.bid c.p.warp k).kind (s.sector c.sector).mq

/-- The tile's KIND is unset or the form's (R332). -/
def kindFits (s : State) (c : Ctx) (i : Instr) : Bool :=
  match tileOf i with
  | some k => issueKind s c k == 0 || issueKind s c k == formKind c.b c.p.warp i
  | none => true

/-- Lanes of a quarter. -/
def quarterLanes {α : Type} (q : Nat) (l : List (Nat × α)) : List (Nat × α) := l.filter (fun e => lanePos e.1 / 8 == q)

/-- Source lanes of a quarter (R339). -/
def sources {α : Type} (sel : Byte) (l : List (Nat × α)) : List (Nat × α) := l.filter (fun e => bit? sel.toNat (lanePos e.1 % 8))

/-- Index cells of a lane: those of the highest source at or below it, else of the lowest source (R339). -/
def sourceFor {α : Type} (src : List (Nat × α)) (key : Nat) : Option α :=
  match (src.filter (fun e => decide (lanePos e.1 ≤ lanePos key))).getLast? with
  | some e => some e.2
  | none => src.head?.map (·.2)

/-- Step 10 of R347. -/
def sourcesOk {α : Type} (i : Instr) (l : List (Nat × α)) : Bool :=
  match i with
  | .mmas _ _ _ _ _ sel => (upto 4).all (fun q => let ql := quarterLanes q l; ql.isEmpty || !(sources sel ql).isEmpty)
  | _ => true

/-- A lane's A cells and the index cells that serve it. -/
def entryLanes (b : Block) (i : Instr) (l : List (Nat × List Word)) : List (Nat × List Word × List Word) :=
  let m := (matrixCells b i).1
  match i with
  | .mmas _ _ _ _ _ sel =>
    l.map (fun e =>
      let src := sources sel (quarterLanes (lanePos e.1 / 8) l)
      (e.1, e.2.take m, ((sourceFor src e.1).getD []).drop m))
  | _ => l.map (fun e => (e.1, e.2, []))

/-- One entry per quarter with lanes (R333). -/
def newEntries (s : State) (c : Ctx) (i : Instr) (lanes : List (Nat × List Word × List Word)) (p q : Word)
    (pages : List (Nat × Nat × Bool)) (start stop : Nat) (settles : List Nat) : State × List MOp :=
  let inst := s.fresh
  let mk := fun (acc : State × List MOp) (k : Nat) =>
    let ql := quarterLanes k lanes
    if ql.isEmpty then acc
    else
      let id := acc.1.fresh
      (id.2, acc.2 ++ [⟨id.1, inst.1, c.bid, c.pid, c.p.warp, k, i, ql, p, q, pages, start, stop, s.cycle, c.p.pc,
        formKind c.b c.p.warp i, settles⟩])
  (upto 4).foldl mk (inst.2, [])

/-- A reading of the rules (log 36, DEDUCED). -/
def queuedReal (s : State) (sector : Nat) : Nat := ((s.sector sector).mq.filter (·.real)).length

/-- Entries put behind the queue; the array looks for a pass in the next cycle (R106, R333). -/
def pushOps (s : State) (c : Ctx) (l : List MOp) : State :=
  let k := c.sector
  pokeArrays (s.modSector k (fun x => { x with mq := x.mq ++ l })) c.b.place.coreNo (s.cycle + 1)

/-- The LUT type that an `mtab` sets as it issues (R352). -/
def setLutType (s : State) (c : Ctx) (i : Instr) : State :=
  match i with
  | .mtab .. => s.modBlock c.bid (fun b => b.modWarpMatrix c.p.warp (fun m => { m with lutKind := formKind b c.p.warp i }))
  | _ => s

/-- Entries enter the queue; an unset KIND becomes theirs unless something else stands before them on the tile (R332, R352,
R355). -/
def enterOps (s : State) (c : Ctx) (i : Instr) (l : List MOp) : State :=
  let s := pushOps (setLutType s c i) c l
  match tileOf i with
  | some k => fixKind s c.sector c.bid c.p.warp k
  | none => s

/-- A lane after the instruction: cells popped, latch set (R336). (log 38, DEDUCED) -/
def afterLatch (b : Block) (i : Instr) (pops : Nat) (cells : List Val) (t : Thread) : Thread :=
  let t := { t with stack := t.stack.drop pops }
  match i with
  | .mlut .. => t
  | _ => { t with latch := if keepsLatch i then ⟨cells, t.latch.bad, true, aFmt (matSlot b i).fmt, false, 0, []⟩ else .empty }

/-- A lane whose replay latch an instruction has taken its operands from; it is set once the last chunk has finished (R351).
(log 38, DEDUCED) -/
def takenLatch (t : Thread) : Thread := { t with latch := { t.latch with replay := false, next := 0, pq := [] } }

/-- A lane at a failed page check: cells popped, latch full and marked replay (R350); `mlut` has no operands for it.
(log 38, DEDUCED) -/
def replayLatch (b : Block) (i : Instr) (pops : Nat) (cells : List Val) (j : Nat) (p q : Word) (t : Thread) : Thread :=
  if !usesLatch i then t
  else { t with stack := t.stack.drop pops, latch := ⟨cells, t.latch.bad, true, aFmt (matSlot b i).fmt, true, j, [p, q]⟩ }

/-- What a quarter form brings to its queue: lanes with their cells, p and q, the first chunk, the cells it pops, and whether it
is issued again from its replay latches. -/
structure QuarterOp where
  lanes : List (Nat × Thread)
  cells : List (Nat × List Val)
  trapped : List (Nat × TrapInfo)
  p : Word
  q : Word
  start : Nat
  pops : Nat
  replay : Bool

/-- The pages that hold an instruction at its issue: with B in scratchpad it never holds (R350). -/
def holdAccesses (b : Block) (bid : Nat) (i : Instr) (p q : Word) (start : Nat) : List CmdAccess :=
  if (matShape b i).spad then [] else formAccesses b bid i p q start

def cellsOf (x : QuarterOp) (k : Nat) : List Val := ((x.cells.find? (fun e => e.1 == k)).map (·.2)).getD []

/-- Steps 11 and 12 of R347, then the entries (R349, R350). (log 36, DEDUCED) -/
def placeQuarters (i : Instr) (h : Hdr) (x : QuarterOp) (s : State) (c : Ctx) : State :=
  let all := fun (s : State) (t : TrapInfo) => trapLanes s c.bid c.pid (x.trapped ++ x.lanes.map (fun e => (e.1, t)))
  let fmt := (matSlot c.b i).fmt
  let elems := (upto (chunksOf c.b i - x.start)).flatMap (fun j => (chunkElems c.b c.bid i x.p x.q (x.start + j)).flatten)
  match elems.findSome? (elemBad c.b fmt) with
  | some a => all s { cause := 0x0B, addr := a }
  | none =>
    let lanes := entryLanes c.b i (x.lanes.map (fun e => (e.1, (cellsOf x e.1).map (·.bits))))
    let need := ((upto 4).filter (fun k => !(quarterLanes k lanes).isEmpty)).length
    if Config.matrixQueue < queuedReal s c.sector + need then holdPath s c .matrixQueue
    else
      let accs := formAccesses c.b c.bid i x.p x.q x.start
      match awaitPages s c (.mmaPageCheckComplete c.bid c.pid) (holdAccesses c.b c.bid i x.p x.q x.start) with
      | some s => holdPath s c .pageCheck
      | none =>
        let d := laneDepth c.b c.p
        let settles := if x.replay then x.lanes.map (·.1) else []
        let r := checkAccesses c.b.who c.bid 8 s [] accs
        match r.2 with
        | .ok pages =>
          let e := newEntries r.1 c i lanes x.p x.q pages x.start (chunksOf c.b i) settles
          let s := enterOps e.1 c i e.2
          let ok := x.lanes.map (fun t =>
            (t.1, if x.replay then takenLatch t.2 else afterLatch c.b i x.pops (cellsOf x t.1) t.2))
          finishLanes s c h (.all ok x.trapped)
            { pc := c.next, await := e.2.head?.toList.map (fun y => instMark y.inst y.pc), xfer := transfers d (d - x.pops) }
        | .fail j cause addr pages =>
          let e := newEntries r.1 c i lanes x.p x.q pages x.start j []
          let s := if x.start < j then enterOps e.1 c i e.2 else setLutType e.1 c i
          let s := if x.trapped.isEmpty then s else trapLanes s c.bid c.pid x.trapped
          let s := putThreads s c.bid (x.lanes.map (fun t => (t.1, replayLatch c.b i x.pops (cellsOf x t.1) j x.p x.q t.2)))
          let s := s.modPath c.bid c.pid (fun p => { p with prog := j, pageFault := some (cause, addr, c.coll) })
          let s := holdPath s c .pageCheck
          if x.start < j then s else s.post s.cycle (.mmaPageFault c.bid c.pid)

/-- Reduced service takes a B slot of format 3 only (R422). -/
def reducedBad (s : State) (b : Block) (i : Instr) : Bool :=
  s.reduced && (match i with
    | .mma .. | .mmas .. => (matSlot b i).fmt != 3
    | _ => false)

/-- A quarter form (R333, R347-R353). `pq` says that it pops p and q. -/
def quarterForm (i : Instr) (h : Hdr) (pq : Bool) (s : State) (c : Ctx) : State :=
  let ls := matLanes c
  match c.p.pageFault with
  | some (cause, addr, _) => trapPath s c { cause := cause, addr := addr, prog := c.p.prog }
  | none =>
    if isReplay c then
      let w := ((chosenOf ls).map (·.2.latch.pq)).getD []
      placeQuarters i h ⟨ls, ls.map (fun e => (e.1, e.2.latch.cells)), [], w.getD 0 0, w.getD 1 0,
        ((chosenOf ls).map (·.2.latch.next)).getD 0, 0, true⟩ s c
    else
      match matHead c i with
      | some k => trapPath s c { cause := k }
      | none =>
      let full := usesLatch i && latchFull c.b c.p
      let m := matrixCells c.b i
      let pops := matrixPops c.b full false i
      match matConsume c i full 0 with
      | .path t => if usesLatch i ∧ latchMixed ls ∧ t.cause = 0x05 then trapPath s c { cause := 0x08 } else trapPath s c t
      | .all ok tr =>
        let good := byLane ok
        let stop := fun (k : Nat) => trapLanes s c.bid c.pid (tr ++ good.map (fun e => (e.1, { cause := k })))
        if usesLatch i ∧ latchMixed ls then trapPath s c { cause := 0x08 }
        else if good.isEmpty then trapLanes s c.bid c.pid tr
        else if pq ∧ !topAgree 2 good then stop 0x08
        else
          let chosen := (chosenOf good).map (·.2)
          let q := if pq then (chosen.map (fun t => topWord t 0)).getD 0 else 0
          let p := if pq then (chosen.map (fun t => topWord t 1)).getD 0 else 0
          if reducedBad s c.b i || !slotFits c.b i || !shapeFits c.b i || !good.all (fun e => latchFits c.b i e.2)
              || !kindFits s c i || !noStraddle c.b i p q then stop 0x14
          else if !sourcesOk i good then stop 0x08
          else
            let cells := good.map (fun e => (e.1, laneCells full (if pq then 2 else 0) (m.1 + m.2) e.2))
            placeQuarters i h ⟨good, cells, tr, p, q, 0, pops, false⟩ s c

/-- The slot is QN4 (R39, R346). -/
def matQn4 (i : Instr) (b : Block) : Bool := (matSlot b i).fmt == 8

/-- mma (R348, R349). -/
def execMma (h : Hdr) (u : Bool) (fs : BitVec 3) (acc : BitVec 3) (wb : BitVec 4) (s : State) : Host.Outcome State Fault Refusal :=
  issue (.mma h u fs acc wb) h { scopes := [.lane], qn4 := matQn4 (.mma h u fs acc wb) }
    (quarterForm (.mma h u fs acc wb) h true) s

/-- mmas (R339, R348, R349). -/
def execMmas (h : Hdr) (u : Bool) (fs : BitVec 3) (acc : BitVec 3) (wb : BitVec 4) (sel : Byte) (s : State) :
    Host.Outcome State Fault Refusal :=
  issue (.mmas h u fs acc wb sel) h { scopes := [.lane], feats := [3], qn4 := matQn4 (.mmas h u fs acc wb sel) }
    (quarterForm (.mmas h u fs acc wb sel) h true) s

/-- mtab (R340, R352). -/
def execMtab (h : Hdr) (u : Bool) (fs : BitVec 3) (s : State) : Host.Outcome State Fault Refusal :=
  issue (.mtab h u fs) h { scopes := [.lane], feats := [4], qn4 := matQn4 (.mtab h u fs) } (quarterForm (.mtab h u fs) h false) s

/-- mlut (R341, R353). -/
def execMlut (h : Hdr) (two : Bool) (acc : BitVec 3) (wb : BitVec 4) (s : State) : Host.Outcome State Fault Refusal :=
  issue (.mlut h two acc wb) h { scopes := [.lane], feats := [4], qn4 := matQn4 (.mlut h two acc wb) } (quarterForm (.mlut h two acc wb) h false) s

/-- An instruction that stands in the warp's order without an entry. -/
def pseudoOp (s : State) (c : Ctx) (i : Instr) : State :=
  let id := s.fresh
  pushOps id.2 c [⟨id.1, id.1, c.bid, c.pid, c.p.warp, 4, i, [], 0, 0, [], 0, 0, s.cycle, c.p.pc, formKind c.b c.p.warp i, []⟩]

/-- mclr: in the order of the warp's instructions on the tile, without a hold (R354, R355). -/
def mclrBody (i : Instr) (h : Hdr) (s : State) (c : Ctx) : State :=
  match matHead c i with
  | some k => trapPath s c { cause := k }
  | none => retire (settleOrder c.sector (pseudoOp s c i)) c h { pc := c.next }

def execMclr (h : Hdr) (acc : BitVec 3) (s : State) : Host.Outcome State Fault Refusal :=
  issue (.mclr h acc) h { scopes := [.lane] } (mclrBody (.mclr h acc) h) s

/-! Page checks of held instructions -/

/-- The page check of a held matrix instruction is over; it issues again (R350). -/
def execMmaPageCheckComplete (s : State) : Host.Outcome State Fault Refusal :=
  device s fun
    | .mmaPageCheckComplete bid pid => some (pageCheckDone bid pid s)
    | _ => none

/-- The chunks before the page failure of a held matrix instruction have finished: it issues again and raises its cause
(R350). -/
def raisePageFault (bid pid : Nat) (s : State) : State :=
  match s.path? bid pid with
  | none => s
  | some p => if p.pageFault.isSome then unhold s bid pid .pageCheck else s

def execMmaPageFault (s : State) : Host.Outcome State Fault Refusal :=
  device s fun
    | .mmaPageFault bid pid => some (raisePageFault bid pid s)
    | _ => none

end Sys2Proof.Machine
end

