-- ==== Sys2Proof/Machine/Drains.lean ====
section
/-! DEFINITION. MDR: mdrain, mchk, mdst and mld (R343-R345, R347, R355, R357-R359, R427). -/

namespace Sys2Proof.Machine

/-! Waiting in order -/

/-- The path's own place in the warp's order. -/
def ownPlace (s : State) (c : Ctx) : Option MOp :=
  (s.sector c.sector).mq.find? (fun x => !x.real && x.blk == c.bid && x.path == c.pid && touchesMdr x.op)
where
  touchesMdr (i : Instr) : Bool :=
    match i with
    | .mdrain .. | .mdst .. | .mld .. | .mchk .. => true
    | _ => false

/-- The instruction's wait under R355: it holds its path until nothing it depends on stands before it (R427), then acts. -/
def inOrder (i : Instr) (act : State → Ctx → State) (s : State) (c : Ctx) : State :=
  let s := match ownPlace s c with
    | some _ => s
    | none => pseudoOp s c i
  match ownPlace s c with
  | none => s
  | some x =>
    let before := (s.sector c.sector).mq.takeWhile (fun y => y.id != x.id)
    if ripe before x then act s c else holdPath s c .tile

/-- The instruction is done or has trapped: its place is free, what waited behind it goes on. -/
def leaveOrder (s : State) (c : Ctx) : State :=
  match ownPlace s c with
  | some x =>
    let s := settleOrder c.sector (dropPseudo s c.sector x)
    pokeArrays s c.b.place.coreNo (s.cycle + 1)
  | none => s

/-- Every active lane raises the tile's cause (R345, R357). -/
def tileCause (s : State) (c : Ctx) (k : Nat) : Nat := (((s.tile c.bid c.p.warp k).invalid).map (·.toNat)).getD 0x13

/-- An MDR form: its own checks, its wait, then `act` for the lanes with their popped cells still on their stacks. -/
def mdrForm (i : Instr) (pushes : Nat) (act : List (Nat × Thread) → List (Nat × TrapInfo) → State → Ctx → State)
    (s : State) (c : Ctx) : State :=
  match matHead c i with
  | some k => trapPath (leaveOrder s c) c { cause := k }
  | none =>
    match matConsume c i false pushes with
    | .path t => trapPath (leaveOrder s c) c t
    | .all ok tr =>
      match byLane ok with
      | [] => trapLanes (leaveOrder s c) c.bid c.pid tr
      | good => inOrder i (act good tr) s c

/-- Cells pushed on every lane, `f` giving them top first, long-latency (R94, R357). -/
def pushLong (c : Ctx) (pops : Nat) (f : Nat → List Word) (l : List (Nat × Thread)) : List (Nat × Thread) :=
  l.map (fun e => (e.1, { e.2 with stack := (f (lanePos e.1)).map (fun w => c.env.longResult (.clean w)) ++ e.2.stack.drop pops }))

/-- mdrain and mchk after their wait: check, then the row of each lane, column 15 on top, and the status (R357). -/
def drainAct (k : Nat) (row : Bool) (h : Hdr) (good : List (Nat × Thread)) (tr : List (Nat × TrapInfo)) (s : State) (c : Ctx) :
    State :=
  let x := checkTile s c k
  if x.2 = 3 then
    trapLanes (leaveOrder x.1 c) c.bid c.pid (tr ++ good.map (fun e => (e.1, { cause := tileCause x.1 c k, dom := 5 })))
  else
    let t := x.1.tile c.bid c.p.warp k
    let d := laneDepth c.b c.p
    let f := fun (r : Nat) => wd x.2 :: (if row then (t.shown r).reverse else [])
    finishLanes (leaveOrder x.1 c) c h (.all (pushLong c 0 f good) tr)
      { pc := c.next, owed := 1, xfer := transfers d (d + (if row then 17 else 1)) }

/-- mdrain (R357). -/
def execMdrain (h : Hdr) (acc : BitVec 3) (s : State) : Host.Outcome State Fault Refusal :=
  issue (.mdrain h acc) h { scopes := [.lane] } (mdrForm (.mdrain h acc) 17 (drainAct acc.toNat true h)) s

/-- mchk (R357). -/
def execMchk (h : Hdr) (acc : BitVec 3) (s : State) : Host.Outcome State Fault Refusal :=
  issue (.mchk h acc) h { scopes := [.lane] } (mdrForm (.mchk h acc) 1 (drainAct acc.toNat false h)) s

/-! mdst and mld -/

/-- Elements of a lane's row: column n at c0 = x + n, c1 = y (R358, R359). -/
def rowElems (c : Ctx) (i : Instr) (store : Bool) (t : Thread) : List Elem :=
  let x := (topWord t 0).toInt
  let y := (topWord t 1).toInt
  (upto 16).map (fun (n : Nat) => placeElem (matShape c.b i) (matSlot c.b i) (c.b.self c.bid) store [x + (n : Int), y])

/-- Slot and KIND of mdst (R358). -/
def storeKindOk (f : Slot) (kind : Nat) : Bool :=
  let asF := decide (2 ≤ f.fmt) && decide (f.fmt ≤ 5)
  let asI := f.fmt == 1 || f.fmt == 6 || f.fmt == 7
  f.sl == 0 && (match kind with
    | 0 => asF || asI
    | 1 => asF
    | _ => asI)

/-- bf16 under RND with SATC (R358). -/
def narrowBf16 (rm : RM) (sat : Bool) (v : FVal) : Nat :=
  let top := fun (neg : Bool) => Fmt.bf16.signed neg 0x7F7F
  match v with
  | .nan => 0x7FC0
  | .inf neg => if sat then top neg else Fmt.bf16.signed neg 0x7F80
  | .fin neg _ _ =>
    let r := Fmt.bf16.encode rm v
    if sat && r % 2 ^ 15 == 0x7F80 then top neg else r

/-- The element that mdst writes for an element of a tile (R358). -/
def storedElem (f : Slot) (kind : Nat) (w : Word) : Nat :=
  if kind = 1 then
    match f.fmt with
    | 2 => w.toNat
    | 3 => narrowBf16 f.rnd f.satc (f32 w)
    | _ => toFp8 f.fmt f.rnd f.satc (f32 w)
  else narrowPart f w.toNat

/-- The element that mld reads (R359). -/
def loadedElem (f : Slot) (v : BVal) : Word :=
  match v.bits with
  | none => 0
  | some n =>
    if f.sl ≠ 0 then wd (elemPart f n v.code v.group)
    else
      match f.fmt with
      | 3 => toF32 .rn (Fmt.bf16.decode n)
      | 4 | 5 => toF32 .rn (fp8Value f.fmt n)
      | _ => wd (elemPart f n 0 0)

/-- Steps 9, 11 and 12 for the rows of the lanes that are no helpers: a cause, a hold, or the checked pages. -/
inductive RowsRes where
  | trap (t : TrapInfo) (s : State)
  | hold (s : State)
  | ok (pages : List (Nat × Nat × Bool)) (s : State)

def checkRows (i : Instr) (write : Bool) (good : List (Nat × Thread)) (s : State) (c : Ctx) : RowsRes :=
  let f := matSlot c.b i
  let live := good.filter (fun e => e.2.cls == .live)
  let elems := live.flatMap (fun e => rowElems c i write e.2)
  match elems.findSome? (elemBad c.b f.fmt) with
  | some a => .trap { cause := 0x0B, addr := a } s
  | none =>
    let accs := elems.flatMap (elemAccesses f.fmt 0 write)
    match awaitPages s c (.mmaPageCheckComplete c.bid c.pid) accs with
    | some s => .hold s
    | none =>
      let r := checkAccesses c.b.who c.bid 8 s [] accs
      match r.2 with
      | .ok pages => .ok pages r.1
      | .fail _ cause addr _ => .trap { cause := cause, addr := addr } r.1

/-- An uncorrectable error on accesses: where it stands. -/
def accsBad (s : State) (bid : Nat) (pages : List (Nat × Nat × Bool)) (l : List CmdAccess) : Option (Nat × Nat) :=
  l.findSome? (fun a => targetBad s (cmdTargets s bid pages a))

/-- A tile marked invalid with cause 0x13 (R358, R359). -/
def spoilTile (s : State) (c : Ctx) (k : Nat) : State := s.modTile c.bid c.p.warp k (fun t => { t with invalid := some 0x13 })

/-- One element of a row written through the checked pages. -/
def putRowElem (f : Slot) (bid die : Nat) (pages : List (Nat × Nat × Bool)) (s : State) (e : Elem) (v : Nat) : State :=
  match elemAccesses f.fmt 0 true e with
  | a :: _ =>
    let nib := match e with
      | .at _ _ nib _ => nib
      | _ => 0
    writeUnit s bid die f.fmt pages (a, nib) v
  | [] => s

/-- The shape is in use, and so is its slot (R21). -/
def shapeNamed (b : Block) (i : Instr) : Bool := (matShape b i).used && (b.slotOf (matShape b i).fsl).fmt != 0

/-- mdst after its wait (R358). -/
def mdstAct (i : Instr) (k : Nat) (h : Hdr) (good : List (Nat × Thread)) (tr : List (Nat × TrapInfo)) (s : State) (c : Ctx) :
    State :=
  let stop := fun (s : State) (t : TrapInfo) =>
    trapLanes (leaveOrder s c) c.bid c.pid (tr ++ good.map (fun e => (e.1, t)))
  let f := matSlot c.b i
  if !shapeNamed c.b i || !storeKindOk f (s.tile c.bid c.p.warp k).kind then stop s { cause := 0x14 }
  else
    match checkRows i true good s c with
    | .trap t s => stop s t
    | .hold s => holdPath s c .pageCheck
    | .ok pages s =>
      let x := checkTile s c k
      if x.2 = 3 then stop x.1 { cause := tileCause x.1 c k, dom := 5 }
      else
        let t := x.1.tile c.bid c.p.warp k
        let live := good.filter (fun e => e.2.cls == .live)
        let accs := live.flatMap (fun e => (rowElems c i true e.2).flatMap (elemAccesses f.fmt 0 true))
        match accsBad x.1 c.bid pages accs with
        | some d => stop (spoilTile x.1 c k) { cause := 0x13, dom := d.1 }
        | none =>
          let s := live.foldl (fun s e =>
            ((rowElems c i true e.2).zip (t.shown (lanePos e.1))).foldl (fun s r =>
              putRowElem f c.bid c.b.place.die pages s r.1 (storedElem f t.kind r.2)) s) x.1
          let d := laneDepth c.b c.p
          finishLanes (leaveOrder s c) c h (.all (pushLong c 2 (fun _ => [wd x.2]) good) tr)
            { pc := c.next, owed := 1, xfer := transfers d (d - 1) }

/-- mdst: y beneath x (R358). -/
def execMdst (h : Hdr) (fs : BitVec 3) (acc : BitVec 3) (wb : BitVec 4) (s : State) : Host.Outcome State Fault Refusal :=
  issue (.mdst h fs acc wb) h { scopes := [.lane], qn4 := matQn4 (.mdst h fs acc wb) }
    (mdrForm (.mdst h fs acc wb) 1 (mdstAct (.mdst h fs acc wb) acc.toNat h)) s

/-- The tile that a load starts from: a valid one of its KIND as it stands, another one with every row zero (R359). -/
def loadBase (t : Tile) (kind : Nat) : Tile :=
  if t.invalid.isNone ∧ t.kind ≠ 0 then t else { Tile.fresh with kind := kind }

/-- Free words for the rows that a failed load leaves unspecified (R359). (log 38, DEDUCED) -/
def freeRows (rows : List Nat) (s : State) (t : Tile) : State × Tile :=
  (rows.flatMap (fun r => (upto 16).map (fun n => (r, n)))).foldl (fun (acc : State × Tile) e =>
    let w := acc.1.drawWord
    (w.2, acc.2.put e.1 e.2 w.1)) (s, t)

/-- Rows read through the checked pages. -/
def readRows (i : Instr) (pages : List (Nat × Nat × Bool)) (c : Ctx) :
    State → List (Nat × Thread) → State × List (Nat × List Word)
  | s, [] => (s, [])
  | s, e :: r =>
    let f := matSlot c.b i
    let x := if e.2.cls = .helper then (s, List.replicate 16 0)
      else
        let y := readBRow c.bid c.b.place.die f.fmt pages s (rowElems c i false e.2)
        (y.1, y.2.map (loadedElem f))
    let z := readRows i pages c x.1 r
    (z.1, (lanePos e.1, x.2) :: z.2)

/-- mld after its wait (R359). -/
def mldAct (i : Instr) (k : Nat) (h : Hdr) (good : List (Nat × Thread)) (tr : List (Nat × TrapInfo)) (s : State) (c : Ctx) :
    State :=
  let stop := fun (s : State) (t : TrapInfo) =>
    trapLanes (leaveOrder s c) c.bid c.pid (tr ++ good.map (fun e => (e.1, t)))
  let t := s.tile c.bid c.p.warp k
  match loadKind (matSlot c.b i) with
  | none => stop s { cause := 0x14 }
  | some kind =>
    if !shapeNamed c.b i || (t.invalid.isNone && t.kind != 0 && t.kind != kind) then stop s { cause := 0x14 }
    else
      match checkRows i false good s c with
      | .trap t s => stop s t
      | .hold s => holdPath s c .pageCheck
      | .ok pages s =>
        let live := good.filter (fun e => e.2.cls == .live)
        let accs := live.flatMap (fun e => (rowElems c i false e.2).flatMap (elemAccesses (matSlot c.b i).fmt 0 false))
        match accsBad s c.bid pages accs with
        | some _ =>
          let x := freeRows (good.map (fun e => lanePos e.1)) s { t with kind := if t.kind = 0 then kind else t.kind }
          stop (spoilTile (x.1.modTile c.bid c.p.warp k (fun _ => x.2)) c k) { cause := 0x13 }
        | none =>
          let x := readRows i pages c s good
          let base := loadBase t kind
          let t := x.2.foldl (fun t e =>
            ((upto 16).zip e.2).foldl (fun t w => t.put e.1 w.1 w.2) t) base
          let d := laneDepth c.b c.p
          finishLanes (leaveOrder (x.1.modTile c.bid c.p.warp k (fun _ => t)) c) c h
            (.all (pushLong c 2 (fun _ => []) good) tr) { pc := c.next, xfer := transfers d (d - 2) }

/-- mld: y beneath x (R359). -/
def execMld (h : Hdr) (fs : BitVec 3) (acc : BitVec 3) (wb : BitVec 4) (s : State) : Host.Outcome State Fault Refusal :=
  issue (.mld h fs acc wb) h { scopes := [.lane], qn4 := matQn4 (.mld h fs acc wb) }
    (mdrForm (.mld h fs acc wb) 0 (mldAct (.mld h fs acc wb) acc.toNat h)) s

end Sys2Proof.Machine
end

