-- ==== Sys2Proof/Machine/Boot.lean ====
section
/-! DEFINITION. The state a block starts in (R18, R53, R70, R102, R136), and the load that stands in for a program when no
path issues (log 9). -/

namespace Sys2Proof.Machine

def nullHandle : Word := 0xFFFF_FFFF

/-- The state of a thread when its block starts (R136, R249). -/
def freshThread (frame stack : Nat) (cls : LaneClass) (handle : Word) (recDepth : Nat) : Thread where
  cls := cls
  run := .running
  handle := handle
  recDepth := recDepth
  stack := []
  rows := List.replicate stack ⟨0, .clean⟩
  o := List.replicate 16 (.ofWord 0)
  m := List.replicate frame (.ofWord 0)
  forkD := []
  origin := 0
  fault := .none
  held := false
  behind := []
  stopRec := .none
  latch := .empty
  onPoison := false
  group := none

/-- Live and helper lanes of a batch of n records (R53); the others are dead and hold no thread. -/
def activeLanes (n : Nat) : Nat := (n + 3) / 4 * 4

/-- A path of a warp at its entry (R13, R18). -/
def freshPath (warp slot : Nat) (finder : Bool) (lanes : List Nat) (pc : Word) (w : List Cell) (cycle : Nat) : Path where
  warp := warp
  finder := finder
  formed := false
  slot := slot
  lanes := lanes
  pc := pc
  ust := []
  w := w
  run := .start 0 pc cycle
  wait := .parked
  since := cycle
  forks := []
  nest := none
  stepping := 0
  haltAt := none
  prog := 0
  checked := false
  pageFault := none
  stops := []

/-- The launch of a block: who it is, where it stands, its record, its constants (R18). -/
structure Launch where
  graph : GraphId
  place : Place
  homeSlice : Nat
  asid : Nat
  launch : LaunchRec
  depths : List Nat
  gang : List Nat
  iters : List Nat
  slots : Tab Nat

/-- Handle of a block lane (R32, R53). -/
def Launch.handle (l : Launch) (lane : Nat) : Word := l.launch.handles.getD lane nullHandle

/-- Threads of the lanes from 0 up, with finder threads 1,024 keys above (R53, R102). -/
def launchThreads (b : Block) (l : Launch) (finder : Bool) : Tab Thread :=
  let n := l.launch.handles.length
  let mk := fun (base : Nat) => (upto (activeLanes n)).map (fun i =>
    (base + i, freshThread b.frame b.stack (if i < n then .live else .helper) (l.handle i) (l.depths.getD i 0)))
  if finder then mk 0 ++ mk 1024 else mk 0

/-- A block in the state it starts in, without its paths. -/
def blockShell (l : Launch) : Block where
  graph := l.graph
  launch := l.launch
  place := l.place
  homeSlice := l.homeSlice
  asid := l.asid
  warps := 0
  depths := l.depths
  gang := l.gang
  iters := l.iters
  records := []
  threads := []
  paths := []
  forks := []
  rdvs := []
  stall := []
  spad := []
  badWords := []
  chans := []
  gatherHalt := []
  collHalt := []
  collSent := []
  smpHalt := none
  queues := []
  matrix := []
  mops := []
  saves := []
  homing := []
  filed := []
  routine := []
  ripe := []
  toSuspend := []
  slots := l.slots
  vacate := none
  stepList := []
  stepped := []
  errAt := (4, 0)
  killed := false
  resumed := false

/-- The block with its threads, and one path per warp that has lanes (and one per finder warp), numbered from `id`. -/
def buildBlock (l : Launch) (w : List Cell) (cycle id : Nat) : Block :=
  let b := blockShell l
  let n := activeLanes l.launch.handles.length
  let finder := b.fentry != 0
  let mk := fun (fin : Bool) (warp : Nat) =>
    let lanes := ((upto 32).filter (fun i => decide (32 * warp + i < n))).map (fun i => 32 * warp + i + 1024 * b2n fin)
    freshPath warp (tgetD l.slots warp 0) fin lanes (wd ((if fin then b.fentry else b.entry) - b.cbase)) w cycle
  let used := upto ((n + 31) / 32)
  { b with
    warps := (b.target + 31) / 32
    threads := launchThreads b l finder
    paths := used.map (fun i => (id + i, mk false i))
      ++ (if finder then used.map (fun i => (id + used.length + i, mk true i)) else []) }

/-! The load that stands in for a program -/

/-- Where the stand-in's code lies. -/
def bootCode : Nat := 0x10000

/-- The stand-in's node: entry and code base at `bootCode`, a section of 64 KiB, FRAME 8, STACK 8, batch target 1. -/
def bootSnap : Tab Byte :=
  [(0x02, 0x01), (0x18, 0x08), (0x19, 0x08), (0x4A, 0x01), (0x52, 0x01), (0x54, 0xFF), (0x55, 0xFF), (0x56, 0xFF),
   (0x57, 0xFF)]

/-- A page table of one 1 GiB leaf with V, W, X and U, at 0x1000 and 0x2000. -/
def bootTables : Memory := [(0x1000, 0x1D), (0x1001, 0x20), (0x2000, 0x1F)]

def bootLaunch : Launch where
  graph := ⟨0, 0⟩
  place := ⟨0, 0, 0⟩
  homeSlice := 0
  asid := 0
  launch := ⟨0, 0, 1, bootSnap, [0]⟩
  depths := [0]
  gang := []
  iters := []
  slots := [(0, 0)]

/-- A block of one record whose only warp holds its port, ready to issue the word at its entry. (log 9, DESIGN CHOICE) -/
def bootBlock (cycle : Nat) : Block :=
  let b := buildBlock bootLaunch (List.replicate 64 (.ofWord 0)) cycle 1
  { b with paths := b.paths.map (fun e => (e.1, { e.2 with wait := .issuing, run := .start 1 0 cycle })) }

/-- The stand-in block put into a state in which no path issues. (log 9, DESIGN CHOICE) -/
def State.withBoot (s : State) (word : Nat) : State :=
  { s with
    ids := 2
    events := []
    pkg := { s.pkg with thermal := none }
    mem := wrLE bootTables bootCode 4 word
    roots := tset s.roots 0 (0x1000, none)
    blocks := [(0, bootBlock s.cycle)]
    sectors := [(0, { Sector.idle with exec := some (0, 1) })] }

end Sys2Proof.Machine
end

