-- ==== Sys2Proof/Machine/Graph.lean ====
section
/-! DEFINITION. Graph, node and pool descriptors in memory, node status words, record slots and their metadata, and the
affinity functions (R11-R31, R59). -/

namespace Sys2Proof.Machine

/-! Descriptors -/

/-- The graph register of a level (R361, R410). -/
def graphReg (s : State) (g : GraphId) : DWord :=
  match g.lvl with
  | 0 => (s.part g.part).guest.gusr
  | 1 => (s.part g.part).guest.gsys
  | _ => s.pkg.ghyp

/-- The address of a registered graph's descriptor: bit 0 is V, and descriptors are 64-byte aligned (R11, R410). -/
def graphDesc (s : State) (g : GraphId) : Option Nat :=
  let r := (graphReg s g).toNat
  if bit? r 0 then some (r / 64 * 64) else none

/-- A field of the graph descriptor; none when there is no graph or the device cannot read it. -/
def graphField (s : State) (g : GraphId) (off n : Nat) : Option Nat :=
  (graphDesc s g).bind (fun a => devRead s g.part (a + off) n)

def nodeCount (s : State) (g : GraphId) : Option Nat := graphField s g 0x18 2
def poolCount (s : State) (g : GraphId) : Option Nat := graphField s g 0x1A 2

/-- The address of a node descriptor (R11). -/
def nodeAddr (s : State) (g : GraphId) (node : Nat) : Option Nat :=
  (graphField s g 0x00 8).map (fun ntb => ntb + 1408 * node)

def nodeField (s : State) (g : GraphId) (node off n : Nat) : Option Nat :=
  (nodeAddr s g node).bind (fun a => devRead s g.part (a + off) n)

/-- The address of a node's status word (R11). -/
def statusAddr (s : State) (g : GraphId) (node : Nat) : Option Nat :=
  (graphField s g 0x10 8).map (fun stb => stb + 8 * node)

/-- A node's status word (R29), zero where it cannot be read. (log 74, DESIGN CHOICE) -/
def nodeStatus (s : State) (g : GraphId) (node : Nat) : Nat :=
  ((statusAddr s g node).bind (fun a => devRead s g.part a 8)).getD 0

/-- A node's status word written by the device; nothing where it cannot be written. -/
def setStatus (s : State) (g : GraphId) (node v : Nat) : State :=
  match statusAddr s g node with
  | some a => (devWrite s g.part a 8 v).getD s
  | none => s

def statusEn (v : Nat) : Bool := bit? v 0
def statusValid (v : Nat) : Bool := bit? v 1

/-- EN, VALID cleared and a VCODE written (R30). -/
def failStatus (code v : Nat) : Nat := setBits (setBits v 1 0 0) 15 8 code
/-- EN and VALID cleared, TFLT set, VCODE 0 (R30, R59). -/
def faultStatus (v : Nat) : Nat := setBits (setBits (setBits v 1 0 0) 15 8 0) 3 3 1
/-- VALID set, VCODE and TFLT cleared (R30). -/
def passStatus (v : Nat) : Nat := setBits (setBits (setBits v 1 1 1) 15 8 0) 3 3 0
/-- ORPH counts one more, saturating (R29). -/
def orphStatus (v : Nat) : Nat := setBits v 63 48 (min 0xFFFF (bits v 63 48 + 1))

/-- A pool descriptor (R23). -/
structure Pool where
  base : Nat
  meta0 : Nat
  size : Nat
  count : Nat

def poolAt (s : State) (g : GraphId) (k : Nat) : Option Pool :=
  (graphField s g 0x08 8).bind fun ptb =>
    (devRead s g.part (ptb + 32 * k) 8).bind fun base =>
      (devRead s g.part (ptb + 32 * k + 8) 8).bind fun m =>
        (devRead s g.part (ptb + 32 * k + 16) 4).bind fun cfg =>
          (devRead s g.part (ptb + 32 * k + 20) 4).map fun n => ⟨base, m, 16 * (cfg % 16 + 1), n⟩

/-! Loads of these structures by an agent of a die, as the directory sees them (R315) -/

/-- A field of the graph descriptor. -/
def State.noteGraph (s : State) (g : GraphId) (off n : Nat) : State :=
  (graphDesc s g).elim s (fun a => s.noteRead g.part (a + off) n)

/-- A field of a node descriptor. -/
def State.noteField (s : State) (g : GraphId) (node off n : Nat) : State :=
  (nodeAddr s g node).elim s (fun a => (s.noteGraph g 0x00 8).noteRead g.part (a + off) n)

/-- A node's status word. -/
def State.noteStatus (s : State) (g : GraphId) (node : Nat) : State :=
  (statusAddr s g node).elim s (fun a => (s.noteGraph g 0x10 8).noteRead g.part a 8)

/-- A node's status word read and written back changed (R29, R315). -/
def modStatus (s : State) (g : GraphId) (node : Nat) (f : Nat → Nat) : State :=
  setStatus (s.noteStatus g node) g node (f (nodeStatus s g node))

/-- A pool descriptor. -/
def State.notePool (s : State) (g : GraphId) (k : Nat) : State :=
  (graphField s g 0x08 8).elim s (fun ptb => (s.noteGraph g 0x08 8).noteRead g.part (ptb + 32 * k) 24)

/-! Records -/

/-- Pool and slot of a handle (R24). -/
def handlePool (h : Word) : Nat := h.toNat / 2 ^ 24
def handleSlot (h : Word) : Nat := h.toNat % 2 ^ 24
def mkHandle (pool slot : Nat) : Word := wd (pool * 2 ^ 24 + slot)

/-- States of a slot (R25). -/
def slotFree : Nat := 0
def slotReserved : Nat := 1
def slotCommitted : Nat := 2
def slotLaunched : Nat := 3

/-- Metadata of a slot (R25). -/
def packMeta (owner node depth state : Nat) : Nat := owner * 2 ^ 32 + node * 2 ^ 6 + depth % 16 * 4 + state
def metaState (m : Nat) : Nat := m % 4
def metaDepth (m : Nat) : Nat := bits m 5 2
def metaNode (m : Nat) : Nat := bits m 17 6
def metaOwner (m : Nat) : Nat := bits m 63 32

/-- A handle names a slot of a pool (R24). -/
def poolOf (s : State) (g : GraphId) (h : Word) : Option Pool :=
  if h = 0xFFFF_FFFF then none
  else
    match poolCount s g, poolAt s g (handlePool h) with
    | some n, some p => if handlePool h < n ∧ handleSlot h < p.count then some p else none
    | _, _ => none

def readMeta (s : State) (g : GraphId) (h : Word) : Option Nat :=
  (poolOf s g h).bind (fun p => devRead s g.part (p.meta0 + 8 * handleSlot h) 8)

def writeMeta (s : State) (g : GraphId) (h : Word) (v : Nat) : State :=
  match poolOf s g h with
  | some p => (devWrite s g.part (p.meta0 + 8 * handleSlot h) 8 v).getD s
  | none => s

/-- The device's load of a slot's metadata reaches the directory (R315). -/
def noteMeta (s : State) (g : GraphId) (h : Word) : State :=
  match poolOf s g h with
  | some p => (s.notePool g (handlePool h)).noteRead g.part (p.meta0 + 8 * handleSlot h) 8
  | none => s

/-- A slot's STATE changed (R26). -/
def setSlotState (s : State) (g : GraphId) (h : Word) (st : Nat) : State :=
  match readMeta s g h with
  | some m => writeMeta (noteMeta s g h) g h (m / 4 * 4 + st)
  | none => s

/-- A slot becomes free, and its record leaves the loop iterations it belonged to, which may end (R26, R64). -/
def freeRecord (s : State) (g : GraphId) (h : Word) : State :=
  let s := setSlotState s g h slotFree
  let mine := s.iters.filter (fun e => e.2.graph == g && e.2.members.any (· == h))
  mine.foldl (fun s e =>
    { s with iters := tmod s.iters e.1 (fun it => { it with members := it.members.filter (fun m => m != h) }) }.postOnce
      s.cycle (.iterationEnd e.1)) s

/-- A launched record goes free (R26); a slot that is in another state by then has a new holder, and stays (R325). -/
def freeLaunched (s : State) (g : GraphId) (h : Word) : State :=
  match readMeta s g h with
  | some m => if metaState m = slotLaunched then freeRecord s g h else s
  | none => freeRecord s g h

/-- Address of a slot's payload. -/
def payloadAddr (s : State) (g : GraphId) (h : Word) : Option Nat :=
  (poolOf s g h).map (fun p => p.base + handleSlot h * p.size)

/-- The lowest free slot of a pool from slot i; R26 leaves the choice open (log 2). A slot whose metadata cannot be read ends
the search. (log 74, DESIGN CHOICE) -/
def freeSlotFrom (s : State) (g : GraphId) (p : Pool) : Nat → Nat → Option Nat
  | 0, _ => none
  | n + 1, i =>
    match devRead s g.part (p.meta0 + 8 * i) 8 with
    | some m => if metaState m = slotFree then some i else freeSlotFrom s g p n (i + 1)
    | none => none

/-- What a reservation answers (R56, R68). -/
inductive Reserve where
  | ok (handle : Word) (s : State)
  /-- 1 pool exhausted, 2 too deep, 3 node disabled. -/
  | status (v : Nat)
  /-- A structure the device needs cannot be read. -/
  | fault

/-- The loads that a reservation makes before it looks at a pool's slots. -/
def State.noteReserve (s : State) (g : GraphId) (node k : Nat) : State :=
  (((s.noteStatus g node).noteField g node 0x14 4).noteField g node 0x30 2).notePool g k

/-- A slot reserved for a record to a node (R56). (log 74, DESIGN CHOICE) -/
def reserve (s : State) (g : GraphId) (node depth owner : Nat) : Reserve :=
  if statusEn (nodeStatus s g node) = false then .status 3
  else
    match nodeField s g node 0x14 4, nodeField s g node 0x30 2 with
    | some c1, some k =>
      if c1 % 16 < depth then .status 2
      else
        match poolAt s g k with
        | none => .fault
        | some p =>
          match freeSlotFrom s g p p.count 0 with
          | none => .status 1
          | some i =>
            let h := mkHandle k i
            match devWrite ((s.noteReserve g node k).noteRead g.part p.meta0 (8 * (i + 1))) g.part (p.meta0 + 8 * i) 8 (packMeta owner node depth slotReserved) with
            | some t => .ok h t
            | none => .fault
    | _, _ => .fault

/-! Keys of tables that go with nodes -/

def graphKey (g : GraphId) : Nat := 4 * g.part + g.lvl
def nodeKey (g : GraphId) (node : Nat) : Nat := 4096 * graphKey g + node
def launcherKey (g : GraphId) (node die : Nat) : Nat := 4 * nodeKey g node + die

def State.launcher (s : State) (g : GraphId) (node die : Nat) : Launcher :=
  tgetD s.launchers (launcherKey g node die) .idle
def State.modLauncher (s : State) (g : GraphId) (node die : Nat) (f : Launcher → Launcher) : State :=
  { s with launchers := tset s.launchers (launcherKey g node die) (f (s.launcher g node die)) }

def State.node (s : State) (g : GraphId) (node : Nat) : NodeState := tgetD s.nodes (nodeKey g node) ⟨[], []⟩
def State.modNode (s : State) (g : GraphId) (node : Nat) (f : NodeState → NodeState) : State :=
  { s with nodes := tset s.nodes (nodeKey g node) (f (s.node g node)) }

/-! Commits -/

/-- The order of commits that reach a launcher in one cycle (R50). -/
def commitRank : CommitSrc → Nat
  | .lane _ _ core blk lane => (core * 2 ^ 32 + blk) * 1024 + lane
  | .fabric e => 2 ^ 64 + e
  | .host => 2 ^ 65
  | .sampler _ => 2 ^ 65 + 1

/-- A commit put among those of its cycle, earlier arrivals of its rank first (R50). -/
def insCommit (t : Nat) (rank : Nat) (e : Event) : List (Nat × Event) → List (Nat × Event)
  | [] => [(t, e)]
  | (u, f) :: r =>
    let after := match f with
      | .commitArrival _ _ _ src => decide (u < t) || (u == t && decide (commitRank src ≤ rank))
      | _ => decide (u < t)
    if after then (u, f) :: insCommit t rank e r else (t, e) :: (u, f) :: r

/-- The cycle in which a commit reaches the launchers: the next one (log 75, DESIGN CHOICE), and for the host the one after its
last commit through the partition's window (R327). -/
def commitCycle (s : State) (g : GraphId) (src : CommitSrc) : Nat :=
  if src = .host then
    s.events.foldl (fun t e => match e.2 with
      | .commitArrival g' _ _ .host => if g'.part = g.part then max t (e.1 + 1) else t
      | _ => t) (s.cycle + 1)
  else s.cycle + 1

/-- A commit is on its way to the launchers (R50, R327), which it reaches a cycle later. (log 75, DESIGN CHOICE) -/
def postCommit (s : State) (g : GraphId) (node : Nat) (h : Word) (src : CommitSrc) : State :=
  { s with events := insCommit (commitCycle s g src) (commitRank src) (.commitArrival g node h src) s.events }

/-! Affinity (R59) -/

/-- The package slice of a record under an affinity function; `key` is read only where the function uses it. A program stage's
record under function 0 is placed as a host record is. (log 76, DESIGN CHOICE) -/
def affinitySlice (afsel afp0 afp1 : Nat) (table : List Byte) (src : CommitSrc) (h : Word) (key : Nat) : Nat :=
  match afsel with
  | 0 =>
    match src with
    | .lane die cluster _ _ _ => 24 * die + cluster
    | _ => let i := handleSlot h; 24 * (i % 4) + i / 4 % 24
  | 1 =>
    let m := if 1 ≤ afp1 ∧ afp1 ≤ 96 then afp1 else 96
    (key % m + afp0) % 96
  | 2 => ((Nat.xor key afp1 * afp0 % 2 ^ 32) / 65536 * 96) / 65536
  | _ => (table.getD (key % 256) 0).toNat % 96

end Sys2Proof.Machine
end

