-- ==== Sys2Proof/Machine/Records.lean ====
section
/-! DEFINITION. REC: emit, recput, commit, abandon and recget (R26-R28, R54, R56-R58, R224-R227). -/

namespace Sys2Proof.Machine

/-- A record that a block of loop iterations emits belongs to each of them (R64). -/
def joinIteration (s : State) (b : Block) (h : Word) : State :=
  { s with iters := b.iters.foldl (fun t k => tmod t k (fun it => { it with members := it.members ++ [h] })) s.iters }

/-- emit of a live lane (R225): handle and status, or a cause. (log 74, DESIGN CHOICE) -/
def emitLane (c : Ctx) (node : Nat) (s : State) (k : Nat) (t : Thread) (_ : List Val) : State × LaneRes Thread :=
  let push := fun (h : Word) (st : Nat) =>
    LaneRes.ok { t with stack := c.env.longResult (.clean (wd st)) :: c.env.longResult (.clean h) :: t.stack }
  match reserve s c.b.graph node (t.recDepth + 1) c.b.launch.ident with
  | .status v => (s, push 0xFFFF_FFFF v)
  | .fault => (s, .lane { cause := 0x0A })
  | .ok h s =>
    let s := s.modBlock c.bid (fun b => { b with records := b.records ++ [(h, blockLane k)] })
    (joinIteration s c.b h, push h 0)

/-- A helper lane's emit pushes the null handle and status 0 (R54). -/
def helperEmit (c : Ctx) (t : Thread) : Thread :=
  { t with stack := c.env.longResult (.clean 0) :: c.env.longResult (.clean 0xFFFF_FFFF) :: t.stack }

/-- emit (R28, R54, R225): a failed edge check stops helpers too. (log 74, DESIGN CHOICE; log 86, DEDUCED) -/
def emitBody (h : Hdr) (e : Nat) (s : State) (c : Ctx) : State :=
  match checkLanes c 0 2 with
  | .path t => trapPath s c t
  | .all ok tr =>
    let node := c.b.edge e
    if node == 0xFFFF || (match nodeCount s c.b.graph with | some n => decide (n ≤ node) | none => true) then
      trapPath s c { cause := 0x17 }
    else
      let f := fun s k (t : Thread) =>
        if t.cls = .helper then (s, LaneRes.ok (helperEmit c t)) else emitLane c node s k t []
      let x := lanesInTurn s f (byLane ok)
      let d := laneDepth c.b c.p
      let res := match x.2 with
        | .all ok2 tr2 => LanesRes.all ok2 (tr ++ tr2)
        | p => p
      finishLanes x.1 c h res { pc := c.next, owed := 1, xfer := transfers d (d + 2) }

/-- emit (R225). -/
def execEmit (h : Hdr) (e : BitVec 3) (s : State) : Host.Outcome State Fault Refusal :=
  issue (.emit h e) h { scopes := [.lane] } (fun s c => warpOnly s c (emitBody h e.toNat)) s

/-- The slot a lane reserved: its metadata, or cause 0x17 (R226). (log 74, DESIGN CHOICE) -/
def reservedSlot (s : State) (c : Ctx) (k : Nat) (h : Word) : LaneRes Nat :=
  match readMeta s c.b.graph h with
  | some m =>
    if metaState m = slotReserved ∧ (h, blockLane k) ∈ c.b.records ∧ metaOwner m = c.b.launch.ident then .ok m
    else .lane { cause := 0x17 }
  | none => .lane { cause := 0x17 }

/-- A thread's plain store of a word (R226). -/
def storeWord (s : State) (c : Ctx) (va : Nat) (w : Word) : State × LaneRes Unit :=
  let x := resolve s c.b.who c.bid .store (.virt va) 4
  match x.2 with
  | .ok ts => (ts.foldl (ownTarget c.b.place.coreNo) (writeTargets x.1 c.b.dieOf ts (toBytes 4 w.toNat)), .ok ())
  | .miss => (x.1, .lane { cause := 0x0A, addr := va })
  | .prot => (x.1, .lane { cause := 0x0B, addr := va })
  | .bad k => (x.1, .lane (badInfo k va))

/-- recput of a live lane: v on top, the handle beneath, which stays (R226). -/
def recputLane (c : Ctx) (w : Nat) (s : State) (k : Nat) (t : Thread) (vs : List Val) : State × LaneRes Thread :=
  let v := vs.getD 0 (.clean 0)
  let h := vs.getD 1 (.clean 0)
  match (refusePoison vs).bind (fun _ => reservedSlot s c k h.bits) with
  | .lane i => (s, .lane i)
  | .path i => (s, .path i)
  | .ok m =>
    match nodeField s c.b.graph (metaNode m) 0x10 4, payloadAddr s c.b.graph h.bits with
    | some c0, some a =>
      if 16 * (c0 % 16 + 1) ≤ 4 * w then (s, .lane { cause := 0x17 })
      else
        let x := storeWord s c (a + 4 * w) v.bits
        (x.1, x.2.map (fun _ => { t with stack := c.env.result 1 h :: t.stack }))
    | _, _ => (s, .lane { cause := 0x0A })

/-- The handle that a helper lane's recput leaves. -/
def helperRecput (c : Ctx) (t : Thread) : Thread :=
  { t with stack := c.env.result 1 ((t.stack.getD 1 (.ofWord 0)).val) :: t.stack.drop 2 }

def recputBody (h : Hdr) (w : Nat) (s : State) (c : Ctx) : State :=
  match checkLanes c 2 1 with
  | .path t => trapPath s c t
  | .all ok tr =>
    let f := fun s k (t : Thread) =>
      if t.cls = .helper then (s, LaneRes.ok (helperRecput c t))
      else recputLane c w s k { t with stack := t.stack.drop 2 } ((t.stack.take 2).map (·.val))
    let x := lanesInTurn s f (byLane ok)
    let d := laneDepth c.b c.p
    let res := match x.2 with
      | .all ok2 tr2 => LanesRes.all ok2 (tr ++ tr2)
      | p => p
    finishLanes x.1 c h res { pc := c.next, ready := c.env.slot + 1, xfer := transfers d (d - 1) }

/-- recput (R226). -/
def execRecput (h : Hdr) (w : BitVec 6) (s : State) : Host.Outcome State Fault Refusal :=
  issue (.recput h w) h { scopes := [.lane] } (fun s c => warpOnly s c (recputBody h w.toNat)) s

/-- A lane's hold on a reserved slot ends. -/
def dropReserved (s : State) (bid k : Nat) (h : Word) : State :=
  s.modBlock bid (fun b => { b with records := b.records.filter (fun r => r != (h, blockLane k)) })

/-- commit of a live lane: the slot is committed and the record reaches the launchers (R57, R226). -/
def commitLane (c : Ctx) (s : State) (k : Nat) (t : Thread) (vs : List Val) : State × LaneRes Thread :=
  let h := vs.getD 0 (.clean 0)
  match (refusePoison vs).bind (fun _ => reservedSlot s c k h.bits) with
  | .lane i => (s, .lane i)
  | .path i => (s, .path i)
  | .ok m =>
    let s := dropReserved (setSlotState s c.b.graph h.bits slotCommitted) c.bid k h.bits
    let pl := c.b.place
    (postCommit s c.b.graph (metaNode m) h.bits
      (.lane pl.die pl.cluster (8 * pl.cluster + pl.core + 1000 * pl.die) c.b.launch.ident (blockLane k)), .ok t)

/-- commit (R226). -/
def execCommit (h : Hdr) (s : State) : Host.Outcome State Fault Refusal :=
  issue (.commit h) h { scopes := [.lane] } (fun s c => warpOnly s c (fun s c => laneAccess h 1 0 (commitLane c) s c)) s

/-- abandon of a live lane (R226). -/
def abandonLane (c : Ctx) (s : State) (k : Nat) (t : Thread) (vs : List Val) : State × LaneRes Thread :=
  let h := vs.getD 0 (.clean 0)
  match (refusePoison vs).bind (fun _ => reservedSlot s c k h.bits) with
  | .lane i => (s, .lane i)
  | .path i => (s, .path i)
  | .ok _ => (dropReserved (freeRecord s c.b.graph h.bits) c.bid k h.bits, .ok t)

/-- abandon (R226). -/
def execAbandon (h : Hdr) (s : State) : Host.Outcome State Fault Refusal :=
  issue (.abandon h) h { scopes := [.lane] } (fun s c => warpOnly s c (fun s c => laneAccess h 1 0 (abandonLane c) s c)) s

/-- recget of a live lane: an ordinary load of a payload word of its own record (R227). -/
def recgetLane (c : Ctx) (w : Nat) (s : State) (_k : Nat) (t : Thread) (_ : List Val) : State × LaneRes Thread :=
  if c.b.recBytes ≤ 4 * w then (s, .lane { cause := 0x17 })
  else
    let va := ((payloadAddr s c.b.graph t.handle).getD (2 ^ 48)) + 4 * w
    let x := resolve s c.b.who c.bid .load (.virt va) 4
    match x.2 with
    | .prot => (x.1, .lane { cause := 0x0B, addr := va })
    | .bad k => (x.1, .lane (badInfo k va))
    | .miss =>
      let d := x.1.drawWord
      let o := originOf va c.p.pc.toNat 0 0 t.stack.length false
      (d.2, .ok (fillOrigin { t with stack := c.env.longResult ⟨d.1, .direct⟩ :: t.stack } o))
    | .ok ts =>
      let y := readTargets x.1 c.b.dieOf ts
      (y.1, .ok { t with stack := c.env.longResult (.clean (wd (ofBytes y.2))) :: t.stack })

/-- recget (R227). -/
def execRecget (h : Hdr) (w : BitVec 6) (s : State) : Host.Outcome State Fault Refusal :=
  issue (.recget h w) h { scopes := [.lane] } (fun s c => warpOnly s c (fun s c => laneAccess h 0 1 (recgetLane c w.toNat) s c)) s

end Sys2Proof.Machine
end

