-- ==== Sys2Proof/Machine/Sampler.lean ====
section
/-! DEFINITION. SMP: the sampler engine of a die, its filter wheels and program stages (R289, R290, R384-R396). -/

namespace Sys2Proof.Machine

def smpQueue (s : State) (die : Nat) : List Cmd := tgetD s.engines.sampler die []
def setSmp (s : State) (die : Nat) (q : List Cmd) : State :=
  { s with engines := { s.engines with sampler := tset s.engines.sampler die q } }

/-- A block's sampler commands on all dies: those of a restored or moved block stand where they were issued (R277, R290). -/
def smpQueued (s : State) (bid : Nat) : Nat := sumBy (fun (e : Nat × List Cmd) => queuedOf bid e.2) s.engines.sampler

/-! Accesses -/

/-- Why an access of a request ends: a translation or protection failure at an address, or an error at the bytes. -/
inductive SmpErr where
  | xlat (addr : Nat)
  | bad (dom addr : Nat)

/-- A request that is served: who asked, its command, its number, the entry's fields (R384). -/
structure Req where
  who : Who
  bid : Nat
  die : Nat
  v : Nat
  base : Nat
  j : Nat
  wheel : Nat
  work : Nat
  err : Nat
  seed : Nat
  step : Nat
  nstg : Nat

/-- One access of n bytes at a virtual address. -/
def smpSpan (s : State) (q : Req) (need : Need) (va n : Nat) : State × List Target × Option SmpErr :=
  let x := resolve s q.who q.bid need (.virt va) n
  match x.2 with
  | .ok ts => (x.1, ts, none)
  | .bad k => (x.1, [], some (.bad (k / 64) va))
  | _ => (x.1, [], some (.xlat va))

/-- `n` elements of `w` bytes read in turn, until one fails. -/
def smpRead (q : Req) (w : Nat) : State → Nat → Nat → State × List Nat × Option SmpErr
  | s, _, 0 => (s, [], none)
  | s, va, n + 1 =>
    let x := smpSpan s q .engineLoad va w
    match x.2.2 with
    | some e => (x.1, [], some e)
    | none =>
      let r := readTargets x.1 q.die x.2.1
      let y := smpRead q w r.1 (va + w) n
      (y.1, ofBytes r.2 :: y.2.1, y.2.2)

/-- Words written in turn, until one fails. -/
def smpWrite (q : Req) : State → Nat → List Word → State × Option SmpErr
  | s, _, [] => (s, none)
  | s, va, v :: r =>
    let x := smpSpan s q .engineStore va 4
    match x.2.2 with
    | some e => (x.1, some e)
    | none => smpWrite q (writeTargets x.1 q.die x.2.1 (toBytes 4 v.toNat)) (va + 4) r

/-! Stages -/

/-- A stage control block (R387). -/
structure Stage where
  ty : Nat
  mode : Nat
  p0 : Word
  addr : Nat
  count : Nat
  p1 : Word
  p2 : Word
  padZero : Bool

def stageOf (v : Nat) : Stage :=
  ⟨bits v 7 0, bits v 15 8, wd (bits v 63 32), bits v 127 64, bits v 159 128, wd (bits v 191 160), wd (bits v 223 192),
    bits v 31 16 == 0 && bits v 511 224 == 0⟩

/-- The blocks of a wheel from stage k on, until one cannot be read. (log 35, DEDUCED) -/
def readStages (q : Req) : State → Nat → Nat → State × List Stage × Option SmpErr
  | s, _, 0 => (s, [], none)
  | s, k, n + 1 =>
    let x := smpRead q 64 s (q.wheel + 64 * k) 1
    match x.2.2 with
    | some e => (x.1, [], some e)
    | none =>
      let y := readStages q x.1 (k + 1) n
      (y.1, stageOf (x.2.1.getD 0 0) :: y.2.1, y.2.2)

def isPositiveFinite : FVal → Bool
  | .fin neg m _ => !neg && m != 0
  | _ => false

def inUnit (zeroOk : Bool) (v : FVal) : Bool :=
  (if zeroOk then Cond.holds .ge (v.cmp (.ofInt 0)) else Cond.holds .gt (v.cmp (.ofInt 0)))
    && Cond.holds .le (v.cmp (.ofInt 1))

/-- The node of a program stage: KIND 00, gang size 1, batch target 1, records of 32 bytes or more (R393). -/
def programNodeOk (s : State) (g : GraphId) (node : Nat) : Bool :=
  (match nodeCount s g with | some n => decide (node < n) | none => true)
  && (match nodeField s g node 0x10 4, nodeField s g node 0x14 4 with
    | some c0, some c1 => bits c1 16 15 == 0 && bits c1 8 6 == 0 && bits c0 13 4 == 0 && decide (1 ≤ c0 % 16)
    | _, _ => true)

/-- A stage is well formed; `last` when it is the wheel's last (R387-R393). -/
def stageWf (s : State) (g : GraphId) (last : Bool) (t : Stage) : Bool :=
  t.padZero && (match t.ty with
    | 1 => true
    | 2 => decide (t.count ≤ 65535)
    | 3 => decide (t.mode ≤ 1)
    | 4 => decide (t.count ≤ 65535) && isPositiveFinite (f32 t.p0)
    | 5 =>
      match t.mode with
      | 0 => t.p0 != 0
      | 1 => inUnit false (f32 t.p0)
      | 2 => inUnit true (f32 t.p0)
      | _ => false
    | 6 => t.p1 != 0 && programNodeOk s g (t.p0.toNat % 4096)
    | 7 => last && decide (t.mode ≤ 1)
    | _ => false)

/-- A reading of the rules (log 35, DEDUCED). -/
def stagesWf (s : State) (g : GraphId) (nstg : Nat) : Nat → List Stage → Bool
  | _, [] => true
  | k, t :: r => stageWf s g (k + 1 == nstg) t && stagesWf s g nstg (k + 1) r

/-- The array a stage reads: where, how wide, how many. -/
def stageData (t : Stage) (v : Nat) : Nat × Nat × Nat :=
  match t.ty with
  | 2 => (t.addr, 4, 2 * t.count)
  | 3 => (t.addr, 1, (v + 7) / 8)
  | 4 => (t.addr, 4, t.count)
  | _ => (0, 4, 0)

/-- What a stage leaves: the new WORK, an end with a status, or a drawn token with its probability. -/
inductive StageOut where
  | work (l : List Word)
  | ends (status : Nat)
  | drawn (token : Nat) (prob : Word)

def negInf : Word := 0xFF80_0000
def fAdd (a b : Word) : Word := toF32 .rn (FVal.sum .rn [f32 a, f32 b])
def fSub (a b : Word) : Word := toF32 .rn (FVal.sum .rn [f32 a, (f32 b).negate])
def fMul (a b : Word) : Word := toF32 .rn (FVal.mul (f32 a) (f32 b))
def fDiv (a b : Word) : Word := wd (Fmt.f32.div .rn (f32 a) (f32 b))

/-- Pairs of a bias applied in list order (R388). -/
def applyBias : List Nat → List Word → List Word
  | i :: v :: r, l => applyBias r (lmod l i (fun x => fAdd x (wd v)))
  | _, l => l

/-- One element of a penalty stage whose id occurs c times (R388). -/
def penalise (t : Stage) (c : Nat) (x : Word) : Word :=
  if c = 0 then x
  else
    let y := if Cond.holds .gt ((f32 x).cmp (.ofInt 0)) then fDiv x t.p0 else fMul x t.p0
    fSub (fSub y t.p1) (toF32 .rn (FVal.mul (.ofInt c) (f32 t.p2)))

/-- Indices with a map over elements. -/
def mapIdx {α β : Type} (f : Nat → α → β) (l : List α) : List β := ((upto l.length).zip l).map (fun e => f e.1 e.2)

/-- Insertion into the ranking: descending value, the lower index first on ties (R389). -/
def rankIns (x : Nat × FVal) : List (Nat × FVal) → List (Nat × FVal)
  | [] => [x]
  | y :: r =>
    let c := x.2.cmp y.2
    if c = some .gt ∨ (c = some .eq ∧ x.1 < y.1) then x :: y :: r else y :: rankIns x r

def ranking (l : List Word) : List Nat :=
  (((upto l.length).zip (l.map f32)).foldl (fun r x => rankIns x r) []).map (·.1)

/-- A weight in units of 2^-149 (R389). -/
def weightOf (m : FVal) (anyInf : Bool) (x : Word) : Nat :=
  let v := f32 x
  if anyInf then (if v = .inf false then 2 ^ 149 else 0)
  else if v = .inf true then 0
  else
    let d := toF32 .rn (FVal.sum .rn [v, m.negate])
    (scaled (-149) (f32 (wd (Fmt.f32.expRound (f32 d))))).toNat

def weights (l : List Word) : List Nat :=
  let r := ranking l
  let m := f32 (l.getD (r.headD 0) 0)
  l.map (weightOf m (l.any (fun x => f32 x == .inf false)))

/-- The check of WORK before a filter or a draw (R389): a status, or none. -/
def workCheck (l : List Word) : Option Nat :=
  if l.any (fun x => (f32 x).isNan) then some 1
  else if l.all (fun x => f32 x == .inf true) then some 2
  else none

/-- The shortest prefix of a ranking whose weights sum to at least `p × S` in units of 2^-298. -/
def prefixFor (ws : List Nat) (need : Nat) : Nat → List Nat → List Nat
  | _, [] => []
  | acc, i :: r =>
    let acc := acc + ws.getD i 0
    if need ≤ acc * 2 ^ 149 then [i] else i :: prefixFor ws need acc r

/-- The indices a filter keeps (R390). -/
def kept (t : Stage) (l : List Word) : List Nat :=
  let ws := weights l
  let p := (scaled (-149) (f32 t.p0)).toNat
  match t.mode with
  | 0 => (ranking l).take t.p0.toNat
  | 1 => prefixFor ws (p * ws.foldl (· + ·) 0) 0 (ranking l)
  | _ => (upto l.length).filter (fun i => decide (p ≤ ws.getD i 0))

/-- The lowest index whose prefix sum exceeds `u × S`, u in units of 2^-32 (R391). -/
def sampleAt (need : Nat) : Nat → Nat → List Nat → Nat
  | i, _, [] => i - 1
  | i, acc, w :: r => if need < (acc + w) * 2 ^ 32 then i else sampleAt need (i + 1) (acc + w) r

/-- One Philox round (R392). -/
def philoxRound (k0 k1 : Nat) (c : Nat × Nat × Nat × Nat) : Nat × Nat × Nat × Nat :=
  let m0 := 0xD251_1F53 * c.1
  let m1 := 0xCD9E_8D57 * c.2.2.1
  (Nat.xor (Nat.xor (m1 / 2 ^ 32) c.2.1) k0, m1 % 2 ^ 32, Nat.xor (Nat.xor (m0 / 2 ^ 32) c.2.2.2) k1, m0 % 2 ^ 32)

def philoxRun : Nat → Nat → Nat → Nat × Nat × Nat × Nat → Nat × Nat × Nat × Nat
  | 0, _, _, c => c
  | n + 1, k0, k1, c =>
    philoxRun n ((k0 + 0x9E37_79B9) % 2 ^ 32) ((k1 + 0xBB67_AE85) % 2 ^ 32) (philoxRound k0 k1 c)

/-- The generator's output word; u is it times 2^-32 (R392). -/
def philox (seed step stage : Nat) : Nat :=
  (philoxRun 10 (seed % 2 ^ 32) (seed / 2 ^ 32 % 2 ^ 32) (step, stage, 0, 0)).1

/-- A stage other than a program, over WORK and the array it read (R388-R391). -/
def computeStage (q : Req) (k : Nat) (t : Stage) (data : List Nat) (l : List Word) : StageOut :=
  match t.ty with
  | 1 => .work (l.map (fun x => fMul x t.p0))
  | 2 => .work (applyBias data l)
  | 3 => .work (mapIdx (fun i x => if bit? (data.getD (i / 8) 0) (i % 8) == (t.mode == 1) then negInf else x) l)
  | 4 => .work (mapIdx (fun i x => penalise t (data.filter (· == i)).length x) l)
  | _ =>
    match workCheck l with
    | some st => .ends st
    | none =>
      if t.ty = 5 then let ks := kept t l; .work (mapIdx (fun i x => if mem? ks i then x else negInf) l)
      else
        let ws := weights l
        let tot := ws.foldl (· + ·) 0
        let i := if t.mode = 1 then (ranking l).headD 0 else sampleAt (philox q.seed q.step k * tot) 0 0 ws
        .drawn i (wd (Fmt.f32.div .rn (.fin false (ws.getD i 0) (-149)) (.fin false tot (-149))))

/-! Ends of requests -/

/-- How the service of a request ends: it is over, it waits for a program stage, or the queue halts. -/
inductive ReqEnd where
  | done
  | waits
  | halt (cause dom addr : Nat)

/-- The written fields of an entry, through the pages the command checked (R384, R385). -/
def writeEntry (s : State) (q : Req) (pages : List (Nat × Nat × Bool)) (status token stage : Nat) (prob : Word) :
    State × ReqEnd :=
  let put := fun (s : State) (off n v : Nat) =>
    writeTargets s q.die (cmdTargets s q.bid pages ⟨q.j, .virt (q.base + off), n, true⟩) (toBytes n v)
  match targetBad s (cmdTargets s q.bid pages ⟨q.j, .virt q.base, 64, true⟩) with
  | some (d, pa) => (s, .halt 0x13 d pa)
  | none => (put (put (put (put s 0x28 4 token) 0x2C 2 status) 0x2E 1 stage) 0x30 4 prob.toNat, .done)

def noToken : Nat := 0xFFFF_FFFF

/-- The error record of a request (R395). -/
def smpRecord (status stage reason used blk : Nat) (info : List Byte) : List Byte :=
  toBytes 2 status ++ toBytes 1 stage ++ toBytes 1 reason ++ toBytes 4 used ++ toBytes 4 blk ++ [0, 0, 0, 0]
    ++ (info ++ List.replicate 48 0).take 48

def writeErr (s : State) (q : Req) (l : List Byte) : State × Option SmpErr :=
  if q.err = 0 then (s, none)
  else
    let x := smpSpan s q .engineStore q.err 64
    match x.2.2 with
    | some e => (x.1, some e)
    | none => (writeTargets x.1 q.die x.2.1 l, none)

/-- A failure at an access ends the request with STATUS 4, or halts the queue (R386). -/
def endFailed (s : State) (q : Req) (pages : List (Nat × Nat × Bool)) (stage : Nat) (e : SmpErr) : State × ReqEnd :=
  match e with
  | .bad d a => (s, .halt 0x13 d a)
  | .xlat a =>
    let x := writeErr s q (smpRecord 4 stage 5 0 noToken (toBytes 8 a))
    match x.2 with
    | some (.bad d a) => (x.1, .halt 0x13 d a)
    | _ => writeEntry x.1 q pages 4 noToken stage 0

/-- A program stage that failed ends the request with STATUS 3 (R394). -/
def endProgFail (s : State) (q : Req) (pages : List (Nat × Nat × Bool)) (stage reason used blk : Nat) (info : List Byte) :
    State × ReqEnd :=
  let x := writeErr s q (smpRecord 3 stage reason used blk info)
  match x.2 with
  | some (.bad d a) => (x.1, .halt 0x13 d a)
  | some (.xlat _) => writeEntry x.1 q pages 4 noToken stage 0
  | none => writeEntry x.1 q pages 3 noToken stage 0

/-- The payload of a program stage's record (R393). -/
def progPayload (q : Req) : List Nat :=
  [q.j, q.v, q.work % 2 ^ 32, q.work / 2 ^ 32, q.base % 2 ^ 32, q.base / 2 ^ 32]

def writePayload (s : State) (part : Nat) (a : Nat) (l : List Nat) : State :=
  (l.foldl (fun (acc : State × Nat) v => ((devWrite acc.1 part acc.2 4 v).getD acc.1, acc.2 + 4)) (s, a)).1

/-- A program stage starts: its record is reserved, filled and committed (R393, R396). (log 35, DEDUCED) -/
def startProgram (s : State) (b : Block) (q : Req) (id k : Nat) (t : Stage) (pages : List (Nat × Nat × Bool)) : State × ReqEnd :=
  let node := t.p0.toNat % 4096
  match reserve s b.graph node 0 0xFFFF_FFFF with
  | .status 1 => endProgFail s q pages k 3 0 noToken []
  | .status _ => endProgFail s q pages k 4 0 noToken []
  | .fault => endProgFail s q pages k 4 0 noToken []
  | .ok h s =>
    let s := match payloadAddr s b.graph h with
      | some a => writePayload s b.part a (progPayload q)
      | none => s
    let s := joinIteration (setSlotState s b.graph h slotCommitted) b h
    let p : ProgStage := ⟨b.place.die, id, q.bid, q.j, k, h, none, t.p1.toNat, 0, none, none, b.graph⟩
    let s := { s with engines := { s.engines with programs := s.engines.programs ++ [p] } }
    (postCommit s b.graph node h (.sampler b.place.die), .waits)

/-- Stages from number k on (R385). `miss` is the failure at the block after the last one read; STAGE is 0 where WHEEL or WORK
fails (R386). -/
def runStages (b : Block) (q : Req) (id : Nat) (pages : List (Nat × Nat × Bool)) (miss : Option SmpErr) :
    State → Nat → List Stage → State × ReqEnd
  | s, _, [] =>
    match miss with
    | some e => endFailed s q pages 0 e
    | none => writeEntry s q pages 0 noToken q.nstg 0
  | s, k, t :: r =>
    if t.ty = 6 then startProgram s b q id k t pages
    else
      let x := smpRead q 4 s q.work q.v
      match x.2.2 with
      | some e => endFailed x.1 q pages 0 e
      | none =>
        let d := stageData t q.v
        let y := smpRead q d.2.1 x.1 d.1 d.2.2
        match y.2.2 with
        | some e => endFailed y.1 q pages k e
        | none =>
          match computeStage q k t y.2.1 (x.2.1.map wd) with
          | .ends st => writeEntry y.1 q pages st noToken k 0
          | .drawn i p => writeEntry y.1 q pages 0 i k p
          | .work l =>
            let w := smpWrite q y.1 q.work l
            match w.2 with
            | some e => endFailed w.1 q pages 0 e
            | none => runStages b q id pages miss w.1 (k + 1) r

/-! Commands -/

def smpShape (x : Cmd) : Nat :=
  match x.op with
  | .smp _ k => k.toNat
  | _ => 0

def Cmd.arg (x : Cmd) (k : Nat) : Nat := (tgetD (x.args.getD k []) 0 0).toNat
def smpTable (x : Cmd) : Nat := x.arg 0 * 2 ^ 32 + x.arg 1
def smpEnd (x : Cmd) : Nat := x.arg 2
def smpId (x : Cmd) : Nat := x.arg 3

/-- The read of element i of row j. -/
def rowAccess (b : Block) (bid k j i : Nat) : CmdAccess × Nat :=
  let h := b.shapeOf k
  elemAccess b bid h (shapeFmt b k) 0 j false (h.offset [(i : Int), (j : Int)])

/-- Accesses that the issue checks for one request: its entry and its row (R386). -/
def reqAccesses (b : Block) (bid : Nat) (x : Cmd) (j : Nat) : List CmdAccess :=
  let k := smpShape x
  [⟨j, .virt (smpTable x + 64 * j), 64, false⟩]
    ++ (upto ((b.shapeOf k).ext.getD 0 0)).map (fun i => (rowAccess b bid k j i).1)
    ++ [⟨j, .virt (smpTable x + 64 * j), 64, true⟩]

/-- An element of a row as f32 bits (R164, R385). -/
def rowWord (fmt n : Nat) : Word := if fmt = 2 then wd n else toF32 .rn (Fmt.bf16.decode n)

def readRow (b : Block) (bid k j : Nat) (pages : List (Nat × Nat × Bool)) : State → Nat → Nat → State × List Word × Option (Nat × Nat)
  | s, _, 0 => (s, [], none)
  | s, i, n + 1 =>
    let a := rowAccess b bid k j i
    match targetBad s (cmdTargets s bid pages a.1) with
    | some t => (s, [], some t)
    | none =>
      let x := readUnit s bid b.place.die (shapeFmt b k) pages a
      let y := readRow b bid k j pages x.1 (i + 1) n
      (y.1, rowWord (shapeFmt b k) x.2 :: y.2.1, y.2.2)

/-- The request of an entry. -/
def reqOf (s : State) (b : Block) (x : Cmd) (j : Nat) : State × Req :=
  let base := smpTable x + 64 * j
  let r := readTargets s b.place.die (cmdTargets s x.blk x.pages ⟨j, .virt base, 64, false⟩)
  let v := ofBytes r.2
  (r.1, ⟨b.who, x.blk, b.place.die, (b.shapeOf (smpShape x)).ext.getD 0 0, base, j, bits v 63 0, bits v 127 64,
    bits v 191 128, bits v 255 192, bits v 287 256, bits v 295 288⟩)

/-- A request reached at stage k: its entry and the stages from there on are read and checked, and `run` goes on with the
stages and the failure after them; an ill-formed request halts the queue (R387). (log 35, DEDUCED) -/
def checkReq (s : State) (b : Block) (x : Cmd) (j k : Nat)
    (run : State → Req → List Stage × Option SmpErr → State × ReqEnd) : State × ReqEnd :=
  match targetBad s (cmdTargets s x.blk x.pages ⟨j, .virt (smpTable x + 64 * j), 64, false⟩) with
  | some (d, pa) => (s, .halt 0x13 d pa)
  | none =>
    let y := reqOf s b x j
    let q := y.2
    if q.nstg = 0 ∨ 16 < q.nstg then (y.1, .halt 0x11 0xFF 0)
    else
      let st := readStages q y.1 k (q.nstg - k)
      if stagesWf st.1 b.graph q.nstg k st.2.1 then run st.1 q st.2 else (st.1, .halt 0x11 0xFF 0)

/-- One request served from its start (R385-R387). (log 11, DESIGN CHOICE) -/
def serveReq (s : State) (b : Block) (x : Cmd) (j : Nat) : State × ReqEnd :=
  checkReq s b x j 0 (fun s q st =>
    let r := readRow b x.blk (smpShape x) j x.pages s 0 q.v
    match r.2.2 with
    | some (d, pa) => (r.1, .halt 0x13 d pa)
    | none =>
      let w := smpWrite q r.1 q.work r.2.1
      match w.2 with
      | some e => endFailed w.1 q x.pages 0 e
      | none => runStages b q (smpId x) x.pages st.2 w.1 0 st.1)

/-- smp after its operands: hi beneath lo beneath n (R289, R384, R386). (log 35, DEDUCED) -/
def smpBody (i : Instr) (s : State) (c : Ctx) (good : List (Nat × Thread)) : CmdRes :=
  let id := s.fresh
  let die := c.b.place.die
  let args := [operandAt good 2, operandAt good 1, operandAt good 0, wd id.1].map (fun w => [(0, w)])
  let x : Cmd := ⟨i, args, c.bid, c.pid, c.p.pc, c.env.longMark, c.p.prog, []⟩
  let k := smpShape x
  let h := c.b.shapeOf k
  let f := shapeFmt c.b k
  if !shapeOk c.b k then .fault { cause := 0x14 } s
  else if c.b.smpHalt.isSome then .fault { cause := 0x11 } s
  else if smpEnd x = 0 ∨ 1024 < smpEnd x ∨ h.rank ≠ 2 ∨ h.spad ∨ (f ≠ 2 ∧ f ≠ 3) ∨ h.ext.getD 1 0 < smpEnd x then
    .fault { cause := 0x11 } s
  else if smpTable x % 64 ≠ 0 ∨ baseAligned h f = false then .fault { cause := 0x0C } s
  else if Config.samplerQueue ≤ ((smpQueue s die).filter (fun y => !isWait y.op)).length then .hold .engineQueue s
  else
    let accs := (upto (smpEnd x - x.start)).flatMap (fun j => reqAccesses c.b c.bid x (x.start + j))
    match enginePages s c accs with
    | some s => .hold .pageCheck s
    | none =>
      let put := fun (s : State) (x : Cmd) => (setSmp s die (smpQueue s die ++ [x])).post (s.cycle + 1) (.samplerRequest die)
      let a := checkAccesses c.b.who c.bid 8 id.2 [] accs
      match a.2 with
      | .ok pages => .done (put a.1 { x with pages := pages })
      | .fail u cause addr pages =>
        if x.start < u then
          let part : Cmd := { x with args := lset x.args 2 [(0, wd u)], pages := pages }
          .hold .engineQueue ((put a.1 part).modPath c.bid c.pid (fun p => { p with prog := u }))
        else if smpQueued s c.bid ≠ 0 then .hold .engineQueue a.1
        else .fault { cause := cause, addr := addr, prog := u } a.1

/-- smp (R289). -/
def execSmp (h : Hdr) (shape : BitVec 4) (s : State) : Host.Outcome State Fault Refusal :=
  issue (.smp h shape) h { scopes := [.lane], feats := [5], qn4 := shapesQn4 [shape.toNat] }
    (fun s c => warpOnly s c (engineForm h 3 true (smpBody (.smp h shape)))) s

/-- A `swait` stands in its die's queue under a number that tells the commands issued before it. -/
def standSmp (h : Hdr) (s : State) (c : Ctx) : State :=
  let id := s.fresh
  setSmp id.2 c.b.place.die (smpQueue s c.b.place.die ++
    [{ waitCmd (.swait h) c with args := [[], [], [], [(0, wd id.1)]] }])

/-- swait (R290). -/
def execSwait (h : Hdr) (s : State) : Host.Outcome State Fault Refusal :=
  issue (.swait h) h { scopes := [.lane], feats := [5] }
    (fun s c => warpOnly s c (fun s c =>
      let pending := smpQueued s c.bid != 0
      waitEnd h pending (if pending then standSmp h s c else s) c)) s

/-- sstat (R278, R290). -/
def execSstat (h : Hdr) (s : State) : Host.Outcome State Fault Refusal :=
  issue (.sstat h) h { scopes := [.lane], feats := [5] }
    (fun s c => warpOnly s c (fun s c => pushStatus h (.ok (statusWord (smpQueued s c.bid) c.b.smpHalt)) s c)) s

/-- A command all of whose requests are over. -/
def smpOver (s : State) (x : Cmd) : Bool :=
  !isWait x.op && decide (smpEnd x ≤ x.start) && s.engines.programs.all (fun p => p.cmd != smpId x)

/-- A wait before which no unfinished command of its block was issued, on any die (R290). -/
def smpRipe (s : State) (w : Cmd) : Bool :=
  isWait w.op && !s.engines.sampler.any (fun e => e.2.any (fun x => !isWait x.op && x.blk == w.blk && decide (smpId x < smpId w)))

/-- The queues of all dies without the entries that a test names, and those entries. -/
def takeSmp (s : State) (f : Cmd → Bool) : List Cmd × State :=
  (s.engines.sampler.flatMap (fun e => e.2.filter f),
   { s with engines := { s.engines with
      sampler := s.engines.sampler.map (fun (e : Nat × List Cmd) => (e.1, e.2.filter (fun x => !f x))) } })

/-- Finished commands leave the queues, and waits that nothing stands before complete (R290). -/
def settleSmp (s : State) : State :=
  let d := takeSmp s (smpOver s)
  let w := takeSmp d.2 (smpRipe d.2)
  let s := w.1.foldl (fun s w => finishWait s 0 w) w.2
  let s := d.1.foldl (fun s y => s.postOnce s.cycle (.blockRetire y.blk)) s
  if d.1.isEmpty then s else tellRoom s

/-- A block's sampler queue halts: its commands and program stages are discarded (R276, R387). -/
def haltSmp (s : State) (bid cause dom addr : Nat) : State :=
  match s.anyBlock bid with
  | none => s
  | some b =>
    let s := { s with engines := { s.engines with programs := s.engines.programs.filter (fun p => p.issuer != bid) } }
    let s := (takeSmp s (fun x => !isWait x.op && x.blk == bid)).2
    let s := s.modAny bid (fun b => { b with smpHalt := some (BitVec.ofNat 6 cause) })
    let s := reportError s b.part (haltRecord b bid cause dom addr 0)
    let s := if cause = 0x13 then s.postOnce (s.cycle + 1) (.gangKill bid) else s
    tellRoom ((settleSmp s).postOnce s.cycle (.blockRetire bid))

/-- What follows a request's service. -/
def afterReq (x : State × ReqEnd) (bid : Nat) : State :=
  match x.2 with
  | .halt cause dom addr => haltSmp x.1 bid cause dom addr
  | _ => settleSmp x.1

/-- The oldest command with a request that no service has started. -/
def nextSmp (s : State) (die : Nat) : Option Cmd :=
  (smpQueue s die).find? (fun x => !isWait x.op && decide (x.start < smpEnd x))

def bumpSmp (s : State) (die id : Nat) : State :=
  setSmp s die ((smpQueue s die).map (fun y => if !isWait y.op && smpId y == id then { y with start := y.start + 1 } else y))

/-- A block as the sampler engine of a die serves its commands: the engine is an agent of its own die (R277, R294). -/
def Block.servedBy (b : Block) (die : Nat) : Block := { b with place := { b.place with die := die } }

/-- The engine serves the next request (R385). -/
def samplerStep (die : Nat) (s : State) : State :=
  match nextSmp s die with
  | none => s
  | some x =>
    let s := bumpSmp s die (smpId x)
    let s := match s.anyBlock x.blk with
      | some b => afterReq (serveReq s (b.servedBy die) x x.start) x.blk
      | none => settleSmp s
    if (nextSmp s die).isSome then s.post (s.cycle + 1) (.samplerRequest die) else s

def execSamplerRequest (s : State) : Host.Outcome State Fault Refusal :=
  device s fun
    | .samplerRequest die => some (samplerStep die s)
    | _ => none

/-! Program stages -/

/-- A program stage is over: its block retired, or it failed and its block is killed (R393, R394). -/
def programComplete (blk : Nat) (s : State) : State :=
  match s.engines.programs.find? (fun p => p.blk == some blk) with
  | none => s
  | some p =>
    let s := { s with engines := { s.engines with programs := s.engines.programs.filter (fun q => q.blk != some blk) } }
    let s := if p.failed.isSome then
        (match tget s.blocks blk with
          | some pb => exitLanes s blk (pb.threads.map (·.1))
          | none => s)
      else s
    match (smpQueue s p.die).find? (fun x => !isWait x.op && smpId x == p.cmd), s.anyBlock p.issuer with
    | some x, some b =>
      let b := b.servedBy p.die
      match p.failed with
      | some (reason, info) =>
        let y := reqOf s b x p.req
        afterReq (endProgFail y.1 y.2 x.pages p.stage reason (p.usedAt s.cycle) blk info) x.blk
      | none => afterReq (checkReq s b x p.req (p.stage + 1) (fun s q st => runStages b q p.cmd x.pages st.2 s (p.stage + 1) st.1)) x.blk
    | _, _ => s

def execProgramStageComplete (s : State) : Host.Outcome State Fault Refusal :=
  device s fun
    | .programStageComplete blk => some (programComplete blk s)
    | _ => none

/-- The budget has run out before the block retired; the engine acts on it in the next cycle, since a trap in this one is the
failure then (R394). (log 35, DEDUCED) -/
def programExpiry (blk : Nat) (s : State) : State :=
  match s.engines.programs.find? (fun p => p.blk == some blk) with
  | none => s
  | some p =>
    match p.since with
    | some t => if t + p.left ≤ s.cycle ∧ p.failed.isNone then
        (s.modPrograms (fun q => if q.blk = some blk then { q with failed := some (2, []) } else q)).postOnce (s.cycle + 1)
          (.programStageComplete blk)
      else s
    | none => s

def execProgramBudgetExpiry (s : State) : Host.Outcome State Fault Refusal :=
  device s fun
    | .programBudgetExpiry blk => some (programExpiry blk s)
    | _ => none

/-- The record of a program stage is launched: its block is known (R24, R393). -/
def bindProgram (s : State) (g : GraphId) (bid : Nat) (handles : List Word) : State :=
  s.modPrograms (fun p =>
    if p.blk.isNone && p.graph == g && handles.any (· == p.handle) then { p with blk := some bid } else p)

/-- A vacated block's budget stands still; a restored one's goes on (R371, R372, R393). -/
def pauseBudget (s : State) (bid : Nat) : State :=
  s.modPrograms (fun p =>
    match p.blk == some bid, p.since with
    | true, some _ => p.paused s.cycle
    | _, _ => p)

def resumeBudget (s : State) (bid : Nat) : State :=
  match s.engines.programs.find? (fun p => p.blk == some bid && decide (0 < p.used)) with
  | none => s
  | some p =>
    (s.modPrograms (fun q => if q.blk = some bid then { q with since := some s.cycle } else q)).post (s.cycle + p.left)
      (.programBudgetExpiry bid)

/-! Parity of an engine queue -/

/-- A HALT of an engine's channel, tag, group or sampler queue with a cause (R276, R397). -/
def engineHalt (u : EngUnit) (cause : Nat) (s : State) : State :=
  let dom := if cause = 0x13 then 6 else 0xFF
  match u with
  | .copy bid ch => haltChan s bid ch cause dom 0
  | .gather bid tag => haltGather s bid tag cause dom 0
  | .coll bid ch =>
    match s.anyBlock bid with
    | some b => haltColl s b.part ch cause dom 0 bid (fun x => !isWait x.op && x.blk == bid)
    | none => s
  | .smp bid => haltSmp s bid cause dom 0

def execEngineHalt (s : State) : Host.Outcome State Fault Refusal :=
  device s fun
    | .engineHalt u cause => some (engineHalt u cause.toNat s)
    | _ => none

end Sys2Proof.Machine
end

