-- ==== Sys2Proof/Machine/Launch.lean ====
section
/-! DEFINITION. Nodes and record launchers: validation, enabling, counting of commits, placement, launch decisions, loop
iterations, retirement, the fabric's matching table and the launch window (R26-R34, R48-R68, R211, R424). -/

namespace Sys2Proof.Machine

/-! Validation (R13-R22, R30) -/

/-- A field of a descriptor read whole as a number. -/
def dfield (d off n : Nat) : Nat := d / 256 ^ off % 256 ^ n

/-- A descriptor field has its reserved bits clear. -/
def zeroAt (d off n hi lo : Nat) : Bool := bits (dfield d off n) hi lo == 0

/-- ENTRY, FENTRY, the code section, POENT and the bindings are well placed (VCODE 0x01). -/
def codeOk (d : Nat) : Bool :=
  let entry := dfield d 0x00 8
  let fentry := dfield d 0x08 8
  let cbase := dfield d 0x48 8
  let csize := dfield d 0x50 4
  let poent := dfield d 0x54 4
  let inside := fun (a : Nat) => decide (cbase ≤ a) && decide (a < cbase + csize)
  entry != 0 && entry % 4 == 0 && fentry % 4 == 0 && cbase != 0 && cbase % 4096 == 0 && csize != 0 && csize % 4 == 0
    && inside entry && (fentry == 0 || inside fentry)
    && (poent == 0xFFFF_FFFF || (poent % 4 == 0 && decide (poent < csize)))
    && dfield d 0x58 8 % 8 == 0 && decide (dfield d 0x60 2 ≤ 512)

/-- A pool descriptor's 32 bytes are well formed (R23, VCODE 0x02). -/
def poolOk (v : Nat) : Bool :=
  dfield v 0 8 % 256 == 0 && zeroAt v 0 8 63 48 && dfield v 8 8 % 8 == 0 && zeroAt v 8 8 63 48 && zeroAt v 16 4 31 4
    && dfield v 20 4 != 0 && decide (dfield v 20 4 < 2 ^ 24) && dfield v 24 8 == 0

/-- FRAME + STACK + QUEUE of a descriptor. -/
def descRows (d : Nat) : Nat := dfield d 0x18 1 + dfield d 0x19 1 + dfield d 0x1A 1

/-- The reservations are within their bounds (R16, VCODE 0x04). -/
def resOk (d : Nat) : Bool :=
  let q := dfield d 0x1A 1
  decide (descRows d ≤ 256) && decide (bits (dfield d 0x18 4) 27 24 ≤ 8) && decide (dfield d 0x1C 4 % 1024 ≤ 512)
    && q % 2 == 0 && (q == 0 || dfield d 0x08 8 != 0)

/-- The block's warps (R17). -/
def descWarps (d : Nat) : Nat := (bits (dfield d 0x10 4) 13 4 + 1 + 31) / 32
def descTarget (d : Nat) : Nat := bits (dfield d 0x10 4) 13 4 + 1
def descTimer (d : Nat) : Nat := bits (dfield d 0x10 4) 29 14
def descKind (d : Nat) : Nat := bits (dfield d 0x14 4) 16 15
def descAfsel (d : Nat) : Nat := bits (dfield d 0x14 4) 13 11
/-- The gang size; a loop node launches as if it were 1 (R65). -/
def descGang (d : Nat) : Nat := if descKind d = 1 then 1 else bits (dfield d 0x14 4) 8 6 + 1

/-- A format slot has no reserved code and its scales go together (R20, VCODE 0x09). -/
def descSlotOk (scfg : Nat) : Bool :=
  let fmt := bits scfg 3 0
  let blk := bits scfg 9 8
  let sl := bits scfg 11 10
  decide (fmt ≤ 8) && sl != 3 && (fmt != 8 || (blk == 2 && sl == 1)) && (sl == 0 || blk != 0)

/-- A shape record that is unused, or well formed (R22, VCODE 0x0A). -/
def shapeWf (v spad : Nat) : Bool :=
  if v = 0 then true
  else
    let rank := bits v 50 48
    let ok := fun (k : Nat) =>
      let e := dfield v (0x08 + 4 * k) 4
      if k < rank then e != 0 else e == 0 && dfield v (0x24 + 4 * k) 4 == 0
    rank != 0 && bits v 55 54 != 3 && bits v 58 57 != 3 && (upto 7).all ok
      && (bits v 56 56 == 0 || decide (bits v 47 0 < 1024 * spad))

/-- No reserved bit of the descriptor is set (VCODE 0x0B). (log 40, DEDUCED) -/
def reservedOk (d : Nat) : Bool :=
  zeroAt d 0x00 8 63 48 && zeroAt d 0x08 8 63 48 && zeroAt d 0x10 4 31 30 && zeroAt d 0x14 4 31 17
    && zeroAt d 0x18 4 31 28 && zeroAt d 0x1C 4 31 10 && zeroAt d 0x28 8 63 48 && dfield d 0x32 2 == 0
    && dfield d 0x44 4 == 0 && zeroAt d 0x48 8 63 48 && zeroAt d 0x58 8 63 48 && dfield d 0x62 30 == 0
    && (upto 8).all (fun k =>
      let o := 0x080 + 32 * k
      zeroAt d o 4 31 12 && zeroAt d o 4 7 7 && dfield d (o + 4) 4 == 0 && dfield d (o + 24) 8 == 0
        && zeroAt d (o + 8) 8 63 48 && zeroAt d (o + 16) 8 63 48)
    && (upto 16).all (fun k => zeroAt d (0x180 + 64 * k) 8 63 59)

/-- The first failing check of a descriptor, given NCNT, PCNT and its pool's bytes (R30). (log 40, DEDUCED) -/
def validate (d ncnt pcnt pool : Nat) : Option Nat :=
  let checks : List (Nat × Bool) := [
    (0x01, codeOk d),
    (0x02, decide (dfield d 0x30 2 < pcnt) && poolOk pool),
    (0x03, decide (dfield d 0x10 4 % 16 ≤ dfield pool 16 4 % 16)),
    (0x04, resOk d),
    (0x05, descWarps d % 2 ^ bits (dfield d 0x14 4) 5 4 == 0),
    (0x06, decide (descKind d ≤ 1) && decide (descAfsel d ≤ 3)),
    (0x07, dfield d 0x28 8 % 256 == 0),
    (0x08, (upto 8).all (fun e => dfield d (0x34 + 2 * e) 2 == 0xFFFF || decide (dfield d (0x34 + 2 * e) 2 < ncnt))),
    (0x09, (upto 8).all (fun k => descSlotOk (dfield d (0x080 + 32 * k) 4))),
    (0x0A, (upto 16).all (fun k => shapeWf (dfield d (0x180 + 64 * k) 64) (dfield d 0x1C 4 % 1024))),
    (0x0B, reservedOk d),
    (0x0C, decide ((descWarps d + 3) / 4 * descRows d ≤ Config.mainRows))]
  (checks.find? (fun c => !c.2)).map (·.1)

/-- A node descriptor's 1,408 bytes; none where they cannot be read. (log 15, DEDUCED) -/
def readDesc (s : State) (g : GraphId) (node : Nat) : Option Nat :=
  (nodeAddr s g node).bind (fun a => devRead s g.part a 1408)

/-! Clusters and cores of a partition (R60-R62, R370, R401, R414, R415, R424) -/

/-- The cluster is assigned to the partition (R414). -/
def State.holds (s : State) (part clus : Nat) : Bool := bit? (s.ptEntry clus) 15 && s.ptEntry clus % 64 == part

def State.clusterState (s : State) (clus : Nat) : ClusterState := tgetD s.pkg.clusters clus .fresh
def State.modCluster (s : State) (clus : Nat) (f : ClusterState → ClusterState) : State :=
  s.modPkg (fun k => { k with clusters := tset k.clusters clus (f (tgetD k.clusters clus .fresh)) })

def State.released (s : State) (clus core : Nat) : Bool := bit? (s.pkg.crel.getD clus 0).toNat core

/-- Clusters of a partition on a die, by their number on the die. -/
def State.dieClusters (s : State) (part die : Nat) : List Nat :=
  (upto 24).filter (fun j => s.holds part (24 * die + j))

/-- The first die from a number on, modulo 4, that satisfies a test; the number itself when none does. -/
def nextDie (ok : Nat → Bool) (die : Nat) : Nat :=
  (([0, 1, 2, 3].map (fun i => (die + i) % 4)).find? ok).getD die

/-- The die that counts a record (R60). -/
def countDie (s : State) (part die : Nat) : Nat := nextDie (fun d => !(s.dieClusters part d).isEmpty) die

/-- The die a requeued launch record goes to (R371). -/
def requeueDie (s : State) (part die : Nat) : Nat :=
  nextDie (fun d => (s.dieClusters part d).any (fun j =>
    (upto 8).any (fun c => !s.released (24 * d + j) c))) die

/-- Clusters of a die in the search order of a home slice's number (R61). -/
def searchOrder (slice : Nat) (l : List Nat) : List Nat :=
  sortNat (l.map (fun j => (if slice ≤ j then j - slice else slice - j) * 64 + j)) |>.map (· % 64)

/-- What a block takes of a core (R62). -/
structure CoreNeed where
  warps : Nat
  finder : Bool
  rows : Nat
  acc : Nat
  spad : Nat

def needOf (d : Nat) : CoreNeed :=
  ⟨descWarps d, dfield d 0x08 8 != 0, descRows d, dfield d 0x1B 1 % 16, dfield d 0x1C 4 % 1024⟩

def Block.need (b : Block) : CoreNeed := ⟨b.warps, b.fentry != 0, b.frame + b.stack + b.queue, b.acc, b.spadKiB⟩

/-- Warps of a block that a sector holds (R62). -/
def CoreNeed.warpsIn (n : CoreNeed) (sec : Nat) : Nat := (n.warps + 3 - sec) / 4

/-- A core holds a block beside those it has (R62). -/
def coreFits (s : State) (core : Nat) (n : CoreNeed) : Bool :=
  let all := n :: (s.blocksOn core).map (fun e => e.2.need)
  (upto 4).all (fun k =>
    decide (sumBy (fun m : CoreNeed => m.warpsIn k) all ≤ Config.warpSlots)
      && decide (sumBy (fun m : CoreNeed => if m.finder then m.warpsIn k else 0) all ≤ Config.warpSlots)
      && decide (sumBy (fun m : CoreNeed => m.rows * m.warpsIn k) all ≤ Config.mainRows)
      && decide (sumBy (fun m : CoreNeed => m.acc * m.warpsIn k) all ≤ Config.sectorTiles))
    && decide (sumBy (fun m : CoreNeed => m.spad) all ≤ Config.coreSpad)

/-- A pre-emption has chosen the core (R370). -/
def State.chosen (s : State) (part core : Nat) : Bool :=
  match (s.part part).preempt with
  | some r => mem? r.cores core
  | none => false

/-- A core may be given blocks of a partition: in service, of a powered cluster, not chosen, not released. -/
def coreOpen (s : State) (part clus core : Nat) : Bool :=
  !(s.clusterState clus).gated && !s.moves.any (fun m => m.old == clus) && !s.released clus core && !s.chosen part (8 * clus + core)

/-- The first core of a cluster from which `offs` cores each hold what they are given, of a gang of `g` (R61, R63).
(log 45, DEDUCED) -/
def findCores (s : State) (part clus g : Nat) (needs : List (Nat × CoreNeed)) : Option Nat :=
  (upto (9 - g)).find? (fun c0 => needs.all (fun x =>
    coreOpen s part clus (c0 + x.1) && coreFits s (8 * clus + c0 + x.1) x.2))

/-- PLACEMENT: the cluster's number on the die and the first core, in the search order (R61, R63). -/
def place (s : State) (part die slice g : Nat) (needs : List (Nat × CoreNeed)) : Option (Nat × Nat) :=
  if (s.part part).vfSaved.isSome then none
  else
    (searchOrder slice (s.dieClusters part die)).findSome? (fun j =>
      (findCores s part (24 * die + j) g needs).map (fun c => (j, c)))

/-- The result of a dark-frame test: the cluster is offered, or stays gated with a KIND 9 record and a count (R401). -/
def darkResult (s : State) (clus failing d : Nat) : State :=
  let ok := failing == 0
  let s := s.modCluster clus (fun k => { k with
    gated := !ok, waking := false, dark := some ok, failing := BitVec.ofNat 8 failing, duration := wd d, idleSince := s.cycle })
  if ok then s
  else
    let s := s.modPkg (fun k => { k with dies := lmod k.dies (clus / 24) (fun d => { d with darkFail := satInc d.darkFail }) })
    reportHyper s ⟨9, 0, 0xFF, clus / 24, 8 * (clus % 24), 0, 0, 0xFFFF_FFFF, 0, 0, 0, 0⟩

/-- The idle count of a cluster ends after GIDLE × 16 cycles; a placement in the last of them wins, so the cluster is looked at
in the next one (R424). (log 41, DESIGN CHOICE) -/
def watchIdle (s : State) (clus : Nat) : State :=
  if s.pkg.gidle = 0 then s
  else s.post (max s.cycle ((s.clusterState clus).idleSince + 16 * s.pkg.gidle.toNat + 1)) (.clusterIdleGate clus)

/-- A gated cluster that a placement needs is woken and tested; what the test finds and how long it takes, at most 12,600
cycles, are free values (R401, R424, log 5). (log 41, DESIGN CHOICE) -/
def wakeCluster (s : State) (clus : Nat) : State :=
  let (a, s) := s.drawWord
  let d := Config.freeCycles s.free % 12601
  let s := { s with free := s.free + 1 }
  (s.modCluster clus (fun k => { k with waking := true, wakes := k.wakes + 1 })).post (s.cycle + d)
    (.darkFrameTest clus (a.toNat % 256) d)

/-- The first gated cluster in the search order that has not failed and is not being woken (R424).
(log 41, DESIGN CHOICE) -/
def wakeFor (s : State) (part die slice : Nat) : State :=
  match (searchOrder slice (s.dieClusters part die)).find? (fun j =>
    let k := s.clusterState (24 * die + j)
    k.gated && !k.waking && k.dark != some false) with
  | some j => wakeCluster s (24 * die + j)
  | none => s

/-- Slot numbers for a block's warps on a core: the lowest that no warp of the sector has (log 2). -/
def freeSlotNos (used : List Nat) : List Nat := (upto Config.warpSlots).filter (fun i => !mem? used i)

def slotsFor (s : State) (core warps : Nat) : Tab Nat :=
  (upto warps).map (fun w =>
    let used := (s.blocksOn core).flatMap (fun e => e.2.slots.filterMap (fun x => if x.1 % 4 = w % 4 then some x.2 else none))
    (w, (freeSlotNos used).getD (w / 4) 0))

/-! Launchers (R48-R52) -/

/-- A node's batch condition holds on a die: EN and VALID, and C at the target, or X with enough records (R50, R63). -/
def conditionHolds (s : State) (g : GraphId) (node die : Nat) : Bool :=
  let s := s.seenFrom die
  let v := nodeStatus s g node
  let l := s.launcher g node die
  if statusEn v && statusValid v then
    match nodeField s g node 0x10 8 with
    | none => false
    | some c =>
      let d := c * 256 ^ 0x10
      let c := l.pend.length
      decide (descGang d * descTarget d ≤ c) || (l.x && decide (0 < c) && decide (descGang d ≤ c))
  else false

/-- Who is served first: the condition that became true first, the lower node, the higher level, the lower partition (R51). -/
def waitRank (since : Nat) (g : GraphId) (node : Nat) : Nat := ((since * 4096 + node) * 4 + (3 - g.lvl % 4)) * 64 + g.part

/-- The order in which waiting launchers and loop re-issues of a die are served (R51, R65). -/
def decisionRank (s : State) : Event → Nat
  | .launchDecision g node die => waitRank ((s.launcher g node die).waitSince.getD s.cycle) g node
  | .loopReissue k =>
    match tget s.iters k with
    | some it => waitRank it.since it.graph it.node
    | none => 0
  | _ => 0

def insDecision (s : State) (t : Nat) (e : Event) : List (Nat × Event) → List (Nat × Event)
  | [] => [(t, e)]
  | (u, f) :: r =>
    let after := decide (u < t) || (u == t && (decide (phaseOf f < phaseOf e)
      || (phaseOf f == phaseOf e && decide (decisionRank s f ≤ decisionRank s e))))
    if after then (u, f) :: insDecision s t e r else (t, e) :: (u, f) :: r

/-- A launch decision or a loop re-issue due at a cycle, put where R51 serves it. -/
def postDecision (s : State) (t : Nat) (e : Event) : State :=
  if s.events.any (fun x => x.1 == t && decide (x.2 = e)) then s else { s with events := insDecision s t e s.events }

/-- A die's launcher loads a node's status word and its configuration (R315). -/
def noteLaunch (s : State) (g : GraphId) (node die : Nat) : State :=
  let s := (statusAddr s g node).elim s (fun a => s.noteReadOn die g.part a 8)
  (nodeAddr s g node).elim s (fun a => s.noteReadOn die g.part (a + 0x10) 8)

/-- The launcher's condition is looked at: when it holds, it waits from now on and a decision is due (R50, R51). -/
def noteCondition (s : State) (g : GraphId) (node die : Nat) : State :=
  let s := if (s.launcher g node die).pend.isEmpty then s else noteLaunch s g node die
  if conditionHolds s g node die then
    let s := s.modLauncher g node die (fun l => { l with waitSince := some (l.waitSince.getD s.cycle) })
    let t := if (s.launcher g node die).decided = some s.cycle then s.cycle + 1 else s.cycle
    postDecision s t (.launchDecision g node die)
  else s.modLauncher g node die (fun l => { l with waitSince := none })

/-- The timer loads TIMER × 16; with TIMER 0 it expires at once (R50). -/
def loadTimer (s : State) (g : GraphId) (node die : Nat) : State :=
  let t := (nodeField s g node 0x10 4).elim 0 (fun c => bits c 29 14 * 16)
  if t = 0 then s.modLauncher g node die (fun l => { l with timerAt := none, held := none, x := true })
  else if statusEn (nodeStatus s g node) then
    (s.modLauncher g node die (fun l => { l with timerAt := some (s.cycle + t), held := none })).post (s.cycle + t)
      (.coalescingTimerExpiry g node die)
  else s.modLauncher g node die (fun l => { l with timerAt := none, held := some t })

/-- Graph and node of a launcher's key. -/
def launcherOf (key : Nat) : GraphId × Nat × Nat :=
  (⟨key / 65536, key / 16384 % 4⟩, key / 4 % 4096, key % 4)

/-- Work that waits for cores of a die is tried again: requeued blocks, loop re-issues, then launchers (R51, R65, R372). -/
def retryDie (s : State) (die : Nat) : State :=
  let s := if s.queued.any (fun q => q.die == die) then s.postOnce s.cycle (.blockRequeuePlace die) else s
  let s := s.iters.foldl (fun s e => if e.2.reissue && e.2.die == die then postDecision s s.cycle (.loopReissue e.1) else s) s
  s.launchers.foldl (fun s e =>
    let (g, node, d) := launcherOf e.1
    if d = die ∧ e.2.waitSince.isSome then noteCondition s g node d else s) s

def retryAll (s : State) : State := [0, 1, 2, 3].foldl retryDie s

/-! Commits (R50, R57-R60) -/

/-- A record counted by a die's launcher (R50, R60). -/
def countRecord (s : State) (g : GraphId) (node : Nat) (h : Word) (v : Nat) (fixed : Option Nat) : State :=
  let die := fixed.getD (countDie s g.part (v / 24))
  let rise := (s.launcher g node die).pend.isEmpty
  let s := s.modLauncher g node die (fun l => { l with pend := l.pend ++ [⟨h, v⟩] })
  noteCondition (if rise then loadTimer s g node die else s) g node die

/-- The node's structures or a record's key cannot be read (R59). (log 40, DEDUCED) -/
def nodeFault (s : State) (g : GraphId) (node : Nat) : State := modStatus s g node faultStatus

/-- The load of a record's key reaches the directory (R315). -/
def noteKey (s : State) (g : GraphId) (h : Word) : State :=
  match payloadAddr s g h with | some a => s.noteRead g.part a 4 | none => s

/-- A commit reaches the launchers (R50, R57, R59). -/
def commitArrival (g : GraphId) (node : Nat) (h : Word) (src : CommitSrc) (s : State) : State :=
  let keep := (nodeFault s g node).modNode g node (fun n => { n with unread := n.unread ++ [(h, src)] })
  let fixed := match src with
    | .sampler die => some die
    | _ => none
  match nodeField s g node 0x14 4, nodeField s g node 0x20 4, nodeField s g node 0x24 4 with
  | some c1, some afp0, some afp1 =>
    let s := (s.noteField g node 0x14 4).noteField g node 0x20 8
    let sel := bits c1 13 11
    if sel = 0 then countRecord s g node h (affinitySlice 0 afp0 afp1 [] src h 0) fixed
    else
      match (payloadAddr s g h).bind (fun a => devRead s g.part a 4) with
      | some key => countRecord (noteKey s g h) g node h (affinitySlice sel afp0 afp1 (s.node g node).table src h key) fixed
      | none => keep
  | _, _, _ => keep

def execCommitArrival (s : State) : Host.Outcome State Fault Refusal :=
  device s fun
    | .commitArrival g node h src => some (commitArrival g node h src s)
    | _ => none

/-- The coalescing timer reaches 0 (R50); a timer that has been held or reloaded since is another one. -/
def timerExpiry (g : GraphId) (node die : Nat) (s : State) : State :=
  if (s.launcher g node die).timerAt = some s.cycle then
    noteCondition (s.modLauncher g node die (fun l => { l with timerAt := none, x := true })) g node die
  else s

def execCoalescingTimerExpiry (s : State) : Host.Outcome State Fault Refusal :=
  device s fun
    | .coalescingTimerExpiry g node die => some (timerExpiry g node die s)
    | _ => none

/-! Enabling and disabling -/

/-- Records whose keys are read again once the node has validated (R59). -/
def rereadKeys (s : State) (g : GraphId) (node : Nat) : State :=
  let l := (s.node g node).unread
  l.foldl (fun s e => commitArrival g node e.1 e.2 s) (s.modNode g node (fun n => { n with unread := [] }))

/-- Timers reload, X clears, pending re-issues, relaunches and decisions are due (R52, R65, R400). -/
def restartNode (s : State) (g : GraphId) (node : Nat) : State :=
  let s := rereadKeys s g node
  let s := (s.queued.filter (fun q => !q.restored && q.blocks.any (fun b => b.graph == g && b.launch.node == node))).foldl
    (fun s q => s.postOnce s.cycle (.blockRequeuePlace q.die)) s
  let s := s.iters.foldl (fun s e =>
    if e.2.graph = g ∧ e.2.node = node ∧ e.2.reissue then
      postDecision { s with iters := tset s.iters e.1 { e.2 with since := s.cycle } } s.cycle (.loopReissue e.1)
    else s) s
  [0, 1, 2, 3].foldl (fun s die =>
    if (s.launcher g node die).pend.isEmpty then s
    else noteCondition (loadTimer (s.modLauncher g node die (fun l => { l with x := false })) g node die) g node die) s

/-- VALIDATION of a node whose EN has been set (R30, R59). -/
def nodeEnable (g : GraphId) (node : Nat) (s : State) : State :=
  if statusEn (nodeStatus s g node) = false then s
  else
    match readDesc s g node, nodeCount s g, poolCount s g, graphField s g 0x08 8 with
    | some d, some n, some p, some ptb =>
      let k := dfield d 0x30 2
      match if k < p then devRead s g.part (ptb + 32 * k) 32 else some 0 with
      | none => nodeFault s g node
      | some pool =>
        match validate d n p pool with
        | some code => modStatus s g node (failStatus code)
        | none =>
          let table := if descAfsel d = 3 then devRead s g.part (dfield d 0x20 8 / 256 * 256) 256 else some 0
          match table with
          | none => nodeFault s g node
          | some t =>
            let s := s.modNode g node (fun x => if descAfsel d = 3 then { x with table := toBytes 256 t } else x)
            restartNode (modStatus s g node passStatus) g node
    | _, _, _, _ => nodeFault s g node

def execNodeEnable (s : State) : Host.Outcome State Fault Refusal :=
  device s fun
    | .nodeEnable g node => some (nodeEnable g node s)
    | _ => none

/-- EN has been cleared: timers are held and no decision is in progress (R31, R52). (log 71, DEDUCED) -/
def nodeDisable (g : GraphId) (node : Nat) (s : State) : State :=
  if statusEn (nodeStatus s g node) then s
  else
    let s := modStatus s g node (fun v => setBits v 2 2 0)
    [0, 1, 2, 3].foldl (fun s die => s.modLauncher g node die (fun l =>
      { l with
        timerAt := none, waitSince := none
        held := match l.timerAt with
          | some t => some (t - s.cycle)
          | none => l.held })) s

/-- A reading of the rules (log 71, DEDUCED). -/
def execNodeDisable (s : State) : Host.Outcome State Fault Refusal :=
  device s fun
    | .nodeDisable g node => some (nodeDisable g node s)
    | _ => none

/-! Launching -/

/-- Bytes of a number as a sparse table. -/
def sparseBytes (d : Nat) : Nat → Nat → Tab Byte
  | _, 0 => []
  | i, n + 1 => if d % 256 = 0 then sparseBytes (d / 256) (i + 1) n
      else (i, BitVec.ofNat 8 d) :: sparseBytes (d / 256) (i + 1) n

/-- Identities of resident and queued blocks, also those of saved partitions (R34, R378). -/
def State.identities (s : State) : List Nat :=
  s.blocks.map (·.1) ++ (s.queued.flatMap (·.blocks)).map (·.launch.ident)
    ++ (s.vfsAway.flatMap (fun e => e.2.blocks ++ e.2.queued.flatMap (·.blocks))).map (·.launch.ident)

/-- The next identity of a die: its counter's value, but for those it skips (R34). -/
def nextIdentity (s : State) (die : Nat) : Nat → Nat × State
  | 0 => (0, s)
  | n + 1 =>
    let c := (s.pkg.dies.getD die ⟨700, 0, 0, 0, 0, 0, 0⟩).counter
    let id := die % 4 * 2 ^ 30 + c
    let s := s.modPkg (fun k => { k with dies := lmod k.dies die (fun x => { x with counter := (c + 1) % 2 ^ 30 }) })
    if id = 0xFFFF_FFFF ∨ mem? s.identities id then nextIdentity s die n else (id, s)

/-- As many tries as there are values to skip. -/
def State.takeIdentity (s : State) (die : Nat) : Nat × State := nextIdentity s die (s.identities.length + 2)

/-- Identities for the members of a gang. -/
def takeIdentities (s : State) (die : Nat) : Nat → List Nat × State
  | 0 => ([], s)
  | n + 1 =>
    let (id, s) := s.takeIdentity die
    let (r, s) := takeIdentities s die n
    (id :: r, s)

/-- The constant table as uniform cells (R18); none on a fault (R19). -/
def constants (s : State) (part ctb : Nat) : Option (List Cell) :=
  if ctb = 0 then some (List.replicate 64 (.ofWord 0))
  else (devRead s part ctb 256).map (fun v => (upto 64).map (fun k => Cell.ofWord (wd (v / 2 ^ (32 * k)))))

/-- The launcher's loads of a descriptor and of its constant table reach the directory (R315). -/
def noteSnapshot (s : State) (g : GraphId) (node ctb : Nat) : State :=
  let s := match nodeAddr s g node with | some a => s.noteRead g.part a 1408 | none => s
  if ctb = 0 then s else s.noteRead g.part ctb 256

/-- A block put on its core; its paths are looked at when the cycle's other steps are done. (log 15, DEDUCED) -/
def startBlock (s : State) (l : Launch) (w : List Cell) : State :=
  let id := l.launch.ident
  let b := buildBlock l w s.cycle s.ids
  let s := { s with ids := s.ids + b.paths.length, blocks := tset s.blocks id b }
  let s := bindProgram s l.graph id l.launch.handles
  let s := b.paths.foldl (fun s e => s.postOnce s.cycle (.pathReady id e.1)) s
  recheck s id

/-- Records of the members of a gang (R63). -/
def shareOut (n g : Nat) (l : List Pending) : Nat → List (List Pending)
  | 0 => []
  | k + 1 =>
    let i := g - (k + 1)
    let m := n / g + b2n (decide (i < n % g))
    l.take m :: shareOut n g (l.drop m) k

/-- The batch halfword of a launch record (R32, R53, R63). -/
def batchWord (count member target : Nat) : BitVec 16 :=
  BitVec.ofNat 16 (count + 2048 * member + 32768 * b2n (decide (count < target)))

/-- Loop iterations that records belong to (R64). -/
def iterationsOf (s : State) (g : GraphId) (hs : List Word) : List Nat :=
  (s.iters.filter (fun e => e.2.graph == g && e.2.members.any (fun m => hs.any (· == m)))).map (·.1)

/-- What a launch starts: node, its descriptor, die, and the place found. -/
structure LaunchAt where
  g : GraphId
  node : Nat
  d : Nat
  die : Nat
  clus : Nat
  core : Nat
  home : Nat

/-- One member started (R18, R32, R53, R63). -/
def startMember (x : LaunchAt) (w : List Cell) (ids : List Nat) (extra : List Nat) (s : State) (i : Nat) (l : List Pending) :
    State :=
  let hs := l.map (·.handle)
  let pl : Place := ⟨x.die, x.clus, x.core + i⟩
  let depths := hs.map (fun h => (readMeta s x.g h).elim 0 metaDepth)
  let gang := if ids.length ≤ 1 then [] else ids
  startBlock s {
    graph := x.g, place := pl, homeSlice := x.home, asid := 0
    launch := ⟨ids.getD i 0, x.node, batchWord hs.length i (descTarget x.d), sparseBytes x.d 0 1408, hs⟩
    depths := depths, gang := gang, iters := extra ++ iterationsOf s x.g hs
    slots := slotsFor s pl.coreNo (descWarps x.d) } w

/-- Cluster idle time ends when it is given a block (R424). -/
def startMembers (x : LaunchAt) (w : List Cell) (extra : List Nat) (batch : List Pending) (s : State) : State :=
  let g := descGang x.d
  let (ids, s) := takeIdentities s x.die g
  let shares := shareOut batch.length g batch g
  ((upto g).zip shares).foldl (fun s e => startMember x w ids extra s e.1 e.2) s

/-- A batch of a loop node opens an iteration (R64). -/
def openIteration (s : State) (g : GraphId) (node die : Nat) (batch : List Pending) : Nat × State :=
  let (k, s) := s.fresh
  (k, { s with iters := tset s.iters k ⟨g, node, die, batch, [], [], false, false, s.cycle⟩ })

/-- The blocks of an iteration are those that run its batch. -/
def bindIteration (s : State) (k : Nat) (before : List Nat) : State :=
  let new := (s.blocks.map (·.1)).filter (fun i => !mem? before i)
  { s with iters := tmod s.iters k (fun it => { it with blocks := new }) }

def markLaunched (s : State) (g : GraphId) (batch : List Pending) : State :=
  batch.foldl (fun s r => setSlotState s g r.handle slotLaunched) s

/-- A batch started at a place found for it, with its iteration when the node is a loop node. -/
def startBatch (s : State) (x : LaunchAt) (w : List Cell) (batch : List Pending) : State :=
  let s := markLaunched s x.g batch
  if descKind x.d = 1 then
    let (k, s) := openIteration s x.g x.node x.die batch
    bindIteration (startMembers x w [k] batch s) k (s.blocks.map (·.1))
  else startMembers x w [] batch s

/-- After a decision: C falls, X clears, the timer reloads or stops (R50). -/
def afterDecision (s : State) (g : GraphId) (node die n : Nat) : State :=
  let s := s.modLauncher g node die (fun l =>
    { l with pend := l.pend.drop n, x := false, timerAt := none, held := none, waitSince := none, decided := some s.cycle })
  let s := if (s.launcher g node die).pend.isEmpty then s else loadTimer s g node die
  noteCondition s g node die

/-- The needs of g members that each take a whole node's reservations. -/
def gangNeeds (d : Nat) : List (Nat × CoreNeed) := (upto (descGang d)).map (fun i => (i, needOf d))

/-- LAUNCH DECISION (R50, R61, R63): the batch's blocks start where placement finds cores; else the launcher waits (R51).
(log 40, DEDUCED) -/
def launchDecision (g : GraphId) (node die : Nat) (s : State) : State :=
  if !conditionHolds s g node die || (s.launcher g node die).decided = some s.cycle then s
  else
    match readDesc s g node with
    | none => nodeFault s g node
    | some d =>
      let l := s.launcher g node die
      let n := min l.pend.length (descGang d * descTarget d)
      let batch := l.pend.take n
      let home := (batch.head?.map (·.slice)).getD 0
      match place s g.part die (home % 24) (descGang d) (gangNeeds d) with
      | none => wakeFor s g.part die (home % 24)
      | some (clus, core) =>
        match constants s g.part (dfield d 0x28 8) with
        | none => modStatus s g node (fun v => setBits (setBits v 0 0 0) 3 3 1)
        | some w =>
          let s := noteSnapshot s g node (dfield d 0x28 8)
          afterDecision (startBatch s ⟨g, node, d, die, clus, core, home⟩ w batch) g node die n

def execLaunchDecision (s : State) : Host.Outcome State Fault Refusal :=
  device s fun
    | .launchDecision g node die => some (launchDecision g node die s)
    | _ => none

/-! Loop iterations (R64, R65) -/

/-- The condition words of a batch; none where one cannot be read. -/
def conditionWords (s : State) (g : GraphId) : List Pending → Option (List (Pending × Nat))
  | [] => some []
  | r :: rest =>
    match (payloadAddr s g r.handle).bind (fun a => devRead s g.part (a + 4) 4), conditionWords s g rest with
    | some w, some l => some ((r, w) :: l)
    | _, _ => none

/-- The loads of a batch's condition words reach the directory (R315). -/
def noteConditions (s : State) (g : GraphId) (batch : List Pending) : State :=
  batch.foldl (fun s r => match payloadAddr s g r.handle with | some a => s.noteRead g.part (a + 4) 4 | none => s) s

/-- The ended iteration's records: zero words free them, the others are the next batch (R26, R65). (log 39, DEDUCED) -/
def settleIteration (s : State) (k : Nat) (it : Iteration) : State :=
  match conditionWords s it.graph it.batch with
  | none =>
    let s := nodeFault s it.graph it.node
    { s with iters := tset s.iters k { it with reissue := true, recheck := true, since := s.cycle } }
  | some l =>
    let go := (l.filter (fun e => e.2 != 0)).map (·.1)
    let s := (l.filter (fun e => e.2 == 0)).foldl (fun s e => freeLaunched s it.graph e.1.handle) (noteConditions s it.graph it.batch)
    if go.isEmpty then { s with iters := tdel s.iters k }
    else
      postDecision { s with iters := tset s.iters k { it with batch := go, reissue := true, recheck := false, since := s.cycle } }
        s.cycle (.loopReissue k)

/-- END of an iteration: none of its blocks is resident, none of its records other than the batch is left (R64). -/
def iterationEnd (k : Nat) (s : State) : State :=
  match tget s.iters k with
  | none => s
  | some it => if it.blocks.isEmpty && it.members.isEmpty && !it.reissue then settleIteration s k it else s

def execIterationEnd (s : State) : Host.Outcome State Fault Refusal :=
  device s fun
    | .iterationEnd k => some (iterationEnd k s)
    | _ => none

/-- RE-ISSUE of a loop batch, when EN and VALID are set (R65). -/
def loopReissue (k : Nat) (s : State) : State :=
  match tget s.iters k with
  | none => s
  | some it =>
    let v := nodeStatus s it.graph it.node
    if !it.reissue || !statusEn v || !statusValid v then s
    else if it.recheck then settleIteration s k { it with reissue := false }
    else
      match readDesc s it.graph it.node with
      | none => nodeFault s it.graph it.node
      | some d =>
        let home := (it.batch.head?.map (·.slice)).getD 0
        match place s it.graph.part it.die (home % 24) 1 [(0, needOf d)] with
        | none => if (s.part it.graph.part).vfSaved.isSome then s else wakeFor s it.graph.part it.die (home % 24)
        | some (clus, core) =>
          match constants s it.graph.part (dfield d 0x28 8) with
          | none => modStatus s it.graph it.node (fun v => setBits (setBits v 0 0 0) 3 3 1)
          | some w =>
            let before := s.blocks.map (·.1)
            let s := noteSnapshot s it.graph it.node (dfield d 0x28 8)
            let s := { s with iters := tset s.iters k { it with reissue := false, members := [] } }
            bindIteration (startMembers ⟨it.graph, it.node, d, it.die, clus, core, home⟩ w [k] it.batch s) k before

def execLoopReissue (s : State) : Host.Outcome State Fault Refusal :=
  device s fun
    | .loopReissue k => some (loopReissue k s)
    | _ => none

/-! Retirement (R26, R211) -/

def Block.allExited (b : Block) : Bool := b.threads.all (fun e => decide (1024 ≤ e.1) || e.2.run == .exited)

/-- Engine commands of a block that are not over (R211). -/
def State.unfinished (s : State) (bid : Nat) : Bool :=
  let mine := fun (q : List Cmd) => q.any (fun x => x.blk == bid && !isWait x.op)
  (match tget s.blocks bid with
    | some b => b.chans.any (fun e => mine e.2.queue)
    | none => false)
    || s.engines.gather.any (fun e => mine e.2) || s.engines.sampler.any (fun e => mine e.2)
    || s.parts.any (fun p => p.bind.any (fun n => mine n.queue))
    || s.sectors.any (fun e => e.2.mq.any (fun x => x.blk == bid))

/-- The cluster's idle time begins when its last block leaves it (R424). -/
def noteIdle (s : State) (clus : Nat) : State :=
  if s.blocks.any (fun e => e.2.place.clus == clus) then s
  else
    watchIdle (s.modCluster clus (fun k => { k with idleSince := s.cycle })) clus

/-- A block's resources are free: its sectors forget it, what waits for its queue entries, its port or its cores is tried
again (R62, R85, R107), a move of its cluster too (R376), and a pre-emption that waited for it alone is done (R370). -/
def releaseBlock (s : State) (bid : Nat) (b : Block) : State :=
  let mineAt := fun (x : Option (Nat × Nat)) => match x with
    | some (k, _) => k == bid
    | none => false
  let s := (upto 4).foldl (fun s k =>
    let sec := 4 * b.place.coreNo + k
    let s := s.modSector sec (fun x => { x with
      exec := if mineAt x.exec then none else x.exec
      find := if mineAt x.find then none else x.find
      mq := x.mq.filter (fun y => y.blk != bid)
      bins := x.bins.filter (fun e => e.2.blk != bid) })
    let s := (wakePort (wakePort s sec false) sec true).postOnce s.cycle (.matrixQueueRoom sec)
    let waiting := (s.blocksOn b.place.coreNo).any (fun e => e.2.paths.any (fun x => x.2.wait == .binning))
    if (s.sector sec).bins.all (fun n => n.2.filed.isEmpty) && !waiting then s else s.postOnce s.cycle (.warpFormation sec)) s
  let s := if s.moves.any (fun m => m.old == b.place.clus) then s.postOnce s.cycle (.vacateBegin bid) else s
  let s := retryDie (noteIdle { s with blocks := tdel s.blocks bid } b.place.clus) b.place.die
  match (s.part b.part).preempt with
  | some r =>
    let left := r.blocks.filter (· != bid)
    let s := s.modPart b.part (fun p => { p with preempt := some { r with blocks := left } })
    if left.isEmpty then s.postOnce s.cycle (.preemptDone b.part) else s
  | none => s

/-- Slots that its threads still hold reserved become free, and their nodes count them (R26, R29); a slot that has another
holder by then stays (R325). -/
def orphanSlots (s : State) (b : Block) : State :=
  b.records.foldl (fun s r =>
    match readMeta s b.graph r.1 with
    | some m =>
      if metaState m = slotReserved ∧ metaOwner m = b.launch.ident then
        freeRecord (modStatus s b.graph (metaNode m) orphStatus) b.graph r.1
      else s
    | none => s) s

/-- A block leaves its iterations (R64). (log 39, DEDUCED) -/
def leaveIterations (s : State) (bid : Nat) : State :=
  (s.iters.filter (fun e => mem? e.2.blocks bid)).foldl (fun s e =>
    { s with iters := tmod s.iters e.1 (fun it => { it with blocks := it.blocks.filter (· != bid) }) }.postOnce s.cycle
      (.iterationEnd e.1)) s

/-- The consumed records of a retiring or killed block (R26): a loop batch stays launched. -/
def consumeRecords (s : State) (b : Block) : State :=
  if b.isLoop then s else b.launch.handles.foldl (fun s h => freeLaunched s b.graph h) s

/-- RETIREMENT of a block (R211). -/
def retireBlock (s : State) (bid : Nat) (b : Block) : State :=
  let s := leaveIterations (consumeRecords (orphanSlots s b) b) bid
  let s := releaseBlock s bid b
  if isProgram s bid then s.postOnce s.cycle (.programStageComplete bid) else s

/-- A killed gang's members have no command left, those vacated before it neither (R277, R399). (log 59, DEDUCED) -/
def killedDone (s : State) (bid : Nat) (b : Block) : Bool := (b.members bid).all (fun k => !s.unfinished k)

/-- The threads of a killed gang's resident members exit (R399). -/
def exitKilled (s : State) (bid : Nat) (b : Block) : State :=
  (b.members bid).foldl (fun s k => match tget s.blocks k with
    | some m => exitThreads s k (m.threads.map (·.1))
    | none => s) s

/-- All members of a killed gang, the resident ones and those whose context was given up. (log 59, DEDUCED) -/
def killedMembers (s : State) (bid : Nat) (b : Block) : List Block :=
  (b.members bid).filterMap (fun k =>
    match tget s.blocks k with
    | some m => some m
    | none => (s.killed.flatMap (·.blocks)).find? (fun m => m.launch.ident == k))

/-- Records of a gang killed with RP = 0 go free, those of a loop batch too (R26). -/
def dropRecords (s : State) (m : Block) : State :=
  let s := m.launch.handles.foldl (fun s h => freeLaunched s m.graph h) s
  let s := { s with iters := s.iters.map (fun (e : Nat × Iteration) => (e.1,
    if mem? m.iters e.1 && m.isLoop then { e.2 with batch := e.2.batch.filter (fun r => !m.launch.handles.contains r.handle) }
    else e.2)) }
  leaveIterations s m.launch.ident

/-- The program stages that run in killed blocks: over, or to be bound to the relaunched block (R393, R400). -/
def killedPrograms (s : State) (ids : List Nat) (again : Bool) : State :=
  if again then s.modPrograms (fun p => if ids.any (fun k => p.blk == some k) then { p.paused s.cycle with blk := none } else p)
  else ids.foldl (fun s k => if isProgram s k then s.postOnce s.cycle (.programStageComplete k) else s) s

/-- RETIREMENT of a killed gang (R399, R400): its members retire, the KIND 7 record is written, and its records go free or
wait for their relaunch. (log 39, DEDUCED) -/
def retireKilled (s : State) (bid : Nat) (b : Block) : State :=
  let l := killedMembers s bid b
  let s := l.foldl (fun s m =>
    let s := orphanSlots s m
    if (tget s.blocks m.launch.ident).isSome then releaseBlock s m.launch.ident m else s) s
  let s := reportError s b.part ⟨7, 0x13, b.errAt.1, b.place.die, 8 * b.place.cluster + b.place.core, 0, b.errAt.2, bid,
    b.launch.node, 0, 0, 0⟩
  let s := killedPrograms s (l.map (·.launch.ident)) b.relaunch
  let s := { s with killed := s.killed.filter (fun q => q.blocks.all (fun m => !mem? (b.members bid) m.launch.ident)) }
  if b.relaunch then
    State.postOnce { s with killed := s.killed ++ [Queued.mk b.place.die (l.map (fun m => { m with killed := false })) false] } s.cycle (.gangRelaunch b.place.die)
  else l.foldl dropRecords s

/-- A member of a killed gang has ended something: the gang retires when nothing is left (R399). -/
def killedStep (s : State) (bid : Nat) (b : Block) : State :=
  if killedDone s bid b then retireKilled (exitKilled s bid b) bid b else s

def blockRetire (bid : Nat) (s : State) : State :=
  match s.anyBlock bid with
  | some b =>
    if b.killed then killedStep s bid b
    else if (tget s.blocks bid).isSome && b.allExited && !s.unfinished bid then retireBlock s bid b
    else s
  | none => s

def execBlockRetire (s : State) : Host.Outcome State Fault Refusal :=
  device s fun
    | .blockRetire bid => some (blockRetire bid s)
    | _ => none

/-! The fabric's matching table (R66, R67) -/

/-- An entry's words: TAG, LEN, CTL, CNT, TMPL (R66). -/
def matchWord (e : MatchEntry) (i : Nat) : Nat := (e.getD i 0).toNat

def setMatch (s : State) (k : Nat) (e : MatchEntry) : State := s.modPkg (fun p => { p with matching := tset p.matching k e })

/-- The lowest-numbered valid entry of a partition and tag (R67). -/
def findMatch (s : State) (part : Nat) (tag : Word) : Option (Nat × MatchEntry) :=
  s.pkg.matching.find? (fun e => bit? (matchWord e.2 2) 0 && bits (matchWord e.2 2) 13 8 == part
    && matchWord e.2 0 == tag.toNat && matchWord e.2 1 != 0)

def setCtl (e : MatchEntry) (v : Nat) : MatchEntry := lset e 2 (wd v)

/-- An entry that sets ERR or OVR sends its partition's vector 3 (R410). (log 53, DEDUCED) -/
def failMatch (s : State) (k part : Nat) (e : MatchEntry) (ctl : Nat) : State :=
  sendIrq (setMatch s k (setCtl e (setBits ctl 0 0 0))) part 3

/-- The full count commits a host record (R67) to a node of the partition's user graph. (log 53, DEDUCED; log 77, DESIGN CHOICE) -/
def matchCommit (s : State) (k part : Nat) (e : MatchEntry) (addr : Nat) : State :=
  let ctl := matchWord e 2
  let node := bits ctl 27 16
  let g : GraphId := ⟨part, 0⟩
  let fail := fun (st : Nat) => failMatch s k part e (setBits (setBits ctl 29 28 st) 31 31 1)
  if (nodeCount s g).elim true (fun n => decide (n ≤ node)) then fail 3
  else
    match reserve s g node 0 0xFFFF_FFFF with
    | .status v => fail v
    | .fault => fail 3
    | .ok h s =>
      let words := if bit? ctl 2 then [matchWord e 4, matchWord e 5, addr % 2 ^ 32, addr / 2 ^ 32]
        else [matchWord e 4, matchWord e 5, matchWord e 6, matchWord e 7]
      let n := (nodeField s g node 0x10 4).elim 4 (fun c => 4 * (c % 16 + 1))
      let s := match payloadAddr s g h with
        | some a => ((upto n).foldl (fun s i => (devWrite s part (a + 4 * i) 4 (words.getD i 0)).getD s) s)
        | none => s
      let s := postCommit (setSlotState s g h slotCommitted) g node h (.fabric k)
      if bit? ctl 1 then setMatch s k (lset e 3 0) else setMatch s k (setCtl e (setBits ctl 0 0 0))

/-- ARRIVAL of a message at its fabric address (R229, R287): the fabric interface writes its bytes into the own package
(R324), then they are counted (R67). One whose address this package does not hold is not its own. (log 53, DEDUCED) -/
def messageArrival (part : Nat) (tag : Word) (addr : Nat) (payload : List Byte) (s : State) : State :=
  if !(isFabric addr && ownPackage s addr && physMaps addr) then s else
  let s := agentWrite s (localPa s addr) payload
  match findMatch s part tag with
  | none => s
  | some (k, e) =>
    let cnt := matchWord e 3 + payload.length
    let e := lset e 3 (wd cnt)
    if cnt < matchWord e 1 then setMatch s k e
    else if cnt = matchWord e 1 then matchCommit s k part e addr
    else failMatch s k part e (setBits (matchWord e 2) 30 30 1)

def execFabricMessageArrival (s : State) : Host.Outcome State Fault Refusal :=
  device s fun
    | .fabricMessageArrival part tag addr payload => some (messageArrival part tag addr payload s)
    | _ => none

/-! The launch window (R68, R378) -/

/-- A read of the window reserves a slot of the user graph's node; the doubleword it returns (R68). (log 15, DEDUCED) -/
def hostReserve (part node : Nat) (s : State) : State :=
  let g : GraphId := ⟨part, 0⟩
  let ret := fun (s : State) (h st : Nat) => { s with hostRead := BitVec.ofNat 64 (st * 2 ^ 32 + h) }
  if (s.part part).vfSaved.isSome || (nodeCount s g).elim true (fun n => decide (n ≤ node)) then ret s 0xFFFF_FFFF 3
  else
    match reserve s g node 0 0xFFFF_FFFF with
    | .ok h s => ret s h.toNat 0
    | .status v => ret s 0xFFFF_FFFF v
    | .fault => ret s 0xFFFF_FFFF 3

def execHostReserve (s : State) : Host.Outcome State Fault Refusal :=
  device s fun
    | .hostReserve part node => some (hostReserve part node s)
    | _ => none

/-- A write of the window commits a slot that was reserved through it (R68). (log 15, DEDUCED; log 53, DEDUCED) -/
def hostCommit (part : Nat) (h : Word) (s : State) : State :=
  let g : GraphId := ⟨part, 0⟩
  let refuse := s.modPart part (fun p => { p with guest := { p.guest with refused := h } })
  if (s.part part).vfSaved.isSome then refuse
  else
    match readMeta s g h with
    | some m =>
      if metaState m = slotReserved ∧ metaOwner m = 0xFFFF_FFFF then
        postCommit (setSlotState s g h slotCommitted) g (metaNode m) h .host
      else refuse
    | none => refuse

def execHostCommit (s : State) : Host.Outcome State Fault Refusal :=
  device s fun
    | .hostCommit part h => some (hostCommit part h s)
    | _ => none

end Sys2Proof.Machine
end

