-- ==== Sys2Proof/Machine/Saved.lean ====
section
/-! DEFINITION. What a save keeps of a block and the bytes of its context (R88, R151, R360, R374, R382). The layout after the
header is the device's own; the model's is log 37's. -/

namespace Sys2Proof.Machine

/-! The saved block (R88, R151, R360, R374) -/

/-- Threads filed in the bins of the block's sectors, and those that still wait to be filed, with their next PC. -/
def binnedThreads (s : State) (bid : Nat) (b : Block) : Tab Word :=
  ((upto 4).flatMap (fun k => (s.sector (4 * b.place.coreNo + k)).bins)).foldl (fun t e =>
    if e.2.blk = bid then e.2.filed.foldl (fun t f => tset t f.key e.2.pc) t else t) b.filed

/-- A formed path whose threads are saved as filed: each one that is not stopped, nor about to stop (R88, R372). (log 42,
DEDUCED) -/
def savedAsFiled (p : Path) : Bool :=
  p.formed && p.haltAt.isNone && (match p.wait with
    | .ready _ | .parked | .joining _ | .rehoming | .binning => true
    | _ => false)

/-- The next PC of a path's threads: a path that waits at `reform` has executed it (R84, R88). -/
def Path.filedPc (p : Path) : Word := if p.wait = .binning then p.pc + 4 else p.pc

/-- A path is owed nothing that a restore has to wait for before its threads are filed: no result, no sleep (R97, R179). -/
def Path.free (p : Path) (cycle : Nat) : Bool := p.run.awaits.isEmpty && (p.run.sleep == 0 || decide (p.since + p.run.sleep ≤ cycle))

/-- A path as it is saved: parked at its boundary, the rest of its sleep kept. A formed one whose threads are saved as filed
waits for what it is owed, then files them (R88, R371). (log 42, DEDUCED) -/
def Path.asSaved (p : Path) (cycle : Nat) : Path :=
  let left := p.since + p.run.sleep - cycle
  let p := if savedAsFiled p then { p with wait := .binning, pc := p.filedPc - 4 } else p
  { p with
    wait := match p.wait with
      | .ready _ => if p.run.count = 0 then .parked else p.wait
      | .holding .context => if p.run.count = 0 then .parked else .ready 0
      | w => w
    run := { p.run with base := 0, port := [], paired := false, sleep := if p.run.sleep = 0 then 0 else left } }

/-- Scratchpad bytes under a staging record are not saved (R374). -/
def unstaged (b : Block) : Memory := b.spad.filter (fun c => !stagedAt b c.1 1)

/-- Cells of finished chunks are not saved (R382). -/
def dropCells (n : Nat) (l : List Word) : List Word := List.replicate (min n l.length) 0 ++ l.drop n

/-- A cells and index cells of an entry that only its finished chunks take (R334, R339). -/
def MOp.finished (b : Block) (x : MOp) : Nat × Nat :=
  let fmt := (matSlot b x.op).fmt
  match x.op with
  | .mma .. => (x.chunk * chunkCells fmt, 0)
  | .mmas .. => (x.chunk * chunkCells fmt / 2, x.chunk * chunkLen fmt / 32)
  | _ => (0, 0)

/-- An entry as it is saved (R382). -/
def MOp.asSaved (b : Block) (x : MOp) : MOp :=
  let n := x.finished b
  { x with lanes := x.lanes.map (fun l => (l.1, dropCells n.1 l.2.1, dropCells n.2 l.2.2)) }

/-- A block with all that R374 saves of it, taken from its sectors; threads saved as filed keep the emulation routine that they
are in (R368). -/
def packBlock (s : State) (bid : Nat) (b : Block) : Block :=
  let gone := b.paths.filter (fun e => savedAsFiled e.2 && e.2.free s.cycle)
  let keys := gone.flatMap (fun e => e.2.lanes.map (fun k => (k, e.2.filedPc)))
  let tab := keys.foldl (fun t e => tset t e.1 e.2) (binnedThreads s bid b)
  { b with
    paths := (b.paths.filter (fun e => !(savedAsFiled e.2 && e.2.free s.cycle))).map (fun e => (e.1, e.2.asSaved s.cycle))
    threads := b.threads.map (fun e =>
      (e.1, if (tget tab e.1).isSome && e.2.run == .running then { e.2 with run := .binned } else e.2))
    stepped := b.stepped ++ (gone.filter (fun e => e.2.stepping != 0)).flatMap (·.2.lanes)
    filed := tab
    routine := gone.foldl (fun t e => if e.2.nest.isNone then t
      else e.2.lanes.foldl (fun t k => tset t k (e.2.nest.getD 0, e.2.ust)) t) b.routine
    mops := b.mops ++ (((upto 4).flatMap (fun k => (s.sector (4 * b.place.coreNo + k)).mq)).filter (fun y => y.blk == bid)).map
      (·.asSaved b)
    spad := unstaged b }

/-! The sections (R374; log 37) -/

/-- Numbers of `n` bytes each. -/
def numbers (n : Nat) (l : List Nat) : List Byte := l.flatMap (toBytes n)

/-- A sequence of 64-byte lines (R374). -/
def lines64 (l : List Byte) : List Byte := l ++ List.replicate ((64 - l.length % 64) % 64) 0

def Poison.code : Poison → Nat
  | .clean => 0
  | .direct => 1
  | .derived => 2

def ThreadRun.code : ThreadRun → Nat
  | .running => 0
  | .stopped => 1
  | .suspended => 2
  | .binned => 3
  | .rehoming => 4
  | .exited => 5

/-- A cell: its value, its other candidate, poison of both, whether it is divided. -/
def Cell.saved (c : Cell) : List Byte :=
  numbers 4 [c.val.bits.toNat, (c.hi.map (·.bits.toNat)).getD 0,
    c.val.poison.code + 4 * (c.hi.map (·.poison.code)).getD 0 + 16 * b2n c.hi.isSome + 32 * b2n c.err]

def cellsSaved (l : List Cell) : List Byte := l.flatMap (·.saved)

/-- Section 1, with the context's serial number before it: the launch record (R32). (log 37, DESIGN CHOICE) -/
def launchSection (serial : Nat) (b : Block) : List Byte :=
  numbers 8 [serial] ++ numbers 4 ([b.launch.ident, b.launch.node, b.launch.batch.toNat, b.launch.handles.length]
    ++ b.launch.handles.map (·.toNat)) ++ rdBytes b.launch.snap 0 1408

/-- A thread's part of section 2: stack down to its depth, fork depths, o, m, origin record (R151). -/
def threadSaved (k : Nat) (t : Thread) : List Byte :=
  numbers 4 ([k, t.stack.length, t.forkD.length] ++ t.forkD.map (·.2)) ++ cellsSaved t.stack ++ cellsSaved t.o ++ cellsSaved t.m
    ++ toBytes 16 t.origin.toNat

/-- A fork's w file and uniform stack (R151). -/
def filesSaved (w ust : List Cell) : List Byte := numbers 4 [ust.length] ++ cellsSaved w ++ cellsSaved ust

def warpsSection (b : Block) : List Byte :=
  b.threads.flatMap (fun e => threadSaved e.1 e.2)
    ++ b.paths.flatMap (fun e => numbers 4 [e.1, e.2.warp, laneMask e.2.lanes, e.2.pc.toNat] ++ filesSaved e.2.w e.2.ust)
    ++ b.saves.flatMap (fun e => numbers 4 [e.1] ++ filesSaved e.2.w e.2.ust)

/-- Section 3: fault records, run state, stall counters. -/
def runSection (b : Block) : List Byte :=
  b.threads.flatMap (fun e => numbers 4 [e.1, e.2.run.code] ++ e.2.fault.bytes)
    ++ b.paths.flatMap (fun e => numbers 4 [e.1, e.2.run.id, e.2.run.pc.toNat, e.2.run.count, e.2.run.slot, e.2.run.sleep])
    ++ numbers 4 (b.stall.flatMap (fun e => [e.1, e.2.toNat]))

/-- A matrix entry: its words, warp, quarter, progress, p and q, and the cells of its unfinished chunks (R360, R382). -/
def MOp.saved (b : Block) (x : MOp) : List Byte :=
  let n := x.finished b
  numbers 4 ([((encode x.op).getD 0).toNat, x.warp, x.quarter, x.chunk, x.stop, x.p.toNat, x.q.toNat]
    ++ x.lanes.flatMap (fun l => l.1 :: ((l.2.1.drop n.1) ++ (l.2.2.drop n.2)).map (·.toNat)))

/-- Checksum entries or counts of `n` rows or columns of a tile, 320 bits each, which hold every sum of f32 elements in units of
2^-149 (R342). -/
def sumsSaved (n : Nat) (l : Tab Int) : List Byte := (upto n).flatMap (fun i => toBytes 40 (tgetD l i 0 % 2 ^ 320).toNat)

/-- A tile with its checksum entries and non-finite counts (R358, R383). -/
def tileSaved (k : Nat) (t : Tile) : List Byte :=
  numbers 4 ([k, t.kind, (t.invalid.map (·.toNat + 1)).getD 0] ++ (upto 512).map (fun i => (tgetD t.elems i 0).toNat))
    ++ sumsSaved 32 t.rowSum ++ sumsSaved 32 t.rowCnt ++ sumsSaved 16 t.colSum ++ sumsSaved 16 t.colCnt

/-- Section 4: latches, LUT areas, tiles, and the entries with pending chunks (R336, R352, R360). -/
def matrixSection (b : Block) : List Byte :=
  (b.threads.filter (fun e => e.2.latch.full)).flatMap (fun e =>
      numbers 4 ([e.1, e.2.latch.fmt, b2n e.2.latch.replay, e.2.latch.next] ++ (e.2.latch.pq ++ e.2.latch.cells.map (·.bits)).map (·.toNat)))
    ++ b.matrix.flatMap (fun e => numbers 4 ([e.1, e.2.lutKind] ++ e.2.lut.flatMap (fun x => [x.1, x.2.toNat]))
      ++ e.2.tiles.flatMap (fun t => tileSaved t.1 t.2))
    ++ b.mops.flatMap (·.saved b)

/-- Section 5: open rendezvous instances (R80). -/
def meetSection (b : Block) : List Byte :=
  numbers 4 (b.rdvs.flatMap (fun e => [e.1, e.2.pc.toNat, e.2.warps.toNat, b2n e.2.faulted, e.2.paths.length] ++ e.2.paths))

/-- Section 6: binned and formed threads, with the nesting of those in an emulation routine (R88, R368). -/
def filedSection (b : Block) : List Byte :=
  numbers 4 ((b.filed ++ b.homing).flatMap (fun e => [e.1, e.2.toNat]))
    ++ b.routine.flatMap (fun e => numbers 4 [e.1, e.2.1] ++ filesSaved [] e.2.2)

/-- A staging record: its command's words and operands, its bytes' offsets, their CRC (R244, R374). -/
def Staging.saved (r : Staging) : List Byte :=
  numbers 4 ([((encode r.cmd.op).getD 0).toNat] ++ r.cmd.args.flatMap (fun t => t.map (fun e => e.2.toNat))
    ++ [r.offs.headD 0, r.offs.length, r.crc.toNat])

/-- Section 7: channel contexts with write pointers, halts and staging records (R242-R244, R276). -/
def channelSection (b : Block) : List Byte :=
  b.chans.flatMap (fun e => numbers 4 [e.1, e.2.wptr.toNat, (e.2.halt.map (·.toNat + 1)).getD 0]
    ++ e.2.staging.flatMap (·.saved))

/-- Section 8: gather tags. -/
def tagSection (b : Block) : List Byte := numbers 4 (b.gatherHalt.flatMap (fun e => [e.1, e.2.toNat]))

/-- Bytes from an address up, in one walk of a memory that lists nothing below it. -/
def denseBytes : Memory → Nat → Nat → List Byte
  | _, _, 0 => []
  | [], a, n + 1 => 0 :: denseBytes [] (a + 1) n
  | c :: r, a, n + 1 => if c.1 = a then c.2 :: denseBytes r (a + 1) n else 0 :: denseBytes (c :: r) (a + 1) n

/-- Section 9: the scratchpad, without the bytes under a staging record. -/
def spadSection (b : Block) : List Byte :=
  let all := denseBytes b.spad 0 (1024 * b.spadKiB)
  if b.chans.all (fun e => e.2.staging.isEmpty) then all
  else (((upto all.length).zip all).filter (fun x => !stagedAt b x.1 1)).map (·.2)

/-- The nine sections of a packed block's context, in order. (log 37, DESIGN CHOICE) -/
def ctxBodies (serial : Nat) (b : Block) : List (List Byte) :=
  [launchSection serial b, warpsSection b, runSection b, matrixSection b, meetSection b, filedSection b, channelSection b,
    tagSection b, spadSection b].map lines64

/-- Sections of a context (R374). -/
def ctxSections : Nat := 9
def ctxMagic : Nat := 0x0058_5443

/-- SIZE of a context with given sections (R374). (log 37, DESIGN CHOICE) -/
def ctxSize (bodies : List (List Byte)) : Nat := 128 + sumBy (·.length) bodies

/-- SIZE of the context that a block has now (R374, R412). -/
def ctxSizeOf (s : State) (bid : Nat) (b : Block) : Nat := ctxSize (ctxBodies 0 (packBlock s bid b))

/-- Offset of a section. -/
def sectionAt (bodies : List (List Byte)) (k : Nat) : Nat := ctxSize (bodies.take k)

/-- The header after a number of sections; the last one completes it with the checksum of what has been written (R374).
(log 37, DESIGN CHOICE) -/
def headerBytes (b : Block) (bid size steps crc : Nat) (mask : BitVec 512) : List Byte :=
  let done := decide (ctxSections ≤ steps)
  toBytes 4 ctxMagic ++ toBytes 4 size ++ toBytes 4 bid ++ toBytes 2 b.launch.node ++ toBytes 1 b.lvl
    ++ toBytes 1 (b2n (!b.gang.isEmpty) + 2 * b2n done) ++ toBytes 4 steps
    ++ toBytes 4 (if done then crc else 0) ++ List.replicate 40 0 ++ toBytes 64 mask.toNat

end Sys2Proof.Machine
end

