-- ==== Sys2Proof/Machine/Preempt.lean ====
section
/-! DEFINITION. Vacating and restoring blocks: pre-emption, the context-switch engine, requeued blocks, the VF context
(R88, R277, R360, R369-R375, R378, R382, R412, R415). -/

namespace Sys2Proof.Machine

/-! Parking and draining (R371) -/

/-- The path is parked or counts as parked (R371); for a VF save also where it waits for the guest engine (R378). -/
def Path.parkedNow (vf : Bool) (p : Path) : Bool :=
  match p.wait with
  | .issuing => false
  | .holding .context => vf
  | .holding _ => false
  | .ready _ => p.run.count == 0
  | _ => true

def Block.allParked (vf : Bool) (b : Block) : Bool := b.paths.all (fun e => e.2.parkedNow vf)

/-- Something of the block is on its way that R371 lets finish first. -/
def eventOf (bid : Nat) : Event → Bool
  | .resultReturn k _ | .queueEntryArrival k _ | .tlbiComplete k _ => k == bid
  | _ => false

/-- A pass in a sector holds one of the block's entries. -/
def Sector.runs (x : Sector) (bid : Nat) : Bool :=
  match x.pass with
  | some p => x.mq.any (fun y => y.blk == bid && mem? p.ids y.id)
  | none => false

/-- DRAINED: results, legacy requests, copy and gather commands and running passes are over, MDR instructions have completed,
the block's fault records have been appended (R277, R360, R371). (log 42, DEDUCED) -/
def drained (s : State) (bid : Nat) (b : Block) : Bool :=
  !s.events.any (fun e => eventOf bid e.2)
    && !s.engines.ephemeris.any (fun e => e.2.any (fun r => r.1 == bid))
    && !s.moves.any (fun m => m.blk == bid && m.old != b.place.clus)
    && b.chans.all (fun e => e.2.queue.isEmpty)
    && !s.engines.gather.any (fun e => e.2.any (fun x => x.blk == bid))
    && (upto 4).all (fun k => !(s.sector (4 * b.place.coreNo + k)).runs bid)
    && !(s.part b.part).rep.heldFaults.any (fun r => r.2.1 == bid)

/-- A block leaves its core as a saved one. -/
def takeAway (s : State) (bid : Nat) (b : Block) : Block × State :=
  (packBlock s bid b, releaseBlock (pauseBudget s bid) bid b)

/-- What a block that becomes active again is vacated for: a VF save, the move of its cluster, or a request that names it
(R370, R376, R378). (log 42, DEDUCED) -/
def nextVacate (s : State) (bid : Nat) (b : Block) : Option Vacate :=
  let p := s.part b.part
  let for_ := fun (k : VacKind) (coop : Bool) => some (Vacate.mk k coop false none 0 0 0)
  if bit? p.hyper.vfsStat.toNat 0 && p.hyper.vfsCtl.toNat % 4 == 1 then for_ .vf false
  else if s.moves.any (fun m => m.old == b.place.clus) then for_ .move false
  else
    match p.preempt with
    | some r => if mem? r.blocks bid then for_ .preempt r.coop else none
    | none => none

/-- A block stands free of its vacate, or is vacated for the next reason. -/
def unvacate (s : State) (bid : Nat) : State :=
  match tget s.blocks bid with
  | none => s
  | some b =>
    let v := nextVacate s bid b
    let s := s.modBlock bid (fun b => { b with vacate := v })
    if v.isSome then s.postOnce s.cycle (.vacateBegin bid) else s

/-! The context-switch engine (R371, R376, R378) -/

def State.ctxEngine (s : State) (part : Nat) : CtxEngine := (s.part part).engine
def State.setEngine (s : State) (part : Nat) (e : CtxEngine) : State := s.modPart part (fun p => { p with engine := e })

/-- A VF operation runs, or the VF is saved: the guest engine stands still (R378). -/
def State.vfHeld (s : State) (part : Nat) : Bool :=
  bit? (s.part part).hyper.vfsStat.toNat 0 || (s.part part).vfSaved.isSome

/-- Bytes that a block's thread, or the device at a physical address, writes. -/
def writeThrough (s : State) (w : Who) (bid die va : Nat) (l : List Byte) : State × Option (Nat × Nat) :=
  let x := resolve s w bid .store (.virt va) l.length
  match x.2 with
  | .ok ts => (writeTargets x.1 die ts l, none)
  | .miss => (x.1, some (0x0A, va))
  | .prot => (x.1, some (0x0B, va))
  | .bad k => (x.1, some (k % 64, va))

/-- Paths of a partition that hold for a context operation issue again. -/
def wakeContext (s : State) (part : Nat) : State := wakeHolders s (s.blocksOf part) .context

/-- Lines of 64 bytes read through a block's address space: the bytes, or a cause with its address. -/
def readLines (w : Who) (bid die : Nat) : State → Nat → Nat → State × List Byte × Option (Nat × Nat)
  | s, _, 0 => (s, [], none)
  | s, va, n + 1 =>
    let x := resolve s w bid .load (.virt va) 64
    match x.2 with
    | .miss => (x.1, [], some (0x0A, va))
    | .prot => (x.1, [], some (0x0B, va))
    | .bad k => (x.1, [], some (k % 64, va))
    | .ok ts =>
      let y := readTargets x.1 die ts
      let r := readLines w bid die y.1 (va + 64) n
      (r.1, y.2 ++ r.2.1, r.2.2)

/-- Lines of 64 bytes written through a block's address space, one after the other. -/
def writeLines (w : Who) (bid die : Nat) : State → Nat → List Byte → Nat → State × Option (Nat × Nat)
  | s, _, _, 0 => (s, none)
  | s, va, l, n + 1 =>
    let x := writeThrough s w bid die va (l.take 64)
    match x.2 with
    | some f => (x.1, some f)
    | none => writeLines w bid die x.1 (va + 64) (l.drop 64) n

/-- One section of a save written, then the header, the last time with the checksum of the bytes that stand there: for `ctxs`
through its issuer's address space, for a pre-emption to its pool slot (R374, R376). -/
def writeSection (s : State) (b : Block) (v : Vacate) (e : CtxEngine) : State × Option (Nat × Nat) :=
  let bodies := ctxBodies e.serial (packBlock s e.blk b)
  let size := ctxSize bodies
  let head := fun (crc : Nat) => headerBytes b e.blk size (e.step + 1) crc (s.effMask b.part)
  let body := bodies.getD e.step []
  let at_ := e.target + sectionAt bodies e.step
  match v.requester with
  | none =>
    let t := physWriteAll s b.part at_ body
    let sum := (physPlace s b.part e.target).elim 0 (fun q => crc32c (rdBytes t.mem (q + 128) (size - 128)))
    (physWriteAll t b.part e.target (head sum.toNat), none)
  | some (rb, _) =>
    match tget s.blocks rb with
    | none => (s, none)
    | some r =>
      let x := writeLines r.who rb r.place.die s at_ body (body.length / 64)
      match x.2 with
      | some f => (x.1, some f)
      | none =>
        if e.step + 1 < ctxSections then writeLines r.who rb r.place.die x.1 e.target (head 0) 2
        else
          let y := readLines r.who rb r.place.die x.1 (e.target + 128) (size / 64 - 2)
          match y.2.2 with
          | some f => (y.1, some f)
          | none => writeLines r.who rb r.place.die y.1 e.target (head (crc32c y.2.1).toNat) 2

/-- Launch records go back to a launcher as one entry per gang (R371). -/
def requeue (s : State) (b : Block) (restored : Bool) : State :=
  let die := requeueDie s b.part b.place.die
  let mate := fun (q : Queued) => !b.gang.isEmpty && q.restored == restored && q.blocks.any (fun x => x.gang == b.gang)
  if s.queued.any mate then
    { s with queued := s.queued.map (fun q => if mate q then { q with blocks := q.blocks ++ [b] } else q) }
  else { s with queued := s.queued ++ [⟨die, [b], restored⟩] }

def setPstat (s : State) (part state reason saved : Nat) : State :=
  s.modPart part (fun p => { p with hyper := { p.hyper with pstat := wd (saved * 65536 + reason * 16 + state) } })

/-- The save of a block is over (R371, R376). -/
def finishSave (s : State) (part : Nat) (e : CtxEngine) (b : Block) (v : Vacate) : State :=
  let s := s.setEngine part .idle
  let size := ctxSizeOf s e.blk b
  let (saved, s) := takeAway s e.blk b
  let s := match v.kind with
    | .preempt =>
      let s := requeue s { saved with vacate := some ⟨.restore, false, true, none, e.target, 0, 0⟩ } true
      match (s.part part).preempt with
      | some r =>
        setPstat (s.modPart part (fun p => { p with preempt := some { r with saved := r.saved + 1 } })) part 1 0 (r.saved + 1)
      | none => s
    | _ =>
      let s := { s with saved := tset s.saved e.serial ⟨{ saved with vacate := none }, s.effMask part, size⟩ }
      match v.requester with
      | some (rb, rp) => s.modPath rb rp (fun p => { p with checked := true })
      | none => s
  wakeContext (retryDie s (requeueDie s part b.place.die)) part

/-- A failed section is raised precisely at the `ctxs` (R376); a request that names the block takes it over (R370). -/
def failSave (s : State) (part : Nat) (e : CtxEngine) (v : Vacate) (f : Nat × Nat) : State :=
  let s := (s.setEngine part .idle).modBlock e.blk (fun b => { b with vacate := some { v with step := e.step, requester := none } })
  let s := if (s.part part).preempt.any (fun r => mem? r.blocks e.blk) then unvacate s e.blk else s
  match v.requester with
  | some (rb, rp) =>
    match s.path? rb rp with
    | some p => trapLanes s rb rp (p.lanes.map (fun k => (k, { cause := f.1, addr := f.2, prog := e.step })))
    | none => s
  | none => s

/-! Restoring (R88, R360, R372, R375) -/

/-- Read-only bytes fetched again from their source through their shape; a CRC that differs marks the span (R375). Bytes that
cannot be fetched leave the span marked. (log 32, DEDUCED) -/
def refetch (bid ch : Nat) (s : State) (r : Staging) : State :=
  match tget s.blocks bid with
  | none => s
  | some b =>
    let k := copyOf r.cmd
    let n := copyCount b k
    let x := checkAccesses b.who bid ch s [] (copyAccesses b bid k 0 n)
    let y := match x.2 with
      | .ok pages => copyRun b bid k pages x.1 0 n
      | .fail u _ _ pages => (copyRun b bid k pages x.1 0 u)
    let spad := (tget y.1.blocks bid).elim [] (·.spad)
    let bad := crc32c (r.offs.map (fun o => rdByte spad o)) != r.crc
    y.1.modBlock bid (fun b => b.modChan ch (fun c =>
      { c with staging := c.staging.map (fun t => if t = r then { t with mismatched := bad } else t) }))

def refetchAll (s : State) (bid : Nat) : State :=
  match tget s.blocks bid with
  | none => s
  | some b => b.chans.foldl (fun s e => e.2.staging.foldl (fun s r => refetch bid e.1 s r) s) s

/-- The first mismatched scratchpad byte that an entry's remaining chunks read (R375). -/
def mopMismatch (b : Block) (bid : Nat) (x : MOp) : Option Nat :=
  if x.real then
    (formAccesses b bid x.op x.p x.q x.chunk).findSome? (fun a =>
      match a.spot with
      | .spad _ off => if mismatchedAt b off a.n then some off else none
      | _ => none)
  else none

/-- A restored entry that would read a mismatched byte is not requeued: its latch is marked replay, and its path raises cause
0x12 at the instruction that placed it when it next issues (R375). -/
def raiseMismatch (bid : Nat) (s : State) (x : MOp) : State :=
  match tget s.blocks bid, s.path? bid x.path with
  | some b, some p =>
    let s := x.lanes.foldl (fun s e => s.modThread bid e.1 (fun t =>
      replayLatch b x.op 0 ((e.2.1 ++ e.2.2).map Val.clean) x.chunk x.p x.q t)) s
    let i : TrapInfo := { cause := 0x12, prog := x.chunk }
    let recs := (b.lanesOf p.lanes).map (fun e => (e.1, mkFault b bid { p with pc := x.pc } e.1 e.2 i false))
    let s := if p.stops.any (fun r => r.2.cause == 0x12 && r.2.pc == x.pc) then s
      else s.modPath bid x.path (fun p => { p with stops := p.stops ++ recs })
    engineReturn bid x.path (instMark x.inst x.pc) s
  | _, _ => s

/-- Entries are requeued in their order before the warp next issues (R360). -/
def restoreMops (s : State) (bid : Nat) (b : Block) : State :=
  b.mops.foldl (fun s x =>
    match (tget s.blocks bid).bind (fun b => mopMismatch b bid x) with
    | some _ => raiseMismatch bid s x
    | none =>
      let k := b.sectorOf x.warp
      s.modSector k (fun y => { y with mq := y.mq ++ [{ x with since := s.cycle }] })) s

/-- Paths go on from where they were parked, with what is left of their sleep and latencies: their waits are looked at again
(R97, R179, R372). -/
def wakePaths (s : State) (bid : Nat) : State :=
  match tget s.blocks bid with
  | none => s
  | some b =>
    let s := b.paths.foldl (fun s e =>
      let left := e.2.since + e.2.run.sleep - s.cycle
      let due := max (s.cycle + left) (if e.2.wait = .parked then e.2.run.base else 0)
      let s := s.modPath bid e.1 (fun p => { p with since := s.cycle, run := { p.run with base := due, sleep := left } })
      let s := if e.2.run.sleep = 0 then s else s.post (s.cycle + left) (.sleepExpiry bid e.1)
      match e.2.wait with
      | .parked => s.postOnce (max due (b.ripeAt e.2.lanes)) (.pathReady bid e.1)
      | .ready _ => wakePort s (b.sectorOf e.2.warp) e.2.finder
      | .stopped => s
      | .binning => s.postOnce s.cycle (.warpFormation (b.sectorOf e.2.warp))
      | .trapping => stopNow s bid e.1
      | _ => s.post (s.cycle + Config.probePeriod) (.transitProbeSend bid e.1)) s
    let s := (sortNat (b.homing.map (fun e => homeWarp e.1))).foldl (fun s w =>
      s.post (s.cycle + Config.probePeriod) (.transitProbeSend bid (homeUnit w))) s
    recheck s bid

/-- A restored block runs again (R372). -/
def resumeBlock (s : State) (bid : Nat) : State :=
  match tget s.blocks bid with
  | none => s
  | some b =>
    let s := unvacate (s.modBlock bid (fun b => { b with
      mops := [], resumed := true, paths := b.paths.map (fun e => (e.1, { e.2 with since := s.cycle })) })) bid
    let s := restoreMops (fileSaved (refetchAll s bid) bid) bid b
    pokeArrays (resumeBudget (wakePaths s bid) bid) b.place.coreNo (s.cycle + 1)

/-- The pool slot of a context is free again (R412). -/
def freePoolSlot (s : State) (part target : Nat) : State :=
  let h := (s.part part).hyper
  let size := 4096 * (h.cpSize.toNat % 65536)
  if size = 0 ∨ target < h.cpBase.toNat then s
  else s.modPart part (fun p => { p with hyper := { p.hyper with
    cpUsed := p.hyper.cpUsed.filter (· != (target - h.cpBase.toNat) / size) } })

def finishRestore (s : State) (part : Nat) (e : CtxEngine) : State :=
  let s := s.setEngine part .idle
  let s := if e.target = 0 then s else freePoolSlot s part e.target
  wakeContext (resumeBlock s e.blk) part

/-- The block that the idle engine restores next. -/
def nextRestore (s : State) (part : Nat) : Option (Nat × Block) :=
  (s.blocksOf part).find? (fun e => match e.2.vacate with
    | some v => v.kind == .restore
    | none => false)

/-- ONE STEP of the context-switch engine: a section of what it saves or restores (R378). -/
def engineStep (part : Nat) (s : State) : State :=
  let e := s.ctxEngine part
  let again := fun (s : State) => s.postOnce (s.cycle + 1) (.contextSwitchStep part)
  if s.vfHeld part then s
  else
    match e.op with
    | .idle =>
      match nextRestore s part with
      | none => s
      | some (bid, b) =>
        again (s.setEngine part ⟨.restore, bid, b.vacate.elim 0 (·.target), 0, 0⟩)
    | .restore =>
      if (tget s.blocks e.blk).isNone then
        again (if e.target = 0 then s.setEngine part .idle else freePoolSlot (s.setEngine part .idle) part e.target)
      else if e.step + 1 < ctxSections then again (s.setEngine part { e with step := e.step + 1 })
      else again (finishRestore s part e)
    | .save =>
      match tget s.blocks e.blk with
      | none => again (s.setEngine part .idle)
      | some b =>
        match b.vacate with
        | none => again (s.setEngine part .idle)
        | some v =>
          let x := writeSection s b v e
          match x.2 with
          | some f => again (failSave x.1 part e v f)
          | none =>
            if e.step + 1 < ctxSections then again (x.1.setEngine part { e with step := e.step + 1 })
            else again (finishSave x.1 part e b v)

def execContextSwitchStep (s : State) : Host.Outcome State Fault Refusal :=
  device s fun
    | .contextSwitchStep part => some (engineStep part s)
    | _ => none

/-! Vacating -/

/-- The engine takes a drained block: a fresh serial number, and for a pre-emption the lowest free pool slot. -/
def beginSave (s : State) (bid : Nat) (b : Block) (v : Vacate) : State :=
  let (serial, s) := if v.serial = 0 then s.fresh else (v.serial, s)
  let s := s.modBlock bid (fun b => { b with vacate := some { v with serial := serial } })
  let h := (s.part b.part).hyper
  let slot := ((upto (h.cpSize.toNat / 65536)).find? (fun k => !mem? h.cpUsed k)).getD 0
  let target := if v.kind = .preempt then h.cpBase.toNat + slot * 4096 * (h.cpSize.toNat % 65536) else v.target
  let s := if v.kind = .preempt then
      s.modPart b.part (fun p => { p with hyper := { p.hyper with cpUsed := p.hyper.cpUsed ++ [slot] } })
    else s
  (s.setEngine b.part ⟨.save, bid, target, v.step, serial⟩).postOnce (s.cycle + 1) (.contextSwitchStep b.part)

/-- Every block of a cluster is parked and drained (R376). -/
def moveReady (s : State) (clus : Nat) : Bool :=
  s.blocks.all (fun e => e.2.place.clus != clus
    || (e.2.vacate.elim false (fun v => v.kind == .move) && e.2.allParked false && drained s e.1 e.2))

/-- A block that was brought to its boundaries goes on where it stands. -/
def goOn (s : State) (bid : Nat) : State :=
  let s := wakePaths (unvacate s bid) bid
  match tget s.blocks bid with
  | some b =>
    let s := wakeContext (pokeArrays s b.place.coreNo s.cycle) b.part
    (upto 4).foldl (fun s k => s.postOnce s.cycle (.warpFormation (4 * b.place.coreNo + k))) s
  | none => s

/-- Sector, place and TLB of a moved cluster; the cores that a request chose in it are its cores in their new place
(R370, R376, R415). -/
def moveCluster (s : State) (m : ClusterMove) : State :=
  let old := m.old
  let new := m.new
  let entry := s.ptEntry old
  let s := s.modPkg (fun k => { k with
    ptab := lset (lset k.ptab old 0) new (BitVec.ofNat 16 entry)
    crel := lset (lset k.crel new (k.crel.getD old 0)) old 0 })
  let mine := (s.blocks.filter (fun e => e.2.place.clus == old)).map (·.1)
  let s := (upto 32).foldl (fun s k =>
    let a := 32 * old + k
    let b := 32 * new + k
    let s := { s with sectors := tdel (tset s.sectors b (s.sector a)) a }
    wakePort (wakePort s b false) b true) s
  let shift := fun (b : Block) =>
    if b.place.clus = old then { b with place := { b.place with die := new / 24, cluster := new % 24 } } else b
  let s := { s with
    moves := (s.moves.erase m).map (fun x => if x.old = old then { x with old := new } else x)
    blocks := s.blocks.map (fun e => (e.1, shift e.2))
    coh := { s.coh with tlb := s.coh.tlb.filter (fun t => t.clus != old) }
    parts := s.parts.map (fun p => { p with preempt := p.preempt.map (fun r =>
      { r with cores := r.cores.map (fun c => if c / 8 = old then 8 * new + c % 8 else c) }) }) }
  let s := noteIdle s old
  mine.foldl goOn s

/-- The status of a `mapc` returns (R376), and what waits for cores is tried again (R51). (log 44, DEDUCED) -/
def moveDone (s : State) (m : ClusterMove) (st : Word) : State :=
  retryAll (engineReturn m.blk m.path m.mark (fillLong { s with moves := s.moves.erase m } m.blk m.mark st))

/-- A move is made once the old cluster's blocks are drained and the new one is powered; when the new cluster fails its test
the blocks go on where they are, with a status that no rule gives (R376, R424, log 5). (log 44, DEDUCED) -/
def tryMove (s : State) (m : ClusterMove) : State :=
  let k := s.clusterState m.new
  if k.gated && k.dark == some false then
    let (w, s) := s.drawWord
    let mine := (s.blocks.filter (fun e => e.2.place.clus == m.old && (e.2.vacate.elim false (fun v => v.kind == .move)))).map (·.1)
    moveDone (mine.foldl goOn { s with moves := s.moves.erase m }) m w
  else if k.gated then (if k.waking then s else wakeCluster s m.new)
  else if moveReady s m.old then moveDone (moveCluster s m) m 0
  else s

def tryMoves (s : State) : State := s.moves.foldl (fun s m => if s.moves.any (fun x => decide (x = m)) then tryMove s m else s) s

/-- The vacate is under way: in its first cycle it also keeps back the passes that would start (R382). (log 42, DEDUCED) -/
def vacateStarts (s : State) (bid : Nat) (v : Vacate) : State :=
  let first := !vacating s bid
  let s := s.modBlock bid (fun b => { b with vacate := some v })
  if first then withdrawPasses s bid else s

/-- A block that waits for its cluster to move. -/
def moveStep (s : State) (bid : Nat) (b : Block) (v : Vacate) : State :=
  let s := if b.allParked false then vacateStarts s bid { v with started := true } else s
  let s := tryMoves s
  if (tget s.blocks bid).any (fun b => b.vacate.isSome) then s.postOnce (s.cycle + 1) (.vacateBegin bid) else s

/-- VACATE (R371, R373, R382): it begins in the first cycle in which every path is parked; from then on no pass takes the
block's entries; once drained, the engine saves the block, or its cluster moves. (log 42, DEDUCED) -/
def vacateBegin (bid : Nat) (s : State) : State :=
  match tget s.blocks bid with
  | none => tryMoves s
  | some b =>
    match b.vacate with
    | none => s
    | some v =>
      let again := fun (s : State) => s.postOnce (s.cycle + 1) (.vacateBegin bid)
      if v.kind = .vf ∨ v.kind = .restore then s
      else if v.kind = .move then moveStep s bid b v
      else if s.vfHeld b.part then again s
      else if v.coop && !allAtYield b then again s
      else if !b.allParked false then again (s.modBlock bid (fun b => { b with vacate := some { v with coop := false } }))
      else
        let v := { v with coop := false, started := true }
        let s := vacateStarts s bid v
        if v.kind = .ctxs ∧ v.requester.isNone then s
        else if drained s bid b && (s.ctxEngine b.part).op == .idle then beginSave s bid b v
        else again s

def execVacateBegin (s : State) : Host.Outcome State Fault Refusal :=
  device s fun
    | .vacateBegin bid => some (vacateBegin bid s)
    | _ => none

/-! Placing requeued blocks (R63, R372, R400) -/

/-- Reservations of an entry's blocks, by their place in the gang. (log 45, DEDUCED) -/
def queuedNeeds (q : Queued) : List (Nat × CoreNeed) :=
  q.blocks.map (fun b => (if b.gang.isEmpty then 0 else b.member, b.need))

def queuedSpan (q : Queued) : Nat :=
  match q.blocks with
  | b :: _ => if b.gang.isEmpty then 1 else b.gangSize
  | [] => 1

/-- An entry is whole: no gang mate is still resident (R370). -/
def queuedWhole (s : State) (q : Queued) : Bool :=
  q.blocks.all (fun b => b.gang.all (fun k => (tget s.blocks k).isNone))

def queuedHome (q : Queued) : Nat := (q.blocks.head?.map (·.homeSlice)).getD 0

/-- A saved block put on its new core; the engine restores it (R372). -/
def putSaved (s : State) (pl : Place) (b : Block) : State :=
  let slots := slotsFor s pl.coreNo b.warps
  let v : Vacate := match b.vacate with
    | some v => v
    | none => ⟨.restore, false, true, none, 0, 0, 0⟩
  let b := { b with
    place := pl
    slots := slots
    vacate := some { v with kind := .restore }
    paths := b.paths.map (fun (e : Nat × Path) => (e.1, { e.2 with slot := tgetD slots e.2.warp 0 })) }
  { s with blocks := tset s.blocks b.launch.ident b }.postOnce (s.cycle + 1) (.contextSwitchStep b.part)

/-- A relaunched member starts as at launch, from its retained snapshot and handles (R33, R400). -/
def putRelaunched (s : State) (pl : Place) (b : Block) (w : List Cell) : State :=
  startBlock s {
    graph := b.graph, place := pl, homeSlice := b.homeSlice, asid := b.asid, launch := b.launch, depths := b.depths
    gang := b.gang, iters := b.iters, slots := slotsFor s pl.coreNo b.warps } w

/-- An entry may be placed: no gang mate is still resident, and a gang that starts anew finds EN set at its node (R19, R52). -/
def queuedReady (s : State) (q : Queued) : Bool :=
  queuedWhole s q && (q.restored || q.blocks.all (fun b => statusEn (nodeStatus s b.graph b.launch.node)))

/-- One waiting entry placed, when cores are found (R372); a constant table that cannot be read stops a relaunched gang, with
TFLT set and EN cleared at its node (R19). (log 45, DEDUCED) -/
def placeQueued (s : State) (q : Queued) : Option State :=
  match q.blocks with
  | [] => some s
  | b0 :: _ =>
    if !queuedReady s q then none
    else
      match place s b0.part q.die (queuedHome q % 24) (queuedSpan q) (queuedNeeds q) with
      | none => none
      | some (clus, core) =>
        let at_ := fun (b : Block) => (⟨q.die, clus, core + (if b.gang.isEmpty then 0 else b.member)⟩ : Place)
        if q.restored then some (q.blocks.foldl (fun s b => putSaved s (at_ b) b) s)
        else
          match constants s b0.part (b0.snap 0x28 8) with
          | some w => some (q.blocks.foldl (fun s b => putRelaunched s (at_ b) b w) s)
          | none => some (modStatus { s with queued := s.queued ++ [q] } b0.graph b0.launch.node
              (fun v => setBits (setBits v 0 0 0) 3 3 1))

/-- Waiting entries of a die in the order they were queued (R372); what finds no core waits, a gated cluster is woken. -/
def placeAll (die : Nat) : State → List Queued → State
  | s, [] => s
  | s, q :: r =>
    if q.die = die then
      match placeQueued { s with queued := s.queued.erase q } q with
      | some t => placeAll die t r
      | none =>
        placeAll die (match q.blocks with
          | b :: _ => if queuedReady s q then wakeFor s b.part die (queuedHome q % 24) else s
          | [] => s) r
    else placeAll die s r

def execBlockRequeuePlace (s : State) : Host.Outcome State Fault Refusal :=
  device s fun
    | .blockRequeuePlace die => some (placeAll die s s.queued)
    | _ => none

/-! Requests (R369, R370, R373, R415) -/

/-- Cores of a partition in service, in the order a request chooses them: logical clusters, then cores, from the highest
down (R370). (log 46, DEDUCED) -/
def serviceCores (s : State) (part : Nat) : List Nat :=
  let cl := (upto 96).filter (s.holds part)
  let order := (sortNat (cl.map (fun c => s.logical c * 128 + c))).reverse.map (· % 128)
  order.flatMap (fun c => ((upto 8).reverse.filter (fun i => !s.released c i)).map (fun i => 8 * c + i))

/-- Blocks that a request vacates: those on chosen cores and their gangs (R370). -/
def blocksToVacate (s : State) (part : Nat) (cores : List Nat) : List Nat :=
  let on := (s.blocksOf part).filter (fun e => mem? cores e.2.place.coreNo)
  let gangs := on.flatMap (fun e => e.2.gang)
  ((s.blocksOf part).filter (fun e => mem? cores e.2.place.coreNo || mem? gangs e.1)).map (·.1)


/-- PSTAT reaches done or refused: vector 2 of the physical function (R410). (log 47, DEDUCED) -/
def pstatIrq (s : State) (part : Nat) : State :=
  let r := (s.part part).rep
  if bit? r.irqs.toNat 2 || bit? r.irqm.toNat 2 then s
  else
    { s.modPart part (fun p => { p with rep := { p.rep with irqs := p.rep.irqs ||| 4 } }) with
      out := s.out ++ [.hostMsix 2] }

/-- The lowest reason to refuse a request, or none (R369, R412, R422). (log 46, DEDUCED) -/
def preemptRefusal (s : State) (part k : Nat) (blocks : List Nat) : Option Nat :=
  let h := (s.part part).hyper
  let free := h.cpSize.toNat / 65536 - h.cpUsed.length
  let room := fun (k : Nat) => decide ((tget s.blocks k).elim 0 (ctxSizeOf s k) ≤ 4096 * (h.cpSize.toNat % 65536))
  if s.phase = 2 then some 3
  else if (serviceCores s part).length < k + 16 then some 1
  else if free < blocks.length || !blocks.all room then some 2
  else if (s.part part).preempt.isSome || (bit? h.vfsStat.toNat 0 && h.vfsCtl.toNat % 4 == 1) then some 3
  else none

/-- GO of a request (R369, R370, R373). The deadline event stands at the end of the cycle in which it expires.
(log 46, DEDUCED) -/
def preempt (part : Nat) (v : DWord) (coop : Bool) (s : State) : State :=
  let s := s.modPart part (fun p => { p with hyper := { p.hyper with preq := v } })
  let k := v.toNat % 1024
  let cores := (serviceCores s part).take k
  let blocks := blocksToVacate s part cores
  match preemptRefusal s part k blocks with
  | some r =>
    pstatIrq (setPstat s part 3 r 0) part
  | none =>
    let s := setPstat s part 1 0 0
    let deadline := s.cycle + 16 * bits v.toNat 39 16 + 1
    let s := s.modPart part (fun p => { p with preempt := some ⟨cores, blocks, coop, deadline, 0⟩ })
    let s := blocks.foldl (fun s bid =>
      (s.modBlock bid (fun b => match b.vacate with
        | none => { b with vacate := some ⟨.preempt, coop, false, none, 0, 0, 0⟩ }
        | some v => if v.kind = .ctxs ∧ v.requester.isNone
            then { b with vacate := some ⟨.preempt, coop, false, none, 0, 0, 0⟩ } else b)).postOnce s.cycle (.vacateBegin bid)) s
    let s := if coop then s.post deadline (.preemptDeadlineExpiry part) else s
    if blocks.isEmpty then s.postOnce s.cycle (.preemptDone part) else s

def execPreemptImmediate (s : State) : Host.Outcome State Fault Refusal :=
  device s fun
    | .preemptImmediate part v => some (preempt part v false s)
    | _ => none

def execPreemptCooperative (s : State) : Host.Outcome State Fault Refusal :=
  device s fun
    | .preemptCooperative part v => some (preempt part v true s)
    | _ => none

/-- A path that a cooperative request still waits for (R373); a `yield` already executed in the run counts. -/
def latePath (p : Path) : Bool := !p.finder && !atYield p && !p.run.yieldPt

/-- Where a thread stands for a record: in its path, or, filed in a bin or at `rehome`, at its next PC as a path of its own.
(log 81, DEDUCED) -/
def standIn (s : State) (bid : Nat) (b : Block) (p : Path) (key : Nat) : Path :=
  match b.pathOf key with
  | some (_, q) => q
  | none =>
    let pc := match s.filedPc bid key with
      | some a => a
      | none => tgetD b.homing key (tgetD b.filed key p.pc)
    { p with lanes := [key], pc := pc, run := { p.run with pc := pc } }

/-- The REPORT record of a warp that did not reach a yield point: cause 0x18 in its lowest unexited lane's thread (R373). -/
def reportLate (s : State) (bid : Nat) (p : Path) : State :=
  match tget s.blocks bid with
  | none => s
  | some b =>
    match minBy (fun e : Nat × Thread => lanePos e.1) (b.warpThreads p) with
    | none => s
    | some (k, t) =>
      let f := mkFault b bid (standIn s bid b p k) k t { cause := 0x18 } false
      reportFault s b.part true bid k { f with flags := f.flags ||| 2 }

/-- The late paths of a block, one for each warp (R373). -/
def lateWarps (b : Block) : List Path :=
  ((b.paths.filter (fun e => latePath e.2)).map (·.2)).foldl (fun l p =>
    if l.any (fun q => q.warp == p.warp && q.formed == p.formed) then l else l ++ [p]) []

/-- EXPIRY of the deadline: late warps are reported, every remaining block is vacated at once (R373). -/
def deadlineExpiry (part : Nat) (s : State) : State :=
  match (s.part part).preempt with
  | none => s
  | some r =>
    if !r.coop || r.deadline != s.cycle then s
    else
      let s := s.modPart part (fun p => { p with preempt := some { r with coop := false } })
      r.blocks.foldl (fun s bid =>
        match tget s.blocks bid with
        | none => s
        | some b =>
          match b.vacate with
          | some v =>
            if v.coop then
              let s := ((upto 32).flatMap (fun w => (lateWarps b).filter (·.warp == w))).foldl (fun s p => reportLate s bid p) s
              s.modBlock bid (fun b => { b with vacate := some { v with coop := false } })
            else s
          | none => s) s

def execPreemptDeadlineExpiry (s : State) : Host.Outcome State Fault Refusal :=
  device s fun
    | .preemptDeadlineExpiry part => some (deadlineExpiry part s)
    | _ => none

/-- A cluster whose eight cores are all released is free (R415). -/
def freeWhole (s : State) (clus : Nat) : State :=
  if s.pkg.crel.getD clus 0 = 0xFF then
    s.modPkg (fun k => { k with
      crel := lset k.crel clus 0
      ptab := lmod k.ptab clus (fun e => e &&& 0x7FFF) })
  else s

/-- DONE: the chosen cores leave the partition (R370, R415). (log 46, DEDUCED) -/
def preemptDone (part : Nat) (s : State) : State :=
  match (s.part part).preempt with
  | none => s
  | some r =>
    if !r.blocks.isEmpty then s
    else
      let s := s.modPart part (fun p => { p with preempt := none })
      let s := s.modPkg (fun k => { k with crel := r.cores.foldl (fun l c =>
        lmod l (c / 8) (fun v => v ||| BitVec.ofNat 8 (2 ^ (c % 8)))) k.crel })
      let s := (sortNat (r.cores.map (· / 8))).foldl freeWhole s
      let s := pstatIrq (setPstat s part 2 0 r.saved) part
      retryAll { s with queued := s.queued.map (fun q => if q.blocks.any (fun b => b.part == part)
        then { q with die := requeueDie s part q.die } else q) }

def execPreemptDone (s : State) : Host.Outcome State Fault Refusal :=
  device s fun
    | .preemptDone part => some (preemptDone part s)
    | _ => none

/-! The VF context (R378, R412) -/

def modHyper (s : State) (part : Nat) (f : HyperRegs → HyperRegs) : State :=
  s.modPart part (fun p => { p with hyper := f p.hyper })

def vfError (s : State) (part : Nat) : State := modHyper s part (fun h => { h with vfsStat := h.vfsStat ||| 2 })

/-- A VF context's first line at its physical address: its serial number and the complete mark; the layout is the model's.
(log 25, DESIGN CHOICE) -/
def vfLine (serial : Nat) : List Byte := lines64 (toBytes 8 (2 * serial + 1))

/-- A block's whole context, as a VF save writes it (R374, R378). -/
def wholeContext (s : State) (serial : Nat) (b : Block) : List Byte :=
  let bodies := ctxBodies serial b
  let body := bodies.flatMap id
  headerBytes b b.launch.ident (ctxSize bodies) ctxSections (crc32c body).toNat (s.effMask b.part) ++ body
/-- A reading of the rules (log 25, DESIGN CHOICE). -/
def vfSerial (s : State) (part a : Nat) : Nat := (physPlace s part a).elim 0 (fun q => rdLE s.mem q 8)

/-- Blocks of a partition that wait to be placed. -/
def State.queuedOf (s : State) (part : Nat) : List Block := (s.queued.flatMap (·.blocks)).filter (fun b => b.part == part)

/-- Bytes that a save of the partition needs (R412). (log 25, DESIGN CHOICE) -/
def vfSize (s : State) (part : Nat) : Nat :=
  64 + sumBy (fun e : Nat × Block => ctxSizeOf s e.1 e.2) (s.blocksOf part)
    + sumBy (fun b : Block => ctxSize (ctxBodies 0 b)) (s.queuedOf part)

/-- A VF operation begins: its OP stands in VFSCTL until it is over (R412). -/
def vfBegin (s : State) (part : Nat) (ctl : Word) : State :=
  (modHyper s part (fun h => { h with vfsCtl := ctl, vfsStat := 1 })).modPart part (fun p => { p with vfDone := 0 })

/-- One more section of the running VF operation is done (R412). -/
def vfCount (s : State) (part : Nat) : State :=
  let n := (s.part part).vfDone + 1
  ((modHyper s part (fun h => { h with vfsStat := wd (256 * (n % 256) + 1) })).modPart part (fun p => { p with vfDone := n })).postOnce
    (s.cycle + 1) (.vfOperationComplete part)

/-- GO with OP 01: every resident block is brought to its boundary (R412). (log 25, DESIGN CHOICE; log 48, DEDUCED) -/
def vfSave (part : Nat) (s : State) : State :=
  if (s.part part).preempt.isSome || bit? (s.part part).hyper.vfsStat.toNat 0 then vfError s part
  else
    let s := vfBegin s part 0x8000_0001
    let s := (s.blocksOf part).foldl (fun s e => s.modBlock e.1 (fun b => match b.vacate with
      | none => { b with vacate := some ⟨.vf, false, false, none, 0, 0, 0⟩ }
      | some _ => b)) s
    s.postOnce s.cycle (.vfOperationComplete part)

def execVfSave (s : State) : Host.Outcome State Fault Refusal :=
  device s fun
    | .vfSave part => some (vfSave part s)
    | _ => none

/-- GO with OP 10, or its refusal (R412). (log 48, DEDUCED) -/
def vfRestore (part : Nat) (s : State) : State :=
  let n := vfSerial s part (s.part part).hyper.vfsAddr.toNat
  if (s.part part).preempt.isSome || bit? (s.part part).hyper.vfsStat.toNat 0 || !(s.blocksOf part).isEmpty || n % 2 == 0
      || (tget s.vfs (n / 2)).isNone then vfError s part
  else (vfBegin s part 0x8000_0002).postOnce (s.cycle + 1) (.vfOperationComplete part)

def execVfRestore (s : State) : Host.Outcome State Fault Refusal :=
  device s fun
    | .vfRestore part => some (vfRestore part s)
    | _ => none

/-- Launchers of a partition. -/
def launchersOf (s : State) (part : Nat) : Tab Launcher := s.launchers.filter (fun e => (launcherOf e.1).1.part == part)

/-- Timers of saved launchers stand as what was left of them (R378). -/
def Launcher.asSaved (l : Launcher) (cycle : Nat) : Launcher :=
  { l with timerAt := none, waitSince := none, held := match l.timerAt with
    | some t => some (t - cycle)
    | none => l.held }

/-- Everything of the partition is taken away and kept under a serial number (R378). (log 48, DEDUCED) -/
def saveVf (s : State) (part : Nat) : State :=
  let (serial, s) := s.fresh
  let rec take : State → List (Nat × Block) → List Block × State
    | s, [] => ([], s)
    | s, e :: r =>
      let (b, s) := takeAway s e.1 e.2
      let (l, s) := take s r
      (b :: l, s)
  let mine := s.blocksOf part
  let p0 := s.part part
  let map := (upto 96).filterMap (fun c => if s.holds part c then some (c, s.ptEntry c) else none)
  let (blocks, s) := take s mine
  let q := s.queued.filter (fun q => q.blocks.any (fun b => b.part == part))
  let ls := (launchersOf s part).map (fun e => (e.1, e.2.asSaved s.cycle))
  let bytes := vfLine serial ++ (blocks ++ q.flatMap (·.blocks)).flatMap (wholeContext s serial)
  let s := physWriteAll s part p0.hyper.vfsAddr.toNat bytes
  { s with
    vfs := tset s.vfs serial ⟨p0, blocks, q, ls, map⟩
    queued := s.queued.filter (fun q => !q.blocks.any (fun b => b.part == part))
    launchers := s.launchers.filter (fun e => (launcherOf e.1).1.part != part) }.modPart part (fun p => { p with
      vfSaved := some serial
      hyper := { p.hyper with vfsStat := wd (256 * (ctxSections * blocks.length % 256)) } })

/-- Saved launchers run again: a timer goes on from what was left. -/
def restoreLauncher (s : State) (e : Nat × Launcher) : State :=
  let (g, node, die) := launcherOf e.1
  let s := { s with launchers := tset s.launchers e.1 { e.2 with pend := e.2.pend ++ (s.launcher g node die).pend } }
  let s := match e.2.held with
    | some t =>
      if statusEn (nodeStatus s g node) then
        (s.modLauncher g node die (fun l => { l with held := none, timerAt := some (s.cycle + t) })).post (s.cycle + t)
          (.coalescingTimerExpiry g node die)
      else s
    | none => s
  noteCondition s g node die

/-- Blocks are resident again where they were; one whose cluster the partition no longer holds, or that is gated, waits to be
placed (R378, R424). -/
def restoreVfBlock (s : State) (b : Block) : State :=
  let id := b.launch.ident
  let put := { s with blocks := tset s.blocks id b }
  if !s.holds b.part b.place.clus || (s.clusterState b.place.clus).gated then requeue s { b with vacate := b.vacate.filter (fun v => v.kind == .restore) } true
  else
    match b.vacate with
    | some v =>
      if v.kind = .restore then put.postOnce (s.cycle + 1) (.contextSwitchStep b.part)
      else if v.kind = .ctxs then
        ((resumeBlock put id).modBlock id (fun b => { b with vacate := some v })).postOnce s.cycle (.vacateBegin id)
      else resumeBlock put id
    | none => resumeBlock put id

/-- The partition stands again as it was saved (R378). (log 48, DEDUCED) -/
def restoreVf (s : State) (part : Nat) (v : SavedVf) : State :=
  let s := s.modPart part (fun p => { p with
    rep := { p.rep with fault := v.part.rep.fault, heldFaults := v.part.rep.heldFaults, emuc := v.part.rep.emuc }
    guest := { p.guest with tctl := v.part.guest.tctl, tstat := v.part.guest.tstat, tnpc := v.part.guest.tnpc }
    hyper := { p.hyper with pfm := v.part.hyper.pfm, vfsStat := wd (256 * (ctxSections * v.blocks.length % 256)) }
    engine := v.part.engine
    vfSaved := none })
  let s := s.modPkg (fun k => { k with ptab := v.map.foldl (fun l e =>
    if bit? (l.getD e.1 0).toNat 15 then l else lset l e.1 (BitVec.ofNat 16 e.2)) k.ptab })
  let s := v.blocks.foldl restoreVfBlock { s with queued := s.queued ++ v.queued }
  let s := v.launchers.foldl restoreLauncher s
  retryAll (s.postOnce (s.cycle + 1) (.contextSwitchStep part))

/-- The VF operation goes on until every block is drained, then counts its sections, one a cycle, and ends (R378, R412).
(log 48, DEDUCED) -/
def vfComplete (part : Nat) (s : State) : State :=
  let h := (s.part part).hyper
  if !bit? h.vfsStat.toNat 0 then s
  else if h.vfsCtl.toNat % 4 = 1 then
    let mine := s.blocksOf part
    let s := mine.foldl (fun s e => match e.2.vacate with
      | some v => if e.2.allParked true then vacateStarts s e.1 { v with started := true } else s
      | none => s.modBlock e.1 (fun b => { b with vacate := some ⟨.vf, false, false, none, 0, 0, 0⟩ })) s
    if mine.all (fun e => e.2.vacate.isSome && e.2.allParked true && drained s e.1 e.2) then
      (if (s.part part).vfDone < ctxSections * mine.length then vfCount s part else saveVf s part)
    else s.postOnce (s.cycle + 1) (.vfOperationComplete part)
  else
    match tget s.vfs (vfSerial s part h.vfsAddr.toNat / 2) with
    | some v => if (s.part part).vfDone < ctxSections * v.blocks.length then vfCount s part else restoreVf s part v
    | none => vfError (modHyper s part (fun h => { h with vfsStat := 0 })) part

def execVfOperationComplete (s : State) : Host.Outcome State Fault Refusal :=
  device s fun
    | .vfOperationComplete part => some (vfComplete part s)
    | _ => none

end Sys2Proof.Machine
end

