-- ==== Sys2Proof/Machine/Contexts.lean ====
section
/-! DEFINITION. PRV: ctxs, ctxl, mapc, and the dropping of a saved context (R376, R377). -/

namespace Sys2Proof.Machine

/-- A PRV form that acts once for the path with the operands of its lowest active lane, top first (R233, R376): depth and
register checks, poison, agreement; `run` gets the lanes and the operands. (log 52, DEDUCED) -/
def pathForm (pops pushes : Nat) (run : State → Ctx → List (Nat × Thread) → List (Nat × TrapInfo) → List Word → State)
    (s : State) (c : Ctx) : State :=
  match checkLanes c pops pushes with
  | .path t => trapPath s c t
  | .all ok tr =>
    let good := byLane ok
    let stop := fun (t : TrapInfo) => trapLanes s c.bid c.pid (tr ++ good.map (fun e => (e.1, t)))
    match good with
    | [] => trapLanes s c.bid c.pid tr
    | e :: _ =>
      match refusePoison (good.flatMap (fun x => (x.2.stack.take pops).map (·.val))) with
      | .lane t => stop t
      | .path t => stop t
      | .ok _ =>
        if operandsAgree pops good then run s c good tr ((e.2.stack.take pops).map (·.val.bits))
        else stop { cause := 0x08 }

/-- Every lane that issues the form traps. -/
def stopForm (s : State) (c : Ctx) (good : List (Nat × Thread)) (tr : List (Nat × TrapInfo)) (t : TrapInfo) : State :=
  trapLanes s c.bid c.pid (tr ++ good.map (fun e => (e.1, t)))

/-- Operands popped and a status pushed in every lane; `pending` when a later step returns it. -/
def endForm (h : Hdr) (pops : Nat) (st : Option Word) (pending : Bool) (s : State) (c : Ctx) (good : List (Nat × Thread))
    (tr : List (Nat × TrapInfo)) : State :=
  let d := laneDepth c.b c.p
  let push := fun (t : Thread) => match st with
    | some w => { t with stack := c.env.longResult (.clean w) :: t.stack }
    | none => t
  finishLanes s c h (.all (pushEach good pops (fun _ t => push t)) tr)
    { pc := c.next, owed := b2n !pending, await := if pending then [c.env.longMark] else []
      xfer := transfers d (d - pops + b2n st.isSome) }

def addrOf (hi lo : Word) : Nat := hi.toNat * 2 ^ 32 + lo.toNat

/-- ctxs after its checks: what there is to save, then the vacate, then the save's end (R376). (log 43, DEDUCED) -/
def ctxsRun (h : Hdr) (s : State) (c : Ctx) (good : List (Nat × Thread)) (tr : List (Nat × TrapInfo)) (w : List Word) :
    State :=
  let id := (w.getD 0 0).toNat
  let va := addrOf (w.getD 2 0) (w.getD 1 0)
  let done := fun (st : Nat) => endForm h 3 (some (wd st)) false s c good tr
  if c.p.checked then done 0
  else if va % 64 ≠ 0 then stopForm s c good tr { cause := 0x0C, addr := va }
  else
    match tget s.blocks id with
    | none => done 1
    | some b =>
      let take := fun (v : Vacate) => holdPath
        ((s.modBlock id (fun b => { b with vacate := some v })).postOnce s.cycle (.vacateBegin id)) c .context
      if b.part ≠ c.b.part then done 1
      else if !b.gang.isEmpty || id == c.bid then done 2
      else
        match b.vacate with
        | none => take ⟨.ctxs, false, false, some (c.bid, c.pid), va, 0, 0⟩
        | some v =>
          if v.kind = .ctxs ∧ v.requester.isNone then take { v with requester := some (c.bid, c.pid), target := va }
          else holdPath s c .context

/-- ctxs (R376). (log 43, DEDUCED) -/
def execCtxs (h : Hdr) (s : State) : Host.Outcome State Fault Refusal :=
  issue (.ctxs h) h { scopes := [.lane], priv := true } (fun s c => warpOnly s c (pathForm 3 1 (ctxsRun h))) s

/-- A field of a context's bytes. -/
def ctxField (l : List Byte) (off n : Nat) : Nat := ofBytes ((l.drop off).take n)

/-- The serial number that a context's section 1 begins with. (log 37, DESIGN CHOICE) -/
def ctxSerial (l : List Byte) : Nat := ctxField l 128 8

/-- The saved block that a context's bytes name, and its SIZE (R374). (log 37, DESIGN CHOICE) -/
def State.savedCtx (s : State) (l : List Byte) : Option SavedCtx := tget s.saved (ctxSerial l)

/-- Lines of a context that are read: the header and the first of section 1, then as many as its SIZE has (R374, R376).
(log 37, DESIGN CHOICE) -/
def readContext (s : State) (b : Block) (bid va : Nat) : State × List Byte × Option (Nat × Nat) :=
  let x := readLines b.who bid b.place.die s va 3
  match x.2.2, s.savedCtx x.2.1 with
  | none, some k =>
    let y := readLines b.who bid b.place.die x.1 (va + 192) (k.size / 64 - 3)
    (y.1, x.2.1 ++ y.2.1, y.2.2)
  | _, _ => x

/-- MAGIC, SIZE, CRC and the complete flag are right (R374, R376). -/
def ctxIntact (size : Nat) (l : List Byte) : Bool :=
  ctxField l 0 4 == ctxMagic && ctxField l 4 4 == size && bit? (ctxField l 0x0F 1) 1
    && ctxField l 0x14 4 == (crc32c ((l.drop 128).take (size - 128))).toNat

/-- The block is resident or queued. -/
def State.taken (s : State) (id : Nat) : Bool := mem? s.identities id

/-- ctxl (R372, R376): the context read and checked, then its block queued. (log 43, DEDUCED) -/
def ctxlRun (h : Hdr) (s : State) (c : Ctx) (good : List (Nat × Thread)) (tr : List (Nat × TrapInfo)) (w : List Word) :
    State :=
  let va := addrOf (w.getD 1 0) (w.getD 0 0)
  let x := readContext s c.b c.bid va
  let l := x.2.1
  match x.2.2 with
  | some f => stopForm x.1 c good tr { cause := f.1, addr := f.2 }
  | none =>
    match s.savedCtx l with
    | none => stopForm x.1 c good tr { cause := 0x12 }
    | some k =>
      if !ctxIntact k.size l || ctxField l 0x40 64 != (s.effMask c.b.part).toNat then stopForm x.1 c good tr { cause := 0x12 }
      else if c.b.lvl < ctxField l 0x0E 1 % 4 then stopForm x.1 c good tr { cause := 0x0B }
      else if s.taken (ctxField l 8 4) then endForm h 2 (some 1) false x.1 c good tr
      else
        let b : Block := { k.blk with graph := { part := c.b.part, lvl := k.blk.graph.lvl } }
        let die := requeueDie s c.b.part b.place.die
        let s := { x.1 with queued := x.1.queued ++ [Queued.mk die [b] true] }
        endForm h 2 (some 0) false (s.postOnce s.cycle (.blockRequeuePlace die)) c good tr

/-- A reading of the rules (log 43, DEDUCED). -/
def execCtxl (h : Hdr) (s : State) : Host.Outcome State Fault Refusal :=
  issue (.ctxl h) h { scopes := [.lane], priv := true } (fun s c => warpOnly s c (pathForm 2 1 (ctxlRun h))) s

/-- The physical cluster of a partition's logical cluster (R414). -/
def physOf (s : State) (part lc : Nat) : Option Nat :=
  (upto 96).find? (fun c => s.holds part c && s.logical c == lc)

/-- mapc (R376): the cluster's blocks are brought to their boundaries, then moved; a gated target is woken (R424).
(log 44, DEDUCED) -/
def mapcRun (h : Hdr) (s : State) (c : Ctx) (good : List (Nat × Thread)) (tr : List (Nat × TrapInfo)) (w : List Word) :
    State :=
  let pc := (w.getD 0 0).toNat
  let lc := (w.getD 1 0).toNat
  let part := (w.getD 2 0).toNat
  if c.b.lvl < 2 then stopForm s c good tr { cause := 0x0B }
  else if 96 ≤ pc ∨ s.reduced ∨ bit? (s.ptEntry pc) 15 then endForm h 3 (some 1) false s c good tr
  else
    match physOf s part lc with
    | none => endForm h 3 (some 2) false s c good tr
    | some old =>
      let k := s.clusterState pc
      let s := if k.gated && !k.waking && k.dark != some false then wakeCluster s pc else s
      let s := endForm h 3 (some 0) true s c good tr
      let m : ClusterMove := ⟨old, pc, c.bid, c.pid, c.env.longMark⟩
      let s := { s with moves := s.moves ++ [m] }
      let mine := (s.blocks.filter (fun e => e.2.place.clus == old)).map (·.1)
      if mine.isEmpty then tryMove s m
      else
        mine.foldl (fun s bid => (s.modBlock bid (fun b => match b.vacate with
          | none => { b with vacate := some ⟨.move, false, false, none, 0, 0, 0⟩ }
          | some _ => b)).postOnce s.cycle (.vacateBegin bid)) s

/-- A reading of the rules (log 44, DEDUCED). -/
def execMapc (h : Hdr) (s : State) : Host.Outcome State Fault Refusal :=
  issue (.mapc h) h { scopes := [.lane], priv := true } (fun s c => warpOnly s c (pathForm 3 1 (mapcRun h))) s

/-! CTXDROP (R377) -/

def modGuest (s : State) (part : Nat) (f : GuestRegs → GuestRegs) : State :=
  s.modPart part (fun p => { p with guest := f p.guest })

/-- A write of CTXDROP starts the operation. -/
def contextDrop (part : Nat) (addr : DWord) (s : State) : State :=
  (modGuest s part (fun g => { g with ctxDrop := addr, ctxDs := 1 })).postOnce (s.cycle + 1) (.contextDropComplete part)

def execContextDrop (s : State) : Host.Outcome State Fault Refusal :=
  device s fun
    | .contextDrop part addr => some (contextDrop part addr s)
    | _ => none

/-- Handles of a launch record whose slots are in state launched. -/
def launchedHandles (s : State) (b : Block) : List Word :=
  b.launch.handles.filter (fun h => (readMeta s b.graph h).elim false (fun m => metaState m == slotLaunched))

/-- A dropped block leaves its loop iterations with its records; an iteration without a batch is over. -/
def forgetIterations (s : State) (id : Nat) (hs : List Word) : State :=
  let drop := fun (it : Iteration) => { it with
    blocks := it.blocks.filter (· != id), batch := it.batch.filter (fun r => !hs.any (· == r.handle)) }
  (s.iters.filter (fun e => mem? e.2.blocks id)).foldl (fun s e =>
    let it := drop e.2
    if it.batch.isEmpty && it.blocks.isEmpty then { s with iters := tdel s.iters e.1 }
    else { s with iters := tset s.iters e.1 it }) s

/-- The device acts on CTXDROP: checks, then every launched slot freed and the complete flag cleared (R377). -/
def dropContext (part : Nat) (s : State) : State :=
  let a := (s.part part).guest.ctxDrop.toNat
  let fail := modGuest s part (fun g => { g with ctxDs := 2 })
  let read := fun (n : Nat) => (devRead s part a n).map (toBytes n)
  match (read 192).bind s.savedCtx with
  | none => fail
  | some k =>
    match read k.size with
    | none => fail
    | some l =>
      let id := ctxField l 8 4
      if !ctxIntact k.size l || decide (1 < ctxField l 0x0E 1 % 4) || s.taken id then fail
      else
        match devWrite s part (a + 0x0F) 1 (ctxField l 0x0F 1 - 2) with
        | none => fail
        | some s =>
          let hs := launchedHandles s k.blk
          let s := forgetIterations (hs.foldl (fun s h => freeRecord s k.blk.graph h) s) id hs
          modGuest s part (fun g => { g with ctxDs := wd (hs.length * 65536) })

def execContextDropComplete (s : State) : Host.Outcome State Fault Refusal :=
  device s fun
    | .contextDropComplete part => some (dropContext part s)
    | _ => none

end Sys2Proof.Machine
end

