-- ==== Sys2Proof/Machine/Privileged.lean ====
section
/-! DEFINITION. PRV: spx, tlbi, rdbk and wrbk, and the end of a TLB invalidation (R124, R233, R247, R402, R403). -/

namespace Sys2Proof.Machine

/-! spx -/

/-- The byte offsets that the exchange of a scratchpad row brings to each place: every bank word from its partner (R246). -/
def swizzleRow (spad : Memory) (z row : Nat) : Memory :=
  (upto 256).foldl (fun m i =>
    let a := 256 * row + i
    wrByte m a (rdByte spad (bankPermute 0 z a))) spad

/-- Rows that the byte span of a shape touches. (log 49, DEDUCED) -/
def spanRows (h : Shape) (fmt : Nat) : List Nat :=
  let sp := h.span
  let lo := (h.elemAt fmt sp.1).addr.toNat
  let hi := (h.elemAt fmt sp.2).addr.toNat + elemBytes fmt - 1
  (upto (hi / 256 + 1 - lo / 256)).map (fun i => lo / 256 + i)

/-- spx (R247): long-latency; a span outside the reservation or under a read-only staging record is refused as an engine write
is (R244, R274). (log 49, DEDUCED) -/
def spxBody (h : Hdr) (z shape : Nat) (s : State) (c : Ctx) : State :=
  let hk := c.b.shapeOf shape
  let f := shapeFmt c.b shape
  if !shapeOk c.b shape then trapPath s c { cause := 0x14 }
  else if !hk.spad then trapPath s c { cause := 0x0B }
  else if !spadFits c.b hk f 0 then trapPath s c { cause := 0x0B }
  else
    let rows := spanRows hk f
    if rows.any (fun r => stagedAt c.b (256 * r) 256) then trapPath s c { cause := 0x0B }
    else
      let s := s.modBlock c.bid (fun b => { b with spad := rows.foldl (fun m r => swizzleRow m z r) b.spad })
      retire s c h { pc := c.next, owed := 1 }

/-- A reading of the rules (log 49, DEDUCED). -/
def execSpx (h : Hdr) (z : BitVec 3) (shape : BitVec 4) (s : State) : Host.Outcome State Fault Refusal :=
  issue (.spx h z shape) h { scopes := [.lane], priv := true, qn4 := shapesQn4 [shape.toNat] }
    (fun s c => warpOnly s c (spxBody h z.toNat shape.toNat)) s

/-! tlbi -/

/-- What a kind covers of an address space's page (R233, R409). (log 50, DEDUCED) -/
def TlbiWait.covers (t : TlbiWait) (part asid page : Nat) : Bool :=
  part == t.part && (match t.kind with
    | 0 => asid == t.asid && page == t.page
    | 1 => asid == t.asid
    | _ => true)

/-- An entry covers pages of an invalidation. A stage-2 invalidation takes every entry of the partition, since an entry keeps
no intermediate address. -/
def TlbiWait.hits (t : TlbiWait) (e : TlbEntry) : Bool :=
  e.part == t.part && (match t.kind with
    | 0 => e.asid == t.asid && decide (e.base / 4096 ≤ t.page) && decide (t.page < (e.base + e.size + 4095) / 4096)
    | 1 => e.asid == t.asid
    | _ => true)

/-- Every cluster TLB of the partition drops the entries. (log 50, DEDUCED) -/
def dropEntries (s : State) (t : TlbiWait) : State :=
  { s with coh := { s.coh with tlb := s.coh.tlb.filter (fun e => !t.hits e) } }

/-- Commands and matrix entries in flight, with the pages they hold and who issued them. -/
def heldPages (s : State) : List (Nat × List (Nat × Nat × Bool)) :=
  let cmds := (s.blocks.flatMap (fun e => e.2.chans.flatMap (fun k => k.2.queue)))
    ++ s.engines.gather.flatMap (·.2) ++ s.engines.sampler.flatMap (·.2)
    ++ s.parts.flatMap (fun p => p.bind.flatMap (·.queue))
  let ops := s.sectors.flatMap (fun e => e.2.mq) ++ s.blocks.flatMap (fun e => e.2.mops) ++ s.away.flatMap (·.mops)
  cmds.map (fun x => (x.blk, x.pages)) ++ ops.map (fun x => (x.blk, x.pages))

/-- Accesses that used dropped entries are still to come (R233, R275). (log 50, DEDUCED) -/
def stillUsed (s : State) (t : TlbiWait) : Bool :=
  (heldPages s).any (fun e => match s.anyBlock e.1 with
    | some b => e.2.any (fun p => t.covers b.part b.asid (p.1 / 2))
    | none => false)

/-- tlbi after its operands (R233, R409). (log 50, DEDUCED) -/
def tlbiRun (h : Hdr) (kind pops : Nat) (s : State) (c : Ctx) (good : List (Nat × Thread)) (tr : List (Nat × TrapInfo))
    (w : List Word) : State :=
  if 3 ≤ kind ∧ c.b.lvl < 2 then stopForm s c good tr { cause := 0x0B }
  else
    let va := addrOf (w.getD 1 0) (w.getD 0 0)
    let asid := if kind = 1 then (w.getD 0 0).toNat % 65536 else c.b.asid
    let t : TlbiWait := ⟨c.bid, c.pid, c.env.longMark, c.b.part, kind, asid, va / 4096⟩
    if s.atsMode c.b.part ∧ 3 ≤ kind then endForm h pops none false s c good tr
    else
      let s := endForm h pops none true (dropEntries s t) c good tr
      { s with coh := { s.coh with tlbis := s.coh.tlbis ++ [t] } }.postOnce (s.cycle + 1) (.tlbiComplete c.bid c.pid)

def tlbiPops (kind : Nat) : Nat := if kind = 0 ∨ kind = 3 then 2 else if kind = 1 then 1 else 0

def execTlbi (h : Hdr) (kind : BitVec 5) (s : State) : Host.Outcome State Fault Refusal :=
  issue (.tlbi h kind) h { scopes := [.lane], priv := true }
    (fun s c => warpOnly s c (pathForm (tlbiPops kind.toNat) 0 (tlbiRun h kind.toNat (tlbiPops kind.toNat)))) s

/-- COMPLETION of a path's invalidations whose entries no access uses any more (R233). -/
def tlbiComplete (bid pid : Nat) (s : State) : State :=
  let mine := s.coh.tlbis.filter (fun t => t.blk == bid && t.path == pid)
  let done_ := mine.filter (fun t => !stillUsed s t)
  let s := { s with coh := { s.coh with tlbis := s.coh.tlbis.filter (fun t => !done_.any (· == t)) } }
  let s := done_.foldl (fun s t => engineReturn bid pid t.mark s) s
  if done_.length = mine.length then s else s.postOnce (s.cycle + 1) (.tlbiComplete bid pid)

def execTlbiComplete (s : State) : Host.Outcome State Fault Refusal :=
  device s fun
    | .tlbiComplete bid pid => some (tlbiComplete bid pid s)
    | _ => none

/-! The readback window (R402, R403) -/

/-- A byte string of a state image: what lies at an offset. -/
def wordAt (l : List Byte) (off : Nat) : Word := wd (ofBytes ((l.drop off).take 4))

/-- Poison metadata of a cell: bit 0 poison, bit 1 derived. -/
def metaByte (v : Val) : Nat :=
  match v.poison with
  | .clean => 0
  | .direct => 1
  | .derived => 3

def poisonBits (n : Nat) : Poison := if n % 2 = 0 then .clean else if n / 2 % 2 = 1 then .derived else .direct

/-- Four metadata bytes of a list of cells from an index. -/
def metaWord (l : List Cell) (k : Nat) : Word :=
  wd (sumBy (fun i => (match l[k + i]? with | some c => metaByte c.val | none => 0) * 256 ^ i) (upto 4))

def cellWord (l : List Cell) (k : Nat) : Word := ((l[k]?).map (·.val.bits)).getD 0

/-- Stack cells from the bottom: those of the stack, and above its depth the backing-window rows with their last contents
(R137, R292). -/
def windowCells (t : Thread) : List Cell :=
  t.stack.reverse ++ (t.rows.drop t.stack.length).map (fun v => ⟨v, none, ⟨0, 0, false, 0⟩, false⟩)

/-- Flags of a lane image. -/
def laneFlags (b : Block) (key : Nat) : Nat :=
  match tget b.threads key with
  | none => 16
  | some t =>
    let formed := (b.pathOf key).elim false (fun p => p.2.formed)
    b2n (t.run == .running) + 2 * b2n (t.run == .stopped) + 4 * b2n (t.run == .suspended && t.group.isSome) + 8 * b2n (t.cls == .helper)
      + 32 * b2n (t.run == .exited) + 64 * b2n (t.run == .binned) + 128 * b2n formed

/-- Fork-depth entries, the outermost first. -/
def forkBytes (t : Thread) : List Byte := (t.forkD.reverse.map (fun e => BitVec.ofNat 8 e.2)).take 8

/-- A word of a lane's image. (log 51, DESIGN CHOICE) -/
def laneImage (b : Block) (key off : Nat) : Word :=
  if off = 4 then wd (laneFlags b key)
  else
    match tget b.threads key with
    | none => 0
    | some t =>
      let st := windowCells t
      if off = 0 then wd t.stack.length
      else if 0x8 ≤ off ∧ off < 0x10 then wordAt (forkBytes t) (off - 8)
      else if 0x10 ≤ off ∧ off < 0x20 then wordAt (toBytes 16 t.origin.toNat) (off - 0x10)
      else if 0x80 ≤ off ∧ off < 0xC0 then wordAt t.fault.bytes (off - 0x80)
      else if 0x400 ≤ off ∧ off < 0x440 then cellWord t.o ((off - 0x400) / 4)
      else if 0x440 ≤ off ∧ off < 0x450 then metaWord t.o (off - 0x440)
      else if 0x800 ≤ off ∧ off < 0xC00 then cellWord t.m ((off - 0x800) / 4)
      else if 0xC00 ≤ off ∧ off < 0xD00 then metaWord t.m (off - 0xC00)
      else if 0x1000 ≤ off ∧ off < 0x1800 then cellWord st ((off - 0x1000) / 4)
      else if 0x1800 ≤ off ∧ off < 0x1A00 then metaWord st (off - 0x1800)
      else 0

/-- Metadata of a uniform cell: poison of its value in bits 1:0, divided in bit 2, poison of its high candidate in bits 4:3
(R147, R151). -/
def uniByte (c : Cell) : Nat := metaByte c.val + 4 * b2n c.hi.isSome + 8 * (c.hi.map metaByte).getD 0

/-- Four metadata bytes of a list of uniform cells from an index. -/
def uniMeta (l : List Cell) (k : Nat) : Word :=
  wd (sumBy (fun i => ((l[k + i]?).map uniByte).getD 0 * 256 ^ i) (upto 4))

def highWord (l : List Cell) (k : Nat) : Word := ((l[k]?).map (fun c => (c.hi.getD c.val).bits)).getD 0

/-- A word of the image of a w file and a uniform stack: w cells at 0x000, their high candidates at 0x100, metadata at 0x200,
uniform depth at 0x240, uniform cells at 0x280, their high candidates at 0x2C0, metadata at 0x300. (log 51, DESIGN CHOICE) -/
def filesImage (w ust : List Cell) (off : Nat) : Word :=
  let u := ust.reverse
  if off < 0x100 then cellWord w (off / 4)
  else if off < 0x200 then highWord w ((off - 0x100) / 4)
  else if off < 0x240 then uniMeta w (off - 0x200)
  else if off = 0x240 then wd ust.length
  else if 0x280 ≤ off ∧ off < 0x2A0 then cellWord u ((off - 0x280) / 4)
  else if 0x2C0 ≤ off ∧ off < 0x2E0 then highWord u ((off - 0x2C0) / 4)
  else if 0x300 ≤ off ∧ off < 0x308 then uniMeta u (off - 0x300)
  else 0

/-- A word of the warp image of a lane: the files of the path that holds it, with its PC at 0x244, and from 0x800 up the save
area of its home warp (R86). R403 lays out no such image. (log 51, DESIGN CHOICE) -/
def warpImage (b : Block) (key off : Nat) : Word :=
  if 0x800 ≤ off then
    match tget b.saves (homeWarp key) with
    | some a => filesImage a.w a.ust (off - 0x800)
    | none => 0
  else
    match b.pathOf key with
    | none => 0
    | some (_, p) => if off = 0x244 then p.pc else filesImage p.w p.ust off

/-- A checksum entry's 48 bytes: the 288-bit sum, then the count. -/
def checksumBytes (sum : Int) (cnt : Int) : List Byte :=
  toBytes 36 ((sum % (2 ^ 288 : Int)).toNat) ++ toBytes 4 ((cnt % (2 ^ 32 : Int)).toNat) ++ List.replicate 8 0

/-- A word of a tile's image. -/
def tileImage (t : Tile) (off : Nat) : Word :=
  if off < 0x800 then tgetD t.elems (off / 4) 0
  else if off < 0xB00 then
    let n := (off - 0x800) / 48
    wordAt (checksumBytes (tgetD t.colSum n 0) (tgetD t.colCnt n 0)) ((off - 0x800) % 48)
  else if 0xE00 ≤ off ∧ off < 0x1400 then
    let r := (off - 0xE00) / 48
    wordAt (checksumBytes (tgetD t.rowSum r 0) (tgetD t.rowCnt r 0)) ((off - 0xE00) % 48)
  else if off = 0x1400 then
    wd (t.kind + 4 * b2n t.invalid.isNone + 256 * (t.invalid.elim 0 (·.toNat)))
  else 0

/-- A word of an A latch. R403 lays out no image of latches and LUT area; the model's: the LUT entry of key k at
0x4000 + 4k, and for lane position l at 0x8000 + 0x200 × l its cells, at + 0x100 its flags (bit 0 full, bit 1 replay, bits 7:4
format, bits 15:8 cell count, bits 31:16 next chunk), at + 0x104 p, at + 0x108 q, and the cells' metadata from + 0x110 up
(R336). (log 51, DESIGN CHOICE) -/
def latchImage (t : Latch) (off : Nat) : Word :=
  if off < 0x100 then ((t.cells[off / 4]?).map (·.bits)).getD 0
  else if off = 0x100 then wd (b2n t.full + 2 * b2n t.replay + 16 * t.fmt + 256 * t.cells.length + 65536 * t.next)
  else if off = 0x104 then t.pq.getD 0 0
  else if off = 0x108 then t.pq.getD 1 0
  else if 0x110 ≤ off ∧ off < 0x150 then
    wd (sumBy (fun i => ((t.cells[off - 0x110 + i]?).map metaByte).getD 0 * 256 ^ i) (upto 4))
  else 0

def matrixImage (b : Block) (warp tile off : Nat) : Word :=
  let m := tgetD b.matrix warp .fresh
  if off < 0x4000 then tileImage (tgetD m.tiles tile .fresh) off
  else if off < 0x8000 then tgetD m.lut ((off - 0x4000) / 4) 0
  else if off < 0xC000 then
    match tget b.threads (32 * warp + (off - 0x8000) / 0x200) with
    | some t => latchImage t.latch (off % 0x200)
    | none => 0
  else 0

/-- The bytes of a launch record (R32). -/
def launchBytes (l : LaunchRec) : List Byte :=
  toBytes 4 l.ident ++ toBytes 2 l.node ++ toBytes 2 l.batch.toNat ++ List.replicate 56 0 ++ rdBytes l.snap 0 1408
    ++ l.handles.flatMap (fun h => toBytes 4 h.toNat)

/-- The key of a snoop-filter entry (R317). -/
def sfKey (die set way : Nat) : Nat := (die * 65536 + set) * 16 + way

/-- Channel and halt words of a block (R278, R403). -/
def haltImage (s : State) (b : Block) (id off : Nat) : Word :=
  if off < 0x200 then
    let k := off / 0x40
    let c := b.chan k
    if off % 0x40 = 0 then statusWord (queuedOf id c.queue) c.halt else if off % 0x40 = 4 then c.wptr else 0
  else if 0x400 ≤ off ∧ off < 0x480 ∧ off % 8 = 0 then
    let t := (off - 0x400) / 8
    let q := (s.engines.gather.flatMap (·.2)).filter (fun x => (gatherOf x.op).tag == t)
    statusWord (queuedOf id q) (tget b.gatherHalt t)
  else if 0x500 ≤ off ∧ off < 0x580 ∧ off % 8 = 0 then
    let ch := (off - 0x500) / 8
    statusWord (queuedOf id (s.binding b.part ch).queue) (tget b.collHalt ch)
  else if 0x600 ≤ off ∧ off < 0x680 then
    statusWord 0 ((tgetD b.matrix ((off - 0x600) / 4) .fresh).halt)
  else 0

/-- The least level a space needs; none for the spaces that do not exist. -/
def spaceLevel (k : Nat) : Option Nat :=
  if k ≤ 4 ∨ k = 9 then some 1 else if k ≤ 12 then some 2 else none

/-- A block of the issuer's partition, resident, queued or saved. -/
def readbackBlock (s : State) (part id : Nat) : Option Block :=
  match s.anyBlock id with
  | some b => if b.part = part then some b else none
  | none => none

/-- The thread key that an offset names in spaces 0 and 1. -/
def keyOf (lo : Nat) : Nat := 32 * bits lo 31 27 + 1024 * bits lo 26 26 + bits lo 25 21

/-- The core that owns a word: at its home, or in a die's own copy of an NCO line (R302, R319). (log 51, DESIGN CHOICE) -/
def ownerAt (s : State) (pa : Nat) : Option Nat :=
  (upto 5).findSome? (fun k => tget s.coh.owners (pa / 4 + 2 ^ 50 * k))

/-- The word of a space at a selector and an offset, or cause 0x0B (R402, R403). (log 51, DESIGN CHOICE) -/
def readback (s : State) (lvl part k hi lo : Nat) : Option Word :=
  match spaceLevel k with
  | none => none
  | some need =>
    if lvl < need then none
    else
      let blk := readbackBlock s part hi
      let die := s.pkg.dies.getD hi ⟨700, 0, 0, 0, 0, 0, 0⟩
      match k with
      | 0 => blk.map (fun b => laneImage b (keyOf lo) (lo % 2 ^ 21))
      | 1 => blk.map (fun b => warpImage b (keyOf lo) (lo % 2 ^ 21))
      | 2 => blk.map (fun b => matrixImage b (bits lo 31 27) (bits lo 25 23) (lo % 2 ^ 21))
      | 3 => blk.map (fun b => wordAt (launchBytes b.launch) lo)
      | 4 =>
        let g : GraphId := ⟨part, 0⟩
        let node := hi % 4096
        if 4 ≤ hi / 4096 ∨ (nodeCount s g).elim true (fun n => decide (n ≤ node)) then none
        else
          let l := s.launcher g node (hi / 4096)
          some (match lo with
            | 0 => wd l.pend.length
            | 4 => wd (match l.timerAt, l.held with | some t, _ => t - s.cycle | none, some r => r | none, none => 0)
            | 8 => wd (b2n l.x)
            | _ => 0)
      | 5 =>
        let sec := s.sector (4 * (192 * (hi / 256) + hi % 256) + lo / 512)
        if 4 ≤ hi / 256 ∨ 192 ≤ hi % 256 ∨ 2048 ≤ lo then some 0
        else
          some (match tget sec.bins (lo % 512 / 16) with
            | none => 0
            | some n =>
              match lo % 16 with
              | 0 => wd n.blk
              | 4 => n.pc
              | 8 => wd (laneMask (n.filed.map (·.key)))
              | _ => if n.filed.isEmpty then 0 else wd (s.cycle - n.oldest))
      | 6 =>
        let d := (tgetD s.coh.dir ((hi * 2 ^ 32 + lo) / 64) 0).toNat
        some (if lo % 64 = 0 then wd d else if lo % 64 = 4 then wd (d / 2 ^ 32) else 0)
      | 7 =>
        let d := (tgetD s.coh.sf (sfKey hi (lo / 128) (lo / 8 % 16)) 0).toNat
        some (if 2 ^ 23 ≤ lo then 0 else if lo % 8 = 0 then wd d else wd (d / 2 ^ 32))
      | 8 => some (((ownerAt s (hi * 2 ^ 32 + lo)).map wd).getD 0x8000_0000)
      | 9 => blk.map (fun b => haltImage s b hi lo)
      | 10 => some (match lo with
        | 0x0 => die.sfrc
        | 0x4 => die.fileCorr
        | 0x8 => die.memCorr
        | 0xC => die.uncorr
        | 0x10 => die.darkFail
        | _ => 0)
      | 11 =>
        let e := (s.part hi).engine
        some (match lo with
          | 0x0 => wd (match e.op with | .idle => 0 | .save => 1 | .restore => 2)
          | 0x4 => wd e.blk
          | 0x8 => wd e.target
          | 0xC => wd (e.target / 2 ^ 32)
          | 0x10 => wd e.step
          | _ => 0)
      | _ =>
        let c := s.clusterState (24 * hi + lo / 16)
        some (if 24 ≤ lo / 16 ∨ 4 ≤ hi then 0
          else
            match lo % 16 with
            | 0 => wd (match c.dark with | none => 0 | some true => 1 | some false => 2)
            | 4 => wd c.failing.toNat
            | 8 => c.wakes
            | _ => c.duration)

/-- Every active lane accesses the window for itself, in rising lane order (R402). -/
def windowForm (h : Hdr) (pops pushes : Nat) (run : State → Nat → Thread → List Val → State × LaneRes Thread)
    (s : State) (c : Ctx) : State :=
  match checkLanes c pops pushes with
  | .path t => trapPath s c t
  | .all ok tr =>
    let f := fun s k (t : Thread) =>
      run s k { t with stack := t.stack.drop pops } ((t.stack.take pops).map (·.val))
    let x := lanesInTurn s f (byLane ok)
    let d := laneDepth c.b c.p
    let res := match x.2 with
      | .all ok2 tr2 => LanesRes.all ok2 (tr ++ tr2)
      | p => p
    finishLanes x.1 c h res { pc := c.next, owed := pushes, xfer := transfers d (d - pops + pushes) }

/-- rdbk of a lane: lo on top, hi beneath (R402). -/
def rdbkLane (c : Ctx) (k : Nat) (s : State) (_key : Nat) (t : Thread) (vs : List Val) : State × LaneRes Thread :=
  let lo := ((vs.getD 0 (.clean 0)).bits).toNat
  let hi := ((vs.getD 1 (.clean 0)).bits).toNat
  match refusePoison vs with
  | .lane i => (s, .lane i)
  | .path i => (s, .path i)
  | .ok _ =>
    if lo % 4 ≠ 0 then (s, .lane { cause := 0x0C })
    else
      match readback s c.b.lvl c.b.part k hi lo with
      | none => (s, .lane { cause := 0x0B })
      | some w => (s, .ok { t with stack := c.env.longResult (.clean w) :: t.stack })

def execRdbk (h : Hdr) (space : BitVec 5) (s : State) : Host.Outcome State Fault Refusal :=
  issue (.rdbk h space) h { scopes := [.lane], priv := true }
    (fun s c => warpOnly s c (windowForm h 2 1 (rdbkLane c space.toNat))) s

/-! Writes -/

/-- A word put into a byte string. -/
def setWordAt (l : List Byte) (off : Nat) (w : Word) : List Byte :=
  (upto l.length).map (fun i => if off ≤ i ∧ i < off + 4 then BitVec.ofNat 8 (w.toNat / 256 ^ (i - off)) else l.getD i 0)

/-- A cell's word written: its poison is cleared (R150). -/
def putCell (l : List Cell) (k : Nat) (w : Word) : List Cell := lmod l k (fun _ => Cell.ofWord w)

/-- Four metadata bytes written. -/
def putMeta (l : List Cell) (k : Nat) (w : Word) : List Cell :=
  (upto 4).foldl (fun l i => lmod l (k + i) (fun c =>
    { c with val := { c.val with poison := poisonBits (w.toNat / 256 ^ i % 256) } })) l

/-- A fault record from its 64 bytes (R363). -/
def FaultRec.ofBytes (l : List Byte) : FaultRec :=
  let f := fun (off n : Nat) => Machine.ofBytes ((l.drop off).take n)
  { pc := wd (f 0 4), cause := BitVec.ofNat 6 (f 4 1), flags := BitVec.ofNat 8 (f 5 1), depth := BitVec.ofNat 16 (f 6 2)
    addr := BitVec.ofNat 64 (f 8 8), mask := wd (f 0x10 4), runPc := wd (f 0x14 4), udepth := BitVec.ofNat 8 (f 0x18 1)
    lvl := BitVec.ofNat 8 (f 0x19 1), blane := BitVec.ofNat 16 (f 0x1A 2 % 1024), prog := wd (f 0x1C 4)
    origin := BitVec.ofNat 128 (f 0x20 16), block := wd (f 0x30 4), node := BitVec.ofNat 16 (f 0x34 2)
    seq := BitVec.ofNat 64 (f 0x38 8) }

/-- A stack of another depth: cells of the bottom stay; those that appear hold free values (log 5). -/
def resizeStack (s : State) (st : List Cell) (n : Nat) : State × List Cell :=
  if n ≤ st.length then (s, st.drop (st.length - n))
  else
    let rec grow : Nat → State → List Cell → State × List Cell
      | 0, s, l => (s, l)
      | k + 1, s, l => let d := s.drawWord; grow k d.2 (Cell.ofWord d.1 :: l)
    grow (n - st.length) s st

/-- Fork depths written back, the outermost first. -/
def putForks (t : Thread) (off : Nat) (w : Word) : Thread :=
  let l := setWordAt (forkBytes t) off w
  { t with forkD := ((t.forkD.reverse.zip l).map (fun e => (e.1.1, e.2.toNat)) ++ t.forkD.reverse.drop l.length).reverse }

/-- A word of a lane's image written; the flags are not writable. -/
def putLane (s : State) (id : Nat) (b : Block) (key off : Nat) (w : Word) : Option State :=
  match tget b.threads key with
  | none => none
  | some t =>
    let set := fun (f : Thread → Thread) => some (s.modAny id (·.modThread key f))
    let st := fun (f : List Cell → List Cell) => set (fun t => { t with
      stack := (f t.stack.reverse).reverse
      rows := settleRows (t.rows.take t.stack.length ++ ((f (windowCells t)).drop t.stack.length).map (·.val))
        (f t.stack.reverse).reverse })
    if off = 4 then none
    else if off = 0 then
      let x := resizeStack s t.stack (min w.toNat (8 + b.stack))
      some (x.1.modAny id (·.modThread key (fun t => { t with stack := x.2 })))
    else if 0x8 ≤ off ∧ off < 0x10 then set (fun t => putForks t (off - 8) w)
    else if 0x10 ≤ off ∧ off < 0x20 then
      set (fun t => { t with origin := BitVec.ofNat 128 (Machine.ofBytes (setWordAt (toBytes 16 t.origin.toNat) (off - 0x10) w)) })
    else if 0x80 ≤ off ∧ off < 0xC0 then set (fun t => { t with fault := .ofBytes (setWordAt t.fault.bytes (off - 0x80) w) })
    else if 0x400 ≤ off ∧ off < 0x440 then set (fun t => { t with o := putCell t.o ((off - 0x400) / 4) w })
    else if 0x440 ≤ off ∧ off < 0x450 then set (fun t => { t with o := putMeta t.o (off - 0x440) w })
    else if 0x800 ≤ off ∧ off < 0xC00 then set (fun t => { t with m := putCell t.m ((off - 0x800) / 4) w })
    else if 0xC00 ≤ off ∧ off < 0xD00 then set (fun t => { t with m := putMeta t.m (off - 0xC00) w })
    else if 0x1000 ≤ off ∧ off < 0x1800 then st (fun l => putCell l ((off - 0x1000) / 4) w)
    else if 0x1800 ≤ off ∧ off < 0x1A00 then st (fun l => putMeta l (off - 0x1800) w)
    else none

/-- Four metadata bytes of uniform cells written. -/
def putUni (l : List Cell) (k : Nat) (w : Word) : List Cell :=
  (upto 4).foldl (fun l i =>
    let v := w.toNat / 256 ^ i % 256
    lmod l (k + i) (fun c => { c with
      val := { c.val with poison := poisonBits v }, hi := c.hi.map (fun x => { x with poison := poisonBits (v / 8) }) })) l

/-- A divided cell's high candidate written. -/
def putHigh (l : List Cell) (k : Nat) (w : Word) : List Cell := lmod l k (fun c => { c with hi := some ⟨w, .clean⟩ })

/-- A w file and a uniform stack with a word of their image written. -/
def putFiles (w ust : List Cell) (off : Nat) (v : Word) : Option (List Cell × List Cell) :=
  let u := fun (f : List Cell → List Cell) => some (w, (f ust.reverse).reverse)
  if off < 0x100 then some (putCell w (off / 4) v, ust)
  else if off < 0x200 then some (putHigh w ((off - 0x100) / 4) v, ust)
  else if off < 0x240 then some (putUni w (off - 0x200) v, ust)
  else if 0x280 ≤ off ∧ off < 0x2A0 then u (fun l => putCell l ((off - 0x280) / 4) v)
  else if 0x2C0 ≤ off ∧ off < 0x2E0 then u (fun l => putHigh l ((off - 0x2C0) / 4) v)
  else if 0x300 ≤ off ∧ off < 0x308 then u (fun l => putUni l (off - 0x300) v)
  else none

/-- The same with the uniform depth among the words: cells of a greater depth hold free values (log 5). -/
def putFilesIn (s : State) (w ust : List Cell) (off : Nat) (v : Word) : Option (State × List Cell × List Cell) :=
  if off = 0x240 then let x := resizeStack s ust (min v.toNat 8); some (x.1, w, x.2)
  else (putFiles w ust off v).map (fun x => (s, x))

/-- A word of a warp image written: the w file and the uniform stack of a lane's path, or of its home warp's save area. -/
def putWarp (s : State) (id : Nat) (b : Block) (key off : Nat) (w : Word) : Option State :=
  if 0x800 ≤ off then
    match tget b.saves (homeWarp key) with
    | none => none
    | some a => (putFilesIn s a.w a.ust (off - 0x800) w).map (fun x =>
        x.1.modAny id (fun b => { b with saves := tset b.saves (homeWarp key) ⟨x.2.1, x.2.2⟩ }))
  else
    match b.pathOf key with
    | none => none
    | some (pid, p) => (putFilesIn s p.w p.ust off w).map (fun x =>
        x.1.modAny id (·.modPath pid (fun p => { p with w := x.2.1, ust := x.2.2 })))

/-- A checksum entry with a word of its 48 bytes written: sum and count. -/
def putChecksum (sum cnt : Int) (off : Nat) (w : Word) : Int × Int :=
  let l := setWordAt (checksumBytes sum cnt) off w
  let n := Machine.ofBytes (l.take 36)
  ((if n < 2 ^ 287 then (n : Int) else (n : Int) - 2 ^ 288), (wd (Machine.ofBytes ((l.drop 36).take 4))).toInt)

/-- A word of a tile's image written (R403). -/
def putTile (t : Tile) (off : Nat) (w : Word) : Option Tile :=
  if off < 0x800 then some { t with elems := tset t.elems (off / 4) w }
  else if off < 0xB00 then
    let n := (off - 0x800) / 48
    let x := putChecksum (tgetD t.colSum n 0) (tgetD t.colCnt n 0) ((off - 0x800) % 48) w
    some { t with colSum := tset t.colSum n x.1, colCnt := tset t.colCnt n x.2 }
  else if 0xE00 ≤ off ∧ off < 0x1400 then
    let r := (off - 0xE00) / 48
    let x := putChecksum (tgetD t.rowSum r 0) (tgetD t.rowCnt r 0) ((off - 0xE00) % 48) w
    some { t with rowSum := tset t.rowSum r x.1, rowCnt := tset t.rowCnt r x.2 }
  else if off = 0x1400 then
    some { t with kind := w.toNat % 4, invalid := if bit? w.toNat 2 then none else some (BitVec.ofNat 8 (w.toNat / 256)) }
  else none

/-- A word of a latch written. -/
def putLatch (t : Latch) (off : Nat) (w : Word) : Option Latch :=
  if off < 0x100 then some { t with cells := lmod t.cells (off / 4) (fun _ => .clean w) }
  else if off = 0x100 then
    let n := min 64 (bits w.toNat 15 8)
    some { t with
      full := bit? w.toNat 0, replay := bit? w.toNat 1, fmt := bits w.toNat 7 4, next := w.toNat / 65536
      cells := t.cells.take n ++ List.replicate (n - t.cells.length) (.clean 0) }
  else if off = 0x104 then some { t with pq := [w, t.pq.getD 1 0] }
  else if off = 0x108 then some { t with pq := [t.pq.getD 0 0, w] }
  else if 0x110 ≤ off ∧ off < 0x150 then
    some { t with cells := (upto 4).foldl (fun l i => lmod l (off - 0x110 + i) (fun v =>
      { v with poison := poisonBits (w.toNat / 256 ^ i % 256) })) t.cells }
  else none

def putMatrix (s : State) (id : Nat) (b : Block) (warp tile off : Nat) (w : Word) : Option State :=
  let m := tgetD b.matrix warp .fresh
  let set := fun (m : WarpMatrix) => s.modAny id (fun b => { b with matrix := tset b.matrix warp m })
  if off < 0x4000 then
    if tile < b.acc then (putTile (tgetD m.tiles tile .fresh) off w).map (fun t => set { m with tiles := tset m.tiles tile t })
    else none
  else if off < 0x8000 then some (set { m with lut := tset m.lut ((off - 0x4000) / 4) w })
  else if off < 0xC000 then
    let key := 32 * warp + (off - 0x8000) / 0x200
    match tget b.threads key with
    | none => none
    | some t => (putLatch t.latch (off % 0x200) w).map (fun l => s.modAny id (·.modThread key (fun t => { t with latch := l })))
  else none

/-- A halt word: writing 0 clears the halt, another value leaves it (R276, R403). -/
def putHalt (s : State) (id off : Nat) (w : Word) : Option State :=
  let clear := fun (f : Block → Block) => some (if w = 0 then s.modAny id f else s)
  if off < 0x200 ∧ off % 0x40 = 0 then clear (fun b => b.modChan (off / 0x40) (fun c => { c with halt := none }))
  else if 0x400 ≤ off ∧ off < 0x480 ∧ off % 8 = 0 then
    clear (fun b => { b with gatherHalt := tdel b.gatherHalt ((off - 0x400) / 8) })
  else if 0x500 ≤ off ∧ off < 0x580 ∧ off % 8 = 0 then
    clear (fun b => { b with collHalt := tdel b.collHalt ((off - 0x500) / 8) })
  else if 0x600 ≤ off ∧ off < 0x680 then
    clear (fun b => { b with matrix := tmod b.matrix ((off - 0x600) / 4) (fun m => { m with halt := none }) })
  else none

/-- All unexited lanes of the warp or finder warp of an offset are stopped by a trap, or it belongs to a saved context that is
not restored, one whose restore is still to end among them (R403). -/
def warpStopped (s : State) (id : Nat) (b : Block) (lo : Nat) : Bool :=
  (tget s.blocks id).isNone || b.vacate.any (fun v => v.kind == .restore) || b.threads.all (fun e =>
    !(homeWarp e.1 == bits lo 31 27 && isFinderKey e.1 == bit? lo 26) || e.2.run == .exited || e.2.run == .stopped)

/-- A write of the window; none is cause 0x0B (R402, R403). (log 51, DESIGN CHOICE) -/
def writeback (s : State) (lvl part k hi lo : Nat) (w : Word) : Option State :=
  match spaceLevel k with
  | none => none
  | some need =>
    if lvl < need then none
    else
      match readbackBlock s part hi with
      | none => none
      | some b =>
        let off := lo % 2 ^ 21
        match k with
        | 0 => if warpStopped s hi b lo then putLane s hi b (keyOf lo) off w else none
        | 1 => if warpStopped s hi b lo then putWarp s hi b (keyOf lo) off w else none
        | 2 => if warpStopped s hi b lo then putMatrix s hi b (bits lo 31 27) (bits lo 25 23) off w else none
        | 9 => putHalt s hi lo w
        | _ => none

/-- wrbk of a lane: lo on top, hi, then v (R402). -/
def wrbkLane (c : Ctx) (k : Nat) (s : State) (_key : Nat) (t : Thread) (vs : List Val) : State × LaneRes Thread :=
  let lo := ((vs.getD 0 (.clean 0)).bits).toNat
  let hi := ((vs.getD 1 (.clean 0)).bits).toNat
  match refusePoison vs with
  | .lane i => (s, .lane i)
  | .path i => (s, .path i)
  | .ok _ =>
    if lo % 4 ≠ 0 then (s, .lane { cause := 0x0C })
    else
      match writeback s c.b.lvl c.b.part k hi lo ((vs.getD 2 (.clean 0)).bits) with
      | none => (s, .lane { cause := 0x0B })
      | some s => (s, .ok t)

def execWrbk (h : Hdr) (space : BitVec 5) (s : State) : Host.Outcome State Fault Refusal :=
  issue (.wrbk h space) h { scopes := [.lane], priv := true }
    (fun s c => warpOnly s c (windowForm h 3 0 (wrbkLane c space.toNat))) s

end Sys2Proof.Machine
end

