-- ==== Sys2Proof/Machine/Coherence.lean ====
section
/-! DEFINITION. The directory with its transitions, the snoop filters, accesses of the host and of other packages, line
maintenance (R312-R324, R404). -/

namespace Sys2Proof.Machine

/-! Directory entries (R313) -/

/-- A line's state at its home: not held elsewhere, read copies, one exclusive owner, owners word by word. -/
inductive Dir where
  | u
  | s (dies : List Nat)
  | e (x : Nat)
  | w (own : List Nat)
  deriving DecidableEq, Repr

def Dir.word : Dir → DWord
  | .u => 0
  | .s l => BitVec.ofNat 64 (1 + 4 * sumBy (fun d => 2 ^ d) (sortNat l))
  | .e x => BitVec.ofNat 64 (2 + 64 * x)
  | .w own => BitVec.ofNat 64 (3 + 2 ^ 32 * sumBy (fun i => own.getD i 0 * 4 ^ i) (upto 16))

def Dir.ofWord (v : DWord) : Dir :=
  let n := v.toNat
  match bits n 1 0 with
  | 0 => .u
  | 1 => .s ((upto 4).filter (fun d => bit? n (2 + d)))
  | 2 => .e (bits n 7 6)
  | _ => .w ((upto 16).map (fun i => bits n (33 + 2 * i) (32 + 2 * i)))

def lineHome (line : Nat) : Nat := homeDie (64 * line)
/-- A reading of the rules (log 7, DESIGN CHOICE). -/
def State.dirOf (s : State) (line : Nat) : Dir := .ofWord (tgetD s.coh.dir line 0)

/-- A W entry whose words all have one owner (R315). (log 63, DEDUCED) -/
def normalise (home : Nat) (own : List Nat) : Dir :=
  match own with
  | [] => .u
  | x :: r => if r.all (· == x) then (if x = home then .u else .e x) else .w own

/-- Words of a mask given to a die. (log 63, DEDUCED) -/
def giveWords (own : List Nat) (mask : BitVec 16) (d : Nat) : List Nat :=
  (upto 16).map (fun i => if bit? mask.toNat i then d else own.getD i 0)

/-- RL(D): an L2 load miss on a die (R315). -/
def Dir.remoteLoad (t : Dir) (d : Nat) : Dir :=
  match t with
  | .u => .s [d]
  | .s l => .s (insSorted d l)
  | .e x => if x = d then .e x else .s (sortNat [x, d])
  | .w own => .w own

/-- ST(D, M): a store by a die that does not hold the words exclusively (R315). (log 63, DEDUCED) -/
def Dir.remoteStore (t : Dir) (home d : Nat) (mask : BitVec 16) : Dir :=
  match t with
  | .u | .s _ => .e d
  | .e x => if x = d then .e x else .w (giveWords (List.replicate 16 x) mask d)
  | .w own => normalise home (giveWords own mask d)

/-- HW(M): a home store, an atomic, or a write of a host or fabric agent (R315). -/
def Dir.homeWrite (t : Dir) (home : Nat) (mask : BitVec 16) : Dir :=
  match t with
  | .u | .s _ => .u
  | .e x => normalise home (giveWords (List.replicate 16 x) mask home)
  | .w own => normalise home (giveWords own mask home)

/-- EV(D): an eviction by a die (R315). -/
def Dir.evict (t : Dir) (home d : Nat) : Dir :=
  match t with
  | .u => .u
  | .s l => let r := l.filter (· != d); if r.isEmpty then .u else .s r
  | .e x => if x = d then .u else .e x
  | .w own => normalise home (own.map (fun x => if x = d then home else x))

/-- What a non-home die holds of a line: HELD and WMASK of its snoop-filter entry; HELD 0 is none (R317). -/
def Dir.heldBy (t : Dir) (d : Nat) : Nat × Nat :=
  match t with
  | .u => (0, 0)
  | .s l => if mem? l d then (1, 0) else (0, 0)
  | .e x => if x = d then (2, 0) else (0, 0)
  | .w own =>
    let m := sumBy (fun i => if own.getD i 0 = d then 2 ^ i else 0) (upto 16)
    if m = 0 then (0, 0) else (3, m)

/-- A die may own a word for its cores. -/
def Dir.mayOwn (t : Dir) (home d i : Nat) : Bool :=
  match t with
  | .u | .s _ => d == home
  | .e x => d == x
  | .w own => own.getD i home == d

/-! Snoop filters (R317, R318) -/

def sfSet (line : Nat) : Nat := (line % 65536) ^^^ (line / 65536 % 65536)
def sfWay (s : State) (d set way : Nat) : Nat := (tgetD s.coh.sf (sfKey d set way) 0).toNat
def sfHeld (v : Nat) : Nat := bits v 46 45
def sfLine (v : Nat) : Nat := bits v 44 6

/-- The way in which a die's filter holds a line. -/
def sfFind (s : State) (d line : Nat) : Option Nat :=
  (upto 16).find? (fun w => let v := sfWay s d (sfSet line) w; sfHeld v != 0 && sfLine v == line)

def sfFree (s : State) (d set : Nat) : Option Nat := (upto 16).find? (fun w => sfHeld (sfWay s d set w) == 0)

def setSf (s : State) (d set way : Nat) (v : DWord) : State :=
  { s with coh := { s.coh with sf := if v = 0 then tdel s.coh.sf (sfKey d set way) else tset s.coh.sf (sfKey d set way) v } }

/-- A way becomes the most recently used of its set. -/
def touchWay (s : State) (d set way : Nat) : State :=
  let k := d * 65536 + set
  { s with coh := { s.coh with lru := tset s.coh.lru k (way :: (tgetD s.coh.lru k []).filter (· != way)) } }

/-- The least recently used way, the lower one on ties. -/
def victimWay (s : State) (d set : Nat) : Nat :=
  let l := tgetD s.coh.lru (d * 65536 + set) []
  match (upto 16).find? (fun w => !mem? l w) with
  | some w => w
  | none => l.getLastD 0

/-- A die's entry for a line follows the line's state; a die that holds nothing of it has none. -/
def syncFilter (line : Nat) (t : Dir) (s : State) (d : Nat) : State :=
  if d = lineHome line then s
  else
    let set := sfSet line
    let (held, mask) := t.heldBy d
    match sfFind s d line with
    | some w => setSf s d set w (if held = 0 then 0 else BitVec.ofNat 64 (2 ^ 48 * mask + 2 ^ 45 * held + 64 * line))
    | none =>
      if held = 0 then s
      else
        match sfFree s d set with
        | some w => touchWay (setSf s d set w (BitVec.ofNat 64 (2 ^ 48 * mask + 2 ^ 45 * held + 64 * line))) d set w
        | none => s

/-- A die's store to a word of a line is on its way to the home. -/
def storePending (s : State) (line die word : Nat) : Bool :=
  s.events.any (fun e => match e.2 with
    | .dirRemoteStore d l m | .dirHomeWrite d l m => d == die && l == line && bit? m.toNat word
    | _ => false)

/-- Cores lose the words that their die may no longer own (R302, R315); one whose store the home has still to serve keeps its
word (R312, R314). -/
def revokeOwners (line : Nat) (t : Dir) (s : State) : State :=
  { s with coh := { s.coh with owners := s.coh.owners.filter (fun e =>
    e.1 / 16 != line || t.mayOwn (lineHome line) (e.2 / 192) (e.1 % 16) || storePending s line (e.2 / 192) (e.1 % 16)) } }

/-- A line's new state, with what it takes from the dies. No byte moves: memory is one order of writes (log 4). -/
def setDir (s : State) (line : Nat) (t : Dir) : State :=
  let v := t.word
  let s := { s with coh := { s.coh with dir := if v = 0 then tdel s.coh.dir line else tset s.coh.dir line v } }
  revokeOwners line t ([0, 1, 2, 3].foldl (syncFilter line t) s)

def dirEvict (d line : Nat) (s : State) : State := setDir s line ((s.dirOf line).evict (lineHome line) d)

/-- Lines that a die's filter holds beside one in the set of its L2 that the line takes. (log 33, DESIGN CHOICE) -/
def l2Mates (s : State) (d line : Nat) : List Nat :=
  s.coh.sf.filterMap (fun e =>
    let k := sfLine e.2.toNat
    if e.1 / 2 ^ 20 = d ∧ sfHeld e.2.toNat ≠ 0 ∧ k ≠ line ∧ sameL2Set k line then some k else none)

/-- A die keeps no more remote copies of a set than its L2 has ways: one of them is evicted (R2, R236, R315).
(log 33, DESIGN CHOICE) -/
def l2Room (s : State) (d line : Nat) : State :=
  let l := l2Mates s d line
  if l.length < Config.l2Ways then s else dirEvict d (l.headD 0) s

/-- A die that needs an entry in a full set recalls its victim first, once, and its request comes again after that, before
those of later dies of the cycle (R314, R318). -/
def withEntry (s : State) (d line : Nat) (again : Event) (f : State → State) : State :=
  match sfFind s d line with
  | some w => f (touchWay s d (sfSet line) w)
  | none =>
    match sfFree s d (sfSet line) with
    | some _ => f (l2Room s d line)
    | none =>
      (s.postOnce s.cycle (.snoopFilterRecall d (sfLine (sfWay s d (sfSet line) (victimWay s d (sfSet line)))))).post s.cycle again

/-- A die's load of a line: a request only when the die holds no copy (R315). -/
def dirRemoteLoad (d line : Nat) (s : State) : State :=
  if d = lineHome line then s
  else
    match sfFind s d line with
    | some w => touchWay s d (sfSet line) w
    | none =>
      match s.dirOf line with
      | .w _ => s
      | t => withEntry s d line (.dirRemoteLoad d line) (fun s => setDir s line (t.remoteLoad d))

def execDirRemoteLoad (s : State) : Host.Outcome State Fault Refusal :=
  device s fun
    | .dirRemoteLoad d line => some (dirRemoteLoad d line s)
    | _ => none

/-- A die's store to words of a line. -/
def dirRemoteStore (d line : Nat) (mask : BitVec 16) (s : State) : State :=
  if d = lineHome line then s
  else withEntry s d line (.dirRemoteStore d line mask) (fun s =>
    setDir s line ((s.dirOf line).remoteStore (lineHome line) d mask))

def execDirRemoteStore (s : State) : Host.Outcome State Fault Refusal :=
  device s fun
    | .dirRemoteStore d line mask => some (dirRemoteStore d line mask s)
    | _ => none

def dirHomeWrite (line : Nat) (mask : BitVec 16) (s : State) : State :=
  setDir s line ((s.dirOf line).homeWrite (lineHome line) mask)

def execDirHomeWrite (s : State) : Host.Outcome State Fault Refusal :=
  device s fun
    | .dirHomeWrite _ line mask => some (dirHomeWrite line mask s)
    | _ => none

/-- HL(w): the word's value is fetched and not retained, so no state changes (R315). -/
def execDirHomeLoad (s : State) : Host.Outcome State Fault Refusal :=
  device s fun
    | .dirHomeLoad .. => some s
    | _ => none

/-- A line leaves a die's L2: its copy of an NCO line (R319), or what the directory says of it (R315). -/
def evictLine (d line : Nat) (s : State) : State := dirEvict d line ((ncoFind s d line).elim s (ncoEvict s))

def execDirEvict (s : State) : Host.Outcome State Fault Refusal :=
  device s fun
    | .dirEvict d line => some (evictLine d line s)
    | _ => none

/-- RECALL of a victim (R318): its copies go, its home is told, SFRC counts, also when an invalidation from the home has
met the recall. (log 63, DEDUCED) -/
def filterRecall (d line : Nat) (s : State) : State :=
  let s := match sfFind s d line with
    | some w => setSf s d (sfSet line) w 0
    | none => s
  let s := { s with coh := { s.coh with owners := s.coh.owners.filter (fun e => e.1 / 16 != line || e.2 / 192 != d) } }
  let s := s.modPkg (fun k => { k with dies := lmod k.dies d (fun x => { x with sfrc := satInc x.sfrc }) })
  dirEvict d line s

def execSnoopFilterRecall (s : State) : Host.Outcome State Fault Refusal :=
  device s fun
    | .snoopFilterRecall d line => some (filterRecall d line s)
    | _ => none

/-! The host and other packages (R323, R324, R404) -/

/-- An agent's read of bytes at the home; those of a line in error are free values (log 5). (log 65, DEDUCED) -/
def agentRead (s : State) (pa n : Nat) : State × List Byte :=
  let s := s.request (.dirHomeLoad 4 (pa / 64) (pa % 64 / 4))
  if s.lineBad pa || s.lineBad (pa + n - 1) then freeBytes s n else (s, rdBytes s.mem pa n)

/-- The device address of a host address in an HDM window (R404). -/
def hdmAddr (hpa : Nat) : Option Nat :=
  let b0 := Config.hdmBase 0
  let b1 := Config.hdmBase 1
  if b0 ≤ hpa ∧ hpa < b0 + 0x80_0000_0000 then some (hpa - b0)
  else if b1 ≤ hpa ∧ hpa < b1 + 0x1000_0000_0000 then some (hpa - b1 + 0x1000_0000_0000)
  else none

/-- A host access: a write of bytes, or a read of a doubleword. An address outside both windows reaches no memory.
(log 65, DEDUCED) -/
def hostAccess (hpa : Nat) (data : Option (List Byte)) (s : State) : State :=
  match hdmAddr hpa, data with
  | none, _ => s
  | some pa, some l => agentWrite s pa l
  | some pa, none => let x := agentRead s pa 8; { x.1 with hostRead := BitVec.ofNat 64 (ofBytes x.2) }

def execHostAccess (s : State) : Host.Outcome State Fault Refusal :=
  device s fun
    | .hostAccess hpa data => some (hostAccess hpa data s)
    | _ => none

/-- An atomic of another package on a word, performed at its home as HW; the old word goes back (R267, R296, R323).
(log 65, DEDUCED) -/
def fabricAtomic (s : State) (pa : Nat) (op : Word → Word) : State :=
  let q := pa % 2 ^ 40
  let x := if s.lineBad q then freeBytes s 4 else (s, rdBytes s.mem q 4)
  let s := agentWrite x.1 q (toBytes 4 (op (wd (ofBytes x.2))).toNat)
  { s with out := s.out ++ [.fabricData pa x.2] }

/-- An access of another package to this package's bonded DRAM (R229, R323): a read is served as HL, a store or an atomic as
HW; the bytes read go back. (log 65, DEDUCED) -/
def fabricAccess (pa : Nat) (op : FabricOp) (s : State) : State :=
  if isFabric pa && ownPackage s pa && physMaps pa then
    match op with
    | .read => let x := agentRead s (pa % 2 ^ 40) 8; { x.1 with out := x.1.out ++ [.fabricData pa x.2] }
    | .write l => agentWrite s (pa % 2 ^ 40) l
    | .atomic op fmt sat v =>
      fabricAtomic s (pa / 4 * 4) (fun w => atomWord ⟨fmt, .rn, sat, 0, 0, 0, 0⟩ op w v)
    | .cas e v => fabricAtomic s (pa / 4 * 4) (fun w => if w = e then v else w)
  else s

def execFabricAccessArrival (s : State) : Host.Outcome State Fault Refusal :=
  device s fun
    | .fabricAccessArrival pa op => some (fabricAccess pa op s)
    | _ => none

/-! Line maintenance (R320) -/

/-- Runs of physical lines that a unit's registers name: the whole run for the physical function and without a second stage,
page by page with one in a VF, and whether each page has a translation (R320, R410). (log 64, DEDUCED) -/
def maintRuns (s : State) (part : Nat) (pf : Bool) (l : LineMaint) : List (Nat × Nat) × Bool :=
  let a := l.addr.toNat / 64 * 64
  let n := l.cnt.toNat % 2 ^ 24
  match if pf then none else (tget s.roots (65536 * part)).bind (·.2) with
  | none => ([(a / 64, n)], true)
  | some r2 =>
    let pages := (a % 4096 / 64 + n + 63) / 64
    let runs := (upto pages).map (fun i =>
      let lo := max a (4096 * (a / 4096 + i))
      let hi := min (a + 64 * n) (4096 * (a / 4096 + i + 1))
      (walk (physRead8 s part) r2 lo).map (fun x => (x.1 / 64, (hi - lo) / 64)))
    (runs.filterMap id, runs.all (·.isSome))

/-- A reading of the rules (log 64, DEDUCED). -/
def inRuns (l : List (Nat × Nat)) (line : Nat) : Bool := l.any (fun r => decide (r.1 ≤ line) && decide (line < r.1 + r.2))

/-- CLEAN (R320). (log 33, DESIGN CHOICE) -/
def cleanLines (d : Nat) (runs : List (Nat × Nat)) (s : State) : State :=
  let mine := fun (x : NcoLine) => x.die == d && inRuns runs x.line
  let s := { s with mem := (s.coh.nco.filter mine).foldl cleanCopy s.mem }
  setNco s (s.coh.nco.map (fun x => if mine x then { x with written := 0 } else x))

/-- INVALIDATE (R320): NCO copies are dropped with what their cores own of them, tracked lines act as EV(D). -/
def dropLines (d : Nat) (runs : List (Nat × Nat)) (s : State) : State :=
  let s := setNco s (s.coh.nco.filter (fun x => !(x.die == d && inRuns runs x.line)))
  let s := { s with coh := { s.coh with owners := s.coh.owners.filter (fun e =>
    !(e.1 / 2 ^ 50 == d + 1 && inRuns runs (e.1 % 2 ^ 50 / 16))) } }
  (s.coh.dir.filter (fun e => inRuns runs e.1 && (Dir.heldBy (.ofWord e.2) d).1 != 0)).foldl (fun s e => dirEvict d e.1 s) s

def maintUnit (s : State) (part d : Nat) : LineMaint := (s.part part).lm.getD d ⟨0, 0, 0, 0⟩
def modUnit (s : State) (part d : Nat) (f : LineMaint → LineMaint) : State :=
  s.modPart part (fun p => { p with lm := lmod p.lm d f })

/-- GO on a line-maintenance unit: refused with ERR while it is busy; a line without translation sets ERR.
(log 64, DEDUCED) -/
def startMaint (op : Nat) (act : List (Nat × Nat) → State → State) (part d : Nat) (pf : Bool) (s : State) : State :=
  let u := maintUnit s part d
  if bit? u.stat.toNat 0 then modUnit s part d (fun u => { u with stat := u.stat ||| 2 })
  else
    let x := maintRuns s part pf u
    let s := modUnit s part d (fun u => { u with ctl := wd (2 ^ 31 + op), stat := if x.2 then 1 else 3 })
    (act x.1 s).post (s.cycle + 1) (.lineMaintComplete part d)

def execLmClean (s : State) : Host.Outcome State Fault Refusal :=
  device s fun
    | .lmClean part d pf => some (startMaint 1 (cleanLines d) part d pf s)
    | _ => none

def execLmInvalidate (s : State) : Host.Outcome State Fault Refusal :=
  device s fun
    | .lmInvalidate part d pf => some (startMaint 2 (dropLines d) part d pf s)
    | _ => none

def execLmCleanInvalidate (s : State) : Host.Outcome State Fault Refusal :=
  device s fun
    | .lmCleanInvalidate part d pf => some (startMaint 3 (fun r s => dropLines d r (cleanLines d r s)) part d pf s)
    | _ => none

/-- Every line is done: BUSY clears (R320). (log 64, DEDUCED) -/
def maintDone (part d : Nat) (s : State) : State :=
  modUnit s part d (fun u => { u with stat := wd (setBits u.stat.toNat 0 0 0) })

def execLineMaintComplete (s : State) : Host.Outcome State Fault Refusal :=
  device s fun
    | .lineMaintComplete part d => some (maintDone part d s)
    | _ => none

end Sys2Proof.Machine
end

