-- ==== Sys2Proof/Machine/Compare.lean ====
section
/-! DEFINITION. CMP: comparison, selection and class (R197-R200). -/

namespace Sys2Proof.Machine

/-- A computing form whose type decides whether a finder may run it (R174). -/
def aluTy (ty : RTy) (i : Instr) (h : Hdr) (a : Alu) (s : State) : Host.Outcome State Fault Refusal :=
  match ty with
  | .i32 | .n32 => alu i h a s
  | .f32 | .bf16x2 => fpu i h a s

def Alu.typed (ty : RTy) (pops : Nat) (k : Option Byte) (fn : List Val → LaneRes Val) : Alu :=
  ⟨pops, k.map (constOf ty), 2, fn⟩

/-- cmp.eq (R198). -/
def execCmpEq (h : Hdr) (ty : RTy) (k : Option Byte) (s : State) : Host.Outcome State Fault Refusal :=
  aluTy ty (.cmpEq h ty k) h (.typed ty 2 k (fn2 (compareCells ty .eq))) s

/-- cmp.ne (R198). -/
def execCmpNe (h : Hdr) (ty : RTy) (k : Option Byte) (s : State) : Host.Outcome State Fault Refusal :=
  aluTy ty (.cmpNe h ty k) h (.typed ty 2 k (fn2 (compareCells ty .ne))) s

/-- cmp.lt (R198). -/
def execCmpLt (h : Hdr) (ty : RTy) (k : Option Byte) (s : State) : Host.Outcome State Fault Refusal :=
  aluTy ty (.cmpLt h ty k) h (.typed ty 2 k (fn2 (compareCells ty .lt))) s

/-- cmp.le (R198). -/
def execCmpLe (h : Hdr) (ty : RTy) (k : Option Byte) (s : State) : Host.Outcome State Fault Refusal :=
  aluTy ty (.cmpLe h ty k) h (.typed ty 2 k (fn2 (compareCells ty .le))) s

/-- cmp.gt (R198). -/
def execCmpGt (h : Hdr) (ty : RTy) (k : Option Byte) (s : State) : Host.Outcome State Fault Refusal :=
  aluTy ty (.cmpGt h ty k) h (.typed ty 2 k (fn2 (compareCells ty .gt))) s

/-- cmp.ge (R198). -/
def execCmpGe (h : Hdr) (ty : RTy) (k : Option Byte) (s : State) : Host.Outcome State Fault Refusal :=
  aluTy ty (.cmpGe h ty k) h (.typed ty 2 k (fn2 (compareCells ty .ge))) s

/-- cmp.ord (R198). -/
def execCmpOrd (h : Hdr) (ty : FTy) (k : Option Byte) (s : State) : Host.Outcome State Fault Refusal :=
  fpu (.cmpOrd h ty k) h (.typed (ftyReg ty) 2 k (fn2 (compareCells (ftyReg ty) .ord))) s

/-- cmp.unord (R198). -/
def execCmpUnord (h : Hdr) (ty : FTy) (k : Option Byte) (s : State) : Host.Outcome State Fault Refusal :=
  fpu (.cmpUnord h ty k) h (.typed (ftyReg ty) 2 k (fn2 (compareCells (ftyReg ty) .unord))) s

/-- sel (R199). -/
def execSel (h : Hdr) (ty : RTy) (k : Option Byte) (s : State) : Host.Outcome State Fault Refusal :=
  aluTy ty (.sel h ty k) h (.typed ty 3 k (fn3 (selectCells ty))) s

/-- class (R200). -/
def execFclass (h : Hdr) (ty : FTy) (mask : Byte) (s : State) : Host.Outcome State Fault Refusal :=
  fpu (.fclass h ty mask) h (.typed (ftyReg ty) 1 none (fn1 (classCells ty mask))) s

end Sys2Proof.Machine
end

