-- ==== Sys2Proof/Machine/Convert.lean ====
section
/-! DEFINITION. CVT: conversions, pack, unpack and qround (R166, R194-R196). -/

namespace Sys2Proof.Machine

/-- A value to an integer of a type, with the results that R195 gives outside the range. -/
def toInteger (ty : ITy) (rm : RM) (sat : Bool) (v : FVal) : Word :=
  let wide : Word := match ty with | .i32 => 0x8000_0000 | .n32 => 0xFFFF_FFFF
  match v with
  | .nan => if sat then 0 else wide
  | .inf neg => if sat then wi (if neg then ityLeast ty else ityMost ty) else wide
  | .fin .. =>
    let n := v.toInt rm
    if ityLeast ty ≤ n ∧ n ≤ ityMost ty then wi n
    else if sat then wi (clampInt (ityLeast ty) (ityMost ty) n) else wide

/-- A value rounded to bf16 in both halves (R195). -/
def bothHalves (rm : RM) (sat : Bool) (v : FVal) : Word := mkPair (bf16Sat rm sat v) (bf16Sat rm sat v)

/-- cvt (R195). A pair of equal types is no code point and keeps its bits here. -/
def cvtWord (src dst : RTy) (rm : RM) (sat : Bool) (a : Word) : Word :=
  match src, dst with
  | .i32, .n32 => if sat && decide (a.toInt < 0) then 0 else a
  | .n32, .i32 => if sat && decide (2147483647 < a.toNat) then 0x7FFF_FFFF else a
  | .i32, .f32 => toF32Sat rm sat (.ofInt a.toInt)
  | .n32, .f32 => toF32Sat rm sat (.ofInt a.toNat)
  | .i32, .bf16x2 => bothHalves rm sat (.ofInt a.toInt)
  | .n32, .bf16x2 => bothHalves rm sat (.ofInt a.toNat)
  | .f32, .i32 => toInteger .i32 rm sat (f32 a)
  | .f32, .n32 => toInteger .n32 rm sat (f32 a)
  | .f32, .bf16x2 => bothHalves rm sat (f32 a)
  | .bf16x2, .f32 => toF32Sat .rn sat (bfLo a)
  | .bf16x2, .i32 => toInteger .i32 rm sat (bfLo a)
  | .bf16x2, .n32 => toInteger .n32 rm sat (bfLo a)
  | _, _ => a

def cvtAlu (ty : RTy) (pops : Nat) (k : Option Byte) (fn : List Val → LaneRes Val) : Alu :=
  ⟨pops, k.map (constOf ty), 4, fn⟩

/-- cvt (R195). -/
def execCvt (h : Hdr) (src dst : RTy) (rm : RM) (sat : Bool) (k : Option Byte) (s : State) :
    Host.Outcome State Fault Refusal :=
  fpu (.cvt h src dst rm sat k) h (cvtAlu src 1 k (fn1 (cvtWord src dst rm sat))) s

/-- pack.f32: the deeper operand in the low half (R153, R196). -/
def execPack (h : Hdr) (rm : RM) (sat : Bool) (k : Option Byte) (s : State) : Host.Outcome State Fault Refusal :=
  fpu (.pack h rm sat k) h
    (cvtAlu .f32 2 k (fn2 fun a b => mkPair (bf16Sat rm sat (f32 b)) (bf16Sat rm sat (f32 a)))) s

/-- unlo.bf16x2 (R196). -/
def execUnlo (h : Hdr) (rm : RM) (k : Option Byte) (s : State) : Host.Outcome State Fault Refusal :=
  fpu (.unlo h rm k) h (cvtAlu .bf16x2 1 k (fn1 fun a => toF32 .rn (bfLo a))) s

/-- unhi.bf16x2 (R196). -/
def execUnhi (h : Hdr) (rm : RM) (k : Option Byte) (s : State) : Host.Outcome State Fault Refusal :=
  fpu (.unhi h rm k) h (cvtAlu .bf16x2 1 k (fn1 fun a => toF32 .rn (bfHi a))) s

/-- A value rounded to a slot's grid, or cause 0x14 (R166). -/
def qroundVal (f : Slot) (sat : Bool) (l : List Val) : LaneRes Val :=
  match l with
  | [a] =>
    match qroundWord f sat a.bits with
    | some w => .ok ⟨w, poisonOf l⟩
    | none => .path { cause := 0x14 }
  | _ => .ok ⟨0, .clean⟩

/-- qround (R166). -/
def execQround (h : Hdr) (slot : BitVec 3) (rm : RM) (sat : Bool) (k : Option Byte) (s : State) :
    Host.Outcome State Fault Refusal :=
  issue (.qround h slot rm sat k) h
    { scopes := laneWarp, qn4 := fun b => (b.slotOf slot.toNat).fmt == 8 }
    (fun s c => noFinder s c
      (aluForm h (cvtAlu .f32 1 k (qroundVal (c.b.slotOf slot.toNat) sat)))) s

end Sys2Proof.Machine
end

