-- ==== Sys2Proof/Machine/Exchange.lean ====
section
/-! DEFINITION. QWX: exchange within quads and warps (R217, R218). -/

namespace Sys2Proof.Machine

/-- The value of the lane at a position, if it is active. -/
def laneAt (ts : List (Nat × Thread)) (l : Nat) : Option Val :=
  (ts.find? (fun e => lanePos e.1 == l)).map (fun e => (collOperands .red e.2).1)

def topVal (t : Thread) : Val := (collOperands .red t).1

/-- A copying exchange: each lane takes the value of its source lane, or keeps its own (R218). -/
def moveLanes (src : Nat → Option Nat) (ts : List (Nat × Thread)) : List Val :=
  ts.map (fun e => ((src (lanePos e.1)).bind (laneAt ts)).getD (topVal e.2))

def exch (i : Instr) (h : Hdr) (n lat : Nat) (f : List (Nat × Thread) → List Val) (s : State) :
    Host.Outcome State Fault Refusal :=
  issue i h { scopes := [.lane] } (toLanes h n lat f) s

/-- qswp (R218). -/
def execQswp (h : Hdr) (p : BitVec 2) (wm : BitVec 4) (s : State) : Host.Outcome State Fault Refusal :=
  exch (.qswp h p wm) h 1 2 (moveLanes fun l => some (Nat.xor l p.toNat)) s
/-- qbc (R218). -/
def execQbc (h : Hdr) (q : BitVec 2) (wm : BitVec 4) (s : State) : Host.Outcome State Fault Refusal :=
  exch (.qbc h q wm) h 1 2 (moveLanes fun l => some (4 * (l / 4) + q.toNat)) s

/-- The sum over the active lanes of each lane's quad (R218). -/
def quadSums (ty : RTy) (ts : List (Nat × Thread)) : List Val :=
  ts.map (fun e => reduceVals ty .add
    ((ts.filter (fun x => lanePos x.1 / 4 == lanePos e.1 / 4)).map (fun x => topVal x.2)))

/-- qadd (R218). -/
def execQadd (h : Hdr) (ty : RTy) (wm : BitVec 4) (s : State) : Host.Outcome State Fault Refusal :=
  issue (.qadd h ty wm) h { scopes := [.lane] } (fun s c => finderTy ty s c (toLanes h 1 2 (quadSums ty) )) s

/-- The exchange of `shfl`: a beneath, i on top, whose poison joins (R218). -/
def shflVals (ts : List (Nat × Thread)) : List Val :=
  let a := fun (t : Thread) => (t.stack.getD 1 (.ofWord 0)).val
  ts.map (fun e =>
    let i := topVal e.2
    let v := ((ts.find? (fun x => lanePos x.1 == i.bits.toNat % 32)).map (fun x => a x.2)).getD (a e.2)
    if i.poisoned then ⟨v.bits, .derived⟩ else v)

/-- shfl (R218). -/
def execShfl (h : Hdr) (wm : BitVec 4) (s : State) : Host.Outcome State Fault Refusal := exch (.shfl h wm) h 2 4 shflVals s
/-- shfx (R218). -/
def execShfx (h : Hdr) (m : BitVec 5) (wm : BitVec 4) (s : State) : Host.Outcome State Fault Refusal :=
  exch (.shfx h m wm) h 1 4 (moveLanes fun l => some (Nat.xor l m.toNat)) s
/-- shup (R218). -/
def execShup (h : Hdr) (d : BitVec 5) (wm : BitVec 4) (s : State) : Host.Outcome State Fault Refusal :=
  exch (.shup h d wm) h 1 4 (moveLanes fun l => if d.toNat ≤ l then some (l - d.toNat) else none) s
/-- shdn (R218). -/
def execShdn (h : Hdr) (d : BitVec 5) (wm : BitVec 4) (s : State) : Host.Outcome State Fault Refusal :=
  exch (.shdn h d wm) h 1 4 (moveLanes fun l => if l + d.toNat < 32 then some (l + d.toNat) else none) s

/-- A vote's value with the poison of all operands (R218). -/
def voteVal (w : Word) (ts : List (Nat × Thread)) : Val := ⟨w, poisonOf (ts.map (fun e => topVal e.2))⟩

def anyVal (ts : List (Nat × Thread)) : Val := voteVal (truth (ts.any (fun e => (topVal e.2).bits != 0))) ts
def allVal (ts : List (Nat × Thread)) : Val := voteVal (truth (ts.all (fun e => (topVal e.2).bits != 0))) ts
def ballotVal (ts : List (Nat × Thread)) : Val :=
  voteVal (wd (laneMask ((ts.filter (fun e => (topVal e.2).bits != 0)).map (·.1)))) ts

/-- A vote: to every lane, or once to the uniform stack (R217). -/
def vote (i : Instr) (h : Hdr) (f : List (Nat × Thread) → Val) (s : State) : Host.Outcome State Fault Refusal :=
  issue i h { scopes := laneWarp }
    (fun s c => if h.sc = .warp then toUniform h 1 4 (fun ts => .ok (f ts)) s c
      else toLanes h 1 4 (fun ts => ts.map (fun _ => f ts)) s c) s

/-- any (R218). -/
def execAny (h : Hdr) (wm : BitVec 4) (s : State) : Host.Outcome State Fault Refusal := vote (.any h wm) h anyVal s
/-- all (R218). -/
def execAll (h : Hdr) (wm : BitVec 4) (s : State) : Host.Outcome State Fault Refusal := vote (.all h wm) h allVal s
/-- ballot (R218). -/
def execBallot (h : Hdr) (wm : BitVec 4) (s : State) : Host.Outcome State Fault Refusal := vote (.ballot h wm) h ballotVal s

/-- Lanes whose 32 bits equal each lane's (R218). -/
def matchVals (ts : List (Nat × Thread)) : List Val :=
  ts.map (fun e => voteVal (wd (laneMask
    ((ts.filter (fun x => (topVal x.2).bits == (topVal e.2).bits)).map (·.1)))) ts)

/-- match (R218). -/
def execMatchLanes (h : Hdr) (wm : BitVec 4) (s : State) : Host.Outcome State Fault Refusal := exch (.matchLanes h wm) h 1 4 matchVals s

/-- wbc: lane s to every lane, or to the uniform stack where an absent lane raises cause 0x07 (R218). -/
def execWbc (h : Hdr) (q : BitVec 5) (wm : BitVec 4) (s : State) : Host.Outcome State Fault Refusal :=
  issue (.wbc h q wm) h { scopes := laneWarp }
    (fun s c => if h.sc = .warp then toUniform h 1 4 (laneValue q.toNat) s c
      else toLanes h 1 4 (moveLanes fun _ => some q.toNat) s c) s

end Sys2Proof.Machine
end

