-- ==== Sys2Proof/Machine/Reliability.lean ====
section
/-! DEFINITION. Soft errors, gang kill and relaunch, the dark-frame test and power gating of clusters (R397-R401, R424). -/

namespace Sys2Proof.Machine

/-! Gang kill (R399) -/

/-- A context given up: its pool slot is free, and SAVED counts it no more (R399). -/
def discardContext (s : State) (m : Block) : State :=
  match m.vacate with
  | some v =>
    if v.kind = .restore ∧ v.target ≠ 0 then
      let s := freePoolSlot s m.part v.target
      match (s.part m.part).preempt with
      | some r =>
        setPstat (s.modPart m.part (fun p => { p with preempt := some { r with saved := r.saved - 1 } })) m.part 1 0 (r.saved - 1)
      | none => s
    else s
  | none => s

/-- Queue entries without the blocks of some identities. -/
def dropQueued (ids : List Nat) (l : List Queued) : List Queued :=
  (l.map (fun q => { q with blocks := q.blocks.filter (fun m => !mem? ids m.launch.ident) })).filter (fun q => !q.blocks.isEmpty)

/-- The contexts of some identities are gone, wherever they stand (R399). -/
def dropContexts (s : State) (ids : List Nat) : State :=
  { s with
    queued := dropQueued ids s.queued
    saved := s.saved.filter (fun e => !mem? ids e.2.blk.launch.ident)
    vfs := s.vfs.map (fun (e : Nat × SavedVf) => (e.1, { e.2 with
      blocks := e.2.blocks.filter (fun m => !mem? ids m.launch.ident), queued := dropQueued ids e.2.queued })) }

/-- Threads that were about to stop do so now: their records are written (R362, R399). -/
def stopTrapping (k : Nat) (s : State) (e : Nat × Path) : State :=
  if e.2.wait = .trapping then
    stopNow (s.modPath k e.1 (fun p => { p with run := { p.run with owed := 0, awaits := [] } })) k e.1
  else s

/-- Every thread of a block stops where it stands (R399). -/
def stopAll (s : State) (k : Nat) : State :=
  match tget s.blocks k with
  | none => s
  | some m =>
    let s := m.paths.foldl (stopTrapping k) s
    let s := m.paths.foldl (fun s e =>
      (releasePort s k e.1).modPath k e.1 (fun p => { p with wait := .stopped, haltAt := none })) s
    (s.unfile k (m.threads.map (·.1))).modBlock k (fun m => { m with
      rdvs := [], homing := [], filed := []
      threads := m.threads.map (fun t => (t.1, if t.2.run = .exited then t.2 else { t.2 with run := .stopped })) })

/-- A resident member of a killed gang: no save or restore goes on, and its threads stop (R399). (log 59, DEDUCED) -/
def killMember (e : Nat × Nat) (s : State) (k : Nat) : State :=
  match tget s.blocks k with
  | none => s
  | some m =>
    let s := if (s.ctxEngine m.part).op ≠ .idle ∧ (s.ctxEngine m.part).blk = k then
        let t := (s.setEngine m.part .idle).postOnce (s.cycle + 1) (.contextSwitchStep m.part)
        if (s.ctxEngine m.part).op = .save ∧ m.vacate.any (fun v => v.kind == .preempt) then
          freePoolSlot t m.part (s.ctxEngine m.part).target
        else t
      else s
    let s := match m.vacate with
      | some v => if v.kind = .restore ∧ v.target ≠ 0 then freePoolSlot s m.part v.target else s
      | none => s
    let s := stopAll s k
    (s.modBlock k (fun m => { m with killed := true, vacate := none, errAt := e, stepList := [] })).postOnce s.cycle
      (.blockRetire k)

/-- KILL of a gang (R399): its threads stop, accesses and commands that were issued complete, then its members retire. A kill
takes precedence over a vacate. (log 22, DEDUCED; log 59, DEDUCED) -/
def gangKill (bid : Nat) (s : State) : State :=
  match s.anyBlock bid with
  | none => s
  | some b =>
    if b.killed then s
    else
      let ids := b.members bid
      let gone := s.away.filter (fun m => mem? ids m.launch.ident && (tget s.blocks m.launch.ident).isNone)
      let s := dropContexts (gone.foldl discardContext s) ids
      let s := { s with
        killed := if gone.isEmpty then s.killed
          else s.killed ++ [⟨b.place.die, gone.map (fun m => { m with vacate := none, killed := true, errAt := b.errAt, mops := [] }), false⟩] }
      let s := ids.foldl (killMember b.errAt) s
      if ids.all (fun k => (tget s.blocks k).isNone) then killedStep s bid { b with killed := true } else s

def execGangKill (s : State) : Host.Outcome State Fault Refusal :=
  device s fun
    | .gangKill bid => some (gangKill bid s)
    | _ => none

/-- RELAUNCH of one killed gang (R400): new identities, the retained snapshot and handles, a KIND 8 record.
(log 39, DEDUCED) -/
def relaunchOne (s : State) (q : Queued) : State :=
  match q.blocks with
  | [] => s
  | b :: _ =>
    let (ids, s) := takeIdentities s q.die q.blocks.length
    let old := q.blocks.map (fun m => m.launch.ident)
    let renamed := (q.blocks.zip ids).map (fun e => { e.1 with
      launch := { e.1.launch with ident := e.2 }
      gang := if b.gang.isEmpty then [] else ids
      killed := false, vacate := none })
    let s := { s with
      queued := s.queued ++ [⟨requeueDie s b.part q.die, renamed, false⟩]
      iters := s.iters.map (fun (e : Nat × Iteration) => (e.1, { e.2 with
        blocks := e.2.blocks.map (fun k => (((old.zip ids).find? (fun x => x.1 == k)).map (·.2)).getD k) })) }
    let s := reportError s b.part ⟨8, 0, 0xFF, q.die, 8 * b.place.cluster + b.place.core, 0, 0, ids.headD 0, b.launch.node,
      0, 0, 0⟩
    s.postOnce s.cycle (.blockRequeuePlace (requeueDie s b.part q.die))

def gangRelaunch (die : Nat) (s : State) : State :=
  let ready := fun (q : Queued) => q.die == die && q.blocks.all (fun m => !m.killed && (m.members m.launch.ident).all (fun k =>
    (tget s.blocks k).isNone))
  (s.killed.filter ready).foldl relaunchOne { s with killed := s.killed.filter (fun q => !ready q) }

def execGangRelaunch (s : State) : Host.Outcome State Fault Refusal :=
  device s fun
    | .gangRelaunch die => some (gangRelaunch die s)
    | _ => none

/-! Soft errors (R397) -/

/-- The partition that a cluster serves; none when it is free. -/
def partOfClus (s : State) (clus : Nat) : Option Nat :=
  if bit? (s.ptEntry clus) 15 then some (s.ptEntry clus % 64) else none

/-- A corrected error: its record, and nothing that a program sees. (log 58, DEDUCED) -/
def corrected (s : State) (part : Option Nat) (e : ErrInfo) : State :=
  match part with
  | some p => reportError s p e
  | none => reportHyper s e

def spoilCell (l : List Cell) (i : Nat) : List Cell := lmod l i (fun c => { c with err := true })

/-- A cell of a thread, of its path's uniform files, or of its home warp's save area: tier 0 stack from the bottom, 1 o, 2 m,
3 and 5 w, 4 and 6 uniform stack from the bottom (R86, R397). -/
def cellAt (b : Block) (key tier idx : Nat) : Option Cell :=
  let path := (b.pathOf key).map (·.2)
  match tier with
  | 0 => (tget b.threads key).bind (fun t => t.stack.reverse[idx]?)
  | 1 => (tget b.threads key).bind (fun t => t.o[idx]?)
  | 2 => (tget b.threads key).bind (fun t => t.m[idx]?)
  | 3 => path.bind (fun p => p.w[idx]?)
  | 5 => (tget b.saves (homeWarp key)).bind (fun a => a.w[idx]?)
  | 6 => (tget b.saves (homeWarp key)).bind (fun a => a.ust.reverse[idx]?)
  | _ => path.bind (fun p => p.ust.reverse[idx]?)

/-- That cell in error. -/
def spoilThread (s : State) (bid key tier idx : Nat) : State :=
  let bottom := fun (l : List Cell) => (spoilCell l.reverse idx).reverse
  let onPath := fun (f : Path → Path) =>
    match (tget s.blocks bid).bind (fun b => b.pathOf key) with
    | some (pid, _) => s.modPath bid pid f
    | none => s
  match tier with
  | 0 => s.modThread bid key (fun t => { t with stack := bottom t.stack })
  | 1 => s.modThread bid key (fun t => { t with o := spoilCell t.o idx })
  | 2 => s.modThread bid key (fun t => { t with m := spoilCell t.m idx })
  | 3 => onPath (fun p => { p with w := spoilCell p.w idx })
  | 5 => s.modBlock bid (fun b => { b with saves := tmod b.saves (homeWarp key) (fun a => { a with w := spoilCell a.w idx }) })
  | 6 => s.modBlock bid (fun b => { b with saves := tmod b.saves (homeWarp key) (fun a => { a with ust := bottom a.ust }) })
  | _ => onPath (fun p => { p with ust := bottom p.ust })

/-- The record of a corrected error: bits before and after the correction (R398). -/
def errOf (b : Block) (bid warp dom addr : Nat) (old new : Word) : ErrInfo :=
  whereOf b warp ⟨4, 0, dom, 0, 0, 0, addr, bid, b.launch.node, 0, old.toNat, new.toNat⟩

/-- The record of a correction that concerns no block. -/
def errElse (dom die core addr : Nat) (old new : Word) : ErrInfo :=
  ⟨4, 0, dom, die, core, 0, addr, 0xFFFF_FFFF, 0, 0, old.toNat, new.toNat⟩

/-- An error in a block's storage: corrected, with the value before and after, or left to its consumer (R397). -/
def spoilBlock (s : State) (bid warp dom : Nat) (ok : Bool) (val mask : Word) (bad : State → State) : State :=
  match tget s.blocks bid with
  | none => s
  | some b => if ok then corrected s (some b.part) (errOf b bid warp dom 0 (val ^^^ mask) val) else bad s

/-- A TLB entry in error is dropped and fetched again from the tables (R397). -/
def refetchEntry (s : State) (e : TlbEntry) : State :=
  let t := { s with coh := { s.coh with tlb := s.coh.tlb.erase e } }
  match walkVa t e.part e.asid e.base with
  | some (pa, size, p) => tlbInsert t ⟨e.part, e.asid, 0, e.clus⟩ e.base pa size p
  | none => t

/-- A SOFT ERROR by the table of R397. (log 58, DEDUCED) -/
def softError (t : SoftTarget) (s : State) : State :=
  match t with
  | .cell bid key tier idx mask ok =>
    let v := (((tget s.blocks bid).bind (cellAt · key tier idx)).map (·.val.bits)).getD 0
    spoilBlock s bid (homeWarp key) 0 ok v mask (fun s => spoilThread s bid key tier idx)
  | .queue bid w e lane mask ok =>
    let q := ((tget s.blocks bid).map (queueOf · w)).getD ⟨[], 0, []⟩
    let v := (((q.entries[e]?).bind (fun x => tget x.cells lane)).map (·.bits)).getD 0
    spoilBlock s bid w 0 ok v mask (fun s => s.modBlock bid (fun b => { b with queues := tmod b.queues w (fun q =>
      { q with entries := lmod q.entries e (fun x => { x with bad := insSorted lane x.bad }) }) }))
  | .latch bid key idx mask ok =>
    let v := (((s.thread? bid key).bind (fun t => t.latch.cells[idx]?)).map (·.bits)).getD 0
    spoilBlock s bid (homeWarp key) 0 ok v mask (fun s => s.modThread bid key (fun t =>
      { t with latch := { t.latch with bad := insSorted idx t.latch.bad } }))
  | .spad bid word mask ok =>
    let half := if mask.toNat < 2 ^ 32 then 0 else 4
    let v := wd (((tget s.blocks bid).map (fun b => rdLE b.spad (8 * word + half) 4)).getD 0)
    spoilBlock s bid 0 1 ok v (wd (mask.toNat / 256 ^ half)) (fun s =>
      s.modBlock bid (fun b => { b with badWords := insSorted word b.badWords }))
  | .cache core => corrected s (partOfClus s (core / 8)) (errElse 2 (core / 192) (core % 192) 0 0 0)
  | .tlb clus idx =>
    match (s.coh.tlb.filter (fun e => e.clus == clus))[idx]? with
    | none => s
    | some e => corrected (refetchEntry s e) (some e.part) (errElse 2 (clus / 24) (8 * (clus % 24)) 0 0 0)
  | .line dom line word mask ok =>
    let v := wd (rdLE s.mem (64 * line + 4 * word) 4)
    if ok then corrected s none (errElse dom (homeDie (64 * line)) 0 (64 * line) (v ^^^ mask) v)
    else { s with coh := { s.coh with ue := tset s.coh.ue line dom } }
  | .tile bid w k row col mask =>
    s.modTile bid w k (fun t => { t with elems := tset t.elems (16 * row + col) (tgetD t.elems (16 * row + col) 0 ^^^ mask) })
  | .tileSum bid w k isRow idx d =>
    s.modTile bid w k (fun t =>
      if isRow then { t with rowSum := tset t.rowSum idx (tgetD t.rowSum idx 0 + d) }
      else { t with colSum := tset t.colSum idx (tgetD t.colSum idx 0 + d) })
  | .engine u => s.postOnce s.cycle (.engineHalt u 0x13)
  | .launcher g node die =>
    reportError (nodeFault s g node) g.part ⟨6, 0x13, 6, die, 0, 0, 0, 0xFFFF_FFFF, node, 0, 0, 0⟩

def execSoftError (s : State) : Host.Outcome State Fault Refusal :=
  device s fun
    | .softError t => some (softError t s)
    | _ => none

/-! The dark-frame test and gating (R401, R424) -/

/-- END of the dark-frame test: the cluster is offered, or stays gated with a KIND 9 record (R401).
(log 41, DESIGN CHOICE) -/
def darkFrame (clus failing d : Nat) (s : State) : State :=
  let s := darkResult s clus failing d
  tryMoves (retryDie (if failing = 0 then watchIdle s clus else s) (clus / 24))

def execDarkFrameTest (s : State) : Host.Outcome State Fault Refusal :=
  device s fun
    | .darkFrameTest clus failing d => some (darkFrame clus failing d s)
    | _ => none

/-- A gated cluster keeps no state: the translations of its TLB and what its sectors hold are gone (R424). -/
def forgetCluster (s : State) (clus : Nat) : State :=
  { s with
    sectors := s.sectors.filter (fun e => e.1 / 32 != clus)
    coh := { s.coh with
      tlb := s.coh.tlb.filter (fun e => e.clus != clus)
      owners := s.coh.owners.filter (fun e => e.2 / 8 != clus) } }

/-- A cluster that has held no block for GIDLE × 16 cycles is gated (R424). (log 41, DESIGN CHOICE) -/
def idleGate (clus : Nat) (s : State) : State :=
  let k := s.clusterState clus
  let wait := 16 * s.pkg.gidle.toNat
  if wait = 0 ∨ k.gated ∨ s.blocks.any (fun e => e.2.place.clus == clus) ∨ s.cycle ≤ k.idleSince + wait then s
  else forgetCluster (s.modCluster clus (fun k => { k with gated := true })) clus

def execClusterIdleGate (s : State) : Host.Outcome State Fault Refusal :=
  device s fun
    | .clusterIdleGate clus => some (idleGate clus s)
    | _ => none

end Sys2Proof.Machine
end

