-- ==== Sys2Proof/Machine/Threads.lean ====
section
/-! DEFINITION. Words that are no defined code point, wait cycles, and what level-1 software does to stopped threads: resume,
kill, step and halt (R109, R110, R366, R379-R381). -/

namespace Sys2Proof.Machine

/-- An unassigned code point of group G behaves as an instruction whose governing bit 8 + G is clear (R109, R110). -/
def execUnassignedCodePoint (word : Word) (s : State) : Host.Outcome State Fault Refusal :=
  match s.cur with
  | none => .fault .noIssuingPath
  | some (bid, pid) =>
    match tget s.blocks bid with
    | none => .fault .noIssuingPath
    | some b =>
      match tget b.paths pid with
      | none => .fault .noIssuingPath
      | some p =>
        let c : Ctx := atIssue s bid pid b p (.unassignedCodePoint word)
        let t := s.modBlock bid (fun _ => c.b)
        if Config.runLimit ≤ p.run.count then .next (trapPath t c { cause := 0x06 })
        else .next (trapUndefined t c (some (8 + bits word.toNat 28 24)) word)

/-! Wait cycles (R379, R380) -/

/-- A blocked unit: a path, or the threads of a warp that wait at `rehome`. -/
abbrev BUnit := Nat

def isHomeUnit (u : BUnit) : Bool := decide (2 ^ 32 ≤ u)

/-- The least key of a list. -/
def leastKey (l : List Nat) : Option Nat := minBy id l

/-- The key at the lowest lane position. -/
def lowestKey (l : List Nat) : Option Nat := minBy lanePos l

def lowestPath (b : Block) (warp : Nat) (finder : Bool) : Option Nat :=
  (minBy (fun e : Nat × Path => lowLane e.2) (b.paths.filter (fun e => e.2.warp == warp && e.2.finder == finder))).map (·.1)

/-- The unit in which a thread waits or runs. -/
def unitOfThread (b : Block) (key : Nat) : Option BUnit :=
  match b.pathOf key with
  | some (pid, _) => some pid
  | none => if (tget b.homing key).isSome then some (homeUnit (homeWarp key)) else none

/-- Lanes of the sibling arm that have not come to the join (R379). -/
def siblingOf (b : Block) (fid : Nat) (p : Path) : List Nat :=
  match tget b.forks fid with
  | none => []
  | some f =>
    let other := if p.lanes.any (mem? f.fall) then f.taken else f.fall
    (b.live other).filter (fun k => !mem? (b.joined fid other) k)

/-- Lanes that an instance still waits for, of its lowest warp that has any (R379). -/
def outstanding (b : Block) (r : Rdv) : List Nat :=
  let arr := b.arrived r
  ((b.expected r).filter (fun e => !mem? arr e.1)).map (·.1)

/-- The unit that a blocked unit awaits; none when it is not blocked, or blocked in a way that R379 does not list. -/
def awaits (s : State) (b : Block) (u : BUnit) : Option BUnit :=
  if isHomeUnit u then
    let w := u - 2 ^ 32
    if (homingOf b w).isEmpty then none
    else
      let away := b.paths.filter (fun e => e.2.formed)
      (leastKey ((away.flatMap (fun e => e.2.lanes)).filter (fun k => homeWarp k == w))).bind (fun k =>
        (b.pathOf k).map (·.1))
  else
    match tget b.paths u with
    | none => none
    | some p =>
      match p.wait with
      | .joining fid => (lowestKey (siblingOf b fid p)).bind (unitOfThread b)
      | .meeting inst => (tget b.rdvs inst).bind (fun r => (leastKey (outstanding b r)).bind (unitOfThread b))
      | .holding .finderQueue => lowestPath b p.warp true
      | .holding .finderRoom => lowestPath b p.warp false
      | .parked =>
        if p.run.settled ∧ p.run.base ≤ s.cycle ∧ headWait s b p = .wait then lowestPath b p.warp true else none
      | _ => none

/-- The identity of a unit (R379). -/
def identOf (b : Block) (bid : Nat) (u : BUnit) : Nat :=
  if isHomeUnit u then
    let w := u - 2 ^ 32
    unitId bid w false (((homingOf b w).map (fun e => lanePos e.1)).foldl min 31)
  else
    match tget b.paths u with
    | some p => unitId bid p.warp p.finder (min 31 (lowLane p))
    | none => 0

/-- The units a probe passes on its way from one unit, at most `n`, until it is dropped or comes back. (log 55, DEDUCED) -/
def probeWalk (s : State) (b : Block) (start : BUnit) : Nat → BUnit → Option (List BUnit)
  | 0, _ => none
  | n + 1, u =>
    match awaits s b u with
    | none => none
    | some v => if v = start then some [u] else (probeWalk s b start n v).map (u :: ·)

/-- The wait cycle that a unit is a member of, itself first. (log 55, DEDUCED) -/
def cycleOf (s : State) (b : Block) (u : BUnit) : Option (List BUnit) :=
  probeWalk s b u (b.paths.length + b.homing.length + 1) u

/-- The cycle from which a unit has been blocked; that of threads at `rehome` is the event's own. -/
def blockedSince (b : Block) (u : BUnit) (cycle : Nat) : Nat :=
  match tget b.paths u with
  | some p => p.since
  | none => cycle - Config.probePeriod

/-- TRANSIT PROBE (R380): it moves one hop a cycle, so that of a cycle of n members returns after n; a sender that finds no
cycle sends again. A unit that has not been blocked for 4,096 cycles sends none. (log 55, DEDUCED) -/
def probeSend (bid u : Nat) (s : State) : State :=
  match tget s.blocks bid with
  | none => s
  | some b =>
    match awaits s b u with
    | none => s
    | some _ =>
      if s.cycle < blockedSince b u s.cycle + Config.probePeriod then s
      else
        let s := match cycleOf s b u with
          | some l => s.postOnce (s.cycle + l.length) (.waitCycleDetect bid u)
          | none => s
        s.postOnce (s.cycle + Config.probePeriod) (.transitProbeSend bid u)

def execTransitProbeSend (s : State) : Host.Outcome State Fault Refusal :=
  device s fun
    | .transitProbeSend bid u => some (probeSend bid u s)
    | _ => none

/-- The PC at which a thread in no path goes on: that of the `rehome` it waits at, or the one it is filed under. -/
def loosePc (s : State) (bid : Nat) (b : Block) (key : Nat) : Option Word :=
  ((tget b.homing key).orElse (fun _ => tget b.filed key)).orElse (fun _ => s.filedPc bid key)

/-- Those of some threads that stand in no path take one for each warp and PC. -/
def standUp (bid : Nat) : Nat → List Nat → State → State
  | 0, _, s => s
  | n + 1, keys, s =>
    match tget s.blocks bid with
    | none => s
    | some b =>
      match keys.filter (fun k => (b.pathOf k).isNone && (loosePc s bid b k).isSome) with
      | [] => s
      | k :: rest =>
        let same := (k :: rest).filter (fun j => homeWarp j == homeWarp k && loosePc s bid b j == loosePc s bid b k)
        standUp bid n rest (gatherPath s bid b (homeWarp k) same ((loosePc s bid b k).getD 0)).2

/-- The waiting lanes of a member of a wait cycle, or every lane that its instance expects (R80, R380). -/
def memberLanes (b : Block) (u : BUnit) : List Nat :=
  if isHomeUnit u then (homingOf b (u - 2 ^ 32)).map (·.1)
  else
    match tget b.paths u with
    | none => []
    | some p =>
      match p.wait with
      | .meeting inst => (tget b.rdvs inst).elim p.lanes (fun r => (b.expected r).map (·.1))
      | _ => p.lanes

/-- The instance in which a member of a wait cycle waits. -/
def memberInst (b : Block) (u : BUnit) : Option Nat :=
  (tget b.paths u).bind (fun p => match p.wait with
    | .meeting inst => some inst
    | _ => none)

/-- Lanes that are not stopped yet stop with cause 0x0E, wherever they stand (R380). -/
def stopInCycle (s : State) (bid awaited num : Nat) (keys : List Nat) : State :=
  let s := standUp bid keys.length keys s
  match tget s.blocks bid with
  | none => s
  | some b =>
    b.paths.foldl (fun s e =>
      let l := e.2.lanes.filter (fun k => mem? keys k && (tget b.threads k).any (fun t => t.run != .stopped))
      if l.isEmpty ∨ e.2.wait = .trapping then s
      else trapLanes s bid e.1 (l.map (fun k => (k, { cause := 0x0E, addr := awaited, prog := num })))) s

/-- Every expected or waiting lane of a member stops with cause 0x0E, and the instance is given up (R80, R380). -/
def stopMember (bid num : Nat) (s : State) (m : BUnit × Nat) : State :=
  match tget s.blocks bid with
  | none => s
  | some b =>
    let s := match memberInst b m.1 with
      | some i => dropRdv s bid i
      | none => s
    stopInCycle s bid m.2 num (memberLanes b m.1)

/-- A WAIT CYCLE is raised in all its members when the probe is back and the sender is still blocked (R380); a lane that waits at
a join in it names what its own unit awaits. (log 55, DEDUCED) -/
def cycleDetect (bid u : Nat) (s : State) : State :=
  match tget s.blocks bid with
  | none => s
  | some b =>
    match cycleOf s b u with
    | none => s
    | some l =>
      let what := l.map (fun v => (v, match awaits s b v with | some x => identOf b bid x | none => 0))
      let (n, s) := nextCycleNo s b.part
      let meets := fun (m : BUnit × Nat) => (memberInst b m.1).isSome
      recheck ((what.filter (fun m => !meets m) ++ what.filter meets).foldl (stopMember bid n) s) bid

def execWaitCycleDetect (s : State) : Host.Outcome State Fault Refusal :=
  device s fun
    | .waitCycleDetect bid u => some (cycleDetect bid u s)
    | _ => none

/-! Thread control (R366) -/

def Thread.isHeld (t : Thread) : Bool := t.run == .stopped || t.run == .suspended

/-- The thread that a block lane names: that of the warp, or that of its finder warp when only it is stopped.
(log 56, DEDUCED) -/
def targetKey (b : Block) (blane : Nat) : Option Nat :=
  [blane, blane + 1024].find? (fun k => match tget b.threads k with
    | some t => t.isHeld
    | none => false)

/-- A thread that its pair's fault suspends at its next boundary (R105). -/
def Block.toBeSuspended (b : Block) (key : Nat) : Bool :=
  mem? b.toSuspend key || (b.pathOf key).any (fun e => e.2.haltAt.any (fun h => h.1 == .suspended))

/-- Stopped threads that belong with one: its set-fault group, its finder pair, its wait cycle (R366); one of the pair that has
still to reach its boundary belongs with it (R105). (log 56, DEDUCED) -/
def mates (s : State) (bid key : Nat) : List (Nat × Nat) :=
  match tget s.blocks bid, s.thread? bid key with
  | some b, some t =>
    let held := b.threads.filter (fun e => e.2.isHeld)
    let grp := if t.group.isNone then [] else held.filter (fun e => e.2.group == t.group)
    let pair := if b.fentry = 0 then [] else b.threads.filter (fun e => homeWarp e.1 == homeWarp key
      && (e.2.isHeld || (e.2.run != .exited && b.toBeSuspended e.1)))
    let cyc := if t.run = .stopped ∧ t.stopRec.cause = 0x0E then
        (s.blocksOf b.part).flatMap (fun x => (x.2.threads.filter (fun e =>
          e.2.run == .stopped && e.2.stopRec.cause == 0x0E && e.2.stopRec.prog == t.stopRec.prog)).map (fun e => (x.1, e.1)))
      else []
    (bid, key) :: (grp ++ pair).map (fun e => (bid, e.1)) ++ cyc
  | _, _ => [(bid, key)]

/-- Distinct pairs of a list. -/
def distinct (l : List (Nat × Nat)) : List (Nat × Nat) := l.foldl (fun r x => if r.contains x then r else r ++ [x]) []

def grow (s : State) : Nat → List (Nat × Nat) → List (Nat × Nat)
  | 0, l => l
  | n + 1, l =>
    let m := distinct (l ++ l.flatMap (fun e => mates s e.1 e.2))
    if m.length = l.length then l else grow s n m

/-- All threads that are resumed or killed with one (R366): what the three rules join, until nothing more comes in.
(log 56, DEDUCED) -/
def groupOf (s : State) (bid key : Nat) : List (Nat × Nat) := grow s 64 [(bid, key)]

/-- The PC at which a stopped thread goes on: that of the record it stopped with, after a `brk` or `trap` the next one (R177), or its path's for one
that is only suspended. (log 21, DEDUCED) -/
def resumePc (p : Path) (t : Thread) : Word :=
  if t.run = .stopped then (if t.stopRec.cause = 0x15 then t.stopRec.pc + 4 else t.stopRec.pc) else p.pc

/-- A path, not yet issued in its run, that lanes of another may join. -/
def sameSpot (p q : Path) : Bool :=
  p.warp == q.warp && p.finder == q.finder && p.formed == q.formed && p.pc == q.pc && decide (p.ust = q.ust)
    && decide (p.w = q.w) && p.forks == q.forks && p.nest == q.nest && p.prog == q.prog && q.run.count == 0
    && q.stepping == 0 && !q.checked && q.haltAt.isNone
    && (match p.wait, q.wait with
      | .ready _, .ready _ => true
      | .parked, .parked => p.run.base == q.run.base && p.run.settled && q.run.settled
      | _, _ => false)

/-- What the active lanes of a path have alike: depth, fork depths, latch (R138, R143, R336). -/
def laneShape (b : Block) (p : Path) : Option (Nat × List (Nat × Nat) × Bool × Bool) :=
  (b.lanesOf p.lanes).head?.map (fun e => (e.2.stack.length, e.2.forkD, e.2.latch.full, e.2.latch.replay))

/-- A resumed path joins one that is ready at the same spot. -/
def joinSpot (s : State) (bid pid : Nat) : State :=
  match tget s.blocks bid, s.path? bid pid with
  | some b, some p =>
    match b.paths.find? (fun e => e.1 != pid && sameSpot p e.2 && laneShape b p == laneShape b e.2) with
    | some (q, _) => s.modBlock bid (fun b => { b with
        paths := tdel (tmod b.paths q (fun x => { x with lanes := keysByLane (x.lanes ++ p.lanes) })) pid })
    | none => s
  | _, _ => s

/-- A path that a step stopped inside its run goes on there (R381); `other` says how any other path goes on. -/
def letGo (other : State → State) (s : State) (bid pid : Nat) : State :=
  match tget s.blocks bid, s.path? bid pid with
  | some b, some p =>
    if p.stepping = 2 then
      wakePort (s.modPath bid pid (fun p => { p.waitPort s.cycle with stepping := 0 })) (b.sectorOf p.warp) p.finder
    else other s
  | _, _ => s

/-- A suspended thread that stands in no path goes on in its bin or at `rehome` (R105, R366). -/
def resumeFiled (s : State) (bid key : Nat) : State :=
  match tget s.blocks bid, s.thread? bid key with
  | some b, some t =>
    if t.run ≠ .suspended then s
    else
      let go := fun (r : ThreadRun) => s.modThread bid key (fun t => { t with run := r, group := none })
      if (tget b.filed key).isSome then (go .binned).postOnce s.cycle (.warpFormation (b.sectorOf (homeWarp key)))
      else if (tget b.homing key).isSome then go .rehoming
      else s
  | _, _ => s

/-- A suspension that has not taken place yet is taken back (R105, R366). -/
def unsuspend (s : State) (bid key : Nat) : State :=
  s.modBlock bid (fun b => { b with
    toSuspend := b.toSuspend.filter (fun k => k != key)
    paths := b.paths.map (fun e => (e.1,
      if mem? e.2.lanes key && e.2.haltAt.any (fun h => h.1 == .suspended) then { e.2 with haltAt := none } else e.2)) })

/-- RESUME one thread at a PC (R366): its group mark and the VALID bit of its origin record are cleared, and a cause-0x0A
instruction is taken up from the record's progress word (R249, R275, R351). -/
def resumeThread (s : State) (bid key : Nat) (at_ : Option Word) : State :=
  match tget s.blocks bid, s.thread? bid key with
  | some b, some t =>
    if !t.isHeld then unsuspend s bid key
    else
    match b.pathOf key with
    | none => resumeFiled s bid key
    | some (pid, p) =>
      let pc := at_.getD (resumePc p t)
      let resumed := t.run = .stopped ∧ at_.isNone ∧ (t.stopRec.cause = 0x0A ∨ t.stopRec.cause = 0x0B)
      let (id, s) := splitPath s bid pid [key]
      let s := s.modThread bid key (fun t => { t with
        run := .running, group := none, origin := BitVec.ofNat 128 (setBits t.origin.toNat 111 111 0) })
      let s := s.modPath bid id (fun q => { q with
        pc := pc, haltAt := none, prog := if resumed then t.stopRec.prog.toNat else 0, checked := false, pageFault := none
        stepping := if at_.isSome then 0 else q.stepping })
      joinSpot (letGo (fun s => beginRun s bid id) s bid id) bid id
  | _, _ => s

def setTstat (s : State) (part : Nat) (v : Word) : State :=
  s.modPart part (fun p => { p with guest := { p.guest with tstat := v } })

/-- A refused operation: ERR (R366). -/
def refuseThread (s : State) (part : Nat) : State := setTstat s part 2

/-- An operation on the stopped thread that a block of the partition has at a block lane; refused for any other. -/
def onStopped (s : State) (part bid blane : Nat) (f : Block → Nat → Thread → Option State) : State :=
  match tget s.blocks bid with
  | none => refuseThread s part
  | some b =>
    if b.part ≠ part then refuseThread s part
    else
      match targetKey b blane with
      | none => refuseThread s part
      | some k =>
        match (tget b.threads k).bind (f b k) with
        | some s => s
        | none => refuseThread s part

/-- The thread is stopped by a fault of its own; other members of a group are only suspended. -/
def stoppedAt (s : State) (e : Nat × Nat) : Bool := (s.thread? e.1 e.2).any (fun t => t.run == .stopped)

/-- RESUME a thread with its group (R366): a PC is for every member that is stopped, the suspended ones go on where they
stand. -/
def resumeAll (s : State) (bid key : Nat) (at_ : Option Word) : State :=
  let l := groupOf s bid key
  let s := l.foldl (fun s e => resumeThread s e.1 e.2 (if stoppedAt s e then at_ else none)) s
  (sortNat (l.map (·.1))).foldl recheck s

/-- OP 1 (R366). (log 56, DEDUCED) -/
def tctlResume (part bid blane : Nat) (s : State) : State :=
  onStopped s part bid blane (fun _ k _ => some (setTstat (resumeAll s bid k none) part 0))

def execTctlResume (s : State) : Host.Outcome State Fault Refusal :=
  device s fun
    | .tctlResume part bid blane => some (tctlResume part bid blane s)
    | _ => none

/-- OP 2: at TNPC, refused while the A latch of a thread that it moves is marked replay (R351, R366). -/
def tctlResumeAt (part bid blane : Nat) (s : State) : State :=
  onStopped s part bid blane (fun _ k _ =>
    let replay := (groupOf s bid k).any (fun e => stoppedAt s e && (s.thread? e.1 e.2).any (·.latch.replay))
    if replay || decide (((tget s.blocks bid).elim 0 (·.csize)) ≤ (s.part part).guest.tnpc.toNat) then none
    else some (setTstat (resumeAll s bid k (some (s.part part).guest.tnpc)) part 0))

def execTctlResumeAt (s : State) : Host.Outcome State Fault Refusal :=
  device s fun
    | .tctlResumeAt part bid blane => some (tctlResumeAt part bid blane s)
    | _ => none

/-- OP 3: the thread exits with its group (R210, R366). -/
def tctlKill (part bid blane : Nat) (s : State) : State :=
  onStopped s part bid blane (fun _ k _ =>
    let l := groupOf s bid k
    let s := (sortNat (l.map (·.1))).foldl (fun s x => exitLanes s x ((l.filter (fun e => e.1 == x)).map (·.2))) s
    some (setTstat s part 0))

def execTctlKill (s : State) : Host.Outcome State Fault Refusal :=
  device s fun
    | .tctlKill part bid blane => some (tctlKill part bid blane s)
    | _ => none

/-! Stepping (R381) -/

/-- Stopped by a breakpoint, a step or a halt. -/
def Thread.stoppedForDebug (t : Thread) : Bool := t.run == .stopped && (t.stopRec.cause == 0x15 || t.stopRec.cause == 0x16)

/-- Paths of the warp that a path belongs to. -/
def warpPaths (b : Block) (p : Path) : Tab Path :=
  b.paths.filter (fun e => e.2.warp == p.warp && e.2.finder == p.finder && e.2.formed == p.formed)

/-- The warp may be stepped: every unexited lane of it is stopped for the debugger (R381). (log 57, DEDUCED) -/
def steppable (b : Block) (p : Path) : Bool := (b.warpThreads p).all (fun e => e.2.stoppedForDebug)

/-- The path at the PC at which a step lets it go on (R177, R381). -/
def atStepPc (b : Block) (p : Path) : Path :=
  { p with pc := ((b.lanesOf p.lanes).head?.map (fun e => resumePc p e.2)).getD p.pc }

/-- Ready sub-groups of a warp in the order of PC, then lowest lane. -/
def readyGroups (s : State) (b : Block) (p : Path) : List Nat :=
  let l := ((warpPaths b p).map (fun e => (e.1, atStepPc b e.2))).filter (fun e =>
    e.2.wait == .stopped && e.2.run.settled && decide (e.2.run.base ≤ s.cycle)
      && decide (headWait s b e.2 = .go))
  let keyed := sortNat (l.map (fun e => (e.2.pc.toNat * 64 + lowLane e.2) * 2 ^ 64 + e.1))
  keyed.map (fun x => x % 2 ^ 64)

/-- A ready sub-group is released for one instruction. (log 57, DEDUCED) -/
def releaseStep (s : State) (bid pid : Nat) : State :=
  match tget s.blocks bid, s.path? bid pid with
  | none, _ | _, none => s
  | some b, some p =>
    let s := p.lanes.foldl (fun s k => s.modThread bid k (fun t => { t with run := .running })) s
    let s := s.modPath bid pid (fun q => { q with pc := (atStepPc b p).pc })
    let s := (letGo (fun s => makeReady s bid pid) s bid pid).modPath bid pid (fun p => { p with stepping := 1 })
    s.postOnce (s.cycle + 1) (.stepComplete bid pid)

/-- The next path of the list issues; BUSY is over when there is none. -/
def nextStep (s : State) (bid part : Nat) : State :=
  match (tget s.blocks bid).map (·.stepList) with
  | some (pid :: _) =>
    if ((s.path? bid pid).map (·.wait)) = some .stopped then releaseStep s bid pid
    else s.postOnce (s.cycle + 1) (.stepComplete bid pid)
  | _ => setTstat s part 0

/-- A reading of the rules (log 57, DEDUCED). -/
def beginStep (s : State) (part bid blane : Nat) (all : Bool) : State :=
  onStopped s part bid blane (fun b k _ =>
    (b.pathOf k).bind fun x =>
      if steppable b x.2 ∧ b.stepList.isEmpty then
        let l := readyGroups s b x.2
        let s := s.modBlock bid (fun b => { b with stepList := if all then l else l.take 1 })
        some (nextStep (setTstat s part 1) bid part)
      else none)

/-- OP 4: the lowest ready sub-group issues one instruction (R381). -/
def execTctlStep (s : State) : Host.Outcome State Fault Refusal :=
  device s fun
    | .tctlStep part bid blane => some (beginStep s part bid blane false)
    | _ => none

/-- OP 5: every ready sub-group issues one, in PC order (R381). -/
def execTctlStepAll (s : State) : Host.Outcome State Fault Refusal :=
  device s fun
    | .tctlStepAll part bid blane => some (beginStep s part bid blane true)
    | _ => none

/-- The released path has nothing left to do: it is gone, trapped, blocked, or parked with its results returned.
(log 57, DEDUCED) -/
def stepOver (s : State) (bid pid : Nat) : Bool :=
  match s.path? bid pid with
  | none => true
  | some p =>
    match p.wait with
    | .stopped | .meeting _ | .rehoming | .binning => true
    | _ => p.stepping == 0

/-- A stepped path whose results have returned stops with cause 0x16 at its next PC, as a path does that came to a join with a
halt pending (R366); inside its run it keeps the run. -/
def stopStepped (s : State) (bid pid : Nat) : State :=
  let s := applyHalt s bid pid
  match s.path? bid pid with
  | none => s
  | some p =>
    let boundary := match p.wait with
      | .parked | .joining _ => true
      | _ => false
    if (p.stepping = 1 ∨ p.stepping = 3) ∧ boundary = true ∧ p.run.settled ∧ p.run.base ≤ s.cycle then
      let s := s.modPath bid pid (fun p => { p with haltAt := some (.stopped, 0x16) })
      applyHalt s bid pid
    else s

/-- END OF A STEP: the path stops, and the next one of a `step all` is released (R381). -/
def stepComplete (bid pid : Nat) (s : State) : State :=
  let s := stopStepped s bid pid
  match tget s.blocks bid with
  | none => s
  | some b =>
    if b.stepList.head? = some pid then
      if stepOver s bid pid then
        nextStep (s.modBlock bid (fun b => { b with stepList := b.stepList.drop 1 })) bid b.part
      else s.postOnce (s.cycle + 1) (.stepComplete bid pid)
    else s

def execStepComplete (s : State) : Host.Outcome State Fault Refusal :=
  device s fun
    | .stepComplete bid pid => some (stepComplete bid pid s)
    | _ => none

/-- OP 6: every path of the thread's warp stops at its next boundary with cause 0x16; its threads in bins or at `rehome` stop
once they stand in a path again (R366). (log 56, DEDUCED) -/
def tctlHalt (part bid blane : Nat) (s : State) : State :=
  match tget s.blocks bid with
  | none => refuseThread s part
  | some b =>
    match tget b.threads blane with
    | none => refuseThread s part
    | some t =>
      if b.part ≠ part ∨ t.run = .exited then refuseThread s part
      else
        let mine : Tab Path := match b.pathOf blane with
          | some x => warpPaths b x.2
          | none => b.paths.filter (fun (e : Nat × Path) => e.2.warp == homeWarp blane && !e.2.finder && !e.2.formed)
        let l := mine.filter (fun (e : Nat × Path) => e.2.wait != Wait.stopped && !(b.lanesOf e.2.lanes).all (·.2.stoppedForDebug))
        let formed := (b.pathOf blane).elim false (fun x => x.2.formed)
        let filed := if formed then [] else (b.threads.filter (fun e => decide (e.1 < 1024) && homeWarp e.1 == homeWarp blane
          && (e.2.run == .binned || e.2.run == .rehoming))).map (·.1)
        let s := s.modBlock bid (fun b => { b with stepped := b.stepped ++ filed.filter (fun k => !mem? b.stepped k) })
        let s := l.foldl (fun s e => s.modPath bid e.1 (fun p => { p with haltAt := some (.stopped, 0x16) })) s
        setTstat (applyHalts s bid) part 0

def execTctlHalt (s : State) : Host.Outcome State Fault Refusal :=
  device s fun
    | .tctlHalt part bid blane => some (tctlHalt part bid blane s)
    | _ => none

end Sys2Proof.Machine
end

