-- ==== Sys2Proof/Machine/Host.lean ====
section
/-! DEFINITION. The management space and address-translation services: writes of registers, collective bindings, attestation
(R41, R364, R398, R406-R417, R420). -/

namespace Sys2Proof.Machine

/-! Rings (R364, R398) -/

def modRep (s : State) (part : Nat) (f : Reports → Reports) : State := s.modPart part (fun p => { p with rep := f p.rep })

def pumpFaults (s : State) (part : Nat) : State := drainFaults s part (s.part part).rep.heldFaults.length
def pumpErrors (s : State) (part : Nat) : State := drainErrors s part (s.part part).rep.heldErrors.length

/-- FRT: entries free, and held records are appended (R364). -/
def execFrtWrite (s : State) : Host.Outcome State Fault Refusal :=
  device s fun
    | .frtWrite part v => some (pumpFaults (modRep s part (fun r =>
        { r with fault := { r.fault with tail := v.setWidth 16 } })) part)
    | _ => none

/-- FRS: the ring's size, which enables or disables it (R364). -/
def execFrsWrite (s : State) : Host.Outcome State Fault Refusal :=
  device s fun
    | .frsWrite part v => some (pumpFaults (modRep s part (fun r =>
        { r with fault := { r.fault with size := v.setWidth 4 } })) part)
    | _ => none

def execErtWrite (s : State) : Host.Outcome State Fault Refusal :=
  device s fun
    | .ertWrite part v => some (pumpErrors (modRep s part (fun r =>
        { r with error := { r.error with tail := v.setWidth 16 } })) part)
    | _ => none

def execErsWrite (s : State) : Host.Outcome State Fault Refusal :=
  device s fun
    | .ersWrite part v => some (pumpErrors (modRep s part (fun r =>
        { r with error := { r.error with size := v.setWidth 4 } })) part)
    | _ => none

/-- IRQS: bits written as 1 are cleared (R410). -/
def execIrqsClear (s : State) : Host.Outcome State Fault Refusal :=
  device s fun
    | .irqsClear part v => some (modRep s part (fun r => { r with irqs := r.irqs &&& ~~~(v.setWidth 4) }))
    | _ => none

/-! Masks, modes, graphs (R41, R406, R410) -/

/-- The partition holds a resident block or a loaded object: one whose graph is registered. (log 60, DEDUCED) -/
def partInUse (s : State) (part : Nat) : Bool :=
  s.blocks.any (fun e => e.2.part == part) || (graphDesc s ⟨part, 0⟩).isSome || (graphDesc s ⟨part, 1⟩).isSome

/-- PFM, one word of it (R40, R41). (log 60, DEDUCED) -/
def pfmWrite (part word : Nat) (v : Word) (s : State) : State :=
  if partInUse s part then modHyper s part (fun h => { h with pfmr := true })
  else modHyper s part (fun h => { h with
    pfmr := false, pfm := BitVec.ofNat 512 (setBits h.pfm.toNat (32 * word + 31) (32 * word) v.toNat) })

def execPfmWrite (s : State) : Host.Outcome State Fault Refusal :=
  device s fun
    | .pfmWrite part word v => some (pfmWrite part word v s)
    | _ => none

/-- XMODE (R406). (log 60, DEDUCED) -/
def xmodeWrite (part : Nat) (v : Word) (s : State) : State :=
  if partInUse s part then modHyper s part (fun h => { h with xmr := true })
  else modGuest (modHyper s part (fun h => { h with xmr := false })) part (fun g => { g with xmode := v &&& 1 })

def execXmodeWrite (s : State) : Host.Outcome State Fault Refusal :=
  device s fun
    | .xmodeWrite part v => some (xmodeWrite part v s)
    | _ => none

/-- The registered graph has a resident block or a node with EN set (R410). -/
def graphInUse (s : State) (g : GraphId) : Bool :=
  s.blocks.any (fun e => e.2.graph == g)
    || (match graphDesc s g, nodeCount s g with
      | some _, some n => (upto (min n 4096)).any (fun k => statusEn (nodeStatus s g k))
      | _, _ => false)

/-- GUSR, GSYS or GHYP (R410). (log 60, DEDUCED) -/
def graphWrite (g : GraphId) (v : DWord) (s : State) : State :=
  if graphInUse s g then modGuest s g.part (fun r => { r with gstat := 1 })
  else
    let s := modGuest s g.part (fun r => { r with gstat := 0 })
    match g.lvl with
    | 0 => modGuest s g.part (fun r => { r with gusr := v })
    | 1 => modGuest s g.part (fun r => { r with gsys := v })
    | _ => s.modPkg (fun k => { k with ghyp := v })

def execGraphRegisterWrite (s : State) : Host.Outcome State Fault Refusal :=
  device s fun
    | .graphRegisterWrite g v => some (graphWrite g v s)
    | _ => none

/-! Partitions (R414, R415) -/

/-- At least two assigned clusters, one in reduced service, numbered densely from 0 (R414, R422). -/
def partitionOk (s : State) (part : Nat) : Bool :=
  let l := ((upto 96).filter (fun c => s.holds part c)).map (fun c => s.logical c)
  decide ((if s.reduced then 1 else 2) ≤ l.length) && (upto l.length).all (fun i => mem? l i)

/-- PCTL (R412, R414). -/
def partitionEnable (part : Nat) (v : Word) (s : State) : State :=
  if v.toNat % 2 = 0 then modHyper s part (fun h => { h with pen := 0 })
  else if partitionOk s part then retryAll (modHyper s part (fun h => { h with pen := 1, perr := 0 }))
  else modHyper s part (fun h => { h with pen := 0, perr := 1 })

def execPartitionEnable (s : State) : Host.Outcome State Fault Refusal :=
  device s fun
    | .partitionEnable part v => some (partitionEnable part v s)
    | _ => none

/-- PFSEL: a value above 47 is refused (R411). -/
def execPfselWrite (s : State) : Host.Outcome State Fault Refusal :=
  device s fun
    | .pfselWrite v => some (if v.toNat ≤ 47 then s.modPkg (fun k => { k with pfsel := v.setWidth 6 }) else s)
    | _ => none

/-- Released cores given back to the partition that holds their cluster: bits written as 1 are cleared (R415). -/
def coreRelease (clus : Nat) (v : Byte) (s : State) : State :=
  if bit? (s.ptEntry clus) 15 then
    retryDie (s.modPkg (fun k => { k with crel := lmod k.crel clus (fun x => x &&& ~~~v) })) (clus / 24)
  else s

def execCoreReleaseWrite (s : State) : Host.Outcome State Fault Refusal :=
  device s fun
    | .coreReleaseWrite clus v => some (coreRelease clus v s)
    | _ => none

/-! Collective bindings (R417) -/

/-- The member table of a binding; none when it cannot be read. -/
def readMembers (s : State) (part mtab : Nat) : Nat → Option (List Word)
  | 0 => some []
  | n + 1 =>
    match readMembers s part mtab n, devRead s part (mtab + 4 * n) 4 with
    | some l, some v => some (l ++ [wd v])
    | _, _ => none

/-- CFG of a binding: V from 0 to 1 copies the member table and checks the own entry (R417). -/
def bindWrite (part ch : Nat) (cfg : Word) (s : State) : State :=
  let b := (s.part part).bind.getD ch .reset
  let put := fun (f : Bind → Bind) => s.modPart part (fun p => { p with bind := lmod p.bind ch f })
  let refuse := put (fun b => { b with cfg := wd (setBits (setBits cfg.toNat 31 31 0) 30 30 1) })
  if bit? cfg.toNat 31 && !bit? b.cfg.toNat 31 then
    let n := bits cfg.toNat 19 0
    let rank := bits b.rankn.toNat 19 0
    let own := s.pkg.epid.toNat + 2 ^ 19 * part
    if n = 0 ∨ 524288 < n ∨ n ≤ rank ∨ !b.queue.isEmpty then refuse
    else
      match readMembers s part b.mtab.toNat n with
      | none => refuse
      | some l =>
        if (l.getD rank 0).toNat % 2 ^ 25 = own then
          put (fun b => { b with cfg := wd (setBits cfg.toNat 30 30 0), members := l })
        else refuse
  else put (fun b => { b with cfg := wd (setBits cfg.toNat 30 30 0) })

def execBindValidate (s : State) : Host.Outcome State Fault Refusal :=
  device s fun
    | .bindValidate part ch cfg => some (bindWrite part ch cfg s)
    | _ => none

/-! Attestation (R420) -/

/-- Digest and epoch of the running firmware; zero while none has been loaded (R419). (log 61, DESIGN CHOICE) -/
def runningDigest (s : State) : BitVec 384 := (s.pkg.image.map (·.digest)).getD 0
/-- A reading of the rules (log 61, DESIGN CHOICE). -/
def runningEpoch (s : State) : BitVec 16 := (s.pkg.image.map (·.epoch)).getD 0

/-- What a report says before its signatures: nonce, digest, epoch, PFM, XMODE, the partition's table entries. The places of
the parts are the model's. -/
def reportBody (s : State) (part : Nat) (nonce : List Byte) : List Byte :=
  nonce ++ toBytes 48 (runningDigest s).toNat ++ toBytes 2 (runningEpoch s).toNat ++ toBytes 64 (s.part part).hyper.pfm.toNat
    ++ toBytes 2 ((s.part part).guest.xmode.toNat % 2)
    ++ ((upto 96).filter (fun c => s.holds part c)).flatMap (fun c => toBytes 2 c ++ toBytes 2 (s.ptEntry c))

/-- An attestation request: the leaf index advances before the signatures are released; beyond the last report status 3.
(log 61, DESIGN CHOICE) -/
def attest (part : Nat) (s : State) : State :=
  let r := (s.part part).guest.atreq.toNat
  let buf := bits r 63 0 / 64 * 64
  let setSt := fun (s : State) (n : Nat) => modGuest s part (fun g => { g with atStatus := n })
  if Config.maxReports ≤ s.pkg.reports then setSt s 3
  else
    match devRead s part (bits r 127 64) 48 with
    | none => setSt s 1
    | some n =>
      let leaf := s.pkg.reports
      let s := s.modPkg (fun k => { k with reports := k.reports + 1 })
      let body := reportBody s part (toBytes 48 n)
      let rep := body ++ Config.ecdsaSignature (Config.ecdsaKey Config.fusedSecret (runningDigest s)) (ofBytes body)
        ++ Config.hssSignature (Config.hssKey Config.fusedSecret) leaf (ofBytes body)
      match devWrite s part buf rep.length (ofBytes rep) with
      | none => setSt s 1
      | some s => setSt (s.modPkg (fun k => { k with report := rep })) 0

/-- A reading of the rules (log 61, DESIGN CHOICE). -/
def execAttestationRequest (s : State) : Host.Outcome State Fault Refusal :=
  device s fun
    | .attestationRequest part => some (attest part s)
    | _ => none

/-! Address-translation services (R408, R409) -/

/-- The host has answered: a translation for the clusters that asked and for the device's own accesses, or a refusal that
their accesses will find (R408). (log 67, DEDUCED) -/
def atsAnswer (part asid page : Nat) (hpa : Option Nat) (r w x : Bool) (s : State) : State :=
  let mine : AtsAsk → Bool := fun a => a.part == part && a.asid == asid && a.page == page && a.answer.isNone
  let asks := s.coh.ats.filter mine
  let fail := fun (k : Nat) => { s with coh := { s.coh with
    ats := s.coh.ats.map (fun a => if mine a then { a with answer := some k } else a) } }
  let s : State := match hpa, r with
    | some t, true =>
      match hdmAddr t with
      | some pa =>
        let s := { s with coh := { s.coh with ats := s.coh.ats.filter (fun a => !mine a) } }
        let clus := asks.map (·.clus) ++ (if asid = 0 then [deviceTlb] else [])
        clus.foldl (fun (s : State) (k : Nat) => tlbInsert s ⟨part, asid, 0, k⟩ (4096 * page) (pa / 4096 * 4096) 4096
          ⟨w, x, true, false, false⟩) s
      | none => fail 0x0B
    | _, _ => fail 0x0A
  (s.blocksOf part).foldl (fun (s : State) (e : Nat × Block) =>
    e.2.paths.foldl (fun (s : State) (p : Nat × Path) => unhold s e.1 p.1 .ats) s) s

def execAtsResponse (s : State) : Host.Outcome State Fault Refusal :=
  device s fun
    | .atsResponse part asid page hpa r w x _ => some (atsAnswer part asid page hpa r w x s)
    | _ => none

/-- The response of a page-request group is recorded (R408, R411). -/
def prgAnswer (part idx code : Nat) (s : State) : State :=
  modGuest s part (fun g => { g with
    prgr := wd (2 ^ 31 + code % 16 * 4096 + idx % 512), pageReqs := g.pageReqs.filter (fun r => r.idx != idx) })

def execPrgResponse (s : State) : Host.Outcome State Fault Refusal :=
  device s fun
    | .prgResponse part idx code => some (prgAnswer part idx code s)
    | _ => none

/-- A read of PRGR clears its bit 31 (R411). -/
def prgRead (part : Nat) (s : State) : State :=
  let v := (s.part part).guest.prgr
  modGuest { s with hostRead := v.setWidth 64 } part (fun g => { g with prgr := wd (setBits v.toNat 31 31 0) })

def execPrgrRead (s : State) : Host.Outcome State Fault Refusal :=
  device s fun
    | .prgrRead part => some (prgRead part s)
    | _ => none

/-- The host's invalidation of a page: entries dropped, the completion sent when nothing uses them (R409). -/
def hostInvalidate (part asid page : Nat) (s : State) : State :=
  (dropEntries s ⟨0, 0, ⟨0, 0, true, 0⟩, part, 0, asid, page⟩).postOnce (s.cycle + 1) (.invalidateCompletion part asid page)

def execAtsInvalidate (s : State) : Host.Outcome State Fault Refusal :=
  device s fun
    | .atsInvalidate part asid page => some (hostInvalidate part asid page s)
    | _ => none

def invalidateDone (part asid page : Nat) (s : State) : State :=
  if stillUsed s ⟨0, 0, ⟨0, 0, true, 0⟩, part, 0, asid, page⟩ then s.postOnce (s.cycle + 1) (.invalidateCompletion part asid page)
  else { s with out := s.out ++ [.invalidateDone part asid page] }

def execInvalidateCompletion (s : State) : Host.Outcome State Fault Refusal :=
  device s fun
    | .invalidateCompletion part asid page => some (invalidateDone part asid page s)
    | _ => none

/-! Writes of 32-bit words of the management space (R410-R412) -/

/-- A reading of the rules (log 62, DEDUCED). -/
def lowHalf (v : DWord) (w : Word) : DWord := BitVec.ofNat 64 (setBits v.toNat 31 0 w.toNat)
/-- A reading of the rules (log 62, DEDUCED). -/
def highHalf (v : DWord) (w : Word) : DWord := BitVec.ofNat 64 (setBits v.toNat 63 32 w.toNat)
/-- A reading of the rules (log 62, DEDUCED). -/
def half (high : Bool) (v : DWord) (w : Word) : DWord := if high then highHalf v w else lowHalf v w

/-- Bits `hi:lo` of a value, in place. -/
def keepBits (hi lo : Nat) (v : DWord) : DWord := BitVec.ofNat 64 (bits v.toNat hi lo * 2 ^ lo)

/-- A register whose write is a step of its own: that step comes in this cycle. -/
def asStep (s : State) (e : Event) : State := s.post s.cycle e

/-- TCTL's operation (R366). -/
def tctlStart (s : State) (part : Nat) (v : DWord) : State :=
  let blk := bits v.toNat 31 0
  let lane := bits v.toNat 41 32
  match bits v.toNat 47 44 with
  | 1 => asStep s (.tctlResume part blk lane)
  | 2 => asStep s (.tctlResumeAt part blk lane)
  | 3 => asStep s (.tctlKill part blk lane)
  | 4 => asStep s (.tctlStep part blk lane)
  | 5 => asStep s (.tctlStepAll part blk lane)
  | 6 => asStep s (.tctlHalt part blk lane)
  | _ => refuseThread s part

/-- LMCTL (R320). -/
def lmctlWrite (s : State) (part d : Nat) (pf : Bool) (v : Word) : State :=
  let fail := modUnit s part d (fun u => { u with stat := u.stat ||| 2 })
  if bit? (maintUnit s part d).stat.toNat 0 then fail
  else
    match v.toNat % 4, bit? v.toNat 31 with
    | 0, _ => fail
    | 1, true => asStep s (.lmClean part d pf)
    | 2, true => asStep s (.lmInvalidate part d pf)
    | _, true => asStep s (.lmCleanInvalidate part d pf)
    | n, false => modUnit s part d (fun u => { u with ctl := wd n })

/-- A partition's rows of the management space, 0x1_0000 to 0x1_060F, written by its VF or by the physical function.
(log 62, DEDUCED) -/
def guestWrite (s : State) (p : Nat) (pf : Bool) (off : Nat) (v : Word) : State :=
  let g := (s.part p).guest
  let high := off / 4 % 2 == 1
  if off = 0x10000 ∨ off = 0x10004 then asStep s (.graphRegisterWrite ⟨p, 0⟩ (half high g.gusr v))
  else if off = 0x10008 ∨ off = 0x1000C then asStep s (.graphRegisterWrite ⟨p, 1⟩ (half high g.gsys v))
  else if off = 0x10100 ∨ off = 0x10104 then
    modRep s p (fun r => { r with fault := { r.fault with base := keepBits 51 6 (half high r.fault.base v) } })
  else if off = 0x10108 then asStep s (.frsWrite p v)
  else if off = 0x10110 then asStep s (.frtWrite p v)
  else if off = 0x10140 ∨ off = 0x10144 then
    modRep s p (fun r => { r with error := { r.error with base := keepBits 51 6 (half high r.error.base v) } })
  else if off = 0x10148 then asStep s (.ersWrite p v)
  else if off = 0x10150 then asStep s (.ertWrite p v)
  else if off = 0x10180 then modGuest s p (fun g => { g with tctl := lowHalf g.tctl v })
  else if off = 0x10184 then
    let t := highHalf g.tctl v
    tctlStart (modGuest s p (fun g => { g with tctl := t })) p t
  else if off = 0x10190 then modGuest s p (fun g => { g with tnpc := wd (v.toNat / 4 * 4) })
  else if off = 0x101B0 then modGuest s p (fun g => { g with ctxDrop := lowHalf g.ctxDrop v })
  else if off = 0x101B4 then asStep s (.contextDrop p (highHalf g.ctxDrop v))
  else if 0x10200 ≤ off ∧ off < 0x10300 then
    let ch := (off - 0x10200) / 16
    let put := fun (f : Bind → Bind) => s.modPart p (fun q => { q with bind := lmod q.bind ch f })
    match off % 16 with
    | 0 => put (fun b => { b with mtab := lowHalf b.mtab v })
    | 4 => put (fun b => { b with mtab := highHalf b.mtab v })
    | 8 => asStep s (.bindValidate p ch v)
    | 12 => put (fun b => { b with rankn := v })
    | _ => s
  else if 0x10400 ≤ off ∧ off < 0x10480 then
    let d := (off - 0x10400) / 32
    match off % 32 with
    | 0 => modUnit s p d (fun u => { u with addr := keepBits 51 6 (lowHalf u.addr v) })
    | 4 => modUnit s p d (fun u => { u with addr := keepBits 51 6 (highHalf u.addr v) })
    | 8 => modUnit s p d (fun u => { u with cnt := wd (v.toNat % 2 ^ 24) })
    | 12 => lmctlWrite s p d pf v
    | _ => s
  else if off = 0x10500 then asStep s (.irqsClear p v)
  else if off = 0x10504 then modRep s p (fun r => { r with irqm := v.setWidth 4 })
  else if 0x10600 ≤ off ∧ off < 0x10610 then
    let i := (off - 0x10600) / 4
    let s := modGuest s p (fun g => { g with atreq := BitVec.ofNat 128 (setBits g.atreq.toNat (32 * i + 31) (32 * i) v.toNat) })
    if i = 3 then asStep s (.attestationRequest p) else s
  else if off = 0x8000 then asStep s (.hostCommit p v)
  else s

/-- PREQ's request (R369). -/
def preqStart (s : State) (p : Nat) (v : DWord) : State :=
  if bit? v.toNat 63 then
    asStep s (if bit? v.toNat 12 then .preemptCooperative p v else .preemptImmediate p v)
  else s

/-- The context pool may be moved: no request runs, and no slot holds a saved block (R412). -/
def poolFree (s : State) (p : Nat) : Bool := (s.part p).preempt.isNone && (s.part p).hyper.cpUsed.isEmpty

/-- VFSCTL: an operation that is refused leaves it as it was, and so does a write while one runs (R412). (log 48, DEDUCED) -/
def vfsWrite (s : State) (p : Nat) (v : Word) : State :=
  if bit? v.toNat 31 then
    match v.toNat % 4 with
    | 1 => asStep s (.vfSave p)
    | 2 => asStep s (.vfRestore p)
    | _ => vfError s p
  else if bit? (s.part p).hyper.vfsStat.toNat 0 then s
  else modHyper s p (fun h => { h with vfsCtl := v })

/-- A control block's rows (R412). -/
def controlWrite (s : State) (p off : Nat) (v : Word) : State :=
  let high := off / 4 % 2 == 1
  if off < 0x40 then asStep s (.pfmWrite p (off / 4) v)
  else if off = 0x40 then asStep s (.xmodeWrite p v)
  else if off = 0x48 then modHyper s p (fun h => { h with preq := lowHalf h.preq v })
  else if off = 0x4C then
    let q := highHalf (s.part p).hyper.preq v
    preqStart (modHyper s p (fun h => { h with preq := q })) p q
  else if off = 0x58 ∨ off = 0x5C then
    if poolFree s p then modHyper s p (fun h => { h with cpBase := keepBits 51 12 (half high h.cpBase v) }) else s
  else if off = 0x60 then (if poolFree s p then modHyper s p (fun h => { h with cpSize := v }) else s)
  else if off = 0x70 ∨ off = 0x74 then
    modHyper s p (fun h => { h with vfsAddr := keepBits 51 6 (half (off == 0x74) h.vfsAddr v) })
  else if off = 0x78 then vfsWrite s p v
  else if off = 0x88 then asStep s (.partitionEnable p v)
  else s

/-- A partition-table entry, changed only while its cluster holds no block (R414). -/
def ptabWrite (s : State) (clus : Nat) (v : Word) : State :=
  if s.blocks.any (fun e => e.2.place.clus == clus) then s
  else retryDie (s.modPkg (fun k => { k with ptab := lset k.ptab clus (v.setWidth 16) })) (clus / 24)

/-- GIDLE (R424): clusters that are idle now are looked at when their count ends. -/
def gidleWrite (s : State) (v : Word) : State :=
  let s := s.modPkg (fun k => { k with gidle := v.setWidth 16 })
  if s.pkg.gidle = 0 then s
  else
    (upto 96).foldl (fun s c =>
      if s.blocks.any (fun e => e.2.place.clus == c) then s else watchIdle s c) s

/-- Rows that only the physical function sees (R410, R413). A matching entry's words are written as given, CNT and the bits
that the device sets among them. (log 77, DESIGN CHOICE) -/
def pfWrite (s : State) (off : Nat) (v : Word) : State :=
  if off < 0x20000 + 0x400 * 48 then controlWrite s ((off - 0x20000) / 0x400) (off % 0x400) v
  else if 0x30000 ≤ off ∧ off < 0x300C0 then ptabWrite s ((off - 0x30000) / 2) v
  else if 0x30800 ≤ off ∧ off < 0x30860 then asStep s (.coreReleaseWrite (off - 0x30800) (v.setWidth 8))
  else if 0x31000 ≤ off ∧ off < 0x33000 then
    let e := (off - 0x31000) / 32
    setMatch s e (lset (tgetD s.pkg.matching e (List.replicate 8 0)) (off % 32 / 4) v)
  else if off = 0x33000 ∨ off = 0x33004 then
    asStep s (.graphRegisterWrite ⟨0, 2⟩ (half (off == 0x33004) s.pkg.ghyp v))
  else if off = 0x33100 then s.modPkg (fun k => { k with epid := v.setWidth 19 })
  else if off = 0x33104 then asStep s (.pfselWrite v)
  else if off = 0x33200 then asStep s (.bstatFullService v)
  else if off = 0x33208 then asStep s (.pcapWrite v)
  else if off = 0x33210 then gidleWrite s v
  else s

/-- A WRITE of the management space through a function: a VF's reaches its partition's rows, the PF's act on the partition that
PFSEL names or on the package; any other is dropped (R410, R411). -/
def registerWrite (part : Option Nat) (off : Nat) (v : Word) (s : State) : State :=
  if off < 0x20000 then guestWrite s (part.getD s.pkg.pfsel.toNat) part.isNone off v
  else
    match part with
    | some _ => s
    | none => pfWrite s off v

def execRegisterWrite (s : State) : Host.Outcome State Fault Refusal :=
  device s fun
    | .registerWrite part off v => some (registerWrite part off v s)
    | _ => none

/-! Reads of 32-bit words of the management space (R410-R413). They change nothing; PRGR, and the launch window's rows that
reserve a slot, have their own steps (`prgRead`, `hostReserve`). -/

/-- Word `k` of a register of several words, the lowest first. -/
def wordOf {n : Nat} (v : BitVec n) (k : Nat) : Word := wd (v.toNat / 2 ^ (32 * k))

/-- The registers of a ring, from its base on (R364, R398, R411). -/
def ringRead (r : Ring) (off : Nat) : Word :=
  match off with
  | 0x0 | 0x4 => wordOf r.base (off / 4)
  | 0x8 => wordOf r.size 0
  | 0xC => wordOf r.head 0
  | 0x10 => wordOf r.tail 0
  | 0x14 => r.ovf
  | 0x18 => r.lost
  | _ => 0

/-- A collective binding's registers (R417). -/
def bindRead (b : Bind) (off : Nat) : Word :=
  match off with
  | 0x0 | 0x4 => wordOf b.mtab (off / 4)
  | 0x8 => b.cfg
  | _ => b.rankn

/-- A line-maintenance unit's registers (R320). -/
def maintRead (u : LineMaint) (off : Nat) : Word :=
  match off with
  | 0x0 | 0x4 => wordOf u.addr (off / 4)
  | 0x8 => u.cnt
  | 0xC => u.ctl
  | 0x10 => u.stat
  | _ => 0

/-- The enable of the ATS capability of a partition's function as the host's configuration reads find it: disabled under unified
range (R407); under ATS it is on (R408). -/
def atsCapability (s : State) (part : Nat) : Bool := s.atsMode part

/-- PSTS: XMODE, XMR and PFMR (R411). -/
def statusRead (p : Partition) : Word :=
  wd (p.guest.xmode.toNat % 2 + 2 * b2n p.hyper.xmr + 4 * b2n p.hyper.pfmr)

/-- A partition's rows of the management space (R410, R411). (log 62, DEDUCED) -/
def guestRead (s : State) (part off : Nat) : Word :=
  let p := s.part part
  let g := p.guest
  if 0x10100 ≤ off ∧ off < 0x10120 then ringRead p.rep.fault (off - 0x10100)
  else if 0x10140 ≤ off ∧ off < 0x10160 then ringRead p.rep.error (off - 0x10140)
  else if 0x10200 ≤ off ∧ off < 0x10300 then
    bindRead ((p.bind[(off - 0x10200) / 16]?).getD .reset) (off % 16)
  else if 0x10400 ≤ off ∧ off < 0x10480 then maintRead (maintUnit s part ((off - 0x10400) / 32)) (off % 32)
  else if 0x10600 ≤ off ∧ off < 0x10610 then wordOf g.atreq ((off - 0x10600) / 4)
  else
    match off with
    | 0x8008 => g.refused
    | 0x10000 | 0x10004 => wordOf g.gusr (off / 4 % 2)
    | 0x10008 | 0x1000C => wordOf g.gsys (off / 4 % 2)
    | 0x10010 => g.gstat
    | 0x10180 | 0x10184 => wordOf g.tctl (off / 4 % 2)
    | 0x10188 => g.tstat
    | 0x10190 => g.tnpc
    | 0x101A0 => p.rep.emuc
    | 0x101B0 | 0x101B4 => wordOf g.ctxDrop (off / 4 % 2)
    | 0x101B8 => g.ctxDs
    | 0x101C0 => statusRead p
    | 0x101C4 => g.prLost
    | 0x101C8 => g.prgr
    | 0x10500 => wordOf p.rep.irqs 0
    | 0x10504 => wordOf p.rep.irqm 0
    | _ => 0

/-- A control block's rows (R412): CPFREE counts the slots that hold no saved block, PCTL holds PEN and PERR.
(log 62, DEDUCED) -/
def controlRead (s : State) (part off : Nat) : Word :=
  let h := (s.part part).hyper
  if off < 0x40 then wordOf h.pfm (off / 4)
  else
    match off with
    | 0x40 => (s.part part).guest.xmode
    | 0x48 | 0x4C => wordOf h.preq (off / 4 % 2)
    | 0x50 => h.pstat
    | 0x58 | 0x5C => wordOf h.cpBase (off / 4 % 2)
    | 0x60 => h.cpSize
    | 0x64 => wd (bits h.cpSize.toNat 31 16 - h.cpUsed.length)
    | 0x70 | 0x74 => wordOf h.vfsAddr (b2n (off == 0x74))
    | 0x78 => h.vfsCtl
    | 0x7C => h.vfsStat
    | 0x80 => wd (vfSize s part)
    | 0x88 => wd (h.pen.toNat % 2 + 2 * (h.perr.toNat % 2))
    | _ => 0

/-- Rows that only the physical function sees (R410, R413): two entries of the partition table, four of the core-release
table, to one word. (log 62, DEDUCED) -/
def pfRead (s : State) (off : Nat) : Word :=
  let k := s.pkg
  if off < 0x20000 + 0x400 * 48 then controlRead s ((off - 0x20000) / 0x400) (off % 0x400)
  else if 0x30000 ≤ off ∧ off < 0x300C0 then
    let e := fun i => ((k.ptab[(off - 0x30000) / 4 * 2 + i]?).getD 0).toNat
    wd (e 0 + e 1 * 2 ^ 16)
  else if 0x30800 ≤ off ∧ off < 0x30860 then
    let e := fun i => ((k.crel[(off - 0x30800) / 4 * 4 + i]?).getD 0).toNat
    wd (e 0 + e 1 * 2 ^ 8 + e 2 * 2 ^ 16 + e 3 * 2 ^ 24)
  else if 0x31000 ≤ off ∧ off < 0x33000 then
    ((tgetD k.matching ((off - 0x31000) / 32) (List.replicate 8 0))[off % 32 / 4]?).getD 0
  else
    match off with
    | 0x33000 | 0x33004 => wordOf k.ghyp (off / 4 % 2)
    | 0x33100 => wordOf k.epid 0
    | 0x33104 => wordOf k.pfsel 0
    | 0x33200 => k.bstat
    | 0x33208 => k.pcap
    | 0x3320C => k.thrc
    | 0x33210 => wordOf k.gidle 0
    | _ => 0

/-- A READ of the management space through a function: what `registerWrite` says of who reaches what holds of reads too;
an offset that defines nothing reads zero (R410). (log 62, DEDUCED) -/
def registerRead (part : Option Nat) (off : Nat) (s : State) : Word :=
  if off < 0x20000 then guestRead s (part.getD s.pkg.pfsel.toNat) off
  else
    match part with
    | some _ => 0
    | none => pfRead s off

end Sys2Proof.Machine
end

