-- ==== Sys2Proof/Machine/Power.lean ====
section
/-! DEFINITION. Bring-up, reset, the clock under the cap, the thermal hold, the fabric's ports (R417, R419, R421-R425). -/

namespace Sys2Proof.Machine

def setBstat (s : State) (f : Nat → Nat) : State := s.modPkg (fun k => { k with bstat := wd (f k.bstat.toNat) })

/-- Power is good: bring-up begins in phase 0 (R421). -/
def powerGood (s : State) : State :=
  if s.pkg.power then s else setBstat (s.modPkg (fun k => { k with power := true })) (fun _ => 0)

def execPowerGood (s : State) : Host.Outcome State Fault Refusal :=
  device s fun
    | .powerGood => some (powerGood s)
    | _ => none

def setClocks (s : State) (mhz : Nat) : State :=
  s.modPkg (fun k => { k with dies := k.dies.map (fun d => { d with mhz := mhz }) })

/-- BSTAT bit 10 tells whether a clock is below 700 MHz (R423). -/
def noteClocks (s : State) : State :=
  setBstat s (fun v => setBits v 10 10 (b2n (s.pkg.dies.any (fun d => decide (d.mhz < 700)))))

/-- Reduced service: partition 0 holds physical cluster 0 of die 0, enabled, at 350 MHz (R422). -/
def reducedService (s : State) : State :=
  let s := s.modPkg (fun k => { k with ptab := lset k.ptab 0 0x8000 })
  noteClocks (setClocks (modHyper s 0 (fun h => { h with pen := 1, perr := 0 })) 350)

/-- The rejection status of an image: bit 0 for ECDSA, 1 for HSS, 2 for the epoch (R419). -/
def rejectStatus (i : Firmware) : Nat :=
  b2n (!Config.ecdsaVerifies i.digest i.ecdsa) + 2 * b2n (!Config.hssVerifies i.digest i.hss)
    + 4 * b2n (decide (i.epoch.toNat < Config.fusedEpoch))

/-- A phase that fails sets bit 7, and the module stays in it (R421). -/
def phaseFails (s : State) : State := setBstat s (fun v => setBits v 7 7 1)

/-- Phase 0: an image that passes is loaded; otherwise its status is recorded and the previous image stays (R2, R419). -/
def loadFirmware (i : Firmware) (s : State) : State :=
  let st := rejectStatus i
  let s := s.modPkg (fun k => { k with reject := st })
  if st = 0 then setBstat (s.modPkg (fun k => { k with image := some i })) (fun v => setBits v 2 0 1) else phaseFails s

/-- END of a phase's activity: the next phase, or bit 7 and no further (R401, R421). (log 66, DEDUCED) -/
def phaseEnd (r : PhaseResult) (s : State) : State :=
  if !s.pkg.power || bit? s.pkg.bstat.toNat 7 then s
  else
    match s.phase, r with
    | 0, .firmware i => loadFirmware i s
    | 1, .first failing d trained =>
      let s := darkResult s 0 failing.toNat d
      if failing = 0 ∧ trained then reducedService (setBstat s (fun v => setBits v 2 0 2)) else phaseFails s
    | 2, .training ok => if ok then s.modPkg (fun k => { k with trained := true }) else phaseFails s
    | _, _ => s

def execBringupPhaseEnd (s : State) : Host.Outcome State Fault Refusal :=
  device s fun
    | .bringupPhaseEnd r => some (phaseEnd r s)
    | _ => none

/-- Bit 8 of BSTAT asks for full service; before training has passed, or with a block of the reduced service resident, the write
is refused and bit 9 says so (R421). (log 66, DEDUCED) -/
def fullService (v : Word) (s : State) : State :=
  if !bit? v.toNat 8 || s.phase == 3 then s
  else if s.reduced && s.pkg.trained && !bit? s.pkg.bstat.toNat 7 && s.blocks.isEmpty then
    noteClocks (setClocks (setBstat s (fun v => setBits (setBits v 9 9 0) 2 0 3)) 700)
  else setBstat s (fun v => setBits v 9 9 1)

def execBstatFullService (s : State) : Host.Outcome State Fault Refusal :=
  device s fun
    | .bstatFullService v => some (fullService v s)
    | _ => none

/-- RESET: every register at its reset value, nothing resident. The cycle and the counter of free values go on, the monotonic
storage and memory keep what they hold (R420, R421). (log 66, DEDUCED) -/
def resetPackage (s : State) : State :=
  { State.reset with
    cycle := s.cycle, free := s.free, mem := s.mem
    coh := { State.reset.coh with ue := s.coh.ue }
    pkg := { Package.reset with
      power := s.pkg.power, image := s.pkg.image, reports := s.pkg.reports
      clusters := (upto 96).map (fun c => (c, { ClusterState.fresh with idleSince := s.cycle })) } }

/-- A reading of the rules (log 66, DEDUCED). -/
def execReset (s : State) : Host.Outcome State Fault Refusal :=
  device s fun
    | .reset => some (resetPackage s)
    | _ => none

/-- PCAP: 600 to 2,400 watts (R423). -/
def execPcapWrite (s : State) : Host.Outcome State Fault Refusal :=
  device s fun
    | .pcapWrite v => some (if 600 ≤ v.toNat ∧ v.toNat ≤ 2400 then s.modPkg (fun k => { k with pcap := v }) else s)
    | _ => none

/-- One step of the core clock of every die: 25 MHz, between 350 and 700; THRC counts the steps down (R423). Reduced service
stays at its clock (R422). -/
def clockStep (down : Bool) (s : State) : State :=
  let k := s.pkg
  if down then
    (if k.dies.any (fun d => decide (375 ≤ d.mhz)) then noteClocks (s.modPkg (fun k => { k with
      dies := k.dies.map (fun d => if 375 ≤ d.mhz then { d with mhz := d.mhz - 25 } else d), thrc := satInc k.thrc }))
    else s)
  else if s.reduced then s
  else noteClocks (s.modPkg (fun k => { k with
    dies := k.dies.map (fun d => if d.mhz + 25 ≤ 700 then { d with mhz := d.mhz + 25 } else d) }))

def execClockStep (s : State) : Host.Outcome State Fault Refusal :=
  device s fun
    | .clockStep down => some (clockStep down s)
    | _ => none

/-- 105 °C: issue stops on every core (R425). (log 67, DEDUCED) -/
def thermalTrip (s : State) : State :=
  setBstat (s.modPkg (fun k => { k with thermal := some (k.thermal.getD s.cycle) })) (fun v => setBits v 11 11 1)

def execThermalTrip (s : State) : Host.Outcome State Fault Refusal :=
  device s fun
    | .thermalTrip => some (thermalTrip s)
    | _ => none

/-- A path that holds its port, once issue goes on: its run clock has stood still for `held` cycles. (log 67, DEDUCED) -/
def Path.thaw (p : Path) (held cycle : Nat) : Path :=
  match p.wait with
  | .issuing | .holding _ =>
    if p.run.paired then { p with run := { p.run with last := p.run.last + held } }
    else { p with run := { p.run with base := max p.run.base cycle } }
  | _ => p

/-- Below 95 °C: issue goes on; the held cycles are parking and no stall (R425). (log 67, DEDUCED) -/
def thermalResume (s : State) : State :=
  match s.pkg.thermal with
  | some since =>
    let s := { s with blocks := s.blocks.map (fun (e : Nat × Block) =>
      (e.1, { e.2 with paths := e.2.paths.map (fun (x : Nat × Path) => (x.1, x.2.thaw (s.cycle - since) s.cycle)) })) }
    setBstat (s.modPkg (fun k => { k with thermal := none })) (fun v => setBits v 11 11 0)
  | none => s

def execThermalResume (s : State) : Host.Outcome State Fault Refusal :=
  device s fun
    | .thermalResume => some (thermalResume s)
    | _ => none

/-! The fabric's ports (R417) -/

def portOf (s : State) (port : Nat) : Bool × Word := tgetD s.pkg.ports port (false, 0)

/-- A flit is sent again, and the port counts it. -/
def flitReplay (port : Nat) (s : State) : State :=
  s.modPkg (fun k => { k with ports := tset k.ports port ((portOf s port).1, (portOf s port).2 + 1) })

def execFlitReplay (s : State) : Host.Outcome State Fault Refusal :=
  device s fun
    | .flitReplay port => some (flitReplay port s)
    | _ => none

/-- A port that fails training carries nothing. -/
def portTraining (port : Nat) (ok : Bool) (s : State) : State :=
  s.modPkg (fun k => { k with ports := tset k.ports port (ok, (portOf s port).2) })

def execFabricPortTraining (s : State) : Host.Outcome State Fault Refusal :=
  device s fun
    | .fabricPortTraining port ok => some (portTraining port ok s)
    | _ => none

end Sys2Proof.Machine
end

