-- ==== Sys2Proof/Machine/Stack.lean ====
section
/-! DEFINITION. STK and LOC: stack shuffles and named tiers (R182-R186). -/

namespace Sys2Proof.Machine

/-- A shuffle: cells needed, cells removed and added, the new top as positions of the old stack from the top down. Each
written cell is a move (R95, R183). -/
structure Shuffle where
  need : Nat
  pops : Nat
  new : List Nat

def Shuffle.after (f : Shuffle) (d : Nat) : Nat := d - f.pops + f.new.length

/-- Positions whose cell changes are moves; a cell written where it stood keeps its mark. -/
def Shuffle.run (f : Shuffle) : StackFn := fun e ceil st =>
  (checkDepth st.length f.need f.pops f.new.length ceil).map fun _ =>
    (f.new.map (fun p => e.move (st.getD p (.ofWord 0)))) ++ st.drop f.pops

def shuffle (i : Instr) (h : Hdr) (f : Shuffle) (extra : Nat) (s : State) : Host.Outcome State Fault Refusal :=
  issue i h { scopes := laneWarp }
    (stackForm h f.after 1 (fun _ => extra) f.run) s

/-- dup (R182). -/
def execDup (h : Hdr) (s : State) : Host.Outcome State Fault Refusal := shuffle (.dup h) h ⟨1, 0, [0]⟩ 0 s
/-- dup2 (R182). -/
def execDup2 (h : Hdr) (s : State) : Host.Outcome State Fault Refusal := shuffle (.dup2 h) h ⟨2, 0, [0, 1]⟩ 0 s
/-- drop (R182). -/
def execDrop (h : Hdr) (s : State) : Host.Outcome State Fault Refusal := shuffle (.drop h) h ⟨1, 1, []⟩ 0 s
/-- dropn (R182). -/
def execDropn (h : Hdr) (n : Byte) (s : State) : Host.Outcome State Fault Refusal :=
  shuffle (.dropn h n) h ⟨n.toNat, n.toNat, []⟩ 0 s
/-- swap (R182). -/
def execSwap (h : Hdr) (s : State) : Host.Outcome State Fault Refusal := shuffle (.swap h) h ⟨2, 2, [1, 0]⟩ 0 s
/-- swap2 (R182). -/
def execSwap2 (h : Hdr) (s : State) : Host.Outcome State Fault Refusal := shuffle (.swap2 h) h ⟨4, 4, [2, 3, 0, 1]⟩ 0 s
/-- over (R182). -/
def execOver (h : Hdr) (s : State) : Host.Outcome State Fault Refusal := shuffle (.over h) h ⟨2, 0, [1]⟩ 0 s
/-- nip (R182). -/
def execNip (h : Hdr) (s : State) : Host.Outcome State Fault Refusal := shuffle (.nip h) h ⟨2, 2, [0]⟩ 0 s
/-- tuck (R182). -/
def execTuck (h : Hdr) (s : State) : Host.Outcome State Fault Refusal := shuffle (.tuck h) h ⟨2, 2, [0, 1, 0]⟩ 0 s
/-- rot (R182). -/
def execRot (h : Hdr) (s : State) : Host.Outcome State Fault Refusal := shuffle (.rot h) h ⟨3, 3, [2, 0, 1]⟩ 0 s
/-- pick (R182, R183). -/
def execPick (h : Hdr) (n : Byte) (s : State) : Host.Outcome State Fault Refusal :=
  shuffle (.pick h n) h ⟨n.toNat + 1, 0, [n.toNat]⟩ 0 s
/-- roll: every backing cell from position 8 to position n is rewritten; `roll #0` changes nothing (R183). -/
def execRoll (h : Hdr) (n : Byte) (s : State) : Host.Outcome State Fault Refusal :=
  shuffle (.roll h n) h (if n = 0 then ⟨1, 0, []⟩ else ⟨n.toNat + 1, n.toNat + 1, n.toNat :: upto n.toNat⟩)
    (n.toNat + 1 - 8) s

/-- depth: a new value, the depth before the instruction (R183). -/
def depthFn : StackFn := fun e ceil st =>
  (checkDepth st.length 0 0 1 ceil).map fun _ => e.result 1 (.clean (wd st.length)) :: st

def execDepth (h : Hdr) (s : State) : Host.Outcome State Fault Refusal :=
  issue (.depth h) h { scopes := laneWarp } (stackForm h (· + 1) 1 (fun _ => 0) depthFn) s

/-! LOC -/

/-- A lane-scope move with a tier (R134, R135, R141, R148, R185). -/
def Loc.onLane (l : Loc) (c : Ctx) (tier : Tier) (k : Nat) (t : Thread) : LaneRes Thread :=
  let ceil := laneCeil c.b c.p
  match tier with
  | .t => (l.onStack k c.env ceil t.stack).map t.withStack
  | .o =>
    (checkDepth t.stack.length l.need l.pops l.pushes ceil).bind fun _ =>
      if c.p.finder then .path { cause := 0x0B }
      else (l.onCells k c.env ceil t.stack t.o).map fun r => { t.withStack r.1 with o := r.2 }
  | .m =>
    (checkDepth t.stack.length l.need l.pops l.pushes ceil).bind fun _ =>
      if c.p.finder then .path { cause := 0x0B }
      else if c.b.frame ≤ k then .path { cause := 0x0B, addr := k }
      else (l.onCells k c.env ceil t.stack t.m).map fun r => { t.withStack r.1 with m := r.2 }
  | .w =>
    (checkDepth t.stack.length l.need l.pops l.pushes ceil).bind fun _ =>
      let cell := c.p.w.getD k (.ofWord 0)
      if cell.hi.isSome then .path { cause := 0x08 } else .ok (t.withStack (c.env.move cell :: t.stack))

/-- A warp-scope move with the uniform stack or the w file (R185). -/
def Loc.onPath (l : Loc) (c : Ctx) (tier : Tier) (k : Nat) : LaneRes Path :=
  match tier with
  | .t => (l.onStack k c.env 8 c.p.ust).map fun st => { c.p with ust := st }
  | _ => (l.onCells k c.env 8 c.p.ust c.p.w).map fun r => { c.p with ust := r.1, w := r.2 }

def Loc.instr (l : Loc) (h : Hdr) (tier : Tier) (idx : Byte) : Instr :=
  match l with
  | .push => .push h tier idx
  | .pop => .pop h tier idx
  | .keep => .keep h tier idx
  | .xch => .xch h tier idx

/-- TIER against scope (R172, R185): what raises cause 0x0D. -/
def locRefused (h : Hdr) (tier : Tier) (writes : Bool) : Bool :=
  match h.sc, tier with
  | .lane, .w => writes
  | .lane, _ => false
  | .warp, .o | .warp, .m => true
  | .warp, _ => false
  | .set, .o => false
  | _, _ => true

def locBody (l : Loc) (h : Hdr) (tier : Tier) (idx : Byte) (s : State) (c : Ctx) : State :=
  let k := idx.toNat
  if locRefused h tier l.writes then trapPath s c { cause := 0x0D }
  else
    match h.sc with
    | .lane =>
      let d := laneDepth c.b c.p
      let x := transfers d (d - l.pops + l.pushes) + (if tier = .m ∧ l.writes then 1 else 0)
      finishLanes s c h (perLane c (fun _ t => l.onLane c tier k t))
        { pc := c.next, ready := c.env.slot + 1, xfer := x }
    | .warp => finishPath s c h (l.onPath c tier k) { pc := c.next, ready := c.env.slot + 1 }
    | _ => meet (l.instr h tier idx) h 0 l.need (l.pushes - l.pops) 0 s c

def loc (l : Loc) (h : Hdr) (tier : Tier) (idx : Byte) (s : State) : Host.Outcome State Fault Refusal :=
  issue (l.instr h tier idx) h
    { scopes := [.lane, .warp, .set] }
    (locBody l h tier idx) s

/-- push (R184). -/
def execPush (h : Hdr) (tier : Tier) (idx : Byte) (s : State) : Host.Outcome State Fault Refusal := loc .push h tier idx s
/-- pop (R184). -/
def execPop (h : Hdr) (tier : Tier) (idx : Byte) (s : State) : Host.Outcome State Fault Refusal := loc .pop h tier idx s
/-- keep (R184). -/
def execKeep (h : Hdr) (tier : Tier) (idx : Byte) (s : State) : Host.Outcome State Fault Refusal := loc .keep h tier idx s
/-- xch (R184). -/
def execXch (h : Hdr) (tier : Tier) (idx : Byte) (s : State) : Host.Outcome State Fault Refusal := loc .xch h tier idx s

/-- pushi: a new value, never poisoned, ready at its slot + 1 (R186). -/
def execPushi (h : Hdr) (ty : RTy) (imm : Byte) (s : State) : Host.Outcome State Fault Refusal :=
  issue (.pushi h ty imm) h { scopes := laneWarp }
    (stackForm h (· + 1) 1 (fun _ => 0) fun e ceil st =>
      (checkDepth st.length 0 0 1 ceil).map fun _ => e.result 1 (.clean (constOf ty imm)) :: st) s

/-- `n` cells from an index, the last on top (R184). -/
def pushCells (e : Env) (cells : List Cell) (k n : Nat) (st : List Cell) : List Cell :=
  ((cells.drop k).take n).foldl (fun st c => e.move c :: st) st

/-- The top `n` cells into the named cells, the deepest at the index (R184). -/
def popCells (e : Env) (cells : List Cell) (k n : Nat) (st : List Cell) : List Cell :=
  cells.take k ++ ((st.take n).reverse.map e.move) ++ cells.drop (k + n)

/-- pushn and popn in a lane: depth, then the tier of a finder warp, FRAME, then divided cells (R138, R141, R173).
Of several cells beyond FRAME the first is named. (log 85, DESIGN CHOICE) -/
def spanLane (isPop : Bool) (c : Ctx) (tier : Tier) (k n : Nat) (t : Thread) : LaneRes Thread :=
  let ceil := laneCeil c.b c.p
  (checkDepth t.stack.length (if isPop then n else 0) (if isPop then n else 0) (if isPop then 0 else n) ceil).bind
    fun _ =>
      if c.p.finder && (tier == .o || tier == .m) then .path { cause := 0x0B }
      else if tier = .m ∧ c.b.frame < k + n then .path { cause := 0x0B, addr := max k c.b.frame }
      else
        let cells := match tier with
          | .o => t.o
          | .m => t.m
          | _ => c.p.w
        if tier = .w ∧ ((cells.drop k).take n).any (fun x => x.hi.isSome) then .path { cause := 0x08 }
        else if isPop then
          let new := popCells c.env cells k n t.stack
          let t := t.withStack (t.stack.drop n)
          .ok (if tier = .o then { t with o := new } else { t with m := new })
        else .ok (t.withStack (pushCells c.env cells k n t.stack))

def spanPath (isPop : Bool) (c : Ctx) (k n : Nat) : LaneRes Path :=
  (checkDepth c.p.ust.length (if isPop then n else 0) (if isPop then n else 0) (if isPop then 0 else n) 8).map fun _ =>
    if isPop then { c.p with w := popCells c.env c.p.w k n c.p.ust, ust := c.p.ust.drop n }
    else { c.p with ust := pushCells c.env c.p.w k n c.p.ust }

def spanBody (isPop : Bool) (h : Hdr) (tier : Tier) (k n : Nat) (s : State) (c : Ctx) : State :=
  if locRefused h tier isPop then trapPath s c { cause := 0x0D }
  else
    match h.sc with
    | .lane =>
      let d := laneDepth c.b c.p
      let x := transfers d (if isPop then d - n else d + n) + (if isPop ∧ tier = .m then n else 0)
      finishLanes s c h (perLane c (fun _ t => spanLane isPop c tier k n t))
        { pc := c.next, ready := c.env.slot + 1, xfer := x }
    | _ => finishPath s c h (spanPath isPop c k n) { pc := c.next, ready := c.env.slot + 1 }

/-- pushn (R184). -/
def execPushn (h : Hdr) (tier : Tier) (idx n : Byte) (s : State) : Host.Outcome State Fault Refusal :=
  issue (.pushn h tier idx n) h { scopes := laneWarp }
    (spanBody false h tier idx.toNat n.toNat) s

/-- popn (R184). -/
def execPopn (h : Hdr) (tier : Tier) (idx n : Byte) (s : State) : Host.Outcome State Fault Refusal :=
  issue (.popn h tier idx n) h { scopes := laneWarp }
    (spanBody true h tier idx.toNat n.toNat) s

end Sys2Proof.Machine
end

