-- ==== Sys2Proof/Machine/Sys.lean ====
section
/-! DEFINITION. SYS: system forms (R176-R181, R73). -/

namespace Sys2Proof.Machine

/-- An instruction without effect beyond its end. -/
def plainEnd (h : Hdr) (s : State) (c : Ctx) : State := retire s c h { pc := c.next }

/-- nop: nothing; at set or block scope the rendezvous and nothing else (R10, R76, R177). -/
def execNop (h : Hdr) (wm : BitVec 4) (s : State) : Host.Outcome State Fault Refusal :=
  issue (.nop h wm) h { scopes := [.lane, .warp, .set, .blk] }
    (fun s c => if h.sc.meets then meet (.nop h wm) h wm 0 0 0 s c else plainEnd h s c) s

/-- trap: cause 0x15 with n and bit 8 (R177). -/
def execTrap (h : Hdr) (n : Byte) (wm : BitVec 4) (s : State) : Host.Outcome State Fault Refusal :=
  issue (.trap h n wm) h { scopes := [.lane] } (fun s c => trapPath s c { cause := 0x15, addr := 256 + n.toNat }) s

/-- brk: cause 0x15 with n (R177). -/
def execBrk (h : Hdr) (n : Byte) (wm : BitVec 4) (s : State) : Host.Outcome State Fault Refusal :=
  issue (.brk h n wm) h { scopes := [.lane] } (fun s c => trapPath s c { cause := 0x15, addr := n.toNat }) s

/-- yield: the boundary that closes the run is a yield point; nothing in a finder warp (R178). -/
def execYield (h : Hdr) (wm : BitVec 4) (s : State) : Host.Outcome State Fault Refusal :=
  issue (.yield h wm) h { scopes := laneWarp } (fun s c => retire s c h { pc := c.next, yieldPt := !c.p.finder }) s

/-- The value of a selector for a thread of a block (R73, R180). -/
def selectorValue (s : State) (c : Ctx) (key : Nat) (t : Thread) : Sel → Word
  | .lane => wd (lanePos key)
  | .quad => wd (lanePos key / 4)
  | .warp => wd (homeWarp key)
  | .set => wd (homeWarp key / c.b.setSize + 256 * c.b.setSize)
  | .block => wd c.b.launch.ident
  | .gang => wd (c.b.member + 16 * ((if c.b.isLoop then 1 else c.b.gangSize) - 1))
  | .batch => c.b.launch.batch.zeroExtend 32
  | .record => t.handle
  | .depth => wd t.stack.length
  | .udepth => wd c.p.ust.length
  | .core => wd c.b.place.core
  | .clus => wd (s.logical c.b.place.clus)
  | .stall => tgetD c.b.stall (homeWarp key + 32 * b2n c.p.finder) 0
  | .cpwp k => ((tget c.b.chans k.toNat).map (·.wptr)).getD 0

/-- `get cpwp` is long-latency; every other selector has latency 2 (R94). -/
def Sel_long : Sel → Bool
  | .cpwp _ => true
  | _ => false

/-- Selectors that a warp-scope `get` refuses (R180). -/
def selRefused (p : Path) : Sel → Bool
  | .lane | .quad | .record => true
  | .warp | .stall => p.formed
  | _ => false

/-- get after the checks of issue; a formed warp's `set` is the one of its lowest lane's home warp (R180).
(log 85, DESIGN CHOICE) -/
def getBody (h : Hdr) (sel : Sel) (s : State) (c : Ctx) : State :=
  let mk := fun (v : Word) => if Sel_long sel then c.env.longResult (.clean v) else c.env.result 2 (.clean v)
  let ret : Retire := { pc := c.next, ready := if Sel_long sel then 0 else c.env.slot + 2, owed := b2n (Sel_long sel) }
  if h.sc = .lane then
    let d := laneDepth c.b c.p
    finishLanes s c h (perLane c (fun k t =>
      (checkDepth t.stack.length 0 0 1 (laneCeil c.b c.p)).map
        (fun _ => t.withStack (mk (selectorValue s c k t sel) :: t.stack)))) { ret with xfer := transfers d (d + 1) }
  else if selRefused c.p sel then trapPath s c { cause := 0x0D }
  else
    match c.b.lanesOf c.p.lanes with
    | [] => s
    | e :: _ =>
      let v := if sel = .depth then wd (laneDepth c.b c.p) else selectorValue s c e.1 e.2 sel
      finishPath s c h ((checkDepth c.p.ust.length 0 0 1 8).map (fun _ => { c.p with ust := mk v :: c.p.ust })) ret

/-- get (R180). -/
def execGet (h : Hdr) (sel : Sel) (wm : BitVec 4) (s : State) : Host.Outcome State Fault Refusal :=
  issue (.get h sel wm) h { scopes := laneWarp } (getBody h sel) s

/-- put after the checks of issue; a scope that its selector refuses comes before the depth (R138, R181).
(log 85, DESIGN CHOICE) -/
def putBody (h : Hdr) (s : State) (c : Ctx) : State :=
  if c.p.formed then trapPath s c { cause := 0x0D }
  else
    match ((checkDepth c.p.ust.length 1 1 0 8).bind fun _ =>
      (consume c.env (c.p.ust.take 1)).bind fun vs => (refusePoison vs).map fun _ => vs) with
    | .ok [v] =>
      let s := finishPath s c h (.ok { c.p with ust := c.p.ust.drop 1 }) { pc := c.next }
      s.modBlock c.bid (fun b => { b with stall := tset b.stall (c.p.warp + 32 * b2n c.p.finder) v.bits })
    | .ok _ => s
    | .path t => trapPath s c t
    | .lane t => trapPath s c t

/-- put.warp stall (R181). -/
def execPut (h : Hdr) (wm : BitVec 4) (s : State) : Host.Outcome State Fault Refusal :=
  issue (.put h wm) h { scopes := [.warp] } (putBody h) s

/-- sleep: the closing boundary is held 16 × n cycles at least (R179). -/
def execSleep (h : Hdr) (n : Byte) (wm : BitVec 4) (s : State) : Host.Outcome State Fault Refusal :=
  issue (.sleep h n wm) h { scopes := laneWarp } (fun s c => retire s c h { pc := c.next, sleep := 16 * n.toNat }) s

end Sys2Proof.Machine
end

