-- ==== Sys2Proof/Machine/Transcend.lean ====
section
/-! DEFINITION. TRN: transcendental functions, every result correctly rounded (R203, R204). -/

namespace Sys2Proof.Machine

/-- A function applied to the f32, or to each half, and rounded once to the result format (R204). -/
def trnFn (ty : FTy) (g : Fmt → FVal → Nat) (a : Word) : Word :=
  match ty with
  | .f32 => wd (g .f32 (f32 a))
  | .bf16x2 => half1 (g .bf16) a

/-- rcp (R203, R204). -/
def execTrnRcp (h : Hdr) (ty : FTy) (k : Option Byte) (s : State) : Host.Outcome State Fault Refusal :=
  fpu (.trnRcp h ty k) h (.flt ty 1 12 k (fn1 (trnFn ty (fun f v => f.div .rn (.fin false 1 0) v)))) s

/-- rsq (R203, R204). -/
def execTrnRsq (h : Hdr) (ty : FTy) (k : Option Byte) (s : State) : Host.Outcome State Fault Refusal :=
  fpu (.trnRsq h ty k) h (.flt ty 1 12 k (fn1 (trnFn ty (Fmt.rsqrt)))) s

/-- ex2 (R203, R204). -/
def execTrnEx2 (h : Hdr) (ty : FTy) (k : Option Byte) (s : State) : Host.Outcome State Fault Refusal :=
  fpu (.trnEx2 h ty k) h (.flt ty 1 12 k (fn1 (trnFn ty (Fmt.ex2)))) s

/-- lg2 (R203, R204). -/
def execTrnLg2 (h : Hdr) (ty : FTy) (k : Option Byte) (s : State) : Host.Outcome State Fault Refusal :=
  fpu (.trnLg2 h ty k) h (.flt ty 1 12 k (fn1 (trnFn ty (Fmt.lg2)))) s

/-- sinp (R203, R204). -/
def execTrnSinp (h : Hdr) (ty : FTy) (k : Option Byte) (s : State) : Host.Outcome State Fault Refusal :=
  fpu (.trnSinp h ty k) h (.flt ty 1 12 k (fn1 (trnFn ty (Fmt.sinp)))) s

/-- cosp (R203, R204). -/
def execTrnCosp (h : Hdr) (ty : FTy) (k : Option Byte) (s : State) : Host.Outcome State Fault Refusal :=
  fpu (.trnCosp h ty k) h (.flt ty 1 12 k (fn1 (trnFn ty (Fmt.cosp)))) s

/-- tanh (R203, R204). -/
def execTrnTanh (h : Hdr) (ty : FTy) (k : Option Byte) (s : State) : Host.Outcome State Fault Refusal :=
  fpu (.trnTanh h ty k) h (.flt ty 1 12 k (fn1 (trnFn ty (Fmt.tanh)))) s

/-- sigm (R203, R204). -/
def execTrnSigm (h : Hdr) (ty : FTy) (k : Option Byte) (s : State) : Host.Outcome State Fault Refusal :=
  fpu (.trnSigm h ty k) h (.flt ty 1 12 k (fn1 (trnFn ty (Fmt.sigm)))) s

end Sys2Proof.Machine
end

