-- ==== Sys2Proof/Machine/Dispatch.lean ====
section
/-! DEFINITION. The meaning of every row of the operation table, one direct call per arm. -/

namespace Sys2Proof.Machine

def exec (i : Instr) (s : State) : Host.Outcome State Fault Refusal :=
  match i with
  | .iarAdd h ty sat k => Sys2Proof.Machine.execIarAdd h ty sat k s
  | .iarSub h ty sat k => Sys2Proof.Machine.execIarSub h ty sat k s
  | .iarMul h ty sat k => Sys2Proof.Machine.execIarMul h ty sat k s
  | .iarMulhi h ty k => Sys2Proof.Machine.execIarMulhi h ty k s
  | .iarMad h ty sat k => Sys2Proof.Machine.execIarMad h ty sat k s
  | .iarNeg h ty sat k => Sys2Proof.Machine.execIarNeg h ty sat k s
  | .iarAbs h ty sat k => Sys2Proof.Machine.execIarAbs h ty sat k s
  | .iarMin h ty k => Sys2Proof.Machine.execIarMin h ty k s
  | .iarMax h ty k => Sys2Proof.Machine.execIarMax h ty k s
  | .iarClamp h ty k => Sys2Proof.Machine.execIarClamp h ty k s
  | .iarDiv h ty k => Sys2Proof.Machine.execIarDiv h ty k s
  | .iarRem h ty k => Sys2Proof.Machine.execIarRem h ty k s
  | .farAdd h rm sat k => Sys2Proof.Machine.execFarAdd h rm sat k s
  | .farSub h rm sat k => Sys2Proof.Machine.execFarSub h rm sat k s
  | .farMul h rm sat k => Sys2Proof.Machine.execFarMul h rm sat k s
  | .farFma h rm sat k => Sys2Proof.Machine.execFarFma h rm sat k s
  | .farNeg h rm k => Sys2Proof.Machine.execFarNeg h rm k s
  | .farAbs h rm k => Sys2Proof.Machine.execFarAbs h rm k s
  | .farMin h rm k => Sys2Proof.Machine.execFarMin h rm k s
  | .farMax h rm k => Sys2Proof.Machine.execFarMax h rm k s
  | .farClamp h rm k => Sys2Proof.Machine.execFarClamp h rm k s
  | .farCsgn h rm k => Sys2Proof.Machine.execFarCsgn h rm k s
  | .farDiv h rm k => Sys2Proof.Machine.execFarDiv h rm k s
  | .farSqrt h rm k => Sys2Proof.Machine.execFarSqrt h rm k s
  | .farRint h rm k => Sys2Proof.Machine.execFarRint h rm k s
  | .farFract h rm k => Sys2Proof.Machine.execFarFract h rm k s
  | .farLdexp h rm k => Sys2Proof.Machine.execFarLdexp h rm k s
  | .farExpo h rm k => Sys2Proof.Machine.execFarExpo h rm k s
  | .pairAdd h rm sat k => Sys2Proof.Machine.execPairAdd h rm sat k s
  | .pairSub h rm sat k => Sys2Proof.Machine.execPairSub h rm sat k s
  | .pairMul h rm sat k => Sys2Proof.Machine.execPairMul h rm sat k s
  | .pairFma h rm sat k => Sys2Proof.Machine.execPairFma h rm sat k s
  | .pairNeg h rm k => Sys2Proof.Machine.execPairNeg h rm k s
  | .pairAbs h rm k => Sys2Proof.Machine.execPairAbs h rm k s
  | .pairMin h rm k => Sys2Proof.Machine.execPairMin h rm k s
  | .pairMax h rm k => Sys2Proof.Machine.execPairMax h rm k s
  | .pairDot2 h rm sat k => Sys2Proof.Machine.execPairDot2 h rm sat k s
  | .cvt h src dst rm sat k => Sys2Proof.Machine.execCvt h src dst rm sat k s
  | .pack h rm sat k => Sys2Proof.Machine.execPack h rm sat k s
  | .unlo h rm k => Sys2Proof.Machine.execUnlo h rm k s
  | .unhi h rm k => Sys2Proof.Machine.execUnhi h rm k s
  | .qround h slot rm sat k => Sys2Proof.Machine.execQround h slot rm sat k s
  | .cmpEq h ty k => Sys2Proof.Machine.execCmpEq h ty k s
  | .cmpNe h ty k => Sys2Proof.Machine.execCmpNe h ty k s
  | .cmpLt h ty k => Sys2Proof.Machine.execCmpLt h ty k s
  | .cmpLe h ty k => Sys2Proof.Machine.execCmpLe h ty k s
  | .cmpGt h ty k => Sys2Proof.Machine.execCmpGt h ty k s
  | .cmpGe h ty k => Sys2Proof.Machine.execCmpGe h ty k s
  | .cmpOrd h ty k => Sys2Proof.Machine.execCmpOrd h ty k s
  | .cmpUnord h ty k => Sys2Proof.Machine.execCmpUnord h ty k s
  | .sel h ty k => Sys2Proof.Machine.execSel h ty k s
  | .fclass h ty mask => Sys2Proof.Machine.execFclass h ty mask s
  | .bitAnd h ty k => Sys2Proof.Machine.execBitAnd h ty k s
  | .bitOr h ty k => Sys2Proof.Machine.execBitOr h ty k s
  | .bitXor h ty k => Sys2Proof.Machine.execBitXor h ty k s
  | .bitNot h ty k => Sys2Proof.Machine.execBitNot h ty k s
  | .bitAndn h ty k => Sys2Proof.Machine.execBitAndn h ty k s
  | .bitShl h ty k => Sys2Proof.Machine.execBitShl h ty k s
  | .bitShr h ty k => Sys2Proof.Machine.execBitShr h ty k s
  | .bitSar h ty k => Sys2Proof.Machine.execBitSar h ty k s
  | .bitRot h ty k => Sys2Proof.Machine.execBitRot h ty k s
  | .bitPopc h ty k => Sys2Proof.Machine.execBitPopc h ty k s
  | .bitClz h ty k => Sys2Proof.Machine.execBitClz h ty k s
  | .bitCtz h ty k => Sys2Proof.Machine.execBitCtz h ty k s
  | .bitBfe h ty k => Sys2Proof.Machine.execBitBfe h ty k s
  | .bitBfi h ty k => Sys2Proof.Machine.execBitBfi h ty k s
  | .bitBrev h ty k => Sys2Proof.Machine.execBitBrev h ty k s
  | .bitLop3 h ty table => Sys2Proof.Machine.execBitLop3 h ty table s
  | .trnRcp h ty k => Sys2Proof.Machine.execTrnRcp h ty k s
  | .trnRsq h ty k => Sys2Proof.Machine.execTrnRsq h ty k s
  | .trnEx2 h ty k => Sys2Proof.Machine.execTrnEx2 h ty k s
  | .trnLg2 h ty k => Sys2Proof.Machine.execTrnLg2 h ty k s
  | .trnSinp h ty k => Sys2Proof.Machine.execTrnSinp h ty k s
  | .trnCosp h ty k => Sys2Proof.Machine.execTrnCosp h ty k s
  | .trnTanh h ty k => Sys2Proof.Machine.execTrnTanh h ty k s
  | .trnSigm h ty k => Sys2Proof.Machine.execTrnSigm h ty k s
  | .mul24 h ty k => Sys2Proof.Machine.execMul24 h ty k s
  | .mad24 h ty sat k => Sys2Proof.Machine.execMad24 h ty sat k s
  | .fdot4 h ty sat k => Sys2Proof.Machine.execFdot4 h ty sat k s
  | .dup h => Sys2Proof.Machine.execDup h s
  | .dup2 h => Sys2Proof.Machine.execDup2 h s
  | .drop h => Sys2Proof.Machine.execDrop h s
  | .dropn h n => Sys2Proof.Machine.execDropn h n s
  | .swap h => Sys2Proof.Machine.execSwap h s
  | .swap2 h => Sys2Proof.Machine.execSwap2 h s
  | .over h => Sys2Proof.Machine.execOver h s
  | .nip h => Sys2Proof.Machine.execNip h s
  | .tuck h => Sys2Proof.Machine.execTuck h s
  | .rot h => Sys2Proof.Machine.execRot h s
  | .pick h n => Sys2Proof.Machine.execPick h n s
  | .roll h n => Sys2Proof.Machine.execRoll h n s
  | .depth h => Sys2Proof.Machine.execDepth h s
  | .push h tier idx => Sys2Proof.Machine.execPush h tier idx s
  | .pop h tier idx => Sys2Proof.Machine.execPop h tier idx s
  | .keep h tier idx => Sys2Proof.Machine.execKeep h tier idx s
  | .xch h tier idx => Sys2Proof.Machine.execXch h tier idx s
  | .pushi h ty imm => Sys2Proof.Machine.execPushi h ty imm s
  | .pushn h tier idx n => Sys2Proof.Machine.execPushn h tier idx n s
  | .popn h tier idx n => Sys2Proof.Machine.execPopn h tier idx n s
  | .bra h off => Sys2Proof.Machine.execBra h off s
  | .bz h off => Sys2Proof.Machine.execBz h off s
  | .bnz h off => Sys2Proof.Machine.execBnz h off s
  | .call h off => Sys2Proof.Machine.execCall h off s
  | .ret h => Sys2Proof.Machine.execRet h s
  | .jx h => Sys2Proof.Machine.execJx h s
  | .exit h => Sys2Proof.Machine.execExit h s
  | .fork h off => Sys2Proof.Machine.execFork h off s
  | .join h d => Sys2Proof.Machine.execJoin h d s
  | .reform h d => Sys2Proof.Machine.execReform h d s
  | .rehome h => Sys2Proof.Machine.execRehome h s
  | .umerge h p => Sys2Proof.Machine.execUmerge h p s
  | .nop h wm => Sys2Proof.Machine.execNop h wm s
  | .trap h n wm => Sys2Proof.Machine.execTrap h n wm s
  | .brk h n wm => Sys2Proof.Machine.execBrk h n wm s
  | .yield h wm => Sys2Proof.Machine.execYield h wm s
  | .get h which wm => Sys2Proof.Machine.execGet h which wm s
  | .put h wm => Sys2Proof.Machine.execPut h wm s
  | .sleep h n wm => Sys2Proof.Machine.execSleep h n wm s
  | .qswp h p wm => Sys2Proof.Machine.execQswp h p wm s
  | .qbc h q wm => Sys2Proof.Machine.execQbc h q wm s
  | .qadd h ty wm => Sys2Proof.Machine.execQadd h ty wm s
  | .shfl h wm => Sys2Proof.Machine.execShfl h wm s
  | .shfx h m wm => Sys2Proof.Machine.execShfx h m wm s
  | .shup h d wm => Sys2Proof.Machine.execShup h d wm s
  | .shdn h d wm => Sys2Proof.Machine.execShdn h d wm s
  | .any h wm => Sys2Proof.Machine.execAny h wm s
  | .all h wm => Sys2Proof.Machine.execAll h wm s
  | .ballot h wm => Sys2Proof.Machine.execBallot h wm s
  | .matchLanes h wm => Sys2Proof.Machine.execMatchLanes h wm s
  | .wbc h q wm => Sys2Proof.Machine.execWbc h q wm s
  | .sync h wm => Sys2Proof.Machine.execSync h wm s
  | .arrive h wm => Sys2Proof.Machine.execArrive h wm s
  | .await h wm => Sys2Proof.Machine.execAwait h wm s
  | .red h ty op wm => Sys2Proof.Machine.execRed h ty op wm s
  | .scan h ty op wm => Sys2Proof.Machine.execScan h ty op wm s
  | .segred h ty op wm => Sys2Proof.Machine.execSegred h ty op wm s
  | .segscan h ty op wm => Sys2Proof.Machine.execSegscan h ty op wm s
  | .sbc h wm e => Sys2Proof.Machine.execSbc h wm e s
  | .ld h a acq hint => Sys2Proof.Machine.execLd h a acq hint s
  | .ldf h a acq hint => Sys2Proof.Machine.execLdf h a acq hint s
  | .ldsp h a acq hint => Sys2Proof.Machine.execLdsp h a acq hint s
  | .ldn h a acq hint n => Sys2Proof.Machine.execLdn h a acq hint n s
  | .qpop h n => Sys2Proof.Machine.execQpop h n s
  | .pref h a hint => Sys2Proof.Machine.execPref h a hint s
  | .st h a rel hint => Sys2Proof.Machine.execSt h a rel hint s
  | .stf h a rel hint => Sys2Proof.Machine.execStf h a rel hint s
  | .stsp h a rel hint => Sys2Proof.Machine.execStsp h a rel hint s
  | .stn h a rel hint n => Sys2Proof.Machine.execStn h a rel hint n s
  | .atom h a ord op => Sys2Proof.Machine.execAtom h a ord op s
  | .cas h a ord => Sys2Proof.Machine.execCas h a ord s
  | .ared h a ord op => Sys2Proof.Machine.execAred h a ord op s
  | .fence h ord => Sys2Proof.Machine.execFence h ord s
  | .fenceSc h => Sys2Proof.Machine.execFenceSc h s
  | .xfence h a b => Sys2Proof.Machine.execXfence h a b s
  | .cpy h ch src dst ro z => Sys2Proof.Machine.execCpy h ch src dst ro z s
  | .cpyo h ch src dst ro z => Sys2Proof.Machine.execCpyo h ch src dst ro z s
  | .cpwait h ch => Sys2Proof.Machine.execCpwait h ch s
  | .cpstat h ch => Sys2Proof.Machine.execCpstat h ch s
  | .gath h tag table dst z => Sys2Proof.Machine.execGath h tag table dst z s
  | .scat h tag table dst z => Sys2Proof.Machine.execScat h tag table dst z s
  | .gwait h tag => Sys2Proof.Machine.execGwait h tag s
  | .cred h ch buf res op => Sys2Proof.Machine.execCred h ch buf res op s
  | .cbc h ch buf res => Sys2Proof.Machine.execCbc h ch buf res s
  | .cag h ch buf res => Sys2Proof.Machine.execCag h ch buf res s
  | .cwait h ch => Sys2Proof.Machine.execCwait h ch s
  | .csend h ch buf => Sys2Proof.Machine.execCsend h ch buf s
  | .mtag h e => Sys2Proof.Machine.execMtag h e s
  | .emit h e => Sys2Proof.Machine.execEmit h e s
  | .recput h w => Sys2Proof.Machine.execRecput h w s
  | .commit h => Sys2Proof.Machine.execCommit h s
  | .abandon h => Sys2Proof.Machine.execAbandon h s
  | .recget h w => Sys2Proof.Machine.execRecget h w s
  | .smp h shape => Sys2Proof.Machine.execSmp h shape s
  | .swait h => Sys2Proof.Machine.execSwait h s
  | .sstat h => Sys2Proof.Machine.execSstat h s
  | .mma h u fs acc wb => Sys2Proof.Machine.execMma h u fs acc wb s
  | .mmas h u fs acc wb mask => Sys2Proof.Machine.execMmas h u fs acc wb mask s
  | .mtab h u fs => Sys2Proof.Machine.execMtab h u fs s
  | .mlut h two acc wb => Sys2Proof.Machine.execMlut h two acc wb s
  | .mclr h acc => Sys2Proof.Machine.execMclr h acc s
  | .mdrain h acc => Sys2Proof.Machine.execMdrain h acc s
  | .mdst h fs acc wb => Sys2Proof.Machine.execMdst h fs acc wb s
  | .mld h fs acc wb => Sys2Proof.Machine.execMld h fs acc wb s
  | .mchk h acc => Sys2Proof.Machine.execMchk h acc s
  | .spx h z shape => Sys2Proof.Machine.execSpx h z shape s
  | .tlbi h kind => Sys2Proof.Machine.execTlbi h kind s
  | .ctxs h => Sys2Proof.Machine.execCtxs h s
  | .ctxl h => Sys2Proof.Machine.execCtxl h s
  | .mapc h => Sys2Proof.Machine.execMapc h s
  | .rdbk h space => Sys2Proof.Machine.execRdbk h space s
  | .wrbk h space => Sys2Proof.Machine.execWrbk h space s
  | .unassignedCodePoint w => Sys2Proof.Machine.execUnassignedCodePoint w s
  | .nodeEnable => Sys2Proof.Machine.execNodeEnable s
  | .nodeDisable => Sys2Proof.Machine.execNodeDisable s
  | .commitArrival => Sys2Proof.Machine.execCommitArrival s
  | .coalescingTimerExpiry => Sys2Proof.Machine.execCoalescingTimerExpiry s
  | .launchDecision => Sys2Proof.Machine.execLaunchDecision s
  | .iterationEnd => Sys2Proof.Machine.execIterationEnd s
  | .loopReissue => Sys2Proof.Machine.execLoopReissue s
  | .blockRetire => Sys2Proof.Machine.execBlockRetire s
  | .fabricMessageArrival => Sys2Proof.Machine.execFabricMessageArrival s
  | .hostReserve => Sys2Proof.Machine.execHostReserve s
  | .hostCommit => Sys2Proof.Machine.execHostCommit s
  | .rendezvousComplete => Sys2Proof.Machine.execRendezvousComplete s
  | .transitProbeSend => Sys2Proof.Machine.execTransitProbeSend s
  | .waitCycleDetect => Sys2Proof.Machine.execWaitCycleDetect s
  | .binAged => Sys2Proof.Machine.execBinAged s
  | .warpFormation => Sys2Proof.Machine.execWarpFormation s
  | .rehomeRelease => Sys2Proof.Machine.execRehomeRelease s
  | .joinMerge => Sys2Proof.Machine.execJoinMerge s
  | .pathReady => Sys2Proof.Machine.execPathReady s
  | .portChoice => Sys2Proof.Machine.execPortChoice s
  | .resultReturn => Sys2Proof.Machine.execResultReturn s
  | .queueEntryArrival => Sys2Proof.Machine.execQueueEntryArrival s
  | .mainFileTransfer => Sys2Proof.Machine.execMainFileTransfer s
  | .sleepExpiry => Sys2Proof.Machine.execSleepExpiry s
  | .legacyRequestServe => Sys2Proof.Machine.execLegacyRequestServe s
  | .legacyQueueRoom => Sys2Proof.Machine.execLegacyQueueRoom s
  | .matrixQueueRoom => Sys2Proof.Machine.execMatrixQueueRoom s
  | .engineQueueRoom => Sys2Proof.Machine.execEngineQueueRoom s
  | .finderQueueRoom => Sys2Proof.Machine.execFinderQueueRoom s
  | .matrixPassStart => Sys2Proof.Machine.execMatrixPassStart s
  | .matrixPassEnd => Sys2Proof.Machine.execMatrixPassEnd s
  | .mmaPageCheckComplete => Sys2Proof.Machine.execMmaPageCheckComplete s
  | .mmaPageFault => Sys2Proof.Machine.execMmaPageFault s
  | .enginePageCheckComplete => Sys2Proof.Machine.execEnginePageCheckComplete s
  | .copyCommandComplete => Sys2Proof.Machine.execCopyCommandComplete s
  | .gatherCommandComplete => Sys2Proof.Machine.execGatherCommandComplete s
  | .collectiveOperationComplete => Sys2Proof.Machine.execCollectiveOperationComplete s
  | .csendComplete => Sys2Proof.Machine.execCsendComplete s
  | .engineHalt => Sys2Proof.Machine.execEngineHalt s
  | .samplerRequest => Sys2Proof.Machine.execSamplerRequest s
  | .programStageComplete => Sys2Proof.Machine.execProgramStageComplete s
  | .programBudgetExpiry => Sys2Proof.Machine.execProgramBudgetExpiry s
  | .dirRemoteLoad => Sys2Proof.Machine.execDirRemoteLoad s
  | .dirRemoteStore => Sys2Proof.Machine.execDirRemoteStore s
  | .dirHomeWrite => Sys2Proof.Machine.execDirHomeWrite s
  | .dirHomeLoad => Sys2Proof.Machine.execDirHomeLoad s
  | .dirEvict => Sys2Proof.Machine.execDirEvict s
  | .snoopFilterRecall => Sys2Proof.Machine.execSnoopFilterRecall s
  | .fabricAccessArrival => Sys2Proof.Machine.execFabricAccessArrival s
  | .hostAccess => Sys2Proof.Machine.execHostAccess s
  | .lmClean => Sys2Proof.Machine.execLmClean s
  | .lmInvalidate => Sys2Proof.Machine.execLmInvalidate s
  | .lmCleanInvalidate => Sys2Proof.Machine.execLmCleanInvalidate s
  | .lineMaintComplete => Sys2Proof.Machine.execLineMaintComplete s
  | .tlbiComplete => Sys2Proof.Machine.execTlbiComplete s
  | .preemptImmediate => Sys2Proof.Machine.execPreemptImmediate s
  | .preemptCooperative => Sys2Proof.Machine.execPreemptCooperative s
  | .preemptDeadlineExpiry => Sys2Proof.Machine.execPreemptDeadlineExpiry s
  | .vacateBegin => Sys2Proof.Machine.execVacateBegin s
  | .contextSwitchStep => Sys2Proof.Machine.execContextSwitchStep s
  | .preemptDone => Sys2Proof.Machine.execPreemptDone s
  | .blockRequeuePlace => Sys2Proof.Machine.execBlockRequeuePlace s
  | .tctlResume => Sys2Proof.Machine.execTctlResume s
  | .tctlResumeAt => Sys2Proof.Machine.execTctlResumeAt s
  | .tctlKill => Sys2Proof.Machine.execTctlKill s
  | .tctlStep => Sys2Proof.Machine.execTctlStep s
  | .tctlStepAll => Sys2Proof.Machine.execTctlStepAll s
  | .tctlHalt => Sys2Proof.Machine.execTctlHalt s
  | .stepComplete => Sys2Proof.Machine.execStepComplete s
  | .frtWrite => Sys2Proof.Machine.execFrtWrite s
  | .ertWrite => Sys2Proof.Machine.execErtWrite s
  | .contextDrop => Sys2Proof.Machine.execContextDrop s
  | .vfSave => Sys2Proof.Machine.execVfSave s
  | .vfRestore => Sys2Proof.Machine.execVfRestore s
  | .vfOperationComplete => Sys2Proof.Machine.execVfOperationComplete s
  | .pfmWrite => Sys2Proof.Machine.execPfmWrite s
  | .xmodeWrite => Sys2Proof.Machine.execXmodeWrite s
  | .graphRegisterWrite => Sys2Proof.Machine.execGraphRegisterWrite s
  | .partitionEnable => Sys2Proof.Machine.execPartitionEnable s
  | .pfselWrite => Sys2Proof.Machine.execPfselWrite s
  | .coreReleaseWrite => Sys2Proof.Machine.execCoreReleaseWrite s
  | .pcapWrite => Sys2Proof.Machine.execPcapWrite s
  | .bstatFullService => Sys2Proof.Machine.execBstatFullService s
  | .bindValidate => Sys2Proof.Machine.execBindValidate s
  | .attestationRequest => Sys2Proof.Machine.execAttestationRequest s
  | .irqsClear => Sys2Proof.Machine.execIrqsClear s
  | .prgrRead => Sys2Proof.Machine.execPrgrRead s
  | .registerWrite => Sys2Proof.Machine.execRegisterWrite s
  | .atsResponse => Sys2Proof.Machine.execAtsResponse s
  | .prgResponse => Sys2Proof.Machine.execPrgResponse s
  | .atsInvalidate => Sys2Proof.Machine.execAtsInvalidate s
  | .invalidateCompletion => Sys2Proof.Machine.execInvalidateCompletion s
  | .flitReplay => Sys2Proof.Machine.execFlitReplay s
  | .gangKill => Sys2Proof.Machine.execGangKill s
  | .gangRelaunch => Sys2Proof.Machine.execGangRelaunch s
  | .darkFrameTest => Sys2Proof.Machine.execDarkFrameTest s
  | .clusterIdleGate => Sys2Proof.Machine.execClusterIdleGate s
  | .powerGood => Sys2Proof.Machine.execPowerGood s
  | .bringupPhaseEnd => Sys2Proof.Machine.execBringupPhaseEnd s
  | .reset => Sys2Proof.Machine.execReset s
  | .clockStep => Sys2Proof.Machine.execClockStep s
  | .thermalTrip => Sys2Proof.Machine.execThermalTrip s
  | .thermalResume => Sys2Proof.Machine.execThermalResume s
  | .softError => Sys2Proof.Machine.execSoftError s
  | .fabricPortTraining => Sys2Proof.Machine.execFabricPortTraining s
  | .frsWrite => Sys2Proof.Machine.execFrsWrite s
  | .ersWrite => Sys2Proof.Machine.execErsWrite s
  | .contextDropComplete => Sys2Proof.Machine.execContextDropComplete s

end Sys2Proof.Machine
end

