-- ==== Sys2Proof/Machine/Schedule.lean ====
section
/-! DEFINITION. Which agent moves next: the event that is due, or the port whose path issues first (R89, R93). -/

namespace Sys2Proof.Machine

/-- The path that holds a port and issues. -/
def holderOf (s : State) (h : Option (Nat × Nat)) : Option (Nat × Nat × Nat) :=
  match h with
  | none => none
  | some (bid, pid) =>
    match tget s.blocks bid, s.path? bid pid with
    | some b, some p => if p.wait = .issuing then some (nextIssueAt s b p, bid, pid) else none
    | _, _ => none

/-- The address form of an instruction that accesses memory with a thread's operands, and whether it stores. -/
def accessOf : Instr → Option (Addr × Bool)
  | .ld _ a .. | .ldf _ a .. | .ldsp _ a .. | .ldn _ a .. => some (a, false)
  | .st _ a .. | .stf _ a .. | .stsp _ a .. | .stn _ a .. | .atom _ a .. | .cas _ a .. | .ared _ a .. => some (a, true)
  | _ => none

/-- A block's access, with these operands on top, begins at a line that its own die is home to (R312). -/
def startsHome (s : State) (b : Block) (bid : Nat) (a : Addr) (store : Bool) (ops : List Word) : Bool :=
  match ((cellElems b bid a store ops 1).getD 0 []).head? with
  | some (.at _ (.virt va) _ _) =>
    match (xlate s b.who (if store then .store else .load) va).2 with
    | .ok pa _ => homeDie (localPa s pa) == b.place.die
    | .fail _ => false
  | _ => false

/-- What a port's path issues next is an access of its die to a line that the die is home to, in some lane (R314). -/
def homeAccess (s : State) (x : Nat × Nat × Nat) : Bool :=
  match tget s.blocks x.2.1, s.path? x.2.1 x.2.2 with
  | some b, some p =>
    match (fetchWord s b p.pc).2 with
    | .fail _ => false
    | .word w =>
      match accessOf (decodeWord w) with
      | none => false
      | some (a, store) =>
        ((b.lanesOf p.lanes).map (·.2.stack) ++ [p.ust]).any (fun l =>
          decide (addrPops a ≤ l.length) && startsHome s b x.2.1 a store ((l.take (addrPops a)).map (·.val.bits)))
  | _, _ => false

/-- Of the ports that issue first, the lower sector and the execute port come first (R89), but before all others one whose
access its own die is home to, since the home serves that one first (R314). (log 63, DEDUCED) -/
def firstOf (s : State) (l : List (Nat × Nat × Nat)) : Option (Nat × Nat × Nat) :=
  match l with
  | [] => none
  | [x] => some x
  | x :: r => if r.all (fun y => y.2.1 == x.2.1) then some x else some (((x :: r).find? (homeAccess s)).getD x)

/-- The port that issues first (R89); none while the package is held by its thermal trip (R425). (log 67, DEDUCED) -/
def nextPort (s : State) : Option (Nat × Nat × Nat) :=
  if s.pkg.thermal.isSome then none
  else
    let l := s.sectors.flatMap (fun e => [holderOf s e.2.exec, holderOf s e.2.find].filterMap id)
    (minBy (fun x : Nat × Nat × Nat => x.1) l).bind (fun x => firstOf s (l.filter (fun y => y.1 == x.1)))

/-- What a step does. -/
inductive Next where
  /-- An event is served. -/
  | event (e : Event) (s : State)
  /-- A path issues an instruction. -/
  | instr (i : Instr) (s : State)
  /-- The step is done: a failed fetch has trapped, or a cycle has passed. -/
  | done (s : State)

/-- The current path of a state, for a trap at its fetch. -/
def ctxOf (s : State) (bid pid : Nat) : Option Ctx :=
  match tget s.blocks bid, s.path? bid pid with
  | some b, some p => some ⟨bid, pid, b, p, ⟨p.run.id, p.run.slot, p.pc⟩, 0⟩
  | _, _ => none

/-- A cause that a restore left to a path's next issue is raised: its threads stop at the instruction of their records (R375). -/
def raiseHeld (s : State) (bid pid : Nat) : State :=
  let s := releasePort s bid pid
  stopNow (s.modPath bid pid (fun p => { p with
    wait := .trapping, since := s.cycle, pc := (p.stops.head?.map (·.2.pc)).getD p.pc })) bid pid

/-- The path's next instruction is fetched; a failed fetch is taken as an exception at that PC (R208, R209). -/
def fetchNext (s : State) (t bid pid : Nat) : Next :=
  let s := { s with cycle := max s.cycle t, cur := some (bid, pid), due := none }
  match ctxOf s bid pid with
  | none => .done s
  | some c =>
    if !c.p.stops.isEmpty then .done (raiseHeld s bid pid)
    else
    let f := fetchWord s c.b c.p.pc
    if f.1.coh.atsWait then .done (settleAts s f.1 bid pid)
    else
      match f.2 with
      | .word w => .instr (decodeWord w) f.1
      | .fail i => .done (trapPath (dropAnswers f.1) c i)

/-- An event taken from the list and served at its time. (log 3, DESIGN CHOICE) -/
def serveNext (s : State) (t : Nat) (e : Event) (rest : List (Nat × Event)) : Next :=
  .event e { s with cycle := max s.cycle t, events := rest, due := some e, cur := none }

/-- The next thing to happen: a due event before an issue of the same cycle. (log 3, DESIGN CHOICE) -/
def nextUp (s : State) : Next :=
  match s.events, nextPort s with
  | [], none => .done { s with cycle := s.cycle + 1, cur := none, due := none }
  | [], some (t, bid, pid) => fetchNext s t bid pid
  | (t, e) :: rest, none => serveNext s t e rest
  | (t, e) :: rest, some (u, bid, pid) => if t ≤ u then serveNext s t e rest else fetchNext s u bid pid

/-- The physical address of the word that a path fetches next. -/
def fetchAddr (s : State) (bid pid : Nat) : Option Nat :=
  match tget s.blocks bid, s.path? bid pid with
  | some b, some p =>
    match (xlate s b.who .fetch (b.cbase + p.pc.toNat)).2 with
    | .ok pa _ => some (localPa s pa)
    | .fail _ => none
  | _, _ => none

/-- Events that would come before an issue are put behind it. -/
def deferEvents (t : Nat) (l : List (Nat × Event)) : List (Nat × Event) := l.map (fun e => (max e.1 (t + 1), e.2))

/-- An instruction word stored where the next step fetches; without an issuing path a block is loaded (log 9, DESIGN CHOICE). -/
def placeWord (s : State) (word : Nat) : State :=
  match nextPort s with
  | some (t, bid, pid) =>
    match fetchAddr s bid pid with
    | some pa => { s with mem := wrLE s.mem pa 4 word, events := deferEvents (t + 2) s.events }
    | none => s.withBoot word
  | none => s.withBoot word

end Sys2Proof.Machine
end

