-- ==== Sys2Proof/Machine/Notice.lean ====
section
/-! DEFINITION. The device notices a change of EN in the status words of registered graphs (R29, R30, R52). -/

namespace Sys2Proof.Machine

/-- Graphs that are registered. -/
def registered (s : State) : List GraphId :=
  ((upto Config.partitions).flatMap (fun p => [GraphId.mk p 0, GraphId.mk p 1]) ++ [GraphId.mk 0 2]).filter
    (fun g => bit? (graphReg s g).toNat 0)

/-- EN changes of a node between two states: from 0 to 1 its descriptor is validated, from 1 to 0 it is disabled. The EN of a
graph that is not registered counts as 0. (log 78, DESIGN CHOICE) -/
def noticeNode (s : State) (g : GraphId) (t : State) (n : Nat) : State :=
  match statusEn (nodeStatus s g n), statusEn (nodeStatus t g n) with
  | false, true => t.postOnce t.cycle (.nodeEnable g n)
  | true, false => t.postOnce t.cycle (.nodeDisable g n)
  | _, _ => t

def noticeGraph (s t : State) (g : GraphId) : State :=
  (upto (min 4096 ((nodeCount t g).getD 0))).foldl (noticeNode s g) t

/-- What a step has changed of the registered graphs' EN bits is put into the event list; records that the hypervisor's ring
now has room for are appended (R398). -/
def noticeNodes (s t : State) : State := drainHyper ((registered t).foldl (noticeGraph s) t) Config.holdQueue

/-- The outcome of a step with its changes noticed. -/
def settle (s : State) (o : Host.Outcome State Fault Refusal) : Host.Outcome State Fault Refusal :=
  match o with
  | .next t => .next (noticeNodes s t)
  | .fault f => .fault f
  | .refused r => .refused r

/-- The outcome of an event: one that has asked the host for a translation leaves its request and is served again in the next
cycle (R408). (log 67, DEDUCED) -/
def settleEvent (s t : State) (e : Event) (o : Host.Outcome State Fault Refusal) : Host.Outcome State Fault Refusal :=
  match o with
  | .next u => if u.coh.atsWait then .next ((keepAsks t u).post (t.cycle + 1) e) else .next (noticeNodes s (dropAnswers u))
  | .fault f => .fault f
  | .refused r => .refused r

end Sys2Proof.Machine
end

