-- ==== Sys2Proof/Machine/Step.lean ====
section
/-! DEFINITION. One step of the package: a due event or the next instruction of a port. -/

namespace Sys2Proof.Machine

/-- One step. -/
def step (s : State) : Host.Outcome State Fault Refusal :=
  match nextUp s with
  | .event e t => settleEvent s t e (exec e.instr t)
  | .instr i t => settle s (exec i t)
  | .done t => .next (noticeNodes s t)

/-- The state with an instruction stored where the next step fetches it. -/
def State.withFetchWord (s : State) (_nbits w : Nat) : State := placeWord s (w % 2 ^ 32)

end Sys2Proof.Machine
end

