-- ==== Sys2Proof/Safety.lean ====
section
/-! DEFINITION. The terms of the statements: what counts as a safe step, where an instruction stands at issue, and what the
end of an instruction leaves and leaves alone. -/

namespace Sys2Proof

open Machine

/-- A step that neither faults nor is refused. -/
def SafeStep (s : State) : Prop := ∃ t, step s = .next t

/-- Memory holds its canonical form. -/
def Machine.State.memOk (s : State) : Prop := s.mem.wf = true

/-! At issue -/

/-- The current path of a state comes to an instruction. In the context's block the cycles lost before it are counted (R101). -/
structure AtPort (s : State) (c : Ctx) (i : Instr) : Prop where
  cur : s.cur = some (c.bid, c.pid)
  block : ∃ b, tget s.blocks c.bid = some b ∧ tget b.paths c.pid = some c.p ∧ c = atIssue s c.bid c.pid b c.p i

/-- It stands at issue of the instruction: it holds its port, its run has room (R91), and no access waits for the host. -/
structure Issuing (s : State) (c : Ctx) (i : Instr) : Prop extends AtPort s c i where
  wait : c.p.wait = .issuing
  count : c.p.run.count < 24
  quiet : s.coh.atsWait = false

/-- The state in which the cycles lost before the instruction are counted (R101). -/
def counted (s : State) (c : Ctx) : State := s.modBlock c.bid (fun _ => c.b)

/-- Feature bits that a form needs are in the partition's effective mask (R40). -/
def Enabled (s : State) (c : Ctx) (features : List Nat) : Prop := ∀ k ∈ features, s.feature c.b.part k = true

/-- At set or block scope: a boundary, in a home warp that is no finder (R76, R102). -/
structure MayMeet (c : Ctx) (h : Hdr) : Prop where
  boundary : h.b = true
  home : c.p.formed = false
  warp : c.p.finder = false

/-- Every active lane of the path has a thread with a property. -/
def EachLane (c : Ctx) (P : Nat → Thread → Prop) : Prop :=
  c.p.lanes ≠ [] ∧ ∀ k ∈ c.p.lanes, ∃ t, tget c.b.threads k = some t ∧ P k t

/-- A cell may be consumed here: not divided (R148), not early (R96), without a file error (R397). -/
def Consumable (c : Ctx) (x : Cell) : Prop := x.hi = none ∧ c.env.early x.mark = false ∧ x.err = false

/-- A stack holds `n` consumable cells at its top, and `pushes` cells in their place keep it below its ceiling (R138). -/
structure Operands (c : Ctx) (ceil n pushes : Nat) (st : List Cell) : Prop where
  deep : n ≤ st.length
  room : st.length - n + pushes ≤ ceil
  cells : ∀ x ∈ st.take n, Consumable c x

/-- The values of the top `n` cells of a stack, top first. -/
def tops (n : Nat) (st : List Cell) : List Val := (st.take n).map (·.val)

/-! At the end of an instruction -/

/-- The path parks after the instruction: at its boundary, or when it is stepped (R97, R381). -/
def parksHere (c : Ctx) (h : Hdr) : Bool := h.b || c.p.stepping == 1

/-- What the end of an instruction leaves of the issuing path, whose own cells `own` has changed: it is at the next PC, its
run has one instruction more, and it parks at a boundary. -/
structure PathEnds (s : State) (c : Ctx) (h : Hdr) (r : Retire) (q p : Path) : Prop where
  rest : p = { q with
    pc := r.pc, prog := 0, checked := false, run := p.run, wait := p.wait, since := p.since, stepping := p.stepping }
  run : p.run = { q.run with
    count := q.run.count + 1, slot := c.env.slot, last := s.cycle, paired := true, ready := max q.run.ready r.ready
    owed := q.run.owed + r.owed, awaits := q.run.awaits ++ r.await.map (fun m => (c.pid, m))
    sleep := max q.run.sleep r.sleep, yieldPt := q.run.yieldPt || r.yieldPt
    xfer := p.run.xfer, base := p.run.base, port := p.run.port }
  wait : p.wait = if parksHere c h then .parked else .issuing

/-- What the end of an instruction leaves and leaves alone. `s` is the state before it, `b` the block in it, `new` gives the
threads of the path's lanes, `own` the path's own cells. All of memory, every other thread, path and block, every register
of the partitions and of the package stays as it was. -/
structure Ends (s t : State) (c : Ctx) (b : Block) (h : Hdr) (r : Retire) (new : Nat → Thread → Thread)
    (own : Path → Path) : Prop where
  rest : t = { s with
    blocks := t.blocks, sectors := t.sectors, events := t.events, coh := { s.coh with ats := t.coh.ats } }
  block : ∃ b', tget t.blocks c.bid = some b' ∧
    b' = { b with threads := b'.threads, paths := b'.paths, stall := b'.stall } ∧
    (∀ k, tget b'.threads k = (tget b.threads k).map (fun u => if k ∈ c.p.lanes then new k u else u)) ∧
    (∀ k, k ≠ c.pid → tget b'.paths k = tget b.paths k) ∧
    ∃ p, tget b'.paths c.pid = some p ∧ PathEnds s c h r (own c.p) p
  blocks : ∀ k, k ≠ c.bid → tget t.blocks k = tget s.blocks k
  sectors : ∀ k, k ≠ b.sectorOf c.p.warp → tget t.sectors k = tget s.sectors k
  events : ∀ e ∈ s.events, e ∈ t.events
  owes : 0 < r.owed → (s.cycle + 1, Event.resultReturn c.bid c.pid) ∈ t.events
  parks : if parksHere c h then ∃ u, s.cycle ≤ u ∧ (u, Event.pathReady c.bid c.pid) ∈ t.events
    else t.sectors = s.sectors

end Sys2Proof
end

