-- ==== Sys2Proof/Safety/Values.lean ====
section
/-! DEFINITION. The terms of the statements about computing forms, shuffles and moves: operands, latency and result of each
instruction, as the tables of the spec give them. -/

namespace Sys2Proof

open Machine

/-- A computing form (R171): how many operands it has, the constant in the top operand's place, its latency (R94), whether
a finder warp may run it (R174), and its 32 bits from the operands' bits, deepest first. -/
structure Computing where
  hdr : Hdr
  operands : Nat
  const : Option Word
  lat : Nat
  finder : Bool
  result : List Word → Word

/-- Cells that a computing form pops. -/
def Computing.pops (f : Computing) : Nat := match f.const with | some _ => f.operands - 1 | none => f.operands

/-- Its operands for a stack, deepest first: the popped cells, then the constant, which is never poisoned. -/
def Computing.args (f : Computing) (st : List Cell) : List Val :=
  (tops f.pops st).reverse ++ (match f.const with | some w => [⟨w, .clean⟩] | none => [])

/-- Its result: poisoned exactly when an operand is, and then derived (R159). -/
def Computing.value (f : Computing) (st : List Cell) : Val :=
  ⟨f.result ((f.args st).map (·.bits)), if (f.args st).any (fun v => v.poison != .clean) then .derived else .clean⟩

/-- The stack after it: the result replaces the operands and is ready at its slot plus its latency (R94, R171). -/
def Computing.stack (f : Computing) (c : Ctx) (st : List Cell) : List Cell :=
  ⟨f.value st, none, ⟨c.env.run, c.env.slot + f.lat, false, c.env.pc⟩, false⟩ :: st.drop f.pops

def one (f : Word → Word) : List Word → Word
  | [a] => f a
  | _ => 0
def two (f : Word → Word → Word) : List Word → Word
  | [a, b] => f a b
  | _ => 0
def three (f : Word → Word → Word → Word) : List Word → Word
  | [a, b, c] => f a b c
  | _ => 0
def four (f : Word → Word → Word → Word → Word) : List Word → Word
  | [a, b, c, d] => f a b c d
  | _ => 0

/-- An exact integer result as 32 bits: modulo 2^32, or the nearest integer of the type when SAT is set (R158). -/
def fitted (ty : ITy) (sat : Bool) (v : Int) : Word :=
  if sat then wi (max (ityLeast ty) (min (ityMost ty) v)) else wi v

/-- The IAR forms but for `div` and `rem` (R187, R188). -/
def integerForm : Instr → Option Computing
  | .iarAdd h ty sat k => form h 2 2 k (two fun a b => fitted ty sat (ityVal ty a + ityVal ty b))
  | .iarSub h ty sat k => form h 2 2 k (two fun a b => fitted ty sat (ityVal ty a - ityVal ty b))
  | .iarMul h ty sat k => form h 2 4 k (two fun a b => fitted ty sat (ityVal ty a * ityVal ty b))
  | .iarMulhi h ty k => form h 2 4 k (two fun a b => wi (ityVal ty a * ityVal ty b / 2 ^ 32))
  | .iarMad h ty sat k => form h 3 4 k (three fun a b c => fitted ty sat (ityVal ty a * ityVal ty b + ityVal ty c))
  | .iarNeg h ty sat k => form h 1 2 k (one fun a => fitted ty sat (-ityVal ty a))
  | .iarAbs h ty sat k => form h 1 2 k (one fun a => fitted ty sat (ityVal ty a).natAbs)
  | .iarMin h ty k => form h 2 2 k (two fun a b => wi (min (ityVal ty a) (ityVal ty b)))
  | .iarMax h ty k => form h 2 2 k (two fun a b => wi (max (ityVal ty a) (ityVal ty b)))
  | .iarClamp h ty k => form h 3 2 k (three fun x lo hi => wi (min (max (ityVal ty x) (ityVal ty lo)) (ityVal ty hi)))
  | _ => none
where
  form (h : Hdr) (n lat : Nat) (k : Option Byte) (f : List Word → Word) : Option Computing :=
    some ⟨h, n, k.map intConst, lat, true, f⟩

/-- The BIT forms (R201, R202). -/
def bitForm : Instr → Option Computing
  | .bitAnd h _ k => form h 2 k (two (· &&& ·))
  | .bitOr h _ k => form h 2 k (two (· ||| ·))
  | .bitXor h _ k => form h 2 k (two (· ^^^ ·))
  | .bitNot h _ k => form h 1 k (one (~~~ ·))
  | .bitAndn h _ k => form h 2 k (two fun a b => a &&& ~~~b)
  | .bitShl h _ k => form h 2 k (two fun a n => a <<< n.toNat)
  | .bitShr h _ k => form h 2 k (two fun a n => a >>> n.toNat)
  | .bitSar h _ k => form h 2 k (two fun a n => a.sshiftRight n.toNat)
  | .bitRot h _ k => form h 2 k (two fun a n => a.rotateLeft (n.toNat % 32))
  | .bitPopc h _ k => form h 1 k (one popc)
  | .bitClz h _ k => form h 1 k (one clz)
  | .bitCtz h _ k => form h 1 k (one ctz)
  | .bitBfe h ty k => form h 3 k (three (bfe ty))
  | .bitBfi h _ k => form h 4 k (four bfi)
  | .bitBrev h _ k => form h 1 k (one brev)
  | .bitLop3 h _ table => form h 3 none (three (lop3 table))
  | _ => none
where
  form (h : Hdr) (n : Nat) (k : Option Byte) (f : List Word → Word) : Option Computing :=
    some ⟨h, n, k.map intConst, 2, true, f⟩

/-- The type is an integer type, whose forms a finder warp may run (R174). -/
def integerTy : RTy → Bool
  | .i32 | .n32 => true
  | .f32 | .bf16x2 => false

/-- The CMP forms (R197-R200). -/
def compareForm : Instr → Option Computing
  | .cmpEq h ty k => form h ty 2 k (two (compareCells ty .eq))
  | .cmpNe h ty k => form h ty 2 k (two (compareCells ty .ne))
  | .cmpLt h ty k => form h ty 2 k (two (compareCells ty .lt))
  | .cmpLe h ty k => form h ty 2 k (two (compareCells ty .le))
  | .cmpGt h ty k => form h ty 2 k (two (compareCells ty .gt))
  | .cmpGe h ty k => form h ty 2 k (two (compareCells ty .ge))
  | .cmpOrd h ty k => form h (ftyReg ty) 2 k (two (compareCells (ftyReg ty) .ord))
  | .cmpUnord h ty k => form h (ftyReg ty) 2 k (two (compareCells (ftyReg ty) .unord))
  | .sel h ty k => form h ty 3 k (three (selectCells ty))
  | .fclass h ty mask => form h (ftyReg ty) 1 none (one (classCells ty mask))
  | _ => none
where
  form (h : Hdr) (ty : RTy) (n : Nat) (k : Option Byte) (f : List Word → Word) : Option Computing :=
    some ⟨h, n, k.map (Machine.constOf ty), 2, integerTy ty, f⟩

/-- The FAR forms (R190-R192). -/
def floatForm : Instr → Option Computing
  | .farAdd h rm sat k => form h 2 4 k (two fun a b => toF32Sat rm sat (FVal.sum rm [f32 a, f32 b]))
  | .farSub h rm sat k => form h 2 4 k (two fun a b => toF32Sat rm sat (FVal.sum rm [f32 a, (f32 b).negate]))
  | .farMul h rm sat k => form h 2 4 k (two fun a b => toF32Sat rm sat ((f32 a).mul (f32 b)))
  | .farFma h rm sat k => form h 3 4 k (three fun a b c => toF32Sat rm sat (FVal.sum rm [(f32 a).mul (f32 b), f32 c]))
  | .farNeg h _ k => form h 1 4 k (one fun a => toF32 .rn (f32 a).negate)
  | .farAbs h _ k => form h 1 4 k (one fun a => toF32 .rn (f32 a).absolute)
  | .farMin h _ k => form h 2 4 k (two (minmax32 false))
  | .farMax h _ k => form h 2 4 k (two (minmax32 true))
  | .farClamp h _ k => form h 3 4 k (three fun x lo hi => minmax32 false (minmax32 true x lo) hi)
  | .farCsgn h _ k => form h 2 4 k (two copySign)
  | .farDiv h rm k => form h 2 16 k (two fun a b => wd (Fmt.f32.div rm (f32 a) (f32 b)))
  | .farSqrt h rm k => form h 1 16 k (one fun a => wd (Fmt.f32.sqrt rm (f32 a)))
  | .farRint h rm k => form h 1 4 k (one fun a => wd (Fmt.f32.rint rm (f32 a)))
  | .farFract h rm k => form h 1 4 k (one fun a => wd (Fmt.f32.fract rm (f32 a)))
  | .farLdexp h rm k => form h 2 4 k (two fun a n => wd (Fmt.f32.ldexp rm (f32 a) (f32 n)))
  | .farExpo h _ k => form h 1 4 k (one fun a => wd (Fmt.f32.expo (f32 a)))
  | _ => none
where
  form (h : Hdr) (n lat : Nat) (k : Option Byte) (f : List Word → Word) : Option Computing :=
    some ⟨h, n, k.map (Machine.constOf .f32), lat, false, f⟩

/-- The two halves of the operands, high half first, each computed alone (R193). -/
def halves1 (f : FVal → Nat) : List Word → Word := one fun a => mkPair (f (bfHi a)) (f (bfLo a))
def halves2 (f : FVal → FVal → Nat) : List Word → Word := two fun a b => mkPair (f (bfHi a) (bfHi b)) (f (bfLo a) (bfLo b))
def halves3 (f : FVal → FVal → FVal → Nat) : List Word → Word :=
  three fun a b c => mkPair (f (bfHi a) (bfHi b) (bfHi c)) (f (bfLo a) (bfLo b) (bfLo c))

/-- The PAIR forms (R193). -/
def pairForm : Instr → Option Computing
  | .pairAdd h rm sat k => form h 2 k (halves2 fun a b => bf16Sat rm sat (FVal.sum rm [a, b]))
  | .pairSub h rm sat k => form h 2 k (halves2 fun a b => bf16Sat rm sat (FVal.sum rm [a, b.negate]))
  | .pairMul h rm sat k => form h 2 k (halves2 fun a b => bf16Sat rm sat (a.mul b))
  | .pairFma h rm sat k => form h 3 k (halves3 fun a b c => bf16Sat rm sat (FVal.sum rm [a.mul b, c]))
  | .pairNeg h _ k => form h 1 k (halves1 fun a => Fmt.bf16.encode .rn a.negate)
  | .pairAbs h _ k => form h 1 k (halves1 fun a => Fmt.bf16.encode .rn a.absolute)
  | .pairMin h _ k => form h 2 k (two (minmax16 false))
  | .pairMax h _ k => form h 2 k (two (minmax16 true))
  | .pairDot2 h rm sat k => form h 3 k (three fun a b c =>
      toF32Sat rm sat (FVal.sum rm [(bfLo a).mul (bfLo b), (bfHi a).mul (bfHi b), f32 c]))
  | _ => none
where
  form (h : Hdr) (n : Nat) (k : Option Byte) (f : List Word → Word) : Option Computing :=
    some ⟨h, n, k.map (Machine.constOf .bf16x2), 4, false, f⟩

/-- The CVT forms but for `qround` (R194-R196). -/
def convertForm : Instr → Option Computing
  | .cvt h src dst rm sat k => form h src 1 k (one (cvtWord src dst rm sat))
  | .pack h rm sat k => form h .f32 2 k (two fun a b => mkPair (bf16Sat rm sat (f32 b)) (bf16Sat rm sat (f32 a)))
  | .unlo h _ k => form h .bf16x2 1 k (one fun a => toF32 .rn (bfLo a))
  | .unhi h _ k => form h .bf16x2 1 k (one fun a => toF32 .rn (bfHi a))
  | _ => none
where
  form (h : Hdr) (ty : RTy) (n : Nat) (k : Option Byte) (f : List Word → Word) : Option Computing :=
    some ⟨h, n, k.map (Machine.constOf ty), 4, false, f⟩

/-- A function of one float, rounded once to the result format: of the f32, or of each bf16 half (R204). -/
def rounded (ty : FTy) (g : Fmt → FVal → Nat) (a : Word) : Word :=
  match ty with
  | .f32 => wd (g .f32 (f32 a))
  | .bf16x2 => mkPair (g .bf16 (bfHi a)) (g .bf16 (bfLo a))

/-- The TRN forms (R203, R204). -/
def transForm : Instr → Option Computing
  | .trnRcp h ty k => form h ty k (fun f v => f.div .rn (.fin false 1 0) v)
  | .trnRsq h ty k => form h ty k Fmt.rsqrt
  | .trnEx2 h ty k => form h ty k Fmt.ex2
  | .trnLg2 h ty k => form h ty k Fmt.lg2
  | .trnSinp h ty k => form h ty k Fmt.sinp
  | .trnCosp h ty k => form h ty k Fmt.cosp
  | .trnTanh h ty k => form h ty k Fmt.tanh
  | .trnSigm h ty k => form h ty k Fmt.sigm
  | _ => none
where
  form (h : Hdr) (ty : FTy) (k : Option Byte) (g : Fmt → FVal → Nat) : Option Computing :=
    some ⟨h, 1, k.map (Machine.constOf (ftyReg ty)), 12, false, one (rounded ty g)⟩

/-- A computing form completes at lane scope in every active lane, and at warp scope on the uniform stack; nothing else
changes (R171, R172). -/
def Computing.CompletesFor (f : Computing) (i : Instr) (s : State) (c : Ctx) : Prop :=
  (f.hdr.sc = .lane → EachLane c (fun _ t => Operands c (laneCeil c.b c.p) f.pops 1 t.stack) →
    ∃ t, exec i s = .next t ∧ Ends s t c c.b f.hdr { pc := c.p.pc + 4, ready := c.env.slot + f.lat }
      (fun _ th => { th with stack := f.stack c th.stack }) id) ∧
  (f.hdr.sc = .warp → Operands c 8 f.pops 1 c.p.ust →
    ∃ t, exec i s = .next t ∧ Ends s t c c.b f.hdr { pc := c.p.pc + 4, ready := c.env.slot + f.lat }
      (fun _ th => th) (fun p => { p with ust := f.stack c p.ust }))

/-- The forms of a table complete. -/
def Completes (form : Instr → Option Computing) : Prop :=
  ∀ i f s c, form i = some f → Issuing s c i → Enabled s c [0] → (c.p.finder = true → f.finder = true) →
    f.CompletesFor i s c

/-- `qround` with a format slot (R166). -/
def qroundForm (b : Block) : Instr → Option Computing
  | .qround h k _ sat c => some ⟨h, 1, c.map (Machine.constOf .f32), 4, false,
      one fun a => (qroundWord (b.slotOf k.toNat) sat a).getD 0⟩
  | _ => none

/-- The legacy forms (R44): integers of 24 and of 8 bits. -/
def legacyForm : Instr → Option Computing
  | .mul24 h ty k => form h 2 k (two fun a b => wi (ext24 ty a * ext24 ty b))
  | .mad24 h ty sat k => form h 3 k (three fun a b c => fitted ty sat (ext24 ty a * ext24 ty b + ityVal ty c))
  | .fdot4 h ty sat k => form h 3 k (three fun a b c => fitted ty sat (ityVal ty c + byteOf ty a 0 * byteOf ty b 0
      + byteOf ty a 1 * byteOf ty b 1 + byteOf ty a 2 * byteOf ty b 2 + byteOf ty a 3 * byteOf ty b 3))
  | _ => none
where
  form (h : Hdr) (n : Nat) (k : Option Byte) (f : List Word → Word) : Option Computing :=
    some ⟨h, n, k.map intConst, 0, true, f⟩

/-! Division (R188, R189) -/

/-- `div` and `rem`: header, constant divisor, result for a divisor that is not zero. -/
structure Division where
  hdr : Hdr
  const : Option Word
  result : Word → Word → Word

def divisionForm : Instr → Option Division
  | .iarDiv h ty k => some ⟨h, k.map intConst, fun a b => wi ((ityVal ty a).tdiv (ityVal ty b))⟩
  | .iarRem h ty k => some ⟨h, k.map intConst, fun a b => wi ((ityVal ty a).tmod (ityVal ty b))⟩
  | _ => none

/-- Cells that it pops. -/
def Division.pops (f : Division) : Nat := match f.const with | some _ => 1 | none => 2

/-- Its dividend and its divisor for a stack. -/
def Division.dividend (f : Division) (st : List Cell) : Val := (st.getD (f.pops - 1) (.ofWord 0)).val
def Division.divisor (f : Division) (st : List Cell) : Val :=
  match f.const with | some w => ⟨w, .clean⟩ | none => (st.getD 0 (.ofWord 0)).val

/-- The divisor is zero and not poisoned. -/
def Division.byZero (f : Division) (st : List Cell) : Bool :=
  (f.divisor st).poison == .clean && (f.divisor st).bits == 0

/-- Its value where the divisor is not a clean zero: a poisoned divisor gives a poisoned 0. -/
def Division.value (f : Division) (st : List Cell) : Val :=
  if (f.divisor st).poison != .clean then ⟨0, .derived⟩
  else ⟨f.result (f.dividend st).bits (f.divisor st).bits, if (f.dividend st).poison != .clean then .derived else .clean⟩

/-- The stack after it: the result is ready 16 slots later (R94). -/
def Division.stack (f : Division) (c : Ctx) (st : List Cell) : List Cell :=
  ⟨f.value st, none, ⟨c.env.run, c.env.slot + 16, false, c.env.pc⟩, false⟩ :: st.drop f.pops

/-- A shuffle of the STK group: cells needed, cells removed, and the cells put in their place, as positions of the old
stack from the new top down (R182, R183). -/
structure Shuffling where
  hdr : Hdr
  need : Nat
  pops : Nat
  new : List Nat

/-- The stack after it: each cell written is a move, with its bits, its poison and its divided state (R95, R183). -/
def Shuffling.stack (f : Shuffling) (c : Ctx) (st : List Cell) : List Cell :=
  f.new.map (fun p => c.env.move (st.getD p (.ofWord 0))) ++ st.drop f.pops

/-- The STK forms but for `depth` (R182, R183). -/
def shuffleForm : Instr → Option Shuffling
  | .dup h => some ⟨h, 1, 0, [0]⟩
  | .dup2 h => some ⟨h, 2, 0, [0, 1]⟩
  | .drop h => some ⟨h, 1, 1, []⟩
  | .dropn h n => some ⟨h, n.toNat, n.toNat, []⟩
  | .swap h => some ⟨h, 2, 2, [1, 0]⟩
  | .swap2 h => some ⟨h, 4, 4, [2, 3, 0, 1]⟩
  | .over h => some ⟨h, 2, 0, [1]⟩
  | .nip h => some ⟨h, 2, 2, [0]⟩
  | .tuck h => some ⟨h, 2, 2, [0, 1, 0]⟩
  | .rot h => some ⟨h, 3, 3, [2, 0, 1]⟩
  | .pick h n => some ⟨h, n.toNat + 1, 0, [n.toNat]⟩
  | .roll h n => some (if n = 0 then ⟨h, 1, 0, []⟩ else ⟨h, n.toNat + 1, n.toNat + 1, n.toNat :: List.range n.toNat⟩)
  | _ => none

/-- The depth checks of R138 for a form that needs `need` cells, removes `pops` and adds `pushes`. -/
def Fits (ceil need pops pushes : Nat) (st : List Cell) : Prop := need ≤ st.length ∧ st.length - pops + pushes ≤ ceil

end Sys2Proof
end

