-- ==== Sys2Proof/Safety/Forms.lean ====
section
/-! DEFINITION. The terms of the statements about forms that act on each lane alone, on the path's own cells, or across the
lanes of a path. -/

namespace Sys2Proof

open Machine

/-! Forms of one lane -/

/-- A form that changes each active lane's thread alone: what it needs of a thread, the thread it leaves, the slot from its
issue at which its results are ready (0 for a long-latency result, which is owed to the path), its next PC. -/
structure LaneForm where
  hdr : Hdr
  finder : Bool := true
  ok : Ctx → Thread → Prop
  new : State → Ctx → Nat → Thread → Thread
  lat : Nat
  long : Bool := false

/-- The end of a lane form. -/
def LaneForm.ret (f : LaneForm) (c : Ctx) : Retire :=
  if f.long then { pc := c.p.pc + 4, owed := 1 } else { pc := c.p.pc + 4, ready := c.env.slot + f.lat }

/-- The forms of a table complete at lane scope in every active lane, and change nothing else. -/
def CompletesInLanes (form : Instr → Option LaneForm) : Prop :=
  ∀ i f s c, form i = some f → f.hdr.sc = .lane → Issuing s c i → Enabled s c [0] →
    (c.p.finder = true → f.finder = true) → EachLane c (fun _ t => f.ok c t) →
    ∃ t, exec i s = .next t ∧ Ends s t c c.b f.hdr (f.ret c) (f.new (counted s c) c) id

/-- A form that changes the issuing path's own cells. -/
structure PathForm where
  hdr : Hdr
  finder : Bool := true
  ok : Ctx → Prop
  new : State → Ctx → Path → Path
  ret : Ctx → Retire

/-- The forms of a table complete at warp scope on the path's own cells, and change nothing else. -/
def CompletesOnPath (form : Instr → Option PathForm) : Prop :=
  ∀ i f s c, form i = some f → f.hdr.sc = .warp → Issuing s c i → Enabled s c [0] →
    (c.p.finder = true → f.finder = true) → f.ok c →
    ∃ t, exec i s = .next t ∧ Ends s t c c.b f.hdr (f.ret c) (fun _ th => th) (f.new (counted s c) c)

/-- A cell with a new value that is ready at its slot plus a latency (R94). -/
def fresh (c : Ctx) (lat : Nat) (v : Val) : Cell := ⟨v, none, ⟨c.env.run, c.env.slot + lat, false, c.env.pc⟩, false⟩

/-- A cell with a new value that is long-latency (R94). -/
def freshLong (c : Ctx) (v : Val) : Cell := ⟨v, none, ⟨c.env.run, c.env.slot, true, c.env.pc⟩, false⟩

/-- STK: shuffles and `depth` (R182, R183). -/
def stackLaneForm (i : Instr) : Option LaneForm :=
  match shuffleForm i, i with
  | some f, _ => some ⟨f.hdr, true, fun c t => Fits (laneCeil c.b c.p) f.need f.pops f.new.length t.stack,
      fun _ c _ t => { t with stack := f.stack c t.stack }, 1, false⟩
  | none, .depth h => some ⟨h, true, fun c t => Fits (laneCeil c.b c.p) 0 0 1 t.stack,
      fun _ c _ t => { t with stack := fresh c 1 ⟨wd t.stack.length, .clean⟩ :: t.stack }, 1, false⟩
  | none, .pushi h ty imm => some ⟨h, true, fun c t => Fits (laneCeil c.b c.p) 0 0 1 t.stack,
      fun _ c _ t => { t with stack := fresh c 1 ⟨Machine.constOf ty imm, .clean⟩ :: t.stack }, 1, false⟩
  | none, _ => none

def stackPathForm (i : Instr) : Option PathForm :=
  match shuffleForm i, i with
  | some f, _ => form f.hdr f.need f.pops f.new.length (fun c st => f.stack c st)
  | none, .depth h => form h 0 0 1 (fun c st => fresh c 1 ⟨wd st.length, .clean⟩ :: st)
  | none, .pushi h ty imm => form h 0 0 1 (fun c st => fresh c 1 ⟨Machine.constOf ty imm, .clean⟩ :: st)
  | none, _ => none
where
  form (h : Hdr) (need pops pushes : Nat) (f : Ctx → List Cell → List Cell) : Option PathForm :=
    some ⟨h, true, fun c => Fits 8 need pops pushes c.p.ust, fun _ c p => { p with ust := f c p.ust },
      fun c => { pc := c.p.pc + 4, ready := c.env.slot + 1 }⟩

/-- The cell of a list, moved by this instruction (R95, R186). -/
def cellOf (c : Ctx) (l : List Cell) (k : Nat) : Cell := c.env.move (l.getD k (.ofWord 0))

/-- LOC: the one-cell moves at lane scope, tier by tier (R135, R184-R186). The finder has no o and m cells (R141); a divided
w cell is not read by a lane (R148). -/
def moveLaneForm : Instr → Option LaneForm
  | .push h .t k => some ⟨h, true, fun c t => Fits (laneCeil c.b c.p) (k.toNat + 1) 0 1 t.stack,
      fun _ c _ t => { t with stack := cellOf c t.stack k.toNat :: t.stack }, 1, false⟩
  | .push h .o k => some ⟨h, false, fun c t => Fits (laneCeil c.b c.p) 0 0 1 t.stack,
      fun _ c _ t => { t with stack := cellOf c t.o k.toNat :: t.stack }, 1, false⟩
  | .push h .m k => some ⟨h, false, fun c t => Fits (laneCeil c.b c.p) 0 0 1 t.stack ∧ k.toNat < c.b.frame,
      fun _ c _ t => { t with stack := cellOf c t.m k.toNat :: t.stack }, 1, false⟩
  | .push h .w k => some ⟨h, true, fun c t => Fits (laneCeil c.b c.p) 0 0 1 t.stack ∧
        (c.p.w.getD k.toNat (.ofWord 0)).hi = none,
      fun _ c _ t => { t with stack := cellOf c c.p.w k.toNat :: t.stack }, 1, false⟩
  | .pop h .t k => some ⟨h, true, fun c t => Fits (laneCeil c.b c.p) (k.toNat + 1) 1 0 t.stack,
      fun _ c _ t => { t with stack := (t.stack.set k.toNat (cellOf c t.stack 0)).drop 1 }, 1, false⟩
  | .pop h .o k => some ⟨h, false, fun c t => Fits (laneCeil c.b c.p) 1 1 0 t.stack,
      fun _ c _ t => { t with stack := t.stack.drop 1, o := t.o.set k.toNat (cellOf c t.stack 0) }, 1, false⟩
  | .pop h .m k => some ⟨h, false, fun c t => Fits (laneCeil c.b c.p) 1 1 0 t.stack ∧ k.toNat < c.b.frame,
      fun _ c _ t => { t with stack := t.stack.drop 1, m := t.m.set k.toNat (cellOf c t.stack 0) }, 1, false⟩
  | .keep h .t k => some ⟨h, true, fun c t => Fits (laneCeil c.b c.p) (k.toNat + 1) 0 0 t.stack,
      fun _ c _ t => { t with stack := t.stack.set k.toNat (cellOf c t.stack 0) }, 1, false⟩
  | .keep h .o k => some ⟨h, false, fun c t => Fits (laneCeil c.b c.p) 1 0 0 t.stack,
      fun _ c _ t => { t with o := t.o.set k.toNat (cellOf c t.stack 0) }, 1, false⟩
  | .keep h .m k => some ⟨h, false, fun c t => Fits (laneCeil c.b c.p) 1 0 0 t.stack ∧ k.toNat < c.b.frame,
      fun _ c _ t => { t with m := t.m.set k.toNat (cellOf c t.stack 0) }, 1, false⟩
  | .xch h .t k => some ⟨h, true, fun c t => Fits (laneCeil c.b c.p) (k.toNat + 1) 1 1 t.stack,
      fun _ c _ t => { t with stack := (t.stack.set k.toNat (cellOf c t.stack 0)).set 0 (cellOf c t.stack k.toNat) },
      1, false⟩
  | .xch h .o k => some ⟨h, false, fun c t => Fits (laneCeil c.b c.p) 1 1 1 t.stack,
      fun _ c _ t => { t with
        stack := cellOf c t.o k.toNat :: t.stack.drop 1, o := t.o.set k.toNat (cellOf c t.stack 0) }, 1, false⟩
  | .xch h .m k => some ⟨h, false, fun c t => Fits (laneCeil c.b c.p) 1 1 1 t.stack ∧ k.toNat < c.b.frame,
      fun _ c _ t => { t with
        stack := cellOf c t.m k.toNat :: t.stack.drop 1, m := t.m.set k.toNat (cellOf c t.stack 0) }, 1, false⟩
  | _ => none

/-- LOC: the one-cell moves at warp scope, with the uniform stack and the w file (R185). -/
def movePathForm : Instr → Option PathForm
  | .push h .t k => form h (k.toNat + 1) 0 1 (fun c p => { p with ust := cellOf c p.ust k.toNat :: p.ust })
  | .push h .w k => form h 0 0 1 (fun c p => { p with ust := cellOf c p.w k.toNat :: p.ust })
  | .pop h .t k => form h (k.toNat + 1) 1 0 (fun c p => { p with ust := (p.ust.set k.toNat (cellOf c p.ust 0)).drop 1 })
  | .pop h .w k => form h 1 1 0 (fun c p => { p with ust := p.ust.drop 1, w := p.w.set k.toNat (cellOf c p.ust 0) })
  | .keep h .t k => form h (k.toNat + 1) 0 0 (fun c p => { p with ust := p.ust.set k.toNat (cellOf c p.ust 0) })
  | .keep h .w k => form h 1 0 0 (fun c p => { p with w := p.w.set k.toNat (cellOf c p.ust 0) })
  | .xch h .t k => form h (k.toNat + 1) 1 1
      (fun c p => { p with ust := (p.ust.set k.toNat (cellOf c p.ust 0)).set 0 (cellOf c p.ust k.toNat) })
  | .xch h .w k => form h 1 1 1
      (fun c p => { p with ust := cellOf c p.w k.toNat :: p.ust.drop 1, w := p.w.set k.toNat (cellOf c p.ust 0) })
  | _ => none
where
  form (h : Hdr) (need pops pushes : Nat) (f : Ctx → Path → Path) : Option PathForm :=
    some ⟨h, true, fun c => Fits 8 need pops pushes c.p.ust, fun _ c p => f c p,
      fun c => { pc := c.p.pc + 4, ready := c.env.slot + 1 }⟩

/-- `n` cells from index k pushed one after the other, so that the last stands on top (R184). -/
def pushSpan (c : Ctx) (l : List Cell) (k n : Nat) (st : List Cell) : List Cell :=
  ((l.drop k).take n).reverse.map c.env.move ++ st

/-- The top `n` cells moved to the cells from index k, the deepest of them to the cell at k (R184). -/
def popSpan (c : Ctx) (l : List Cell) (k n : Nat) (st : List Cell) : List Cell :=
  l.take k ++ (st.take n).reverse.map c.env.move ++ l.drop (k + n)

/-- LOC: `pushn` and `popn` at lane scope (R184, R185). -/
def spanLaneForm : Instr → Option LaneForm
  | .pushn h .o k n => some ⟨h, false, fun c t => Fits (laneCeil c.b c.p) 0 0 n.toNat t.stack,
      fun _ c _ t => { t with stack := pushSpan c t.o k.toNat n.toNat t.stack }, 1, false⟩
  | .pushn h .m k n => some ⟨h, false, fun c t => Fits (laneCeil c.b c.p) 0 0 n.toNat t.stack ∧
        k.toNat + n.toNat ≤ c.b.frame,
      fun _ c _ t => { t with stack := pushSpan c t.m k.toNat n.toNat t.stack }, 1, false⟩
  | .pushn h .w k n => some ⟨h, true, fun c t => Fits (laneCeil c.b c.p) 0 0 n.toNat t.stack ∧
        ∀ x ∈ (c.p.w.drop k.toNat).take n.toNat, x.hi = none,
      fun _ c _ t => { t with stack := pushSpan c c.p.w k.toNat n.toNat t.stack }, 1, false⟩
  | .popn h .o k n => some ⟨h, false, fun c t => Fits (laneCeil c.b c.p) n.toNat n.toNat 0 t.stack,
      fun _ c _ t => { t with stack := t.stack.drop n.toNat, o := popSpan c t.o k.toNat n.toNat t.stack }, 1, false⟩
  | .popn h .m k n => some ⟨h, false, fun c t => Fits (laneCeil c.b c.p) n.toNat n.toNat 0 t.stack ∧
        k.toNat + n.toNat ≤ c.b.frame,
      fun _ c _ t => { t with stack := t.stack.drop n.toNat, m := popSpan c t.m k.toNat n.toNat t.stack }, 1, false⟩
  | _ => none

/-- LOC: `pushn` and `popn` at warp scope (R184, R185). -/
def spanPathForm : Instr → Option PathForm
  | .pushn h .w k n => form h 0 0 n.toNat (fun c p => { p with ust := pushSpan c p.w k.toNat n.toNat p.ust })
  | .popn h .w k n => form h n.toNat n.toNat 0
      (fun c p => { p with ust := p.ust.drop n.toNat, w := popSpan c p.w k.toNat n.toNat p.ust })
  | _ => none
where
  form (h : Hdr) (need pops pushes : Nat) (f : Ctx → Path → Path) : Option PathForm :=
    some ⟨h, true, fun c => Fits 8 need pops pushes c.p.ust, fun _ c p => f c p,
      fun c => { pc := c.p.pc + 4, ready := c.env.slot + 1 }⟩

/-- `get` at lane scope (R180): the selector's value for the lane, ready at its slot plus 2, but for `cpwp`, which is
long-latency (R94). -/
def getLaneForm : Instr → Option LaneForm
  | .get h sel _ => some ⟨h, true, fun c t => Fits (laneCeil c.b c.p) 0 0 1 t.stack,
      fun s c k t => { t with stack :=
        (match sel with
          | .cpwp _ => freshLong c ⟨selectorValue s c k t sel, .clean⟩
          | _ => fresh c 2 ⟨selectorValue s c k t sel, .clean⟩) :: t.stack },
      2, (match sel with | .cpwp _ => true | _ => false)⟩
  | _ => none

/-- Selectors that a warp-scope `get` may name: in a formed warp neither a lane's nor the home warp's (R180). -/
def uniformSel (formed : Bool) : Sel → Prop
  | .lane | .quad | .record => False
  | .warp | .stall => formed = false
  | _ => True

/-- `get` at warp scope (R180): the value of the lowest thread of the path. -/
def getPathForm : Instr → Option PathForm
  | .get h sel _ => some ⟨h, true,
      fun c => EachLane c (fun _ _ => True) ∧ uniformSel c.p.formed sel ∧ Fits 8 0 0 1 c.p.ust,
      fun s c p => { p with ust :=
        (match c.b.lanesOf c.p.lanes with
          | e :: _ => (match sel with
            | .cpwp _ => freshLong c ⟨selectorValue s c e.1 e.2 sel, .clean⟩
            | _ => fresh c 2 ⟨selectorValue s c e.1 e.2 sel, .clean⟩)
          | [] => .ofWord 0) :: p.ust },
      fun c => match sel with
        | .cpwp _ => { pc := c.p.pc + 4, owed := 1 }
        | _ => { pc := c.p.pc + 4, ready := c.env.slot + 2 }⟩
  | _ => none

/-! Forms across the lanes of a path -/

/-- The lanes of the path with their threads. -/
def active (c : Ctx) : List (Nat × Thread) := c.b.lanesOf c.p.lanes

/-- The value on top of a stack. -/
def top (t : Thread) : Val := (t.stack.getD 0 (.ofWord 0)).val

/-- The value beneath the top. -/
def second (t : Thread) : Val := (t.stack.getD 1 (.ofWord 0)).val

/-- The thread at a lane position among the active lanes. -/
def lane? (ts : List (Nat × Thread)) (l : Nat) : Option Thread := (ts.find? (fun e => lanePos e.1 == l)).map (·.2)

/-- An exchange (R218): cells popped, latency, and each lane's result from all active lanes. -/
structure Exchange where
  hdr : Hdr
  pops : Nat
  lat : Nat
  finder : Bool
  result : List (Nat × Thread) → Nat → Thread → Val

/-- A copying exchange: the top of the lane at `src`, or the lane's own when it is not active. -/
def copied (src : Nat → Option Nat) (ts : List (Nat × Thread)) (k : Nat) (t : Thread) : Val :=
  match (src (lanePos k)).bind (lane? ts) with
  | some u => top u
  | none => top t

/-- A vote: one value for all lanes, poisoned when any operand is (R218). -/
def voted (f : List (Nat × Thread) → Word) (ts : List (Nat × Thread)) : Val :=
  ⟨f ts, if ts.any (fun e => (top e.2).poison != .clean) then .derived else .clean⟩

/-- The bit mask of the lanes with a property. -/
def lanesWith (p : Thread → Bool) (ts : List (Nat × Thread)) : Word := wd (laneMask ((ts.filter (fun e => p e.2)).map (·.1)))

def anyWord (ts : List (Nat × Thread)) : Word := truth (ts.any (fun e => (top e.2).bits != 0))
def allWord (ts : List (Nat × Thread)) : Word := truth (ts.all (fun e => (top e.2).bits != 0))
def ballotWord (ts : List (Nat × Thread)) : Word := lanesWith (fun t => (top t).bits != 0) ts

/-- QWX at lane scope (R217, R218). -/
def exchangeForm : Instr → Option Exchange
  | .qswp h p _ => some ⟨h, 1, 2, true, copied fun l => some (Nat.xor l p.toNat)⟩
  | .qbc h q _ => some ⟨h, 1, 2, true, copied fun l => some (4 * (l / 4) + q.toNat)⟩
  | .qadd h ty _ => some ⟨h, 1, 2, integerTy ty, fun ts k _ =>
      reduceVals ty .add ((ts.filter (fun x => lanePos x.1 / 4 == lanePos k / 4)).map (fun x => top x.2))⟩
  | .shfl h _ => some ⟨h, 2, 4, true, fun ts _ t =>
      let v := match lane? ts ((top t).bits.toNat % 32) with | some u => second u | none => second t
      ⟨v.bits, if (top t).poison != .clean then .derived else v.poison⟩⟩
  | .shfx h m _ => some ⟨h, 1, 4, true, copied fun l => some (Nat.xor l m.toNat)⟩
  | .shup h d _ => some ⟨h, 1, 4, true, copied fun l => if d.toNat ≤ l then some (l - d.toNat) else none⟩
  | .shdn h d _ => some ⟨h, 1, 4, true, copied fun l => if l + d.toNat < 32 then some (l + d.toNat) else none⟩
  | .any h _ => some ⟨h, 1, 4, true, fun ts _ _ => voted anyWord ts⟩
  | .all h _ => some ⟨h, 1, 4, true, fun ts _ _ => voted allWord ts⟩
  | .ballot h _ => some ⟨h, 1, 4, true, fun ts _ _ => voted ballotWord ts⟩
  | .matchLanes h _ => some ⟨h, 1, 4, true, fun ts _ t => voted (lanesWith (fun u => (top u).bits == (top t).bits)) ts⟩
  | .wbc h q _ => some ⟨h, 1, 4, true, copied fun _ => some q.toNat⟩
  | _ => none

/-- A form that pops in every active lane and pushes one value on the uniform stack (R217, R223): its value, and what the
lanes must be for it. -/
structure Gathering where
  hdr : Hdr
  finder : Bool
  ok : List (Nat × Thread) → Prop
  value : List (Nat × Thread) → Val

/-- The votes, `wbc`, `red` and `sbc` at warp scope (R217, R218, R223). -/
def gatheringForm : Instr → Option Gathering
  | .any h _ => some ⟨h, true, fun _ => True, voted anyWord⟩
  | .all h _ => some ⟨h, true, fun _ => True, voted allWord⟩
  | .ballot h _ => some ⟨h, true, fun _ => True, voted ballotWord⟩
  | .wbc h q _ => some ⟨h, true, fun ts => (lane? ts q.toNat).isSome, fun ts => ((lane? ts q.toNat).map top).getD ⟨0, .clean⟩⟩
  | .red h ty op _ => some ⟨h, integerTy ty, fun _ => True, fun ts => reduceVals ty op (ts.map (fun e => top e.2))⟩
  | .sbc h _ e => some ⟨h, true, fun ts => (lane? ts e.toNat).isSome, fun ts => ((lane? ts e.toNat).map top).getD ⟨0, .clean⟩⟩
  | _ => none

/-- The forms of a table complete at warp scope: each active lane pops one cell, the uniform stack gets the value. -/
def CompletesToUniform (form : Instr → Option Gathering) : Prop :=
  ∀ i f s c, form i = some f → f.hdr.sc = .warp → Issuing s c i → Enabled s c [0] → (c.p.finder = true → f.finder = true) →
    EachLane c (fun _ t => Operands c (laneCeil c.b c.p) 1 0 t.stack) → f.ok (active c) → Fits 8 0 0 1 c.p.ust →
    ∃ t, exec i s = .next t ∧ Ends s t c c.b f.hdr { pc := c.p.pc + 4, ready := c.env.slot + 4 }
      (fun _ th => { th with stack := th.stack.drop 1 }) (fun p => { p with ust := fresh c 4 (f.value (active c)) :: p.ust })

/-- The value that stands beside a lane in a list of results. -/
def beside (k : Nat) (ts : List (Nat × Thread)) (vs : List Val) : Val :=
  (((ts.zip vs).reverse.find? (fun e => e.1.1 == k)).map (·.2)).getD ⟨0, .clean⟩

/-- `scan`, `segred` and `segscan` at warp scope (R221, R223): a is the top cell, or the one beneath h. -/
def prefixForm : Instr → Option Exchange
  | .scan h ty op _ => some ⟨h, 1, 4, integerTy ty, fun ts k _ =>
      beside k ts (collResults .scan ty op (ts.map (fun e => (top e.2, ⟨0, .clean⟩))))⟩
  | .segred h ty op _ => some ⟨h, 2, 4, integerTy ty, fun ts k _ =>
      beside k ts (collResults .segred ty op (ts.map (fun e => (second e.2, top e.2))))⟩
  | .segscan h ty op _ => some ⟨h, 2, 4, integerTy ty, fun ts k _ =>
      beside k ts (collResults .segscan ty op (ts.map (fun e => (second e.2, top e.2))))⟩
  | _ => none

/-- The exchanges of a table complete at a scope: every active lane pops and pushes its result. -/
def CompletesAcrossLanes (sc : Scope) (form : Instr → Option Exchange) : Prop :=
  ∀ i f s c, form i = some f → f.hdr.sc = sc → Issuing s c i → Enabled s c [0] → (c.p.finder = true → f.finder = true) →
    EachLane c (fun _ t => Operands c (laneCeil c.b c.p) f.pops 0 t.stack) →
    ∃ t, exec i s = .next t ∧ Ends s t c c.b f.hdr { pc := c.p.pc + 4, ready := c.env.slot + f.lat }
      (fun k th => { th with stack := fresh c f.lat (f.result (active c) k th) :: th.stack.drop f.pops }) id

end Sys2Proof
end

