-- ==== Sys2Proof/Safety/Access.lean ====
section
/-! DEFINITION. The terms of the statements about memory, records, scratchpads, queues and the readback window: lanes that act
in turn, the uniform forms, and what one access reads or writes. -/

namespace Sys2Proof

open Machine

/-! Lanes in turn -/

/-- Lanes act one after the other, each in the state that those before it left, and each completes (R254). -/
inductive Turns (turn : State → Nat → Thread → State × LaneRes Thread) :
    State → List (Nat × Thread) → State → List (Nat × Thread) → Prop
  | nil (s : State) : Turns turn s [] s []
  | cons {s s1 s2 : State} {k : Nat} {t u : Thread} {r l : List (Nat × Thread)} :
      turn s k t = (s1, .ok u) → Turns turn s1 r s2 l → Turns turn s ((k, t) :: r) s2 ((k, u) :: l)

/-- What an instruction has done before its end leaves the issuing path and its lanes where they were, in block `b`, and has
no access wait for the host (R408). -/
structure Stays (c : Ctx) (s : State) (b : Block) : Prop where
  block : tget s.blocks c.bid = some b
  path : tget b.paths c.pid = some c.p
  lanes : ∀ k ∈ c.p.lanes, tget b.threads k = tget c.b.threads k
  quiet : s.coh.atsWait = false

/-- The thread that a list of results has for a key. -/
def resultOf (new : List (Nat × Thread)) (k : Nat) (t : Thread) : Thread :=
  ((new.reverse.find? (fun e => e.1 == k)).map (·.2)).getD t

/-- The threads of the path in rising order of lane positions (R254). -/
def inOrderOfLanes (c : Ctx) : List (Nat × Thread) := byLane (active c)

/-- A form in which each lane acts for itself, in turn: cells popped and pushed, feature bits, privilege, what the state must
be, the turn of one lane, and the end. -/
structure TurnForm where
  hdr : Hdr
  pops : Nat
  pushes : Nat
  feats : Block → List Nat := fun _ => [0]
  priv : Bool := false
  ok : State → Ctx → Prop := fun _ _ => True
  turn : Ctx → State → Nat → Thread → State × LaneRes Thread
  ret : Ctx → Retire

/-- Access forms pop their operands; a helper lane does nothing and pushes zeros, which are long-latency (R253, R94). -/
def turned (pops pushes : Nat) (run : State → Nat → Thread → List Val → State × LaneRes Thread) (c : Ctx) (s : State)
    (k : Nat) (t : Thread) : State × LaneRes Thread :=
  let rest := { t with stack := t.stack.drop pops }
  if t.cls = .helper then
    (s, .ok { t with stack := List.replicate pushes (freshLong c ⟨0, .clean⟩) ++ t.stack.drop pops })
  else run s k rest (tops pops t.stack)

/-- The governing bits of a form with a slot: bit 2 beside bit 0 when the slot is QN4 (R39). -/
def withQn4 (q : Block → Bool) (b : Block) : List Nat := if q b then [0, 2] else [0]

/-- An access form of a lane: what it pushes is long-latency (R94). -/
def accessTurn (h : Hdr) (a : Addr) (pops pushes : Nat)
    (run : Ctx → State → Nat → Thread → List Val → State × LaneRes Thread) : Option TurnForm :=
  some { hdr := h, pops := pops, pushes := pushes, feats := withQn4 (usesQn4 a), turn := fun c => turned pops pushes (run c) c
         ret := fun c => { pc := c.p.pc + 4, owed := if pushes = 0 then 0 else 1 } }

/-- A form without a slot. -/
def plainTurn (h : Hdr) (pops pushes : Nat) (run : Ctx → State → Nat → Thread → List Val → State × LaneRes Thread) :
    Option TurnForm :=
  some { hdr := h, pops := pops, pushes := pushes, turn := fun c => turned pops pushes (run c) c
         ret := fun c => { pc := c.p.pc + 4, owed := if pushes = 0 then 0 else 1 } }

/-- LDS, STS and ATM forms in which each lane of a home or formed warp accesses memory for itself (R256-R267). -/
def memoryTurn : Instr → Option TurnForm
  | .ld h a acq _ => accessTurn h a (addrPops a) 1 (fun c => loadLane c a acq 1)
  | .ldn h a acq _ n => accessTurn h a (addrPops a) n.toNat (fun c => loadLane c a acq n.toNat)
  | .ldsp h a _ _ => accessTurn h a (addrPops a) 2 (fun c => ldspLane c a)
  | .pref h a _ => accessTurn h a (addrPops a) 0 (fun _ s _ t _ => (s, .ok t))
  | .st h a _ _ => accessTurn h a (addrPops a + 1) 0 (fun c => storeLane c a 1)
  | .stn h a _ _ n => accessTurn h a (addrPops a + n.toNat) 0 (fun c => storeLane c a n.toNat)
  | .stsp h a _ _ => accessTurn h a (addrPops a + 1) 1 (fun c => stspLane c a)
  | .atom h a _ op => accessTurn h a (addrPops a + 1) 1
      (fun c => atomPush c a (atomBitwise op) (fun d w => atomWord (accessSlot c.b a) op w (d.getD 0 0)))
  | .cas h a _ => accessTurn h a (addrPops a + 2) 1
      (fun c => atomPush c a false (fun d w => if w = d.getD 1 0 then d.getD 0 0 else w))
  | .ared h a _ op => accessTurn h a (addrPops a + 1) 0 (fun c s _ t vs =>
      let x := atomOps c a (atomBitwise (redAtom op)) (fun d w => atomWord (accessSlot c.b a) (redAtom op) w (d.getD 0 0)) s vs
      (x.1, x.2.map (fun _ => t)))
  | _ => none

/-- The node behind an edge exists (R225). -/
def edgeOk (s : State) (c : Ctx) (node : Nat) : Prop :=
  node ≠ 0xFFFF ∧ ∃ n, nodeCount s c.b.graph = some n ∧ node < n

/-- REC: emit, recput, commit, abandon, recget (R224-R227). -/
def recordTurn : Instr → Option TurnForm
  | .emit h e => some { hdr := h, pops := 0, pushes := 2, ok := fun s c => edgeOk s c (c.b.edge e.toNat)
                        turn := fun c s k t => if t.cls = .helper then (s, .ok (helperEmit c t))
                          else emitLane c (c.b.edge e.toNat) s k t []
                        ret := fun c => { pc := c.p.pc + 4, owed := 1 } }
  | .recput h w => some { hdr := h, pops := 2, pushes := 1
                          turn := fun c s k t => if t.cls = .helper then (s, .ok (helperRecput c t))
                            else recputLane c w.toNat s k { t with stack := t.stack.drop 2 } (tops 2 t.stack)
                          ret := fun c => { pc := c.p.pc + 4, ready := c.env.slot + 1 } }
  | .commit h => plainTurn h 1 0 commitLane
  | .abandon h => plainTurn h 1 0 abandonLane
  | .recget h w => plainTurn h 0 1 (fun c => recgetLane c w.toNat)
  | _ => none

/-- The readback window (R402): privileged, and helper lanes use it as others do. -/
def windowTurn : Instr → Option TurnForm
  | .rdbk h k => some { hdr := h, pops := 2, pushes := 1, priv := true
                        turn := fun c s l t => rdbkLane c k.toNat s l { t with stack := t.stack.drop 2 } (tops 2 t.stack)
                        ret := fun c => { pc := c.p.pc + 4, owed := 1 } }
  | .wrbk h k => some { hdr := h, pops := 3, pushes := 0, priv := true
                        turn := fun c s l t => wrbkLane c k.toNat s l { t with stack := t.stack.drop 3 } (tops 3 t.stack)
                        ret := fun c => { pc := c.p.pc + 4 } }
  | _ => none

/-- The forms of a table complete in a home or formed warp: when every lane's turn completes, the lanes take the threads their
turns give them, and beside what the turns did nothing changes. -/
def CompletesInTurn (form : Instr → Option TurnForm) : Prop :=
  ∀ i f s c s1 b new, form i = some f → f.hdr.sc = .lane → Issuing s c i → Enabled s c (f.feats c.b) →
    (f.priv = true → c.b.lvl ≠ 0) → c.p.finder = false → f.ok (counted s c) c →
    EachLane c (fun _ t => Operands c (laneCeil c.b c.p) f.pops f.pushes t.stack) →
    Turns (f.turn c) (counted s c) (inOrderOfLanes c) s1 new → Stays c s1 b →
    ∃ t, exec i s = .next t ∧ Ends s1 t c b f.hdr (f.ret c) (resultOf new) id

/-! Uniform loads and stores -/

/-- The lane whose operands a uniform form uses: the lowest that is no helper (R258). -/
def chosen (c : Ctx) : Option (Nat × Thread) := chosenLane (active c)

/-- The origin record of a poisoned cell that a load left at a stack position (R249). -/
def withOrigin (c : Ctx) (a : Addr) (l : List Loaded) (depth : Nat) (uni : Bool) (t : Thread) : Thread :=
  match firstPoison l 0 with
  | some (_, ad) => fillOrigin t (originOf ad c.p.pc.toNat (slotNo c.b a) 0 depth uni)
  | none => t

/-- A lane of `ldf` at lane scope: the value, or 0 in a helper lane, long-latency; the lane that accessed memory keeps the
origin record. -/
def ldfThread (c : Ctx) (a : Addr) (l : List Loaded) (v : Val) (by_ : Nat) (k : Nat) (t : Thread) : Thread :=
  let rest := t.stack.drop (addrPops a)
  if t.cls = .helper then { t with stack := freshLong c ⟨0, .clean⟩ :: rest }
  else
    let u := { t with stack := freshLong c v :: rest }
    if k = by_ then withOrigin c a l (laneDepth c.b c.p - addrPops a) false u else u

/-- The lowest lane of the path. -/
def lowest (c : Ctx) : Option Nat := (inOrderOfLanes c).head?.map (·.1)

/-! One word of memory -/

/-- An access by a flat address to a cell that is one 32-bit element: no scale, format i32 (R120, R164, R228). -/
structure OneWord (c : Ctx) (a : Addr) (store : Bool) (hi lo : Word) (at_ : Nat) : Prop where
  flat : a.nc = 0
  slot : (accessSlot c.b a).fmt = 1 ∧ (accessSlot c.b a).sl = 0
  ok : slotOk c.b a store = true
  addr : at_ = hi.toNat * 2 ^ 32 + lo.toNat
  aligned : at_ % 4 = 0

/-- The operands of a flat access, top first. -/
def flatOperands (hi lo : Word) : List Val := [⟨lo, .clean⟩, ⟨hi, .clean⟩]

/-- A word of a gang member's scratchpad that the block may access (R228, R231, R244, R397). -/
structure SpadWord (s : State) (c : Ctx) (store : Bool) (at_ mid off : Nat) (mb : Block) : Prop where
  own : tget s.blocks c.bid = some c.b
  spot : ∃ m, flatSpot at_ = .spad m off ∧ m < c.b.gangSize ∧ (c.b.members c.bid).getD m c.bid = mid
  inside : off + 4 ≤ 1024 * c.b.spadKiB
  member : tget s.blocks mid = some mb
  sound : ∀ i < 4, mem? mb.badWords ((off + i) / 8) = false
  free : if store then stagedAt mb off 4 = false else mismatchedAt mb off 4 = false

/-- A word of virtual memory whose translation is there: this package's memory, at no NCO page, without an error
(R228-R231, R319, R397). -/
structure MemWord (s s1 : State) (c : Ctx) (need : Need) (at_ pa : Nat) (perm : Perm) : Prop where
  spot : flatSpot at_ = .virt at_
  found : xlate s c.b.who need at_ = (s1, .ok pa perm)
  here : isFabric pa = false
  shared : perm.nco = false
  sound : s.lineBad pa = false ∧ s.lineBad (pa + 3) = false

/-! What an access may change -/

/-- The bytes of memory, and of a block's scratchpad, that a resolved stretch names. -/
def Machine.Target.inMem : Target → Nat → Prop
  | .mem pa n _, x => isFabric pa = false ∧ pa ≤ x ∧ x < pa + n
  | _, _ => False
def Machine.Target.inSpad : Target → Nat → Nat → Prop
  | .spad blk off n, k, x => k = blk ∧ off ≤ x ∧ x < off + n
  | _, _, _ => False

/-- The stretches that a store of `n` cells writes: those of its elements that are there (R264). -/
def storeTargets (c : Ctx) (a : Addr) (n : Nat) (s : State) (vs : List Val) : List Target :=
  match (resolveStore s c.b.who c.bid (accessSlot c.b a).fmt
    (cellElems c.b c.bid a true ((vs.take (addrPops a)).map (·.bits)) n)).2 with
  | .ok cells => cells.flatten.flatMap (fun e => match e.2 with
    | .ok (some r) => r.data
    | _ => [])
  | _ => []

/-- The stretch that an atomic changes (R265, R267). -/
def atomTargets (c : Ctx) (a : Addr) (s : State) (vs : List Val) : List Target :=
  let ops := (vs.take (addrPops a)).map (·.bits)
  match atomElem (accessAddr c.b a ops) (cellElems c.b c.bid a true ops 1).flatten with
  | .ok (some (_, sp)) =>
    match (resolve s c.b.who c.bid .store sp 4).2 with
    | .ok ts => ts
    | _ => []
  | _ => []

/-- What an access may touch beside memory and scratchpads: translations and their requests, the line requests it posts,
the counter of free values. -/
def OnlyAccess (s t : State) : Prop :=
  t = { s with mem := t.mem, blocks := t.blocks, coh := t.coh, parts := t.parts, events := t.events, free := t.free, out := t.out }

/-- Memory and scratchpads are as they were outside these stretches. -/
structure OnlyWrites (l : List Target) (s t : State) : Prop where
  rest : OnlyAccess s t
  mem : ∀ x, (∀ g ∈ l, ¬ g.inMem x) → rdByte t.mem x = rdByte s.mem x
  blocks : ∀ k, (tget s.blocks k).isNone → (tget t.blocks k).isNone
  spads : ∀ k b, tget s.blocks k = some b → ∃ b', tget t.blocks k = some b' ∧ b' = { b with spad := b'.spad } ∧
    ∀ x, (∀ g ∈ l, ¬ g.inSpad k x) → rdByte b'.spad x = rdByte b.spad x

end Sys2Proof
end

