-- ==== Sys2Proof/Safety/Commands.lean ====
section
/-! DEFINITION. The terms of the statements about engine commands, waits and statuses, matrix forms and privileged forms. -/

namespace Sys2Proof

open Machine

/-! Engine commands -/

/-- The lanes that issue a command: those that are no helpers, low positions first (R273). -/
def issuers (c : Ctx) : List (Nat × Thread) := byLane ((active c).filter (fun e => e.2.cls == .live))

/-- The top cells of these lanes are not poisoned (R250). -/
def CleanTops (n : Nat) (l : List (Nat × Thread)) : Prop := ∀ e ∈ l, ∀ v ∈ tops n e.2.stack, v.poison = .clean

/-- These lanes agree in the bits of their top cells (R273). -/
def SameTops (n : Nat) (l : List (Nat × Thread)) : Prop :=
  ∀ e ∈ l, ∀ f ∈ l, (tops n e.2.stack).map (·.bits) = (tops n f.2.stack).map (·.bits)

/-- A command that a path gives to an engine: the cells it pops in every lane, whether the lanes must agree, the feature bits,
and its own checks and queueing. -/
structure CommandForm where
  hdr : Hdr
  pops : Nat
  agree : Bool
  feats : Block → List Nat
  run : State → Ctx → List (Nat × Thread) → CmdRes

/-- The value of an operand, by its position from the top. -/
def operand (l : List (Nat × Thread)) (i : Nat) : Word :=
  match l with
  | e :: _ => ((e.2.stack.getD i (.ofWord 0)).val).bits
  | [] => 0

/-- The governing bits of a form with a slot: bit 2 beside its group's bit when the slot is QN4 (R39). -/
def bitQn4 (k : Nat) (q : Block → Bool) (b : Block) : List Nat := if q b then [k, 2] else [k]

/-- CPY, GTH, COL and SMP commands (R273-R290). -/
def commandForm : Instr → Option CommandForm
  | .cpy h ch src dst ro z => some ⟨h, 0, true, withQn4 (shapesQn4 [src.toNat, dst.toNat]),
      fun s c _ => copyBody (.cpy h ch src dst ro z) 0 0 s c⟩
  | .cpyo h ch src dst ro z => some ⟨h, 2, true, withQn4 (shapesQn4 [src.toNat, dst.toNat]),
      fun s c l => copyBody (.cpyo h ch src dst ro z) (operand l 1) (operand l 0) s c⟩
  | .gath h tag a b z => some ⟨h, 2, false, withQn4 (shapesQn4 [a.toNat, b.toNat]), gatherBody (.gath h tag a b z)⟩
  | .scat h tag a b z => some ⟨h, 2, false, withQn4 (shapesQn4 [a.toNat, b.toNat]), gatherBody (.scat h tag a b z)⟩
  | .cred h ch buf res op => some ⟨h, 0, true, bitQn4 6 (shapesQn4 [buf.toNat, res.toNat]),
      fun s c _ => groupBody (.cred h ch buf res op) 0 s c⟩
  | .cbc h ch buf res => some ⟨h, 1, true, bitQn4 6 (shapesQn4 [buf.toNat, res.toNat]),
      fun s c l => groupBody (.cbc h ch buf res) (operand l 0) s c⟩
  | .cag h ch buf res => some ⟨h, 0, true, bitQn4 6 (shapesQn4 [buf.toNat, res.toNat]),
      fun s c _ => groupBody (.cag h ch buf res) 0 s c⟩
  | .csend h ch buf => some ⟨h, 3, true, bitQn4 6 (shapesQn4 [buf.toNat]), csendBody (.csend h ch buf)⟩
  | .smp h k => some ⟨h, 3, true, bitQn4 5 (shapesQn4 [k.toNat]), smpBody (.smp h k)⟩
  | _ => none

/-- Commands complete in a home or formed warp: when the command's checks pass and it is queued, every lane's operands are
popped; when every lane is a helper, no command is issued (R253, R273). -/
def CompletesAsCommand (form : Instr → Option CommandForm) : Prop :=
  ∀ i f s c, form i = some f → f.hdr.sc = .lane → Issuing s c i → Enabled s c (f.feats c.b) → c.p.finder = false →
    EachLane c (fun _ t => Operands c (laneCeil c.b c.p) f.pops 0 t.stack) →
    CleanTops f.pops (issuers c) → (f.agree = true → SameTops f.pops (issuers c)) →
    (∀ s1 b, issuers c ≠ [] → f.run (counted s c) c (issuers c) = .done s1 → Stays c s1 b →
      ∃ t, exec i s = .next t ∧ Ends s1 t c b f.hdr { pc := c.p.pc + 4 }
        (fun _ th => { th with stack := th.stack.drop f.pops }) id) ∧
    (issuers c = [] → ∃ t, exec i s = .next t ∧ Ends s t c c.b f.hdr { pc := c.p.pc + 4 }
        (fun _ th => { th with stack := th.stack.drop f.pops }) id)

/-! Statuses and waits -/

/-- A form that pushes one word in every lane, 0 in a helper lane (R253, R278, R288): what it does first, and whether the result
stays owed until an engine returns it. -/
structure StatusForm where
  hdr : Hdr
  feats : List Nat := [0]
  ok : State → Ctx → Prop := fun _ _ => True
  mid : State → Ctx → State := fun s _ => s
  pending : State → Ctx → Bool := fun _ _ => false
  word : State → Ctx → Word

def statusForm : Instr → Option StatusForm
  | .cpstat h ch => some { hdr := h
                           word := fun _ c => statusWord (queuedOf c.bid (c.b.chan ch.toNat).queue) (c.b.chan ch.toNat).halt }
  | .sstat h => some { hdr := h, feats := [5], word := fun s c => statusWord (smpQueued s c.bid) c.b.smpHalt }
  | .mtag h e => some { hdr := h, feats := [6], ok := fun s c => bits ((s.matchEntry e.toNat).getD 2 0).toNat 13 8 = c.b.part
                        word := fun s _ => (s.matchEntry e.toNat).getD 2 0 }
  | .cwait h ch => some {
      hdr := h, feats := [6], word := fun s c => collStatus s c.bid ch.toNat
      ok := fun s c => foreign s c.b ch.toNat = false
      pending := fun s c => collPending s c ch.toNat
      mid := fun s c => if collPending s c ch.toNat
        then setBindQueue s c.b.part ch.toNat ((s.binding c.b.part ch.toNat).queue ++ [waitCmd (.cwait h ch) c]) else s }
  | _ => none

def CompletesWithStatus (form : Instr → Option StatusForm) : Prop :=
  ∀ i f s c, form i = some f → f.hdr.sc = .lane → Issuing s c i → Enabled s c f.feats → c.p.finder = false → f.ok s c →
    EachLane c (fun _ t => Operands c (laneCeil c.b c.p) 0 1 t.stack) →
    ∃ t, exec i s = .next t ∧ Ends (f.mid (counted s c) c) t c c.b f.hdr
      (if f.pending s c then { pc := c.p.pc + 4, await := [c.env.longMark] } else { pc := c.p.pc + 4, owed := 1 })
      (fun _ th => { th with stack := freshLong c ⟨if th.cls = .helper then 0 else f.word s c, .clean⟩ :: th.stack }) id

/-- A form that changes no lane: whether a finder warp may run it, its privilege and feature bits, what it needs, what it does
first, what it makes of the path's own cells, its end. -/
structure PlainForm where
  hdr : Hdr
  scopes : List Scope := [.lane]
  home : Bool := true
  priv : Bool := false
  feats : Block → List Nat := fun _ => [0]
  ok : Ctx → Prop := fun _ => True
  mid : State → Ctx → State := fun s _ => s
  own : Path → Path := id
  ret : State → Ctx → Retire := fun _ c => { pc := c.p.pc + 4 }

/-- Divided cells settled (R148, R216). -/
def settled (high : Bool) (p : Path) : Path :=
  { p with w := p.w.map (settleCell high), ust := p.ust.map (settleCell high) }

/-- A wait ends at once when nothing is outstanding, or is owed until its engine returns it (R281, R284, R290). -/
def waitRet (pending : Bool) (c : Ctx) : Retire :=
  if pending then { pc := c.p.pc + 4, await := [c.env.longMark] } else { pc := c.p.pc + 4, owed := 1 }

/-- System forms, fences, `umerge`, `rehome` at home, waits, `mclr` and `spx`. -/
def plainForm : Instr → Option PlainForm
  | .nop h _ => some { hdr := h, scopes := [.lane, .warp], home := false }
  | .yield h _ => some { hdr := h, scopes := [.lane, .warp], home := false
                         ret := fun _ c => { pc := c.p.pc + 4, yieldPt := !c.p.finder } }
  | .sleep h n _ => some { hdr := h, scopes := [.lane, .warp], home := false
                           ret := fun _ c => { pc := c.p.pc + 4, sleep := 16 * n.toNat } }
  | .fence h _ => some { hdr := h }
  | .fenceSc h => some { hdr := h }
  | .xfence h _ _ => some { hdr := h }
  | .umerge h .low => some { hdr := h, home := false, own := settled false }
  | .umerge h .high => some { hdr := h, home := false, own := settled true }
  | .umerge h .fault => some { hdr := h, home := false, ok := fun c => ∀ x ∈ c.p.w ++ c.p.ust, x.hi = none }
  | .rehome h => some { hdr := h, ok := fun c => h.b = true ∧ c.p.formed = false }
  | .cpwait h ch => some {
      hdr := h
      mid := fun s c => if queuedOf c.bid (c.b.chan ch.toNat).queue != 0 then s.modBlock c.bid (fun b => b.modChan ch.toNat
        (fun k => { k with queue := k.queue ++ [waitCmd (.cpwait h ch) c] })) else s
      ret := fun _ c => waitRet (queuedOf c.bid (c.b.chan ch.toNat).queue != 0) c }
  | .gwait h tag =>
    let pending := fun (s : State) (c : Ctx) =>
      (gatherQueue s c.b.place.coreNo).any (fun x => !isWait x.op && sameStream (waitCmd (.gwait h tag) c) x)
    some {
      hdr := h
      mid := fun s c => if pending s c then setGather s c.b.place.coreNo
        (gatherQueue s c.b.place.coreNo ++ [waitCmd (.gwait h tag) c]) else s
      ret := fun s c => waitRet (pending s c) c }
  | .swait h => some {
      hdr := h, feats := fun _ => [5]
      mid := fun s c => if smpQueued s c.bid != 0 then standSmp h s c else s
      ret := fun s c => waitRet (smpQueued s c.bid != 0) c }
  | .mclr h acc => some {
      hdr := h, home := false, ok := fun c => matHead c (.mclr h acc) = none
      mid := fun s c => settleOrder c.sector (pseudoOp s c (.mclr h acc)) }
  | .spx h z k => some {
      hdr := h, priv := true, feats := withQn4 (shapesQn4 [k.toNat])
      ok := fun c => shapeOk c.b k.toNat = true ∧ (c.b.shapeOf k.toNat).spad = true ∧
        spadFits c.b (c.b.shapeOf k.toNat) (shapeFmt c.b k.toNat) 0 = true ∧
        ∀ r ∈ spanRows (c.b.shapeOf k.toNat) (shapeFmt c.b k.toNat), stagedAt c.b (256 * r) 256 = false
      mid := fun s c => s.modBlock c.bid (fun b => { b with spad :=
        (spanRows (c.b.shapeOf k.toNat) (shapeFmt c.b k.toNat)).foldl (fun m r => swizzleRow m z.toNat r) b.spad })
      ret := fun _ c => { pc := c.p.pc + 4, owed := 1 } }
  | _ => none

/-- The forms of a table complete, and change nothing but what they say. -/
def CompletesPlainly (form : Instr → Option PlainForm) : Prop :=
  ∀ i f s c b, form i = some f → f.hdr.sc ∈ f.scopes → Issuing s c i → Enabled s c (f.feats c.b) →
    (f.priv = true → c.b.lvl ≠ 0) → (f.home = true → c.p.finder = false) → f.ok c → Stays c (f.mid (counted s c) c) b →
    ∃ t, exec i s = .next t ∧ Ends (f.mid (counted s c) c) t c b f.hdr (f.ret (counted s c) c) (fun _ th => th) f.own

/-! Matrix forms (R333-R353) -/

/-- What a quarter form brings, from its lanes or from their replay latches (R336, R347, R350). -/
def quarterOf (c : Ctx) (i : Instr) (pq : Bool) : QuarterOp :=
  let l := inOrderOfLanes c
  if isReplay c then
    let w := ((chosenOf l).map (·.2.latch.pq)).getD []
    ⟨l, l.map (fun e => (e.1, e.2.latch.cells)), [], w.getD 0 0, w.getD 1 0, ((chosenOf l).map (·.2.latch.next)).getD 0, 0,
      true⟩
  else
    let full := usesLatch i && latchFull c.b c.p
    let n := (matrixCells c.b i).1 + (matrixCells c.b i).2
    let word := fun (k : Nat) => if pq then ((chosenOf l).map (fun e => topWord e.2 k)).getD 0 else 0
    ⟨l, l.map (fun e => (e.1, laneCells full (if pq then 2 else 0) n e.2)), [], word 1, word 0, 0, matrixPops c.b full false i,
      false⟩

/-- Steps 1 to 10 of R347 pass: no page failure is left to raise, and, unless the instruction is issued again from its replay
latches, the path is a home warp's, its tile exists, the lanes' cells are there and clean, they agree, slot, shape, latch, KIND
and sources fit. -/
structure QuarterReady (s : State) (c : Ctx) (i : Instr) (pq : Bool) : Prop where
  fault : c.p.pageFault = none
  lanes : c.p.lanes ≠ []
  threads : ∀ k ∈ c.p.lanes, ∃ t, tget c.b.threads k = some t
  fresh : isReplay c = false → matHead c i = none ∧
    (∀ e ∈ active c, Operands c (laneCeil c.b c.p) (matrixPops c.b (latchFull c.b c.p) false i) 0 e.2.stack ∧
      (∀ v ∈ tops (matrixPops c.b (latchFull c.b c.p) false i) e.2.stack, v.poison = .clean) ∧
      (usesLatch i = true ∧ latchFull c.b c.p = true → e.2.latch.bad = [] ∧ ∀ v ∈ e.2.latch.cells, v.poison = .clean) ∧
      latchFits c.b i e.2 = true) ∧
    (usesLatch i = true → latchMixed (inOrderOfLanes c) = false) ∧ (pq = true → topAgree 2 (inOrderOfLanes c) = true) ∧
    reducedBad s c.b i = false ∧ slotFits c.b i = true ∧ shapeFits c.b i = true ∧ kindFits (counted s c) c i = true ∧
    noStraddle c.b i (quarterOf c i pq).p (quarterOf c i pq).q = true ∧ sourcesOk i (inOrderOfLanes c) = true

/-- The lanes' cells as the entries hold them, with the index cells that serve each lane (R339). -/
def entered (c : Ctx) (i : Instr) (x : QuarterOp) : List (Nat × List Word × List Word) :=
  entryLanes c.b i (x.lanes.map (fun e => (e.1, (cellsOf x e.1).map (·.bits))))

/-- Steps 11 and 12 of R347 pass at once and the entries stand in the sector's queue: `s1` is the state then, `l` the entries.
-/
structure QuarterPlaced (s s1 : State) (c : Ctx) (i : Instr) (x : QuarterOp) (l : List MOp) : Prop where
  elems : ∀ e ∈ (upto (chunksOf c.b i - x.start)).flatMap (fun j => (chunkElems c.b c.bid i x.p x.q (x.start + j)).flatten),
    elemBad c.b (matSlot c.b i).fmt e = none
  room : queuedReal s c.sector + ((upto 4).filter (fun k => !(quarterLanes k (entered c i x)).isEmpty)).length
    ≤ Config.matrixQueue
  held : awaitPages s c (.mmaPageCheckComplete c.bid c.pid) (holdAccesses c.b c.bid i x.p x.q x.start) = none
  entries : ∃ r pages, checkAccesses c.b.who c.bid 8 s [] (formAccesses c.b c.bid i x.p x.q x.start) = (r, .ok pages) ∧
    let e := newEntries r c i (entered c i x) x.p x.q pages x.start (chunksOf c.b i) (if x.replay then x.lanes.map (·.1) else [])
    l = e.2 ∧ s1 = enterOps e.1 c i e.2

/-- The quarter forms: header, feature bits, whether they pop p and q (R346, R348, R352, R353). -/
def quarterForms : Instr → Option (Hdr × (Block → List Nat) × Bool)
  | .mma h u fs acc wb => some (h, withQn4 (matQn4 (.mma h u fs acc wb)), true)
  | .mmas h u fs acc wb sel => some (h, fun b => 3 :: (if matQn4 (.mmas h u fs acc wb sel) b then [2] else []), true)
  | .mtab h u fs => some (h, fun b => 4 :: (if matQn4 (.mtab h u fs) b then [2] else []), false)
  | .mlut h two acc wb => some (h, fun b => 4 :: (if matQn4 (.mlut h two acc wb) b then [2] else []), false)
  | _ => none

/-! Matrix drains (R355-R359) -/

/-- The state in which the instruction has its place in the warp's order. -/
def placed (s : State) (c : Ctx) (i : Instr) : State := if (ownPlace s c).isSome then s else pseudoOp s c i

/-- Nothing that the instruction depends on stands before its place (R355, R427). -/
def AtHead (s : State) (c : Ctx) : Prop :=
  ∃ x, ownPlace s c = some x ∧ ripe ((s.sector c.sector).mq.takeWhile (fun y => y.id != x.id)) x = true

/-- What an MDR form needs before its wait: its head, its operands in every lane, clean. -/
structure DrainReady (c : Ctx) (i : Instr) (pushes : Nat) : Prop where
  head : matHead c i = none
  lanes : EachLane c (fun _ t => Operands c (laneCeil c.b c.p) (matrixPops c.b false false i) pushes t.stack)
  clean : CleanTops (matrixPops c.b false false i) (active c)

/-- The row of a tile that a lane drains, column 15 on top (R357). -/
def drained (t : Tile) (k : Nat) : List Word := (t.shown (lanePos k)).reverse

/-- Words pushed on a stack, top first, long-latency. -/
def pushWords (c : Ctx) (l : List Word) (st : List Cell) : List Cell := l.map (fun w => freshLong c ⟨w, .clean⟩) ++ st

/-- The lanes of an MDR form that access memory. -/
def rowLanes (c : Ctx) : List (Nat × Thread) := (inOrderOfLanes c).filter (fun e => e.2.cls == .live)

/-- The accesses of `mdst` or `mld`. -/
def rowAccesses (c : Ctx) (i : Instr) (write : Bool) : List CmdAccess :=
  (rowLanes c).flatMap (fun e => (rowElems c i write e.2).flatMap (elemAccesses (matSlot c.b i).fmt 0 write))

/-- Every row that `mdst` stores, written through the checked pages (R358). -/
def storeRows (c : Ctx) (i : Instr) (t : Tile) (pages : List (Nat × Nat × Bool)) (s : State) : State :=
  (rowLanes c).foldl (fun s e => ((rowElems c i true e.2).zip (t.shown (lanePos e.1))).foldl (fun s r =>
    putRowElem (matSlot c.b i) c.bid c.b.place.die pages s r.1 (storedElem (matSlot c.b i) t.kind r.2)) s) s

/-- The tile that `mld` leaves (R359). -/
def loadedTile (base : Tile) (rows : List (Nat × List Word)) : Tile :=
  rows.foldl (fun t e => ((upto 16).zip e.2).foldl (fun t w => t.put e.1 w.1 w.2) t) base

/-! Privileged forms -/

/-- A PRV form that acts once for its path: its operands are in every lane, clean and the same (R233, R376). -/
structure OnceForAll (c : Ctx) (pops pushes : Nat) : Prop where
  lanes : EachLane c (fun _ t => Operands c (laneCeil c.b c.p) pops pushes t.stack)
  clean : CleanTops pops (active c)
  same : SameTops pops (active c)
  home : c.p.finder = false
  level : c.b.lvl ≠ 0

/-- Operand i from the top of a form that pops `pops` cells; zero where it has none. -/
def pathOperand (c : Ctx) (pops i : Nat) : Word := if i < pops then operand (inOrderOfLanes c) i else 0

/-- A lane after a PRV form that pops and pushes a status. -/
def withStatus (c : Ctx) (pops st : Nat) (th : Thread) : Thread :=
  { th with stack := freshLong c ⟨wd st, .clean⟩ :: th.stack.drop pops }

/-- The invalidation of a `tlbi` (R233). -/
def invalidation (c : Ctx) (kind : Nat) : TlbiWait :=
  let n := tlbiPops kind
  ⟨c.bid, c.pid, c.env.longMark, c.b.part, kind, if kind = 1 then (pathOperand c n 0).toNat % 65536 else c.b.asid,
    ((pathOperand c n 1).toNat * 2 ^ 32 + (pathOperand c n 0).toNat) / 4096⟩

/-- The state in which a `tlbi` has dropped its entries and waits. -/
def invalidating (s : State) (c : Ctx) (kind : Nat) : State :=
  let t := invalidation c kind
  let u := dropEntries s t
  { u with coh := { u.coh with tlbis := u.coh.tlbis ++ [t] } }.postOnce (s.cycle + 1) (.tlbiComplete c.bid c.pid)

end Sys2Proof
end

