-- ==== Sys2Proof/Safety/Control.lean ====
section
/-! DEFINITION. The terms of the statements about exceptions, control transfers, paths and meetings. -/

namespace Sys2Proof

open Machine

/-! Taking an exception -/

/-- No other path of the block holds a lane of the issuing path (R75). -/
def Alone (c : Ctx) : Prop := ∀ k q, k ≠ c.pid → tget c.b.paths k = some q → ∀ l ∈ q.lanes, l ∉ c.p.lanes

/-- The path and its lanes are there. -/
structure Stands (s : State) (c : Ctx) : Prop where
  block : tget s.blocks c.bid = some c.b
  path : tget c.b.paths c.pid = some c.p
  lanes : EachLane c (fun _ _ => True)
  alone : Alone c

/-- The fault record of a thread of the path (R363), with no sequence number yet. `full` is UFULL: the uniform stack had no
room for a routine's entry (R365). -/
def recordOf (c : Ctx) (k : Nat) (t : Thread) (i : TrapInfo) (full : Bool) : FaultRec where
  pc := c.p.pc
  cause := BitVec.ofNat 6 i.cause
  flags := BitVec.ofNat 8
    ((if c.p.nest.isSome then 1 else 0) + (if c.p.finder then 4 else 0) + (if c.p.formed then 8 else 0)
      + (if full then 16 else 0))
  depth := BitVec.ofNat 16 (i.depth.getD t.stack.length)
  addr := BitVec.ofNat 64 i.addr
  mask := wd (laneMask c.p.lanes)
  runPc := c.p.run.pc
  udepth := BitVec.ofNat 8 c.p.ust.length
  lvl := BitVec.ofNat 8 (c.b.lvl + if c.p.nest.isSome then 4 else 0)
  blane := BitVec.ofNat 16 (k % 1024)
  prog := wd i.prog
  origin := t.origin
  block := wd c.bid
  node := BitVec.ofNat 16 c.b.launch.node
  seq := 0

/-- A thread has a new record, its latest, and is otherwise as it was (R363, R364); where it stops, it is the one it stopped
with. -/
structure Records (th th' : Thread) (f : FaultRec) : Prop where
  rest : th' = { th with run := th'.run, fault := th'.fault, held := th'.held, behind := th'.behind, stopRec := th'.stopRec }
  stop : (th'.run = th.run ∧ th'.stopRec = th.stopRec) ∨ { th'.stopRec with seq := 0 } = f
  last : { th'.last with seq := 0 } = f

/-- The records of the path's lanes (R363). -/
def recordsOf (c : Ctx) (i : TrapInfo) (full : Bool) : List (Nat × FaultRec) :=
  (active c).map (fun e => (e.1, recordOf c e.1 e.2 i full))

/-- A cause is raised in every lane of the path (R362-R364): once every result owed to it has returned, each thread stops with
its record and is otherwise as it was, until then the path waits with these records; it stands at its instruction, other blocks
are as they were, and memory is as it was unless the partition's fault ring takes records. -/
structure Stops (s t : State) (c : Ctx) (i : TrapInfo) (full : Bool := false) : Prop where
  rest : t = { s with
    blocks := t.blocks, sectors := t.sectors, events := t.events, parts := t.parts, out := t.out, mem := t.mem
    engines := t.engines, coh := { s.coh with ats := t.coh.ats } }
  lanes : ∀ k ∈ c.p.lanes, ∀ th, tget c.b.threads k = some th → ∃ th', t.thread? c.bid k = some th' ∧
    if c.p.run.settled then th'.run = .stopped ∧ Records th th' (recordOf c k th i full) else th' = th
  path : ∃ p, t.path? c.bid c.pid = some p ∧ p.lanes = c.p.lanes ∧ p.pc = c.p.pc ∧
    p.ust = c.p.ust ∧ p.w = c.p.w ∧ p.nest = c.p.nest ∧
    if c.p.run.settled then p.wait = .stopped else p.wait = .trapping ∧ p.stops = recordsOf c i full
  blocks : ∀ k, k ≠ c.bid → tget t.blocks k = tget s.blocks k
  mem : (s.part c.b.part).rep.fault.enabled = false → t.mem = s.mem

/-- A path holds records of exceptions that its threads are yet to take, one for each of some of its lanes, which no other
path holds (R362, R375). -/
structure HeldStops (b : Block) (pid : Nat) (p : Path) : Prop where
  some : p.stops ≠ []
  once : (p.stops.map (·.1)).Nodup
  lanes : ∀ e ∈ p.stops, e.1 ∈ p.lanes ∧ (tget b.threads e.1).isSome
  alone : ∀ k q, k ≠ pid → tget b.paths k = .some q → ∀ l ∈ q.lanes, l ∉ p.lanes

/-- The path and the threads of its held records have stopped, each thread with its record and otherwise as it was. -/
structure StopsAsHeld (t : State) (bid pid : Nat) (b : Block) (p : Path) : Prop where
  path : ∃ q, t.path? bid pid = some q ∧ q.wait = .stopped ∧ q.lanes = p.lanes
  lanes : ∀ e ∈ p.stops, ∀ th, tget b.threads e.1 = some th → ∃ th', t.thread? bid e.1 = some th' ∧ th'.run = .stopped ∧
    Records th th' { e.2 with seq := 0 }

/-! Transfers -/

/-- A lane's top cell is the operand of a transfer: there, consumable, clean (R208, R209). -/
def TransferOperand (c : Ctx) (t : Thread) : Prop :=
  Operands c (laneCeil c.b c.p) 1 0 t.stack ∧ ∀ v ∈ tops 1 t.stack, v.poison = .clean

/-- The same of the uniform stack. -/
def UniformOperand (c : Ctx) : Prop := Operands c 8 1 0 c.p.ust ∧ ∀ v ∈ tops 1 c.p.ust, v.poison = .clean

/-- The bits on top of a stack. -/
def topBits (st : List Cell) : Word := ((st.getD 0 (.ofWord 0)).val).bits

/-- A branch target: PC + 4 + 4 × OFF16, the offset signed (R116, R207). -/
def targetOf (c : Ctx) (off : BitVec 16) : Word := c.p.pc + 4 + 4 * off.signExtend 32

/-- A target that `ret` and `jx` may go to: aligned and in the code section (R209). -/
def Reachable (c : Ctx) (a : Word) : Prop := a.toNat % 4 = 0 ∧ a.toNat < c.b.csize

/-- Conditional branches: header, offset, and whether the branch is taken on zero (R208). -/
def branchForm : Instr → Option (Hdr × BitVec 16 × Bool)
  | .bz h off => some (h, off, true)
  | .bnz h off => some (h, off, false)
  | _ => none

/-! Paths -/

/-- What a path operation leaves: blocks, sectors, events, fresh numbers and the host's answers may change, nothing else. -/
def OnlyPaths (s t : State) : Prop :=
  t = { s with
    blocks := t.blocks, sectors := t.sectors, events := t.events, ids := t.ids, free := t.free
    coh := { s.coh with ats := t.coh.ats } }

/-- The lanes of the path whose fork operand is zero, and those whose is not (R212). -/
def armOf (c : Ctx) (taken : Bool) : List Nat :=
  ((active c).filter (fun e => (topBits e.2.stack != 0) == taken)).map (·.1)

/-- The depth a lane needs at its join: the depth at its fork plus D (R143). -/
def joinsAt (t : Thread) (d : BitVec 4) : Prop :=
  (t.stack.length : Int) = ((t.forkD.head?.map (·.2)).getD 0 : Nat) + d.toInt

/-! Meetings -/

/-- Instructions that meet at set or block scope: header, membership word, cells needed, growth, cells consumed
(R76, R220-R222, R185). -/
structure MeetForm where
  hdr : Hdr
  wm : BitVec 4
  need : Nat := 0
  grow : Nat := 0
  cons : Nat := 0
  setOnly : Bool := false

def meetForm : Instr → Option MeetForm
  | .sync h wm => some { hdr := h, wm := wm }
  | .arrive h wm => some { hdr := h, wm := wm }
  | .await h wm => some { hdr := h, wm := wm }
  | .nop h wm => some { hdr := h, wm := wm }
  | .red h _ _ wm => some { hdr := h, wm := wm, need := 1, cons := 1 }
  | .scan h _ _ wm => some { hdr := h, wm := wm, need := 1, cons := 1 }
  | .segred h _ _ wm => some { hdr := h, wm := wm, need := 2, cons := 2 }
  | .segscan h _ _ wm => some { hdr := h, wm := wm, need := 2, cons := 2 }
  | .sbc h wm _ => some { hdr := h, wm := wm, need := 1, cons := 1 }
  | .push h .o _ => some { hdr := h, wm := 0, grow := 1, setOnly := true }
  | .pop h .o _ => some { hdr := h, wm := 0, need := 1, setOnly := true }
  | .keep h .o _ => some { hdr := h, wm := 0, need := 1, setOnly := true }
  | .xch h .o _ => some { hdr := h, wm := 0, need := 1, setOnly := true }
  | _ => none

/-- What an arriving lane must have (R78): the cells of the instruction, room for its result, consumable operands. -/
def MeetLane (c : Ctx) (f : MeetForm) (t : Thread) : Prop :=
  f.need ≤ t.stack.length ∧ t.stack.length + f.grow ≤ laneCeil c.b c.p ∧ ∀ x ∈ t.stack.take f.cons, Consumable c x

/-- The instance that a path joins, or opens under a fresh number (R78, R79). -/
def Joins (s : State) (c : Ctx) (i : Instr) (f : MeetForm) (bm id : Nat) (r : Rdv) : Prop :=
  (expecting c.b c.p.warp = [(id, r)] ∧ tget c.b.rdvs id = some r ∧
    r.scope = f.hdr.sc ∧ r.pc = c.p.pc ∧ r.warps.toNat = bm) ∨
  (expecting c.b c.p.warp = [] ∧ rivalOf c f.hdr.sc bm = none ∧ id = s.ids ∧
    r = ⟨f.hdr.sc, c.p.pc, wd bm, i, [], false⟩)

/-- Where the segment of an element begins: at the last element up to it that is the first or has a non-zero h (R221). -/
def segmentStart (hs : List Word) : Nat → Nat
  | 0 => 0
  | i + 1 => if hs.getD (i + 1) 0 ≠ 0 then i + 1 else segmentStart hs i

/-- The element behind the segment of an element: the next one after it that has a non-zero h, or the end (R221). -/
def segmentEnd (hs : List Word) (i : Nat) : Nat := i + 1 + ((hs.drop (i + 1)).takeWhile (· == 0)).length

/-- The result of a segmented form over some elements: any poisoned h poisons it (R221). -/
def segmentVal (ty : RTy) (op : RedOp) (hs xs : List Val) : Val :=
  let v := reduceVals ty op xs
  if hs.any (·.poisoned) then ⟨v.bits, .derived⟩ else v

/-- A ready cell on top of a stack with `n` cells removed. -/
def replaced (n : Nat) (v : Val) (t : Thread) : Thread := { t with stack := readyCell v :: t.stack.drop n }

end Sys2Proof
end

