-- ==== Sys2Proof/Safety/Device.lean ====
section
/-! DEFINITION. What each device step does to the state in which its event is served. -/

namespace Sys2Proof

open Machine

/-- The effect of a device step with its operands. -/
def deviceEffect (e : Event) (s : State) : State :=
  match e with
  | .nodeEnable g node => nodeEnable g node s
  | .nodeDisable g node => nodeDisable g node s
  | .commitArrival g node h src => commitArrival g node h src s
  | .coalescingTimerExpiry g node die => timerExpiry g node die s
  | .launchDecision g node die => launchDecision g node die s
  | .iterationEnd k => iterationEnd k s
  | .loopReissue k => loopReissue k s
  | .blockRetire bid => blockRetire bid s
  | .fabricMessageArrival part tag addr payload => messageArrival part tag addr payload s
  | .hostReserve part node => hostReserve part node s
  | .hostCommit part h => hostCommit part h s
  | .rendezvousComplete bid inst => completeMeeting bid inst s
  | .transitProbeSend bid u => probeSend bid u s
  | .waitCycleDetect bid u => cycleDetect bid u s
  | .binAged sector _ => warpFormation sector s
  | .warpFormation sector => warpFormation sector s
  | .rehomeRelease bid warp => rehomeRelease bid warp s
  | .joinMerge bid fid => joinMerge bid fid s
  | .pathReady bid pid => tryReady bid pid s
  | .portChoice sector finder => portChoice sector finder s
  | .resultReturn bid pid => resultReturn bid pid s
  | .queueEntryArrival bid warp => queueArrival bid warp s
  | .mainFileTransfer bid _ => mainFileTransfer bid s
  | .sleepExpiry bid pid => sleepExpiry bid pid s
  | .legacyRequestServe die => serveLegacy die s
  | .legacyQueueRoom die => legacyRoom die s
  | .matrixQueueRoom sector => matrixRoom sector s
  | .engineQueueRoom bid pid => engineRoom bid pid s
  | .finderQueueRoom bid warp => finderRoom bid warp s
  | .matrixPassStart sector => startPass sector s
  | .matrixPassEnd sector => endPass sector s
  | .mmaPageCheckComplete bid pid => pageCheckDone bid pid s
  | .mmaPageFault bid pid => raisePageFault bid pid s
  | .enginePageCheckComplete bid pid => pageCheckDone bid pid s
  | .copyCommandComplete bid ch => copyComplete bid ch s
  | .gatherCommandComplete core => gatherComplete core s
  | .collectiveOperationComplete part ch others => collStep part ch others s
  | .csendComplete bid ch => csendComplete bid ch s
  | .engineHalt u cause => engineHalt u cause.toNat s
  | .samplerRequest die => samplerStep die s
  | .programStageComplete blk => programComplete blk s
  | .programBudgetExpiry blk => programExpiry blk s
  | .dirRemoteLoad d line => dirRemoteLoad d line s
  | .dirRemoteStore d line mask => dirRemoteStore d line mask s
  | .dirHomeWrite _ line mask => dirHomeWrite line mask s
  | .dirHomeLoad .. => s
  | .dirEvict d line => evictLine d line s
  | .snoopFilterRecall d line => filterRecall d line s
  | .fabricAccessArrival pa op => fabricAccess pa op s
  | .hostAccess hpa data => hostAccess hpa data s
  | .lmClean part d pf => startMaint 1 (cleanLines d) part d pf s
  | .lmInvalidate part d pf => startMaint 2 (dropLines d) part d pf s
  | .lmCleanInvalidate part d pf => startMaint 3 (fun r s => dropLines d r (cleanLines d r s)) part d pf s
  | .lineMaintComplete part d => maintDone part d s
  | .tlbiComplete bid pid => tlbiComplete bid pid s
  | .preemptImmediate part v => preempt part v false s
  | .preemptCooperative part v => preempt part v true s
  | .preemptDeadlineExpiry part => deadlineExpiry part s
  | .vacateBegin bid => vacateBegin bid s
  | .contextSwitchStep part => engineStep part s
  | .preemptDone part => preemptDone part s
  | .blockRequeuePlace die => placeAll die s s.queued
  | .tctlResume part bid blane => tctlResume part bid blane s
  | .tctlResumeAt part bid blane => tctlResumeAt part bid blane s
  | .tctlKill part bid blane => tctlKill part bid blane s
  | .tctlStep part bid blane => beginStep s part bid blane false
  | .tctlStepAll part bid blane => beginStep s part bid blane true
  | .tctlHalt part bid blane => tctlHalt part bid blane s
  | .stepComplete bid pid => stepComplete bid pid s
  | .frtWrite part v => pumpFaults (modRep s part (fun r => { r with fault := { r.fault with tail := v.setWidth 16 } })) part
  | .ertWrite part v => pumpErrors (modRep s part (fun r => { r with error := { r.error with tail := v.setWidth 16 } })) part
  | .contextDrop part addr => contextDrop part addr s
  | .vfSave part => vfSave part s
  | .vfRestore part => vfRestore part s
  | .vfOperationComplete part => vfComplete part s
  | .pfmWrite part word v => pfmWrite part word v s
  | .xmodeWrite part v => xmodeWrite part v s
  | .graphRegisterWrite g v => graphWrite g v s
  | .partitionEnable part v => partitionEnable part v s
  | .pfselWrite v => if v.toNat ≤ 47 then s.modPkg (fun k => { k with pfsel := v.setWidth 6 }) else s
  | .coreReleaseWrite clus v => coreRelease clus v s
  | .pcapWrite v => if 600 ≤ v.toNat ∧ v.toNat ≤ 2400 then s.modPkg (fun k => { k with pcap := v }) else s
  | .bstatFullService v => fullService v s
  | .bindValidate part ch cfg => bindWrite part ch cfg s
  | .attestationRequest part => attest part s
  | .irqsClear part v => modRep s part (fun r => { r with irqs := r.irqs &&& ~~~(v.setWidth 4) })
  | .prgrRead part => prgRead part s
  | .registerWrite part off v => registerWrite part off v s
  | .atsResponse part asid page hpa r w x _ => atsAnswer part asid page hpa r w x s
  | .prgResponse part idx code => prgAnswer part idx code s
  | .atsInvalidate part asid page => hostInvalidate part asid page s
  | .invalidateCompletion part asid page => invalidateDone part asid page s
  | .flitReplay port => flitReplay port s
  | .gangKill bid => gangKill bid s
  | .gangRelaunch die => gangRelaunch die s
  | .darkFrameTest clus failing d => darkFrame clus failing d s
  | .clusterIdleGate clus => idleGate clus s
  | .powerGood => powerGood s
  | .bringupPhaseEnd r => phaseEnd r s
  | .reset => resetPackage s
  | .clockStep down => clockStep down s
  | .thermalTrip => thermalTrip s
  | .thermalResume => thermalResume s
  | .softError t => softError t s
  | .fabricPortTraining port ok => portTraining port ok s
  | .frsWrite part v => pumpFaults (modRep s part (fun r => { r with fault := { r.fault with size := v.setWidth 4 } })) part
  | .ersWrite part v => pumpErrors (modRep s part (fun r => { r with error := { r.error with size := v.setWidth 4 } })) part
  | .contextDropComplete part => dropContext part s

end Sys2Proof
end

