-- ==== Sys2Proof/Safety/Checks.lean ====
section
/-! DEFINITION. The terms of the statements about the checks that come before every form: header, legal scopes, feature bits,
privilege (R39, R40, R111, R172). -/

namespace Sys2Proof

open Machine

/-- The header of an encoded instruction: its scope and its boundary bit. -/
def headerOf : Instr → Option Hdr
  | .iarAdd h .. | .iarSub h .. | .iarMul h .. | .iarMulhi h .. | .iarMad h .. | .iarNeg h .. | .iarAbs h ..
  | .iarMin h .. | .iarMax h .. | .iarClamp h .. | .iarDiv h .. | .iarRem h .. | .farAdd h .. | .farSub h ..
  | .farMul h .. | .farFma h .. | .farNeg h .. | .farAbs h .. | .farMin h .. | .farMax h .. | .farClamp h ..
  | .farCsgn h .. | .farDiv h .. | .farSqrt h .. | .farRint h .. | .farFract h .. | .farLdexp h .. | .farExpo h ..
  | .pairAdd h .. | .pairSub h .. | .pairMul h .. | .pairFma h .. | .pairNeg h .. | .pairAbs h .. | .pairMin h ..
  | .pairMax h .. | .pairDot2 h .. | .cvt h .. | .pack h .. | .unlo h .. | .unhi h .. | .qround h .. | .cmpEq h ..
  | .cmpNe h .. | .cmpLt h .. | .cmpLe h .. | .cmpGt h .. | .cmpGe h .. | .cmpOrd h .. | .cmpUnord h .. | .sel h ..
  | .fclass h .. | .bitAnd h .. | .bitOr h .. | .bitXor h .. | .bitNot h .. | .bitAndn h .. | .bitShl h ..
  | .bitShr h .. | .bitSar h .. | .bitRot h .. | .bitPopc h .. | .bitClz h .. | .bitCtz h .. | .bitBfe h ..
  | .bitBfi h .. | .bitBrev h .. | .bitLop3 h .. | .trnRcp h .. | .trnRsq h .. | .trnEx2 h .. | .trnLg2 h ..
  | .trnSinp h .. | .trnCosp h .. | .trnTanh h .. | .trnSigm h .. | .mul24 h .. | .mad24 h .. | .fdot4 h .. | .dup h
  | .dup2 h | .drop h | .dropn h .. | .swap h | .swap2 h | .over h | .nip h | .tuck h | .rot h | .pick h ..
  | .roll h .. | .depth h | .push h .. | .pop h .. | .keep h .. | .xch h .. | .pushi h .. | .pushn h .. | .popn h ..
  | .bra h .. | .bz h .. | .bnz h .. | .call h .. | .ret h | .jx h | .exit h | .fork h .. | .join h .. | .reform h ..
  | .rehome h | .umerge h .. | .nop h .. | .trap h .. | .brk h .. | .yield h .. | .get h .. | .put h .. | .sleep h ..
  | .qswp h .. | .qbc h .. | .qadd h .. | .shfl h .. | .shfx h .. | .shup h .. | .shdn h .. | .any h .. | .all h .. | .ballot h ..
  | .matchLanes h .. | .wbc h .. | .sync h .. | .arrive h .. | .await h .. | .red h .. | .scan h .. | .segred h ..
  | .segscan h .. | .sbc h .. | .ld h .. | .ldf h .. | .ldsp h .. | .ldn h .. | .qpop h .. | .pref h .. | .st h ..
  | .stf h .. | .stsp h .. | .stn h .. | .atom h .. | .cas h .. | .ared h .. | .fence h .. | .fenceSc h | .xfence h ..
  | .cpy h .. | .cpyo h .. | .cpwait h .. | .cpstat h .. | .gath h .. | .scat h .. | .gwait h .. | .cred h ..
  | .cbc h .. | .cag h .. | .cwait h .. | .csend h .. | .mtag h .. | .emit h .. | .recput h .. | .commit h | .abandon h
  | .recget h .. | .smp h .. | .swait h | .sstat h | .mma h .. | .mmas h .. | .mtab h .. | .mlut h .. | .mclr h ..
  | .mdrain h .. | .mdst h .. | .mld h .. | .mchk h .. | .spx h .. | .tlbi h .. | .ctxs h | .ctxl h | .mapc h
  | .rdbk h .. | .wrbk h .. => some h
  | _ => none

/-- The scopes that each form allows (R111, R172). -/
def legalScopes : Instr → List Scope
  | .iarAdd .. | .iarSub .. | .iarMul .. | .iarMulhi .. | .iarMad .. | .iarNeg .. | .iarAbs .. | .iarMin ..
  | .iarMax .. | .iarClamp .. | .iarDiv .. | .iarRem .. | .farAdd .. | .farSub .. | .farMul .. | .farFma ..
  | .farNeg .. | .farAbs .. | .farMin .. | .farMax .. | .farClamp .. | .farCsgn .. | .farDiv .. | .farSqrt ..
  | .farRint .. | .farFract .. | .farLdexp .. | .farExpo .. | .pairAdd .. | .pairSub .. | .pairMul .. | .pairFma ..
  | .pairNeg .. | .pairAbs .. | .pairMin .. | .pairMax .. | .pairDot2 .. | .cvt .. | .pack .. | .unlo .. | .unhi ..
  | .qround .. | .cmpEq .. | .cmpNe .. | .cmpLt .. | .cmpLe .. | .cmpGt .. | .cmpGe .. | .cmpOrd .. | .cmpUnord ..
  | .sel .. | .fclass .. | .bitAnd .. | .bitOr .. | .bitXor .. | .bitNot .. | .bitAndn .. | .bitShl .. | .bitShr ..
  | .bitSar .. | .bitRot .. | .bitPopc .. | .bitClz .. | .bitCtz .. | .bitBfe .. | .bitBfi .. | .bitBrev ..
  | .bitLop3 .. | .trnRcp .. | .trnRsq .. | .trnEx2 .. | .trnLg2 .. | .trnSinp .. | .trnCosp .. | .trnTanh ..
  | .trnSigm .. | .dup .. | .dup2 .. | .drop .. | .dropn .. | .swap .. | .swap2 .. | .over .. | .nip .. | .tuck ..
  | .rot .. | .pick .. | .roll .. | .depth .. | .pushi .. | .pushn .. | .popn .. | .bz .. | .bnz .. | .jx .. | .ldf ..
  | .stf .. | .any .. | .all .. | .ballot .. | .wbc .. | .get .. | .yield .. | .sleep .. => [.lane, .warp]
  | .push .. | .pop .. | .keep .. | .xch .. => [.lane, .warp, .set]
  | .nop .. => [.lane, .warp, .set, .blk]
  | .put .. => [.warp]
  | .sync .. | .arrive .. | .await .. => [.set, .blk]
  | .red .. | .scan .. | .segred .. | .segscan .. | .sbc .. => [.warp, .set, .blk]
  | _ => [.lane]

/-- The form names a format slot, itself or by a shape, that is QN4 in the block (R39). -/
def namesQn4 (b : Block) (i : Instr) : Bool :=
  match i with
  | .ld _ a _ _ | .ldf _ a _ _ | .ldsp _ a _ _ | .pref _ a _ => usesQn4 a b
  | .st _ a _ _ | .stf _ a _ _ | .stsp _ a _ _ | .cas _ a _ => usesQn4 a b
  | .ldn _ a _ _ _ | .stn _ a _ _ _ | .atom _ a _ _ | .ared _ a _ _ => usesQn4 a b
  | .cpy _ _ x y _ _ | .cpyo _ _ x y _ _ | .gath _ _ x y _ | .scat _ _ x y _ => shapesQn4 [x.toNat, y.toNat] b
  | .cred _ _ x y _ | .cbc _ _ x y | .cag _ _ x y => shapesQn4 [x.toNat, y.toNat] b
  | .csend _ _ x | .smp _ x | .spx _ _ x => shapesQn4 [x.toNat] b
  | .mma .. | .mmas .. | .mtab .. | .mlut .. | .mdst .. | .mld .. => matQn4 i b
  | .qround _ k _ _ _ => (b.slotOf k.toNat).fmt == 8
  | _ => false

/-- The feature bits that govern an encoded instruction in a block (R39). -/
def governing (b : Block) (i : Instr) : List Nat :=
  (match i with
    | .mul24 .. | .mad24 .. | .fdot4 .. => [1]
    | .mmas .. => [3]
    | .mtab .. | .mlut .. => [4]
    | .smp .. | .swait .. | .sstat .. => [5]
    | .cred .. | .cbc .. | .cag .. | .csend .. | .cwait .. | .mtag .. => [6]
    | _ => [0]) ++ (if namesQn4 b i then [2] else [])

/-- The PRV forms, which level 0 may not execute (R111). -/
def privileged : Instr → Bool
  | .spx .. | .tlbi .. | .ctxs .. | .ctxl .. | .mapc .. | .rdbk .. | .wrbk .. => true
  | _ => false

/-- The word's scope is legal for its form and where it stands (R76, R102, R111). -/
def scopeFits (c : Ctx) (i : Instr) (h : Hdr) : Prop :=
  h.sc ∈ legalScopes i ∧ ((h.sc = .set ∨ h.sc = .blk) → MayMeet c h)

/-- The path enters an emulation routine at an offset (R365, R367): the return address and the word are on its uniform stack, the
nesting records the depth before, the lanes are as they were but for their records, EMUC counts them, and a new run begins once
every result owed to the path has returned (R92, R97). -/
structure Enters (s t : State) (c : Ctx) (routine : Nat) (word : Word) : Prop where
  rest : t = { s with
    blocks := t.blocks, sectors := t.sectors, events := t.events, ids := t.ids, parts := t.parts }
  path : ∃ p, t.path? c.bid c.pid = some p ∧ p.pc = wd routine ∧ p.nest = some c.p.ust.length ∧
    p.ust.map (·.val) = ⟨word, .clean⟩ :: ⟨c.p.pc + 4, .clean⟩ :: c.p.ust.map (·.val) ∧ p.lanes = c.p.lanes ∧
    p.w = c.p.w ∧ p.wait = .parked ∧ p.run.count = 0 ∧ p.run.owed = c.p.run.owed ∧ p.run.awaits = c.p.run.awaits ∧
    ∃ u, s.cycle ≤ u ∧ (u, Event.pathReady c.bid c.pid) ∈ t.events
  lanes : ∀ k ∈ c.p.lanes, ∀ th, tget c.b.threads k = some th → ∃ th', t.thread? c.bid k = some th' ∧
    Records th th' (recordOf c k th { cause := 0x01 } false) ∧ th'.run = th.run
  blocks : ∀ k, k ≠ c.bid → tget t.blocks k = tget s.blocks k
  counted : c.b.part < s.parts.length → (t.part c.b.part).rep =
    { (s.part c.b.part).rep with emuc := (s.part c.b.part).rep.emuc + wd c.p.lanes.length }

end Sys2Proof
end

