-- ==== Sys2Proof/Certificates/Slice0/Obligations.lean ====
section
/-! DEFINITION. The statements for the provers. -/

open Sys2Proof Machine

/-! The machine -/

/-- O1 (R89, R111, R362, R365, R426). In every state the step of the package answers a next state: no instruction, no
exception and no device step ends in a fault or a refusal. The order of steps is the model's one order (log 2). -/
def Obligations.NeverStops : Prop := ∀ s, SafeStep s

/-- O2 (R411, R412, R413). After reset the package registers hold the values of R413: GHYP, EPID, the partition table, the
core-release table, the matching entries, PFSEL and BSTAT 0, PCAP 2,400, THRC and GIDLE 0; every partition's registers those
of R411 and R412: the feature mask all ones, IRQM 0xF, both rings disabled and empty, everything else 0. Every byte of
memory reads 0 and memory has its canonical form, which is the model's choice (log 1). -/
def Obligations.ResetRegisters : Prop :=
  let k := State.reset.pkg
  (k.ghyp = 0 ∧ k.epid = 0 ∧ (∀ c, c < 96 → k.ptab[c]? = some 0#16 ∧ k.crel[c]? = some 0#8) ∧ k.matching = [] ∧
  (∀ e, State.reset.matchEntry e = [0, 0, 0, 0, 0, 0, 0, 0]) ∧ k.pfsel = 0 ∧ k.bstat = 0 ∧ k.pcap = 2400 ∧ k.thrc = 0 ∧
  k.gidle = 0) ∧ (State.reset.memOk ∧ ∀ a, rdByte State.reset.mem a = 0) ∧ State.reset.parts.length = 48 ∧
  ∀ p ∈ State.reset.parts,
    (p.guest.gusr = 0 ∧ p.guest.gsys = 0 ∧ p.guest.gstat = 0 ∧ p.guest.tctl = 0 ∧ p.guest.tstat = 0 ∧ p.guest.tnpc = 0 ∧
    p.guest.ctxDrop = 0 ∧ p.guest.ctxDs = 0 ∧ p.guest.xmode = 0 ∧ p.guest.prLost = 0 ∧ p.guest.prgr = 0 ∧
    p.guest.atreq = 0) ∧
    (p.rep.fault.base = 0 ∧ p.rep.fault.size = 0 ∧ p.rep.fault.enabled = false ∧ p.rep.fault.head = 0 ∧
    p.rep.fault.tail = 0 ∧ p.rep.fault.ovf = 0 ∧ p.rep.fault.lost = 0 ∧
    p.rep.error.base = 0 ∧ p.rep.error.size = 0 ∧ p.rep.error.enabled = false ∧ p.rep.error.head = 0 ∧
    p.rep.error.tail = 0 ∧ p.rep.error.ovf = 0 ∧ p.rep.error.lost = 0 ∧
    p.rep.emuc = 0 ∧ p.rep.irqs = 0 ∧ p.rep.irqm = 0xF) ∧
    (p.hyper.pfm = BitVec.allOnes 512 ∧ p.hyper.pfmr = false ∧ p.hyper.xmr = false ∧ p.hyper.preq = 0 ∧ p.hyper.pstat = 0 ∧
    p.hyper.cpBase = 0 ∧ p.hyper.cpSize = 0 ∧ p.hyper.vfsAddr = 0 ∧ p.hyper.vfsCtl = 0 ∧ p.hyper.vfsStat = 0 ∧
    p.hyper.pen = 0 ∧ p.hyper.perr = 0) ∧
    (∀ n ∈ p.bind, n.mtab = 0 ∧ n.cfg = 0 ∧ n.rankn = 0) ∧ p.bind.length = 16 ∧
    (∀ m ∈ p.lm, m.addr = 0 ∧ m.cnt = 0 ∧ m.ctl = 0 ∧ m.stat = 0) ∧ p.lm.length = 4

/-- O3 (R3, R228, R301). For every state whose memory has its canonical form (addresses rising, no entry that says what an
unlisted address reads as), every step keeps it: equal memories stay equal data. The form is the model's (log 1). -/
def Obligations.MemoryCanonical : Prop := ∀ s t, s.memOk → step s = .next t → t.memOk

/-- O4 (R89, R93, R208, R209). A step in which a port's path issues before any event runs the decoded instruction of the
word fetched at its PC, in the state with that path current; around it the step only notices changes of nodes' enable bits
(R30). A path whose PC is at or beyond the end of its code section raises cause 0x0B at that PC, in the record's PC and
ADDR. A path that a restore has given exceptions to raise (R375) fetches nothing: its threads stop with those records.
Raising them before the fetch is the model's choice (log 38). -/
def Obligations.StepIssues : Prop :=
  ∀ s u bid pid b p, nextPort s = some (u, bid, pid) → (∀ e ∈ s.events.head?, u < e.1) →
    tget s.blocks bid = some b → tget b.paths pid = some p →
    let s0 := { s with cycle := max s.cycle u, cur := some (bid, pid), due := none }
    (p.stops = [] → ∀ s1 w, fetchWord s0 b p.pc = (s1, .word w) → s1.coh.atsWait = false →
      step s = settle s (exec (decodeWord w) s1)) ∧
    (p.stops = [] → ∀ c, c.bid = bid → c.pid = pid → c.b = b → c.p = p → b.csize ≤ p.pc.toNat → s.coh.atsWait = false →
      Stands s0 c → ∃ t, step s = settle s (.next t) ∧ Stops s0 t c { cause := 0x0B, addr := p.pc.toNat }) ∧
    (HeldStops b pid p → p.run.settled = true → ∃ t, step s = settle s (.next t) ∧ StopsAsHeld t bid pid b p ∧
      ∃ q, t.path? bid pid = some q ∧ ∀ e ∈ p.stops.head?, q.pc = e.2.pc)

/-- O5 (R50, R89). A step with an event that is due before any issue serves it: its row of the operation table runs with its
operands, in the event's cycle, and the event is gone from the list (the list is the model's, log 2). An event that asks the
host for a translation leaves its request and comes again in the next cycle (log 67). -/
def Obligations.StepServes : Prop :=
  ∀ s t e rest, s.events = (t, e) :: rest → (∀ x, nextPort s = some x → t ≤ x.1) →
    let s1 := { s with cycle := max s.cycle t, events := rest, due := some e, cur := none }
    step s = settleEvent s s1 e (exec e.instr s1)

/-- O6 (R10, R44, R113, R114, R116, R118, R121, R122, R123, R124, R166, R215). Words written in the spec's listings, at
least one of each format, decode to the instructions the listings give, with every operand; the words that R113 calls
unassigned decode to an unassigned code point. -/
def Obligations.WordsDecode : Prop :=
  decodeWord 0x00000000 = .nop ⟨false, .lane⟩ 0 ∧ decodeWord 0xC0000100 = .nop ⟨true, .set⟩ 1 ∧
  decodeWord 0x040128C7 = .farAdd ⟨false, .lane⟩ .rz false (some 0xC7) ∧
  decodeWord 0x030098C0 = .iarAdd ⟨false, .lane⟩ .n32 true (some 0xC0) ∧
  decodeWord 0x05018000 = .pairAdd ⟨false, .lane⟩ .rn false none ∧
  decodeWord 0x06000200 = .cvt ⟨false, .lane⟩ .i32 .f32 .rn false none ∧
  decodeWord 0x06110200 = .qround ⟨false, .lane⟩ 2 .rn false none ∧
  decodeWord 0x07090000 = .cmpLt ⟨false, .lane⟩ .f32 none ∧
  decodeWord 0x883C8096 = .bitLop3 ⟨true, .lane⟩ .n32 0x96 ∧
  decodeWord 0x9B081000 = .fdot4 ⟨true, .lane⟩ .i32 true none ∧
  decodeWord 0x01A00003 = .pick ⟨false, .lane⟩ 3 ∧ decodeWord 0x02580403 = .pushn ⟨false, .lane⟩ .m 4 3 ∧
  decodeWord 0x0A10FFFA = .bz ⟨false, .lane⟩ 0xFFFA ∧ decodeWord 0x0B1D0000 = .join ⟨false, .lane⟩ 0xD ∧
  decodeWord 0x2014000C = .put ⟨false, .warp⟩ 0 ∧ decodeWord 0x0C180001 = .shdn ⟨false, .lane⟩ 1 0 ∧
  decodeWord 0xCD0C2200 = .red ⟨true, .set⟩ .i32 .max 2 ∧ decodeWord 0x0E006900 = .ld ⟨false, .lane⟩ ⟨0, 3, 2⟩ true .none ∧
  decodeWord 0x0F020200 = .st ⟨false, .lane⟩ ⟨1, 0, 0⟩ true .none ∧
  decodeWord 0x10020006 = .atom ⟨false, .lane⟩ ⟨1, 0, 0⟩ .plain .xch ∧
  decodeWord 0x11200020 = .xfence ⟨false, .lane⟩ .copy .thread ∧
  decodeWord 0x1203140D = .cpy ⟨false, .lane⟩ 3 1 4 true 5 ∧ decodeWord 0x15100001 = .recput ⟨false, .lane⟩ 1 ∧
  decodeWord 0x161CA50F = .mmas ⟨false, .lane⟩ true 1 2 5 0x0F ∧ decodeWord 0x18002000 = .mdrain ⟨false, .lane⟩ 2 ∧
  decodeWord 0x1A100200 = .tlbi ⟨false, .lane⟩ 2 ∧
  decodeWord 0x04000000 = .unassignedCodePoint 0x04000000 ∧ decodeWord 0x04010005 = .unassignedCodePoint 0x04010005

/-- O7 (R108, R109, R112, R113, R115, R116, R117, R118, R120, R122, R123, R124). Every well-formed instruction that is
neither a device step nor an unassigned code point, with every operand, has a word, which is a defined code point and
decodes to exactly that instruction. -/
def Obligations.EncodingDecodes : Prop :=
  ∀ i, i.wf = true → (∀ e, Event.instr e ≠ i) → (∀ v, i ≠ .unassignedCodePoint v) →
    ∃ w, encode i = some w ∧ decodeDefined w = some i ∧ decodeWord w = i

/-! Exceptions -/

/-- O8 (R362, R363, R364, R365). Taking an exception that system software gets: the path stands at the instruction with its
uniform cells, other blocks are as they were, and memory changes only where the partition's fault ring takes records. When
no result is owed to the path, every lane stops at once, its thread's fault record holds what R363 gives and nothing else of
the thread changes; else the path keeps these records, its threads unchanged, and the return of the last result stops them
with the records kept. -/
def Obligations.ExceptionStops : Prop :=
  (∀ s c i, Stands s c → i.cause ≠ 0x13 → (i.cause = 0x09 → i.derived = false ∨ c.b.poent = 0xFFFF_FFFF) →
    Stops s (trapPath s c i) c i) ∧
  ∀ s bid pid b p, s.due = some (.resultReturn bid pid) → tget s.blocks bid = some b → tget b.paths pid = some p →
    p.wait = .trapping → p.run.owed = 1 → p.run.awaits = [] → HeldStops b pid p →
    ∃ t, exec .resultReturn s = .next t ∧ StopsAsHeld t bid pid b p ∧ ∃ q, t.path? bid pid = some q ∧ q.pc = p.pc

/-- O9 (R250, R362). Where only some lanes of a path raise a cause, they leave it in a path of their own at the instruction,
and the others go on in theirs with their threads unchanged. The new path stops, each thread with its record and otherwise
unchanged, at once when no result is owed to it, and else waits for what it is owed with its threads as they were. That the
stopping lanes stand in a path of their own is the model's choice (log 12, DEDUCED); it takes the model's next fresh number
(log 2). -/
def Obligations.SomeLanesStop : Prop :=
  ∀ s c lanes, Stands s c → s.ids ≠ c.pid → lanes ≠ [] → (∀ e ∈ lanes, e.1 ∈ c.p.lanes) →
    (lanes.map (·.1)).Nodup → c.p.wait = .issuing →
    (∃ k ∈ c.p.lanes, k ∉ lanes.map (·.1)) →
    (∀ e ∈ lanes, e.2.cause ≠ 0x13 ∧ (e.2.cause = 0x09 → e.2.derived = false ∨ c.b.poent = 0xFFFF_FFFF)) →
    let t := trapLanes s c.bid c.pid lanes
    (∃ p, t.path? c.bid s.ids = some p ∧ p.wait = (if c.p.run.settled then .stopped else .trapping) ∧
      p.lanes = lanes.map (·.1) ∧ p.pc = c.p.pc) ∧
    (∃ p, t.path? c.bid c.pid = some p ∧ p = { c.p with lanes := c.p.lanes.filter (fun k => !mem? (lanes.map (·.1)) k) }) ∧
    (∀ e ∈ lanes, ∀ th, tget c.b.threads e.1 = some th → ∃ th', t.thread? c.bid e.1 = some th' ∧
      if c.p.run.settled then th'.run = .stopped ∧ Records th th' (recordOf c e.1 th e.2 false) else th' = th) ∧
    (∀ k ∈ c.p.lanes, k ∉ lanes.map (·.1) → t.thread? c.bid k = tget c.b.threads k)

/-- O10 (R3, R363, R364). The 64 bytes of a fault record hold each field at its offset, little-endian. A record for a fault
ring that is enabled, not full and has no records held before it stands at FRH, in the place in this package that FRB names
(log 84; where it names none, nothing is written), FRH advances modulo the entry count, the record has the next sequence
number, and memory outside its 64 bytes is as it was. A record that finds the ring full or disabled, or others held before
it, is held behind them and FOVF counts it, and its thread keeps it; a REPORT record that finds as many REPORT records held
as the queue has entries is dropped and FLOST counts it. Memory is as it was then. -/
def Obligations.RingTakesRecords : Prop :=
  (∀ f : FaultRec, f.bytes.length = 64 ∧
     ofBytes (f.bytes.take 4) = f.pc.toNat ∧ ofBytes ((f.bytes.drop 4).take 1) = f.cause.toNat ∧
     ofBytes ((f.bytes.drop 5).take 1) = f.flags.toNat ∧ ofBytes ((f.bytes.drop 6).take 2) = f.depth.toNat ∧
     ofBytes ((f.bytes.drop 8).take 8) = f.addr.toNat ∧ ofBytes ((f.bytes.drop 0x10).take 4) = f.mask.toNat ∧
     ofBytes ((f.bytes.drop 0x14).take 4) = f.runPc.toNat ∧ ofBytes ((f.bytes.drop 0x18).take 1) = f.udepth.toNat ∧
     ofBytes ((f.bytes.drop 0x19).take 1) = f.lvl.toNat ∧ ofBytes ((f.bytes.drop 0x1A).take 2) = f.blane.toNat ∧
     ofBytes ((f.bytes.drop 0x1C).take 4) = f.prog.toNat ∧ ofBytes ((f.bytes.drop 0x20).take 16) = f.origin.toNat ∧
     ofBytes ((f.bytes.drop 0x30).take 4) = f.block.toNat ∧ ofBytes ((f.bytes.drop 0x34).take 2) = f.node.toNat ∧
     ofBytes ((f.bytes.drop 0x38).take 8) = f.seq.toNat) ∧
  (∀ s part report bid key f, s.memOk → part < s.parts.length →
     let r := (s.part part).rep
     let reports := (r.heldFaults.filter (·.1)).length
     let t := reportFault s part report bid key f
     let a := r.fault.base.toNat + 64 * r.fault.head.toNat
     (r.fault.enabled = true → r.fault.full = false → r.heldFaults = [] →
       (∀ q, physPlace s part a = some q → rdBytes t.mem q 64 = ({ f with seq := r.fault.next } : FaultRec).bytes ∧
         ∀ x, (x < q ∨ q + 64 ≤ x) → rdByte t.mem x = rdByte s.mem x) ∧
       (physPlace s part a = none → t.mem = s.mem) ∧
       (t.part part).rep.fault = { r.fault with
         head := BitVec.ofNat 16 ((r.fault.head.toNat + 1) % 2 ^ r.fault.size.toNat), next := r.fault.next + 1 }) ∧
     (r.fault.enabled = false ∨ r.fault.full = true ∨ r.heldFaults ≠ [] → (report = false ∨ reports < Config.holdQueue) →
       (t.part part).rep.heldFaults = r.heldFaults ++ [(report, bid, key, f)] ∧
       (t.part part).rep.fault = { r.fault with ovf := satInc r.fault.ovf } ∧ t.mem = s.mem ∧
       t.blocks = (s.modThread bid key (·.record f true)).blocks) ∧
     (r.fault.enabled = false ∨ r.fault.full = true ∨ r.heldFaults ≠ [] → report = true → Config.holdQueue ≤ reports →
       (t.part part).rep.heldFaults = r.heldFaults ∧
       (t.part part).rep.fault = { r.fault with lost := satInc r.fault.lost } ∧ t.mem = s.mem ∧
       t.blocks = (s.modThread bid key (·.record f false)).blocks))

/-- O11 (R91, R111). When a path is about to issue the instruction that would be the 25th of its run, every lane raises
cause 0x06 at it, whatever that instruction is and before it has any effect: for every encoded instruction and for
unassigned words. -/
def Obligations.RunOverruns : Prop :=
  ∀ i w s c, encode i = some w → AtPort s c i → Stands (counted s c) c → 24 ≤ c.p.run.count →
    ∃ t, exec i s = .next t ∧ Stops s t c { cause := 0x06 }

/-- O12 (R39, R40, R111, R365, R367, R368). A form that a clear feature bit governs raises cause 0x01 in every lane and has
no effect; inside an emulation routine cause 0x10; where the bit is bound, at nesting depth 0, in no finder warp and with
uniform depth at most 6, the path enters the bound routine with the return address and the word on its uniform stack; with a
deeper uniform stack it stops with UFULL set. -/
def Obligations.FeaturesGovern : Prop :=
  ∀ i w h s c k, headerOf i = some h → encode i = some w → AtPort s c i → Stands (counted s c) c → c.p.run.count < 24 →
    let s0 := counted s c
    (governing c.b i).find? (fun n => !s.feature c.b.part n) = some k →
    ∃ t, exec i s = .next t ∧
      (c.p.nest.isSome = true → Stops s t c { cause := 0x10 }) ∧
      (c.p.nest = none → boundRoutine s0 c.b (some k) = none ∨ c.p.finder = true → Stops s t c { cause := 0x01 }) ∧
      (∀ r, c.p.nest = none → c.p.finder = false → boundRoutine s0 c.b (some k) = some r →
        (c.p.ust.length ≤ 6 → Enters s t c r w) ∧ (6 < c.p.ust.length → Stops s t c { cause := 0x01 } true))

/-- O13 (R109, R110, R365, R367). The effect of a word that is no defined code point is to take the exception of feature bit
8 + G, and it completes with a next state that is that entry: outside an emulation routine, where the bit is not bound or in
a finder warp, cause 0x01 in every lane; where the bit is bound, the entry into the bound routine, with the return address
and the word on the uniform stack, or cause 0x01 with UFULL set when that stack has no room; inside a routine cause 0x10. A
run of 24 instructions aside (RunOverruns), these are all the cases. -/
def Obligations.UnassignedTraps : Prop :=
  ∀ w s c, let i := Instr.unassignedCodePoint w
    AtPort s c i → Stands (counted s c) c → c.p.run.count < 24 →
    let bound := boundRoutine (counted s c) c.b (some (8 + bits w.toNat 28 24))
    (c.p.nest = none → bound = none ∨ c.p.finder = true → ∃ t, exec i s = .next t ∧ Stops s t c { cause := 0x01 }) ∧
    (∀ r, c.p.nest = none → c.p.finder = false → bound = some r → c.p.ust.length ≤ 6 →
      ∃ t, exec i s = .next t ∧ Enters s t c r w) ∧
    (∀ r, c.p.nest = none → c.p.finder = false → bound = some r → 6 < c.p.ust.length →
      ∃ t, exec i s = .next t ∧ Stops s t c { cause := 0x01 } true) ∧
    (c.p.nest.isSome = true → ∃ t, exec i s = .next t ∧ Stops s t c { cause := 0x10 })

/-- O14 (R76, R102, R111, R172). A PRV form at privilege level 0 raises cause 0x0B in every lane. After that check, a word
whose scope its form does not allow, or that stands at set or block scope without a boundary, in a formed warp or in a
finder warp, raises cause 0x0D. Neither has an effect. -/
def Obligations.PrivilegeAndScope : Prop :=
  ∀ i h s c, headerOf i = some h → AtPort s c i → Stands (counted s c) c → c.p.run.count < 24 →
    Enabled s c (governing c.b i) →
    (privileged i = true → c.b.lvl = 0 → ∃ t, exec i s = .next t ∧ Stops s t c { cause := 0x0B }) ∧
    ((privileged i = true → c.b.lvl ≠ 0) → ¬ scopeFits c i h → ∃ t, exec i s = .next t ∧ Stops s t c { cause := 0x0D })

/-- O15 (R206). join, reform and rehome, and every word at set or block scope, raise cause 0x0D in every lane when they have
B = 0, and change nothing else. exit ends every lane of its path whatever its B bit holds. -/
def Obligations.ParkingNeedsBoundary : Prop :=
  (∀ i h s c, headerOf i = some h → h.b = false → Issuing s c i → Stands (counted s c) c → Enabled s c (governing c.b i) →
    (privileged i = true → c.b.lvl ≠ 0) →
    ((i = .rehome h ∨ (∃ d, i = .join h d) ∨ ∃ d, i = .reform h d) ∨ h.sc = .set ∨ h.sc = .blk) →
    ∃ t, exec i s = .next t ∧ Stops s t c { cause := 0x0D }) ∧
  (∀ h s c, h.sc = .lane → Issuing s c (.exit h) → Stands (counted s c) c → Enabled s c [0] →
    ∃ t, exec (.exit h) s = .next t ∧ ∀ k ∈ c.p.lanes, ∃ th, t.thread? c.bid k = some th ∧ th.run = .exited)

/-- O16 (R174, R205). In a finder warp the FAR, PAIR, CVT and TRN words and the comparisons of a floating type raise cause
0x01 in every lane, and no emulation routine runs for them, whatever is bound. -/
def Obligations.FloatInFinder : Prop :=
  ∀ i h s c, headerOf i = some h → (h.sc = .lane ∨ h.sc = .warp) → Issuing s c i → Stands (counted s c) c →
    Enabled s c (governing c.b i) → c.p.finder = true → c.p.nest = none →
    ((floatForm i).isSome ∨ (pairForm i).isSome ∨ (convertForm i).isSome ∨ (transForm i).isSome ∨
      (qroundForm c.b i).isSome ∨ ∃ f, compareForm i = some f ∧ f.finder = false) →
    ∃ t, exec i s = .next t ∧ Stops s t c { cause := 0x01 }

/-! Computing forms -/

/-- O17 (R94, R154, R158, R159, R171, R172, R187, R188). add, sub, mul, mulhi, mad, neg, abs, min, max and clamp of i32 and
n32 complete with the exact result modulo 2^32, or the nearest value of the type where SAT is set. In every active lane at
lane scope, and on the uniform stack at warp scope, the operands are replaced by the result, which is ready after the form's
latency; nothing else changes. -/
def Obligations.IntegersComplete : Prop := Completes integerForm

/-- O18 (R94, R188, R189, R362). div and rem complete in the lanes whose divisor is not an unpoisoned zero, with the
truncated quotient or the remainder, or with a poisoned 0 for a poisoned divisor; a lane whose divisor is zero and not
poisoned raises cause 0x0F and stops with its stack, depth and cells as they were, while every other lane completes. The
stopping lanes leave the path; while results are owed to it, they stop as these return (R362). At warp scope an unpoisoned
zero raises cause 0x0F in every lane, and a poisoned divisor pushes a poisoned 0. That they stand in a path of their own,
which takes the model's next fresh number, is the model's choice (log 12, DEDUCED; log 2). -/
def Obligations.DivisionAndZero : Prop :=
  ∀ i f s c, divisionForm i = some f → Issuing s c i → Enabled s c [0] →
    let ret : Retire := { pc := c.p.pc + 4, ready := c.env.slot + 16 }
    let quotient := fun (th : Thread) => ({ th with stack := f.stack c th.stack } : Thread)
    (f.hdr.sc = .lane → EachLane c (fun _ t => Operands c (laneCeil c.b c.p) f.pops 1 t.stack) →
      ((∀ e ∈ active c, f.byZero e.2.stack = false) →
        ∃ t, exec i s = .next t ∧ Ends s t c c.b f.hdr ret (fun _ th => quotient th) id) ∧
      (Stands (counted s c) c → (∀ e ∈ active c, f.byZero e.2.stack = true) →
        ∃ t, exec i s = .next t ∧ Stops s t c { cause := 0x0F }) ∧
      (Stands (counted s c) c → s.ids ≠ c.pid → (∃ e ∈ active c, f.byZero e.2.stack = true) →
        (∃ e ∈ active c, f.byZero e.2.stack = false) →
        ∃ t, exec i s = .next t ∧
          (∀ e ∈ active c, f.byZero e.2.stack = true → ∃ th, t.thread? c.bid e.1 = some th ∧
            if c.p.run.settled then th.run = .stopped ∧ Records e.2 th (recordOf c e.1 e.2 { cause := 0x0F } false)
            else th = e.2) ∧
          (∀ e ∈ active c, f.byZero e.2.stack = false → t.thread? c.bid e.1 = some (quotient e.2)) ∧
          ∃ p, t.path? c.bid c.pid = some p ∧ p.lanes = c.p.lanes.filter (fun k =>
              ((tget c.b.threads k).map (fun th => !f.byZero th.stack)).getD true) ∧
            p.pc = c.p.pc + 4 ∧ p.run.count = c.p.run.count + 1)) ∧
    (f.hdr.sc = .warp → Operands c 8 f.pops 1 c.p.ust →
      (f.byZero c.p.ust = false → ∃ t, exec i s = .next t ∧
        Ends s t c c.b f.hdr ret (fun _ th => th) (fun p => { p with ust := f.stack c p.ust })) ∧
      (f.byZero c.p.ust = true → Stands (counted s c) c → ∃ t, exec i s = .next t ∧ Stops s t c { cause := 0x0F }))

/-- O19 (R94, R158, R159, R171, R172, R201, R202). and, or, xor, not, andn, shl, shr, sar, rot, popc, clz, ctz, bfe, bfi,
brev and lop3 complete with the bits R202 gives. In every active lane at lane scope, and on the uniform stack at warp scope,
the operands are replaced by the result, which is ready after the form's latency; nothing else changes. -/
def Obligations.BitsComplete : Prop := Completes bitForm

/-- O20 (R94, R159, R171, R172, R175, R197, R198, R199, R200). cmp with its eight conditions, sel and fclass complete with a
truth value, the selected bits or the class test, for each type. In every active lane at lane scope, and on the uniform
stack at warp scope, the operands are replaced by the result, which is ready after the form's latency; nothing else changes.
-/
def Obligations.ComparisonsComplete : Prop := Completes compareForm

/-- O21 (R94, R154, R155, R156, R159, R171, R172, R190, R191, R192). The sixteen FAR forms complete with the exact value
rounded once under RM, NaNs canonical, clamped where SAT is set. In every active lane at lane scope, and on the uniform
stack at warp scope, the operands are replaced by the result, which is ready after the form's latency; nothing else changes.
-/
def Obligations.FloatsComplete : Prop := Completes floatForm

/-- O22 (R94, R155, R156, R157, R159, R171, R172, R193). The PAIR forms complete on each half alone, and dot2 with the f32
sum of the two products and c. In every active lane at lane scope, and on the uniform stack at warp scope, the operands are
replaced by the result, which is ready after the form's latency; nothing else changes. -/
def Obligations.PairsComplete : Prop := Completes pairForm

/-- O23 (R94, R153, R156, R159, R166, R171, R172, R194, R195, R196). cvt, pack, unlo and unhi complete with the converted
value; qround with a slot of a format from f32 to QN4 completes with the value on the slot's grid, and with another format
raises cause 0x14 in every lane. In every active lane at lane scope, and on the uniform stack at warp scope, the operands
are replaced by the result, which is ready after the form's latency; nothing else changes. -/
def Obligations.ConversionsComplete : Prop :=
  Completes convertForm ∧
  ∀ h k rm sat w s c f, qroundForm c.b (.qround h k rm sat w) = some f → Issuing s c (.qround h k rm sat w) →
    Enabled s c (governing c.b (.qround h k rm sat w)) → c.p.finder = false →
    (2 ≤ (c.b.slotOf k.toNat).fmt ∧ (c.b.slotOf k.toNat).fmt ≤ 8 → f.CompletesFor (.qround h k rm sat w) s c) ∧
    ((c.b.slotOf k.toNat).fmt < 2 → Stands (counted s c) c →
      (h.sc = .lane ∧ EachLane c (fun _ t => Operands c (laneCeil c.b c.p) f.pops 1 t.stack)) ∨
        (h.sc = .warp ∧ Operands c 8 f.pops 1 c.p.ust) →
      ∃ t, exec (.qround h k rm sat w) s = .next t ∧ Stops s t c { cause := 0x14 })

/-- O24 (R94, R155, R159, R171, R172, R203, R204). rcp, rsq, ex2, lg2, sinp, cosp, tanh and sigm complete with the
function's value rounded once to the result format. In every active lane at lane scope, and on the uniform stack at warp
scope, the operands are replaced by the result, which is ready after the form's latency; nothing else changes. -/
def Obligations.TranscendentsComplete : Prop := Completes transForm

/-- O25 (R44, R45, R94, R159). mul24, mad24 and fdot4 complete at lane scope with the products of R44 when the die's queue
has room: the request with its lanes stands in the queue, the result is long-latency and stays awaited until the unit serves
it (its value stands in the cell from issue on, which is the model's choice). -/
def Obligations.LegacyCompletes : Prop :=
  ∀ i f s c, legacyForm i = some f → f.hdr.sc = .lane → Issuing s c i → Enabled s c [1] →
    EachLane c (fun _ t => Operands c (laneCeil c.b c.p) f.pops 1 t.stack) →
    (ephemerisQueue s c.b.place.die).length < Config.legacyQueue →
    let s1 := sendLegacy (counted s c) c
    ephemerisQueue s1 c.b.place.die =
      ephemerisQueue s c.b.place.die ++ [(c.bid, c.pid, c.env.longMark, c.p.lanes.length)] ∧
    ∃ t, exec i s = .next t ∧ Ends s1 t c c.b f.hdr { pc := c.p.pc + 4, await := [c.env.longMark] }
      (fun _ th => { th with stack := freshLong c (f.value th.stack) :: th.stack.drop f.pops }) id

/-! Stacks, cells and system forms -/

/-- O26 (R95, R126, R127, R171, R172, R182, R183, R184, R186). The STK forms and pushi complete at lane scope on each lane's
stack and at warp scope on the uniform stack: the cells named are moved with their bits, poison and divided state, depth and
constants are new values; nothing else changes. -/
def Obligations.ShufflesComplete : Prop := CompletesInLanes stackLaneForm ∧ CompletesOnPath stackPathForm

/-- O27 (R95, R114, R134, R135, R141, R148, R171, R172, R184, R185, R186). push, pop, keep, xch, pushn and popn complete at
lane scope with the tiers t, o, m and w, and at warp scope with the uniform stack and the w file: the named cells and the
stack hold the moved cells, nothing else changes. -/
def Obligations.MovesComplete : Prop :=
  CompletesInLanes moveLaneForm ∧ CompletesOnPath movePathForm ∧ CompletesInLanes spanLaneForm ∧ CompletesOnPath spanPathForm

/-- O28 (R55, R73, R94, R101, R180, R181). get completes with the selector's value at lane scope in each lane and at warp
scope on the uniform stack, cpwp as a long-latency result; put pops the uniform stack into the warp's stall counter. -/
def Obligations.SelectorsComplete : Prop :=
  CompletesInLanes getLaneForm ∧ CompletesOnPath getPathForm ∧
  ∀ h wm s c, h.sc = .warp → Issuing s c (.put h wm) → Enabled s c [0] → c.p.formed = false → UniformOperand c →
    ∃ t, exec (.put h wm) s = .next t ∧
      Ends s t c c.b h { pc := c.p.pc + 4 } (fun _ th => th) (fun p => { p with ust := p.ust.drop 1 }) ∧
      ∃ b, tget t.blocks c.bid = some b ∧
        tget b.stall (c.p.warp + if c.p.finder then 32 else 0) = some (topBits c.p.ust)

/-- O29 (R87, R148, R177, R178, R179, R216, R247, R270, R281, R284, R290, R354). nop, yield, sleep, the fences, umerge,
rehome at home, cpwait, gwait, swait, mclr and spx complete: their lanes are unchanged, and beside what the form itself does
(a settled cell, a wait queued behind earlier commands, a tile cleared in order, a scratchpad exchanged) nothing changes.
Fences have nothing left to hold back, since the model performs accesses at issue (log 4). -/
def Obligations.PlainFormsComplete : Prop := CompletesPlainly plainForm

/-- O30 (R177, R362, R363, R365). trap n and brk n complete by raising cause 0x15 in every lane, ADDR n with bit 8 set for
trap. -/
def Obligations.TrapsComplete : Prop :=
  ∀ h n wm s c, h.sc = .lane → Stands (counted s c) c → Enabled s c [0] →
    (Issuing s c (.trap h n wm) → ∃ t, exec (.trap h n wm) s = .next t ∧ Stops s t c { cause := 0x15, addr := 256 + n.toNat }) ∧
    (Issuing s c (.brk h n wm) → ∃ t, exec (.brk h n wm) s = .next t ∧ Stops s t c { cause := 0x15, addr := n.toNat })

/-! Across the lanes -/

/-- O31 (R94, R159, R217, R218, R219, R221, R223). The QWX forms at lane scope, and scan, segred and segscan at warp scope,
complete: every active lane pops its operands and pushes its result, formed from the operands of all active lanes as R218
and R221 give; nothing else changes. -/
def Obligations.ExchangesComplete : Prop := CompletesAcrossLanes .lane exchangeForm ∧ CompletesAcrossLanes .warp prefixForm

/-- O32 (R94, R159, R217, R218, R221, R222, R223). any, all, ballot, wbc, red and sbc at warp scope complete: every active
lane pops its operand, and the uniform stack gets the one value. -/
def Obligations.VotesComplete : Prop := CompletesToUniform gatheringForm

/-- O33 (R76, R77, R78, R79, R80, R185, R220). sync, arrive, await, nop, red, scan, segred, segscan, sbc and the set-scope
moves complete their arrival: the path parks in the open instance of its scope, PC and membership, or opens one; its lanes
and every other path and thread are unchanged. A fresh instance takes the model's next number (log 2). -/
def Obligations.MeetingsArrive : Prop :=
  ∀ i f s c bm id r, meetForm i = some f → (f.hdr.sc = .set ∨ f.hdr.sc = .blk) → (f.setOnly = true → f.hdr.sc = .set) →
    Issuing s c i → Enabled s c [0] → MayMeet c f.hdr → EachLane c (fun _ t => MeetLane c f t) →
    membership c f.hdr.sc f.wm = .ok bm → Joins s c i f bm id r →
    ∃ t b' p, exec i s = .next t ∧ OnlyPaths s t ∧ tget t.blocks c.bid = some b' ∧
      tget b'.rdvs id = some { r with paths := r.paths ++ [c.pid] } ∧ (∀ k, k ≠ id → tget b'.rdvs k = tget c.b.rdvs k) ∧
      b'.threads = c.b.threads ∧ tget b'.paths c.pid = some p ∧
      p = { c.p with prog := 0, checked := false, wait := .meeting id, since := s.cycle, run := p.run } ∧
      p.run.count = c.p.run.count + 1 ∧ (∀ k, k ≠ c.pid → tget b'.paths k = tget c.b.paths k) ∧
      ∀ k, k ≠ c.bid → tget t.blocks k = tget s.blocks k

/-- O34 (R78, R83, R220, R221, R222). When every expected thread of an unfaulted instance has arrived, its completion gives
every arrived lane its result, closes the instance, and lets every arrived path go on past the boundary at the next PC;
nothing else changes. -/
def Obligations.MeetingsComplete : Prop :=
  ∀ s bid inst b r new, s.due = some (.rendezvousComplete bid inst) → tget s.blocks bid = some b →
    tget b.rdvs inst = some r → b.meetReady r = true → r.faulted = false → scopedEffect b r = (new, []) → r.paths.Nodup →
    ∃ t b', exec .rendezvousComplete s = .next t ∧ OnlyPaths s t ∧ tget t.blocks bid = some b' ∧
      b'.rdvs = tdel b.rdvs inst ∧ (∀ k, tget b'.threads k = (tget b.threads k).map (resultOf new k)) ∧
      (∀ pid ∈ r.paths, ∀ p, tget b.paths pid = some p →
        tget b'.paths pid = some { p with wait := .parked, pc := p.pc + 4, since := s.cycle }) ∧
      (∀ pid, pid ∉ r.paths → tget b'.paths pid = tget b.paths pid) ∧
      ∀ k, k ≠ bid → tget t.blocks k = tget s.blocks k

/-- O35 (R82, R185, R220, R221, R222). What a completed instance gives its arrived lanes, in ascending warp and lane: red
the whole reduction, scan each inclusive prefix, segred and segscan the same within the element's segment, poisoned by any
poisoned h, sbc the element's value, a set-scope push, pop, keep or xch each lane's own cell, sync, arrive, await and nop
nothing; an sbc whose element is not there raises cause 0x07 in every arrived lane. -/
def Obligations.ScopedResults : Prop :=
  ∀ b r, let ts := arrivedThreads b r
    (∀ h wm, (r.op = .sync h wm ∨ r.op = .arrive h wm ∨ r.op = .await h wm ∨ r.op = .nop h wm) → scopedEffect b r = ([], [])) ∧
    (∀ h ty op wm, r.op = .red h ty op wm →
      scopedEffect b r = (ts.map (fun e => (e.1, replaced 1 (reduceVals ty op (ts.map (fun x => top x.2))) e.2)), [])) ∧
    (∀ h ty op wm, r.op = .scan h ty op wm → (scopedEffect b r).2 = [] ∧ (scopedEffect b r).1.length = ts.length ∧
      ∀ i e, ts[i]? = some e → (scopedEffect b r).1[i]? =
        some (e.1, replaced 1 (reduceVals ty op ((ts.take (i + 1)).map (fun x => top x.2))) e.2)) ∧
    (∀ h ty op wm (whole : Bool), r.op = (if whole then .segred h ty op wm else .segscan h ty op wm) →
      let xs := ts.map (fun e => second e.2)
      let hs := ts.map (fun e => top e.2)
      (scopedEffect b r).2 = [] ∧ (scopedEffect b r).1.length = ts.length ∧
      ∀ i e, ts[i]? = some e →
        let last := if whole then segmentEnd (hs.map (·.bits)) i else i + 1
        (scopedEffect b r).1[i]? = some
          (e.1, replaced 2 (segmentVal ty op hs ((xs.take last).drop (segmentStart (hs.map (·.bits)) i))) e.2)) ∧
    (∀ h wm n x, r.op = .sbc h wm n → ts.find? (fun e => elementOf b r e.1 == n.toNat) = some x →
      scopedEffect b r = (ts.map (fun e => (e.1, replaced 1 (top x.2) e.2)), [])) ∧
    (∀ h wm n, r.op = .sbc h wm n → ts.find? (fun e => elementOf b r e.1 == n.toNat) = none →
      scopedEffect b r = ([], ts.map (fun e => (e.1, { cause := 0x07 })))) ∧
    (∀ h n, r.op = .push h .o n → (∀ e ∈ ts, e.2.stack.length < 8 + b.stack) →
      scopedEffect b r = (ts.map (fun e => (e.1,
        { e.2 with stack := (doneEnv r).move (e.2.o.getD (8 + n.toNat) (.ofWord 0)) :: e.2.stack })), [])) ∧
    (∀ h n, r.op = .pop h .o n → (∀ e ∈ ts, 0 < e.2.stack.length ∧ e.2.stack.length ≤ 8 + b.stack) →
      scopedEffect b r = (ts.map (fun e => (e.1, { e.2 with
        stack := e.2.stack.drop 1, o := e.2.o.set (8 + n.toNat) ((doneEnv r).move (e.2.stack.getD 0 (.ofWord 0))) })), [])) ∧
    (∀ h n, r.op = .keep h .o n → (∀ e ∈ ts, 0 < e.2.stack.length ∧ e.2.stack.length ≤ 8 + b.stack) →
      scopedEffect b r = (ts.map (fun e => (e.1, { e.2 with
        o := e.2.o.set (8 + n.toNat) ((doneEnv r).move (e.2.stack.getD 0 (.ofWord 0))) })), [])) ∧
    (∀ h n, r.op = .xch h .o n → (∀ e ∈ ts, 0 < e.2.stack.length ∧ e.2.stack.length ≤ 8 + b.stack) →
      scopedEffect b r = (ts.map (fun e => (e.1, { e.2 with
        stack := (doneEnv r).move (e.2.o.getD (8 + n.toNat) (.ofWord 0)) :: e.2.stack.drop 1
        o := e.2.o.set (8 + n.toNat) ((doneEnv r).move (e.2.stack.getD 0 (.ofWord 0))) })), []))

/-! Control and paths -/

/-- O36 (R116, R207, R208). bra goes to its target. bz and bnz at lane scope pop in every lane and branch when the lanes
agree, by whether the operand is zero; lanes that disagree all raise cause 0x08. At warp scope they pop the uniform stack.
-/
def Obligations.BranchesComplete : Prop :=
  (∀ h off s c, h.sc = .lane → Issuing s c (.bra h off) → Enabled s c [0] → ∃ t, exec (.bra h off) s = .next t ∧
    Ends s t c c.b h { pc := targetOf c off } (fun _ th => th) id) ∧
  ∀ i h off onZero s c, branchForm i = some (h, off, onZero) → Issuing s c i → Enabled s c [0] →
    (h.sc = .lane → EachLane c (fun _ t => TransferOperand c t) →
      (∀ zero, (∀ e ∈ active c, (topBits e.2.stack == 0) = zero) → ∃ t, exec i s = .next t ∧
        Ends s t c c.b h { pc := if zero = onZero then targetOf c off else c.p.pc + 4 }
          (fun _ th => { th with stack := th.stack.drop 1 }) id) ∧
      ((∃ e ∈ active c, topBits e.2.stack = 0) → (∃ e ∈ active c, topBits e.2.stack ≠ 0) → Stands (counted s c) c →
        ∃ t, exec i s = .next t ∧ Stops s t c { cause := 0x08 })) ∧
    (h.sc = .warp → UniformOperand c → ∃ t, exec i s = .next t ∧
      Ends s t c c.b h { pc := if (topBits c.p.ust == 0) = onZero then targetOf c off else c.p.pc + 4 }
        (fun _ th => th) (fun p => { p with ust := p.ust.drop 1 }))

/-- O37 (R207, R209, R367). call pushes the return address on the uniform stack as a long-latency result and goes to its
target; a full uniform stack raises cause 0x03. ret pops its target from the uniform stack, and ends the nesting of an
emulation routine when the depth is that of its entry. jx goes to the address that every lane, or the uniform stack, holds.
In both a misaligned target raises cause 0x0C, one beyond the code section cause 0x0B, in every lane. -/
def Obligations.CallsComplete : Prop :=
  (∀ h off s c, h.sc = .lane → Issuing s c (.call h off) → Enabled s c [0] →
    (c.p.ust.length < 8 → ∃ t, exec (.call h off) s = .next t ∧ Ends s t c c.b h { pc := targetOf c off, owed := 1 }
      (fun _ th => th) (fun p => { p with ust := freshLong c ⟨c.p.pc + 4, .clean⟩ :: p.ust })) ∧
    (8 ≤ c.p.ust.length → Stands (counted s c) c → ∃ t, exec (.call h off) s = .next t ∧ Stops s t c { cause := 0x03 })) ∧
  (∀ h s c, h.sc = .lane → Issuing s c (.ret h) → Enabled s c [0] → UniformOperand c →
    (Reachable c (topBits c.p.ust) → ∃ t, exec (.ret h) s = .next t ∧ Ends s t c c.b h { pc := topBits c.p.ust }
      (fun _ th => th) (fun p => { p with
        ust := p.ust.drop 1, nest := if p.nest = some (p.ust.length - 1) then none else p.nest })) ∧
    ((topBits c.p.ust).toNat % 4 ≠ 0 → Stands (counted s c) c → ∃ t, exec (.ret h) s = .next t ∧
      Stops s t c { cause := 0x0C }) ∧
    ((topBits c.p.ust).toNat % 4 = 0 → c.b.csize ≤ (topBits c.p.ust).toNat → Stands (counted s c) c →
      ∃ t, exec (.ret h) s = .next t ∧ Stops s t c { cause := 0x0B })) ∧
  ∀ h s c, Issuing s c (.jx h) → Enabled s c [0] →
    (∀ a, h.sc = .lane → EachLane c (fun _ t => TransferOperand c t ∧ topBits t.stack = a) → Reachable c a →
      ∃ t, exec (.jx h) s = .next t ∧ Ends s t c c.b h { pc := a } (fun _ th => { th with stack := th.stack.drop 1 }) id) ∧
    (h.sc = .warp → UniformOperand c → Reachable c (topBits c.p.ust) → ∃ t, exec (.jx h) s = .next t ∧
      Ends s t c c.b h { pc := topBits c.p.ust } (fun _ th => th) (fun p => { p with ust := p.ust.drop 1 })) ∧
    ∀ a, (h.sc = .lane ∧ EachLane c (fun _ t => TransferOperand c t ∧ topBits t.stack = a)) ∨
        (h.sc = .warp ∧ UniformOperand c ∧ topBits c.p.ust = a) → Stands (counted s c) c →
      (a.toNat % 4 ≠ 0 → ∃ t, exec (.jx h) s = .next t ∧ Stops s t c { cause := 0x0C }) ∧
      (a.toNat % 4 = 0 → c.b.csize ≤ a.toNat → ∃ t, exec (.jx h) s = .next t ∧ Stops s t c { cause := 0x0B })

/-- O38 (R105, R210). exit ends every active lane of the issuing path; every other lane of a warp is unchanged (a finder
lane ends with the last lane of its warp), and so are memory, registers and other blocks' lanes. -/
def Obligations.ExitCompletes : Prop :=
  ∀ h s c, h.sc = .lane → Issuing s c (.exit h) → Enabled s c [0] → EachLane c (fun _ _ => True) →
    ∃ t, exec (.exit h) s = .next t ∧ OnlyPaths s t ∧
      (∀ k ∈ c.p.lanes, ∀ th, tget c.b.threads k = some th → t.thread? c.bid k = some { th with run := .exited }) ∧
      (∀ k, k ∉ c.p.lanes → k < 1024 → t.thread? c.bid k = tget c.b.threads k) ∧
      (∀ k th, k ∉ c.p.lanes → 1024 ≤ k → tget c.b.threads k = some th →
        t.thread? c.bid k = some th ∨ t.thread? c.bid k = some { th with run := .exited }) ∧
      ∀ k, k ≠ c.bid → tget t.blocks k = tget s.blocks k

/-- O39 (R143, R145, R146, R212). fork pops in every lane and opens a fork: lanes with zero go on at the next PC and keep
the port, the others form a ready path at the target, both with the same copy of the uniform cells and the fork innermost.
The entry is opened also when an arm has no lanes, and such an arm counts as arrived at its join and has no path. Every
other path, and every other block, stays as it was. The fork and the new path take the model's next fresh numbers (log 2).
-/
def Obligations.ForkCompletes : Prop :=
  ∀ h off s c, h.sc = .lane → Issuing s c (.fork h off) → Enabled s c [0] → EachLane c (fun _ t => TransferOperand c t) →
    openForks c.b c.p < Config.maxForks → s.ids + 1 ≠ c.pid →
    let fall := armOf c false
    let taken := armOf c true
    ∃ t b', exec (.fork h off) s = .next t ∧ OnlyPaths s t ∧ tget t.blocks c.bid = some b' ∧
      tget b'.forks s.ids = some ⟨c.p.warp, c.p.finder, fall, taken, none⟩ ∧
      (∀ k ∈ c.p.lanes, ∀ th, tget c.b.threads k = some th → tget b'.threads k =
        some { th with stack := th.stack.drop 1, forkD := (s.ids, th.stack.length - 1) :: th.forkD }) ∧
      (∀ k, k ∉ c.p.lanes → tget b'.threads k = tget c.b.threads k) ∧
      (fall ≠ [] → ∃ p, tget b'.paths c.pid = some p ∧ p = { c.p with
          lanes := fall, pc := c.p.pc + 4, forks := s.ids :: c.p.forks, prog := 0, checked := false, run := p.run
          since := p.since, stepping := p.stepping, wait := if parksHere c h then .parked else .issuing }) ∧
      (taken ≠ [] → ∃ p, tget b'.paths (if fall = [] then c.pid else s.ids + 1) = some p ∧ p = { c.p with
          lanes := taken, pc := targetOf c off, forks := s.ids :: c.p.forks, prog := 0, checked := false, run := p.run
          since := p.since, stepping := p.stepping, wait := if parksHere c h then .parked else .ready s.cycle }) ∧
      (fall = [] → b'.armIn s.ids fall = true) ∧ (taken = [] → b'.armIn s.ids taken = true) ∧
      (∀ k, k ≠ c.pid → k ≠ s.ids + 1 ∨ fall = [] ∨ taken = [] → tget b'.paths k = tget c.b.paths k) ∧
      ∀ k, k ≠ c.bid → tget t.blocks k = tget s.blocks k

/-- O40 (R143, R206, R213, R214). join at the depth its fork recorded, plus d, parks its path at the join and records the
join's PC in the fork; lanes are unchanged. Without an open fork, and in an arm that comes to another PC than the other
arm's, it raises cause 0x0D in every lane. -/
def Obligations.JoinParks : Prop :=
  ∀ h d s c, h.sc = .lane → h.b = true → Issuing s c (.join h d) → Enabled s c [0] →
    (∀ fid rest f, c.p.forks = fid :: rest → tget c.b.forks fid = some f → (f.joinPc = none ∨ f.joinPc = some c.p.pc) →
      EachLane c (fun _ t => joinsAt t d) →
      ∃ t b' p, exec (.join h d) s = .next t ∧ OnlyPaths s t ∧ tget t.blocks c.bid = some b' ∧ b'.threads = c.b.threads ∧
        tget b'.forks fid = some { f with joinPc := some c.p.pc } ∧ tget b'.paths c.pid = some p ∧
        p = { c.p with prog := 0, checked := false, wait := .joining fid, since := s.cycle, run := p.run } ∧
        ∀ k, k ≠ c.pid → tget b'.paths k = tget c.b.paths k) ∧
    (Stands (counted s c) c → (c.p.forks = [] ∨ ∃ fid rest f pc, c.p.forks = fid :: rest ∧ tget c.b.forks fid = some f ∧
        f.joinPc = some pc ∧ pc ≠ c.p.pc) →
      ∃ t, exec (.join h d) s = .next t ∧ Stops s t c { cause := 0x0D })

/-- O41 (R144, R147, R213). When both arms of a fork wait at their join with equal uniform depths, they become one parked
path behind the join with the lanes of both, without that fork; a uniform cell in which the two agree, undivided, stays as
it is, and one in which they differ is divided with the values of the arm of the lowest lane and of the arm of the highest
lane. Memory and other blocks are unchanged. -/
def Obligations.JoinsMerge : Prop :=
  (∀ s bid fid b f x y, s.due = some (.joinMerge bid fid) → tget s.blocks bid = some b → tget b.forks fid = some f →
    b.joinReady fid f = true → lowLane x.2 < lowLane y.2 → x.1 ≠ y.1 →
    (let arrived := b.paths.filter (fun e => e.2.wait == .joining fid); arrived = [x, y] ∨ arrived = [y, x]) →
    x.2.ust.length = y.2.ust.length →
    let last := if highLane x.2 < highLane y.2 then y.2 else x.2
    ∃ t b' p, exec .joinMerge s = .next t ∧ OnlyPaths s t ∧ tget t.blocks bid = some b' ∧ tget b'.paths x.1 = some p ∧
      p.lanes = keysByLane (x.2.lanes ++ y.2.lanes) ∧ p.pc = x.2.pc + 4 ∧ p.forks = x.2.forks.drop 1 ∧ p.wait = .parked ∧
      p.w = mergeCells [x.2.w, y.2.w] last.w ∧ p.ust = mergeCells [x.2.ust, y.2.ust] last.ust ∧
      b'.forks = tdel b.forks fid ∧ ∀ k, k ≠ bid → tget t.blocks k = tget s.blocks k) ∧
  (∀ a b last : Cell, a.hi = none → b.hi = none →
    (a.val = b.val → (mergeCell [a, b] last).val = a.val ∧ (mergeCell [a, b] last).hi = none) ∧
    (a.val.bits ≠ b.val.bits → last.hi = none →
      (mergeCell [a, b] last).val = a.val ∧ (mergeCell [a, b] last).hi = some last.val))

/-- O42 (R84, R85, R86, R87, R142, R215). reform at the demanded depth files every lane of its path in the sector's bin of
its next PC, or waits there for a bin; rehome in a formed warp leaves every lane waiting at the rehome of its home warp.
Beside their run state the threads are unchanged. A path that slept in its run, or is owed a result of an engine, waits
first at its reform or rehome with its threads as they were, the model's reading of R97 and R179 (log 19, log 20). -/
def Obligations.RegatheringParks : Prop :=
  (∀ h d s c, h.sc = .lane → h.b = true → c.p.finder = false → c.p.forks = [] → Issuing s c (.reform h d) →
    Enabled s c [0] → EachLane c (fun _ t => t.stack.length = d.toNat) →
    let sec := s.sector (c.b.sectorOf c.p.warp)
    let files := c.p.run.sleep = 0 ∧ c.p.run.awaits = []
    (∀ i, files → c.p.stops = [] → binFor sec c.bid (c.p.pc + 4) = some i →
      ∃ t, exec (.reform h d) s = .next t ∧ OnlyPaths s t ∧
        (∀ k ∈ c.p.lanes, ∀ th, tget c.b.threads k = some th →
          t.thread? c.bid k = some { th with run := .binned, forkD := [] }) ∧
        (∀ k, k ∉ c.p.lanes → t.thread? c.bid k = tget c.b.threads k) ∧
        tget (t.sector (c.b.sectorOf c.p.warp)).bins i = some ⟨c.bid, c.p.pc + 4,
          ((tget sec.bins i).map (·.filed)).getD [] ++ c.p.lanes.map (fun k => ⟨c.bid, k, s.cycle⟩)⟩) ∧
    (¬ files ∨ (c.p.stops = [] ∧ binFor sec c.bid (c.p.pc + 4) = none) →
      ∃ t p, exec (.reform h d) s = .next t ∧ OnlyPaths s t ∧ t.path? c.bid c.pid = some p ∧ p.wait = .binning ∧
        p.lanes = c.p.lanes ∧ p.pc = c.p.pc ∧ ∀ k, t.thread? c.bid k = tget c.b.threads k)) ∧
  (∀ h s c, h.sc = .lane → h.b = true → c.p.finder = false → c.p.formed = true → Issuing s c (.rehome h) →
    Enabled s c [0] → EachLane c (fun _ _ => True) →
    let goes := c.p.run.sleep = 0 ∧ c.p.run.awaits = []
    (goes → (∀ k ∈ c.p.lanes, ∀ e ∈ c.b.homing, homeWarp e.1 = homeWarp k → e.2 = c.p.pc) →
      ∃ t b', exec (.rehome h) s = .next t ∧ OnlyPaths s t ∧ tget t.blocks c.bid = some b' ∧
        (∀ k ∈ c.p.lanes, ∀ th, tget c.b.threads k = some th →
          tget b'.threads k = some { th with run := .rehoming } ∧ tget b'.homing k = some c.p.pc) ∧
        ∀ k, k ∉ c.p.lanes → tget b'.threads k = tget c.b.threads k) ∧
    (¬ goes → ∃ t p, exec (.rehome h) s = .next t ∧ OnlyPaths s t ∧ t.path? c.bid c.pid = some p ∧ p.wait = .rehoming ∧
      p.lanes = c.p.lanes ∧ p.pc = c.p.pc ∧ (s.cycle + c.p.run.sleep, Event.sleepExpiry c.bid c.pid) ∈ t.events ∧
      ∀ k, t.thread? c.bid k = tget c.b.threads k))

/-! Memory, records, the window -/

/-- O43 (R94, R120, R164, R228, R239, R252, R254, R257, R259, R261, R264, R267). ld, ldn, ldsp, pref, st, stn, stsp, atom,
cas and ared complete in a home or formed warp: the active lanes act one after the other by rising position, each in the
state those before it left; each pops its operands and pushes its result, helper lanes push zeros and access nothing; beside
the accesses nothing changes. -/
def Obligations.LanesAccessMemory : Prop := CompletesInTurn memoryTurn

/-- O44 (R50, R94, R224, R225, R226, R227, R253, R402, R403). emit, recput, commit, abandon and recget, and at level 1 or 2
rdbk and wrbk, complete: the active lanes act one after the other by rising position; each pops its operands and pushes its
result; beside what its record operation, or the window's write, does nothing changes. -/
def Obligations.RecordsAndWindowComplete : Prop := CompletesInTurn recordTurn ∧ CompletesInTurn windowTurn

/-- O45 (R94, R249, R258, R264). ldf and stf complete with one access, by the lowest active lane that is no helper at lane
scope, with the uniform stack's operands at warp scope: ldf pushes the value in every lane but the helpers, which push 0, or
on the uniform stack; stf only pops. Where every lane is a helper nothing is accessed. The origin record of a poisoned load
is that of the lane that accessed, at warp scope of the lowest lane. -/
def Obligations.UniformAccess : Prop :=
  ∀ h a ord hint s c, let p := addrPops a
    let loaded : Retire := { pc := c.p.pc + 4, owed := 1 }
    let stored : Retire := { pc := c.p.pc + 4 }
    Enabled s c (withQn4 (usesQn4 a) c.b) →
    (h.sc = .lane → Issuing s c (.ldf h a ord hint) →
      EachLane c (fun _ t => Operands c (laneCeil c.b c.p) p 1 t.stack) →
      (∀ k0 t0 s1 l s2 v b, chosen c = some (k0, t0) → loadOps c a ord 1 (counted s c) (tops p t0.stack) = (s1, .ok l) →
        loadedVals s1 l = (s2, [v]) → Stays c s2 b →
        ∃ t, exec (.ldf h a ord hint) s = .next t ∧ Ends s2 t c b h loaded (ldfThread c a l v k0) id) ∧
      (chosen c = none → ∃ t, exec (.ldf h a ord hint) s = .next t ∧ Ends s t c c.b h loaded
        (fun _ th => { th with stack := freshLong c ⟨0, .clean⟩ :: th.stack.drop p }) id)) ∧
    (h.sc = .warp → Issuing s c (.ldf h a ord hint) → Operands c 8 p 1 c.p.ust → EachLane c (fun _ _ => True) →
      (∀ s1 l s2 v b, (chosen c).isSome → loadOps c a ord 1 (counted s c) (tops p c.p.ust) = (s1, .ok l) →
        loadedVals s1 l = (s2, [v]) → Stays c s2 b →
        ∃ t, exec (.ldf h a ord hint) s = .next t ∧ Ends s2 t c b h loaded
          (fun k th => if lowest c = some k then withOrigin c a l (c.p.ust.length - p) true th else th)
          (fun q => { q with ust := freshLong c v :: q.ust.drop p })) ∧
      (chosen c = none → ∃ t, exec (.ldf h a ord hint) s = .next t ∧ Ends s t c c.b h loaded
        (fun _ th => th) (fun q => { q with ust := freshLong c ⟨0, .clean⟩ :: q.ust.drop p }))) ∧
    (h.sc = .lane → c.p.finder = false → Issuing s c (.stf h a ord hint) →
      EachLane c (fun _ t => Operands c (laneCeil c.b c.p) (p + 1) 0 t.stack) →
      (∀ k0 t0 s1 b, chosen c = some (k0, t0) → storeOps c a 1 (counted s c) (tops (p + 1) t0.stack) = (s1, .ok ()) →
        Stays c s1 b →
        ∃ t, exec (.stf h a ord hint) s = .next t ∧ Ends s1 t c b h stored
          (fun _ th => { th with stack := th.stack.drop (p + 1) }) id) ∧
      (chosen c = none → ∃ t, exec (.stf h a ord hint) s = .next t ∧ Ends s t c c.b h stored
          (fun _ th => { th with stack := th.stack.drop (p + 1) }) id)) ∧
    (h.sc = .warp → c.p.finder = false → Issuing s c (.stf h a ord hint) → Operands c 8 (p + 1) 0 c.p.ust →
      EachLane c (fun _ _ => True) →
      (∀ s1 b, (chosen c).isSome → storeOps c a 1 (counted s c) (tops (p + 1) c.p.ust) = (s1, .ok ()) → Stays c s1 b →
        ∃ t, exec (.stf h a ord hint) s = .next t ∧ Ends s1 t c b h stored
          (fun _ th => th) (fun q => { q with ust := q.ust.drop (p + 1) })) ∧
      (chosen c = none → ∃ t, exec (.stf h a ord hint) s = .next t ∧ Ends s t c c.b h stored
          (fun _ th => th) (fun q => { q with ust := q.ust.drop (p + 1) })))

/-- O46 (R100, R103, R104, R260, R262). ld and ldn in a finder warp pop their address operands, allocate their entries
behind the queued ones and write each lane's cells into its slot of them; a window without room holds the finder. qpop pops
the oldest available entries onto each lane's stack, the newest on top, and frees them at issue. -/
def Obligations.FinderQueue : Prop :=
  (∀ i h a ord n s c, (∃ hint, i = .ld h a ord hint ∧ n = 1) ∨ (∃ hint m, i = .ldn h a ord hint m ∧ n = m.toNat) →
    h.sc = .lane → c.p.finder = true → Issuing s c i → Enabled s c (withQn4 (usesQn4 a) c.b) → n ≤ c.b.queue →
    EachLane c (fun _ t => Operands c (laneCeil c.b c.p) (addrPops a) 0 t.stack) →
    let q := queueOf c.b c.p.warp
    (∀ s1 cells ok b, q.entries.length + n ≤ c.b.queue →
      finderLanes c a ord n (q.head + q.entries.length) (counted s c) (inOrderOfLanes c) = (s1, cells, .all ok []) →
        Stays c s1 b →
      let q' := (List.range n).foldl (fun q j => q.alloc c.b.queue (cells.map (fun e => (e.1, e.2.getD j ⟨0, .clean⟩)))) q
      let s2 := (s1.modBlock c.bid (fun b => { b with queues := tset b.queues c.p.warp q' })).post (s1.cycle + 1)
        (.queueEntryArrival c.bid c.p.warp)
      ∃ t, exec i s = .next t ∧ Ends s2 t c { b with queues := tset b.queues c.p.warp q' } h { pc := c.p.pc + 4 }
        (resultOf ok) id) ∧
    (c.b.queue < q.entries.length + n → ∃ t p, exec i s = .next t ∧ OnlyPaths s t ∧ t.path? c.bid c.pid = some p ∧
      p = { c.p with wait := .holding .finderRoom, since := s.cycle } ∧
      ∀ b', tget t.blocks c.bid = some b' → b'.threads = c.b.threads ∧ b'.queues = c.b.queues)) ∧
  (∀ h n s c, h.sc = .lane → c.p.finder = false → Issuing s c (.qpop h n) → Enabled s c [0] →
    n.toNat ≤ c.b.queue → c.b.fentry ≠ 0 → EachLane c (fun _ t => Operands c (laneCeil c.b c.p) 0 n.toNat t.stack) →
    let q := queueOf c.b c.p.warp
    n.toNat ≤ q.available → (∀ e ∈ q.entries.take n.toNat, e.bad = []) →
    let head := c.p.run.count == 0
    let q' : FQueue := { q with entries := q.entries.drop n.toNat, head := q.slotAt c.b.queue n.toNat }
    let s1 := ((counted s c).modBlock c.bid (fun b => { b with queues := tset b.queues c.p.warp q' })).postOnce s.cycle
      (.finderQueueRoom c.bid c.p.warp)
    ∃ t, exec (.qpop h n) s = .next t ∧ Ends s1 t c { c.b with queues := tset c.b.queues c.p.warp q' } h
      (if head then { pc := c.p.pc + 4, ready := c.env.slot + 1 } else { pc := c.p.pc + 4, owed := 1 })
      (fun k th => { th with stack := ((q.entries.take n.toNat).map (fun e =>
        (if head then fresh c 1 else freshLong c) (tgetD e.cells (lanePos k) ⟨0, .clean⟩))).reverse ++ th.stack }) id)

/-- O47 (R3, R120, R228, R230, R231, R264, R265, R266, R267). A load by a flat address through an i32 slot gives the little-
endian word at the address, in memory or in a gang member's scratchpad; a store writes exactly that word; an atomic answers
the old word and writes its operator's result there. -/
def Obligations.WordAccess : Prop :=
  ∀ c a acq hi lo at_, let ops := flatOperands hi lo
    (∀ s mid off mb, OneWord c a false hi lo at_ → SpadWord s c false at_ mid off mb →
      loadOps c a acq 1 s ops = (s, .ok [.value (wd (ofBytes (rdBytes mb.spad off 4)))])) ∧
    (∀ s s1 pa perm, OneWord c a false hi lo at_ → MemWord s s1 c .load at_ pa perm →
      loadOps c a acq 1 s ops = (noteLoad s1 c.b.place.die pa false, .ok [.value (wd (ofBytes (rdBytes s.mem pa 4)))])) ∧
    (∀ s mid off mb w, OneWord c a true hi lo at_ → SpadWord s c true at_ mid off mb →
      storeOps c a 1 s (ops ++ [⟨w, .clean⟩]) =
        (s.modBlock mid (fun b => { b with spad := wrBytes b.spad off (toBytes 4 w.toNat) }), .ok ())) ∧
    (∀ s s1 pa perm w, OneWord c a true hi lo at_ → MemWord s s1 c .store at_ pa perm →
      ∃ r, storeOps c a 1 s (ops ++ [⟨w, .clean⟩]) = (r, .ok ()) ∧ r.mem = wrBytes s.mem pa (toBytes 4 w.toNat) ∧
        r = { s1 with mem := r.mem, coh := r.coh, events := r.events }) ∧
    (∀ s s1 pa perm bw op data, OneWord c a true hi lo at_ → MemWord s s1 c .store at_ pa perm →
      (∀ v ∈ data, v.poison = .clean) → let old := wd (ofBytes (rdBytes s.mem pa 4))
      ∃ r, atomOps c a bw op s (ops ++ data) = (r, .ok old) ∧
        r.mem = wrBytes s.mem pa (toBytes 4 (op (data.map (·.bits)) old).toNat) ∧
        r = { s1 with mem := r.mem, coh := r.coh, events := r.events }) ∧
    (∀ s mid off mb bw op data, OneWord c a true hi lo at_ → SpadWord s c true at_ mid off mb →
      (∀ v ∈ data, v.poison = .clean) → let old := wd (ofBytes (rdBytes mb.spad off 4))
      atomOps c a bw op s (ops ++ data) = (s.modBlock mid (fun b => { b with
        spad := wrBytes b.spad off (toBytes 4 (op (data.map (·.bits)) old).toNat) }), .ok old))

/-- O48 (R228, R252, R254, R257, R264, R267). A lane's load leaves all of memory and every block with its scratchpad as they
were. A lane's store, whatever its slot, shape and outcome, changes no byte of memory or of a scratchpad outside the
stretches to which its elements resolve; an atomic none outside its word's. Beside these bytes only translations, line
requests, page requests and the counter of free values change. -/
def Obligations.MemoryFrames : Prop :=
  ∀ c a s vs,
    (∀ acq n, let t := (loadOps c a acq n s vs).1
      OnlyAccess s t ∧ t.mem = s.mem ∧ t.blocks = s.blocks) ∧
    (∀ n, OnlyWrites (storeTargets c a n s vs) s (storeOps c a n s vs).1) ∧
    (∀ bw op, OnlyWrites (atomTargets c a s vs) s (atomOps c a bw op s vs).1)

/-! Engines and matrices -/

/-- O49 (R250, R253, R273, R274, R280, R282, R285, R286, R289). cpy, cpyo, gath, scat, cred, cbc, cag, csend and smp
complete in a home or formed warp: once the command's checks pass and it stands in its engine's queue, every active lane has
popped its operands; where every lane is a helper no command is issued. The checks and the queueing are those of the
engine's own operation; beside them nothing changes. -/
def Obligations.CommandsComplete : Prop := CompletesAsCommand commandForm

/-- O50 (R94, R253, R278, R281, R284, R288, R290). cpstat, sstat, mtag and cwait complete: every active lane gets the status
word, or the matched tag, helpers get 0; a cwait with commands of its block queued stands behind them in the queue, and its
status stays owed until the engine returns it (its value is determined at issue, the model's choice). At a channel halted
for the block a cwait waits for nothing; one bound to another node takes no cwait (log 34) and is left out here. -/
def Obligations.StatusesComplete : Prop := CompletesWithStatus statusForm

/-- O51 (R106, R333, R336, R339, R340, R341, R347, R348, R349, R350, R352, R353). A quarter form whose steps 1 to 12 pass
completes: its entries, one per quarter with lanes, stand in the sector's matrix queue with the lanes' cells and the pages
checked at issue; every lane's operands are popped, and its A latch is kept or emptied as U says; beside that nothing
changes, and the path owes the entries' end. -/
def Obligations.QuarterFormsComplete : Prop :=
  ∀ i h feats pq s c s1 b, quarterForms i = some (h, feats, pq) → h.sc = .lane → Issuing s c i → Enabled s c (feats c.b) →
    QuarterReady s c i pq → let x := quarterOf c i pq
    ∀ l, QuarterPlaced (counted s c) s1 c i x l → Stays c s1 b →
    ∃ t, exec i s = .next t ∧
      Ends s1 t c b h { pc := c.p.pc + 4, await := l.head?.toList.map (fun y => instMark y.inst y.pc) }
        (fun k th => if x.replay then takenLatch th else afterLatch c.b i x.pops (cellsOf x k) th) id

/-- O52 (R343, R344, R345, R355, R357, R358, R359, R427). An MDR form at the head of its warp's order completes: mdrain
checks the tile and pushes each lane's row, column 15 beneath the status on top; mchk pushes the status; mdst stores the
rows of the lanes that are no helpers through the slot and pushes the status; mld puts the rows read, a helper's as zeros,
into the tile. Its place in the order is free; beside that nothing changes. -/
def Obligations.TilesDrain : Prop :=
  ∀ h acc s c b, h.sc = .lane → let k := acc.toNat
    let pushed := fun (pops : Nat) (f : Nat → List Word) (j : Nat) (th : Thread) =>
      { th with stack := pushWords c (f j) (th.stack.drop pops) }
    (let i := Instr.mdrain h acc; Issuing s c i → Enabled s c [0] → DrainReady c i 17 → let s0 := placed (counted s c) c i
      AtHead s0 c → let x := checkTile s0 c k
      x.2 ≠ 3 → Stays c (leaveOrder x.1 c) b → ∃ t, exec i s = .next t ∧
        Ends (leaveOrder x.1 c) t c b h { pc := c.p.pc + 4, owed := 1 }
          (pushed 0 fun j => wd x.2 :: drained (x.1.tile c.bid c.p.warp k) j) id) ∧
    (let i := Instr.mchk h acc; Issuing s c i → Enabled s c [0] → DrainReady c i 1 → let s0 := placed (counted s c) c i
      AtHead s0 c → let x := checkTile s0 c k
      x.2 ≠ 3 → Stays c (leaveOrder x.1 c) b → ∃ t, exec i s = .next t ∧
        Ends (leaveOrder x.1 c) t c b h { pc := c.p.pc + 4, owed := 1 } (pushed 0 fun _ => [wd x.2]) id) ∧
    (∀ fs wb s1 pages, let i := Instr.mdst h fs acc wb
      Issuing s c i → Enabled s c (withQn4 (matQn4 i) c.b) → DrainReady c i 1 → let s0 := placed (counted s c) c i
      AtHead s0 c → shapeNamed c.b i = true → storeKindOk (matSlot c.b i) (s0.tile c.bid c.p.warp k).kind = true →
      (∀ e ∈ rowLanes c, ∀ y ∈ rowElems c i true e.2, elemBad c.b (matSlot c.b i).fmt y = none) →
      awaitPages s0 c (.mmaPageCheckComplete c.bid c.pid) (rowAccesses c i true) = none →
      checkAccesses c.b.who c.bid 8 s0 [] (rowAccesses c i true) = (s1, .ok pages) →
      let x := checkTile s1 c k
      x.2 ≠ 3 → accsBad x.1 c.bid pages (rowAccesses c i true) = none →
      let s2 := leaveOrder (storeRows c i (x.1.tile c.bid c.p.warp k) pages x.1) c
      Stays c s2 b → ∃ t, exec i s = .next t ∧
        Ends s2 t c b h { pc := c.p.pc + 4, owed := 1 } (pushed 2 fun _ => [wd x.2]) id) ∧
    (∀ fs wb s1 pages kind, let i := Instr.mld h fs acc wb
      Issuing s c i → Enabled s c (withQn4 (matQn4 i) c.b) → DrainReady c i 0 → let s0 := placed (counted s c) c i
      let t0 := s0.tile c.bid c.p.warp k
      AtHead s0 c → loadKind (matSlot c.b i) = some kind → shapeNamed c.b i = true →
      (t0.invalid.isSome ∨ t0.kind = 0 ∨ t0.kind = kind) →
      (∀ e ∈ rowLanes c, ∀ y ∈ rowElems c i false e.2, elemBad c.b (matSlot c.b i).fmt y = none) →
      awaitPages s0 c (.mmaPageCheckComplete c.bid c.pid) (rowAccesses c i false) = none →
      checkAccesses c.b.who c.bid 8 s0 [] (rowAccesses c i false) = (s1, .ok pages) →
      accsBad s1 c.bid pages (rowAccesses c i false) = none →
      let x := readRows i pages c s1 (inOrderOfLanes c)
      let s2 := leaveOrder (x.1.modTile c.bid c.p.warp k (fun _ => loadedTile (loadBase t0 kind) x.2)) c
      Stays c s2 b → ∃ t, exec i s = .next t ∧ Ends s2 t c b h { pc := c.p.pc + 4 } (pushed 2 fun _ => []) id)

/-! Privileged forms -/

/-- O53 (R124, R233, R409). tlbi at level 1 or 2, at level 2 for kinds 3 and 4, drops the entries it names from every
cluster TLB of the partition and pops its operands; its path waits until no access in flight uses them. Under ATS kinds 3
and 4 have nothing to drop. Which entries a stage-2 kind drops is the model's choice: all of the partition. -/
def Obligations.InvalidationsComplete : Prop :=
  ∀ h kind s c, h.sc = .lane → let n := tlbiPops kind.toNat
    Issuing s c (.tlbi h kind) → Enabled s c [0] → OnceForAll c n 0 → (3 ≤ kind.toNat → 2 ≤ c.b.lvl) →
    let popped := fun (_ : Nat) (th : Thread) => { th with stack := th.stack.drop n }
    (¬ (s.atsMode c.b.part = true ∧ 3 ≤ kind.toNat) → ∃ t, exec (.tlbi h kind) s = .next t ∧
      Ends (invalidating (counted s c) c kind.toNat) t c c.b h { pc := c.p.pc + 4, await := [c.env.longMark] } popped id ∧
      ∀ e ∈ t.coh.tlb, (invalidation c kind.toNat).hits e = false) ∧
    (s.atsMode c.b.part = true → 3 ≤ kind.toNat → ∃ t, exec (.tlbi h kind) s = .next t ∧
      Ends s t c c.b h { pc := c.p.pc + 4, owed := 1 } popped id)

/-- O54 (R371, R372, R374, R376). ctxs answers status 1 for a block that is not resident in its partition and 2 for a gang
member or the issuer's own block; else it starts the block's vacate to the named address, holds its path, and answers status
0 when the context is saved; while the block has another vacate under way it holds first (log 43). ctxl of an intact context
of the same feature mask answers status 1 when the identity is in use, else it queues the block for placing and answers 0.
-/
def Obligations.ContextsComplete : Prop :=
  (∀ h s c, h.sc = .lane → Issuing s c (.ctxs h) → Enabled s c [0] → OnceForAll c 3 1 →
    let id := (pathOperand c 3 0).toNat
    let va := (pathOperand c 3 2).toNat * 2 ^ 32 + (pathOperand c 3 1).toNat
    let answers := fun (n : Nat) => ∃ t, exec (.ctxs h) s = .next t ∧
      Ends s t c c.b h { pc := c.p.pc + 4, owed := 1 } (fun _ => withStatus c 3 n) (fun p => p)
    (c.p.checked = true → answers 0) ∧
    (c.p.checked = false → va % 64 = 0 →
      ((∀ b, tget s.blocks id = some b → b.part ≠ c.b.part) → answers 1) ∧
      ∀ b, tget s.blocks id = some b → b.part = c.b.part →
        (b.gang ≠ [] ∨ id = c.bid → answers 2) ∧
        (∀ v, b.gang = [] → id ≠ c.bid → b.vacate = some v → v.kind ≠ .ctxs ∨ v.requester ≠ none →
          ∃ t p, exec (.ctxs h) s = .next t ∧ OnlyPaths s t ∧ tget t.blocks id = some b ∧ t.path? c.bid c.pid = some p ∧
          p = { c.p with wait := .holding .context, since := s.cycle } ∧
          ∀ k, t.thread? c.bid k = tget c.b.threads k) ∧
        (b.gang = [] → id ≠ c.bid → b.vacate = none → ∃ t p, exec (.ctxs h) s = .next t ∧ OnlyPaths s t ∧
          tget t.blocks id = some { b with vacate := some ⟨.ctxs, false, false, some (c.bid, c.pid), va, 0, 0⟩ } ∧
          (s.cycle, Event.vacateBegin id) ∈ t.events ∧ t.path? c.bid c.pid = some p ∧
          p = { c.p with wait := .holding .context, since := s.cycle } ∧
          ∀ k, t.thread? c.bid k = tget c.b.threads k))) ∧
  ∀ h s c s1 l b k, h.sc = .lane → Issuing s c (.ctxl h) → Enabled s c [0] → OnceForAll c 2 1 →
    readContext (counted s c) c.b c.bid ((pathOperand c 2 1).toNat * 2 ^ 32 + (pathOperand c 2 0).toNat) = (s1, l, none) →
    s.savedCtx l = some k → ctxIntact k.size l = true → ctxField l 0x40 64 = (s.effMask c.b.part).toNat →
    ctxField l 0x0E 1 % 4 ≤ c.b.lvl → Stays c s1 b →
    (s.taken (ctxField l 8 4) = true → ∃ t, exec (.ctxl h) s = .next t ∧
      Ends s1 t c b h { pc := c.p.pc + 4, owed := 1 } (fun _ => withStatus c 2 1) (fun p => p)) ∧
    (s.taken (ctxField l 8 4) = false → let blk : Block := { k.blk with graph := ⟨c.b.part, k.blk.graph.lvl⟩ }
      let die := requeueDie (counted s c) c.b.part k.blk.place.die
      ∃ t, exec (.ctxl h) s = .next t ∧
        Ends (State.postOnce { s1 with queued := s1.queued ++ [⟨die, [blk], true⟩] } s1.cycle (.blockRequeuePlace die))
          t c b h { pc := c.p.pc + 4, owed := 1 } (fun _ => withStatus c 2 0) (fun p => p))

/-- O55 (R376, R414, R424). mapc at level 2 answers status 1 for a physical cluster that is assigned or does not exist, and
in reduced service (log 44), and 2 for a logical cluster the partition does not have; else the logical cluster's blocks are
told to vacate, the move is recorded, and the status 0 is owed until it ends (its value stands in the cell from issue on,
the model's choice). -/
def Obligations.MappingCompletes : Prop :=
  ∀ h s c, h.sc = .lane → Issuing s c (.mapc h) → Enabled s c [0] → OnceForAll c 3 1 → 2 ≤ c.b.lvl →
    let pc := (pathOperand c 3 0).toNat
    let lc := (pathOperand c 3 1).toNat
    let part := (pathOperand c 3 2).toNat
    let taken := 96 ≤ pc ∨ s.reduced = true ∨ bit? (s.ptEntry pc) 15 = true
    (taken → ∃ t, exec (.mapc h) s = .next t ∧
      Ends s t c c.b h { pc := c.p.pc + 4, owed := 1 } (fun _ => withStatus c 3 1) id) ∧
    (¬ taken → physOf s part lc = none → ∃ t, exec (.mapc h) s = .next t ∧
      Ends s t c c.b h { pc := c.p.pc + 4, owed := 1 } (fun _ => withStatus c 3 2) id) ∧
    ∀ old, ¬ taken → physOf s part lc = some old → (s.clusterState pc).gated = false →
      (∃ e ∈ s.blocks, e.2.place.clus = old) → (s.blocks.map (·.1)).Nodup →
      ∃ t u, exec (.mapc h) s = .next t ∧
        Ends s u c c.b h { pc := c.p.pc + 4, await := [c.env.longMark] } (fun _ => withStatus c 3 0) id ∧
        t = { u with moves := u.moves ++ [⟨old, pc, c.bid, c.pid, c.env.longMark⟩], blocks := t.blocks, events := t.events } ∧
        ∀ k b, tget u.blocks k = some b →
          (b.place.clus ≠ old → tget t.blocks k = some b) ∧
          (b.place.clus = old → (s.cycle, Event.vacateBegin k) ∈ t.events ∧ tget t.blocks k = some { b with
            vacate := some (b.vacate.getD ⟨.move, false, false, none, 0, 0, 0⟩) })

/-! Device steps and registers -/

/-- O56 (R26, R50, R78, R97, R315, R364, R366, R369, R382, R410, R421, R423). Each of the 108 device steps of the operation
table, served as the due event with its operands, answers the next state that its operation gives: events of launchers,
meetings, paths, queues, engines, caches, reports, thread control, preemption, power and the host's registers. -/
def Obligations.DeviceStepsComplete : Prop := ∀ e s, s.due = some e → exec e.instr s = .next (deviceEffect e s)

/-- O57 (R40, R41, R406). A write of a word of PFM, or of XMODE, while the partition holds a resident block or a loaded
object, which in the model is a registered graph (log 60, DEDUCED), keeps the register and sets its refusal bit; an accepted
one writes it and clears the bit. -/
def Obligations.MaskAndMode : Prop :=
  ∀ s part v, part < s.parts.length → let old := s.part part
    (∀ word, word < 16 → s.due = some (.pfmWrite part word v) → ∃ t, exec .pfmWrite s = .next t ∧
      t = { s with parts := t.parts } ∧ (∀ k, k ≠ part → t.part k = s.part k) ∧
      (partInUse s part = true → t.part part = { old with hyper := { old.hyper with pfmr := true } }) ∧
      (partInUse s part = false → ∃ m, t.part part = { old with hyper := { old.hyper with pfmr := false, pfm := m } } ∧
        ∀ k, k < 512 → m.getLsbD k = if k / 32 = word then v.getLsbD (k % 32) else old.hyper.pfm.getLsbD k)) ∧
    (s.due = some (.xmodeWrite part v) → ∃ t, exec .xmodeWrite s = .next t ∧
      t = { s with parts := t.parts } ∧ (∀ k, k ≠ part → t.part k = s.part k) ∧
      (partInUse s part = true → t.part part = { old with hyper := { old.hyper with xmr := true } }) ∧
      (partInUse s part = false → t.part part = { old with
        hyper := { old.hyper with xmr := false }, guest := { old.guest with xmode := v &&& 1 } }))

/-- O58 (R410, R411, R423, R425). PFSEL keeps its value when 48 or more is written, PCAP when the value is below 600 or
above 2,400; IRQS loses the bits written as 1; a read of PRGR answers it and clears its bit 31; a clock step down, with some
clock at 375 MHz or more, takes 25 MHz of the clock of every such die and counts in THRC, saturating; a thermal trip stops
issue and sets BSTAT bit 11. Beside the registers named nothing changes. -/
def Obligations.PackageRegisters : Prop :=
  ∀ s, (∀ v, s.due = some (.pfselWrite v) → exec .pfselWrite s =
      .next (if v.toNat < 48 then { s with pkg := { s.pkg with pfsel := v.setWidth 6 } } else s)) ∧
    (∀ v, s.due = some (.pcapWrite v) → exec .pcapWrite s =
      .next (if 600 ≤ v.toNat ∧ v.toNat ≤ 2400 then { s with pkg := { s.pkg with pcap := v } } else s)) ∧
    (∀ part v, part < s.parts.length → s.due = some (.irqsClear part v) → ∃ t, exec .irqsClear s = .next t ∧
      t = { s with parts := t.parts } ∧ (∀ k, k ≠ part → t.part k = s.part k) ∧ ∃ m, t.part part = { s.part part with
        rep := { (s.part part).rep with irqs := m } } ∧
        ∀ k, k < 4 → m.getLsbD k = ((s.part part).rep.irqs.getLsbD k && !v.getLsbD k)) ∧
    (∀ part, part < s.parts.length → s.due = some (.prgrRead part) → let old := (s.part part).guest.prgr
      ∃ t m, exec .prgrRead s = .next t ∧ t = { s with parts := t.parts, hostRead := old.setWidth 64 } ∧
      (∀ k, k ≠ part → t.part k = s.part k) ∧
      t.part part = { s.part part with guest := { (s.part part).guest with prgr := m } } ∧
      ∀ k, k < 32 → m.getLsbD k = (old.getLsbD k && k != 31)) ∧
    (s.due = some (.clockStep true) → (∃ d ∈ s.pkg.dies, 375 ≤ d.mhz) →
      ∃ t, exec .clockStep s = .next t ∧ t = { s with pkg := { s.pkg with
          dies := t.pkg.dies, thrc := satInc s.pkg.thrc, bstat := t.pkg.bstat } } ∧
        (∀ die : Nat, t.pkg.dies[die]? = (s.pkg.dies[die]?).map (fun (d : DieState) =>
          if 375 ≤ d.mhz then { d with mhz := d.mhz - 25 } else d)) ∧
        ∀ k, k < 32 → t.pkg.bstat.getLsbD k =
          if k = 10 then t.pkg.dies.any (fun d => d.mhz < 700) else s.pkg.bstat.getLsbD k) ∧
    (s.due = some .thermalTrip → ∃ t, exec .thermalTrip s = .next t ∧
      t = { s with pkg := { s.pkg with thermal := some (s.pkg.thermal.getD s.cycle), bstat := t.pkg.bstat } } ∧
      ∀ k, k < 32 → t.pkg.bstat.getLsbD k = (s.pkg.bstat.getLsbD k || k == 11))

/-- O59 (R192). On operands that are no NaNs min and max answer the lesser and the greater in IEEE 754's order with −0 below
+0; of one NaN and one number the number; of two NaNs 0x7FC0_0000. clamp is min(max(x, lo), hi): a NaN x gives min(lo, hi),
lo above hi gives hi. The FAR forms complete with these values. -/
def Obligations.MinimumMaximum : Prop :=
  let nan := fun (a : Word) => 0x7F800000 < a.toNat % 2 ^ 31
  let key := fun (a : Word) => if a.toNat < 2 ^ 31 then (a.toNat : Int) else -((a.toNat % 2 ^ 31 : Nat) : Int) - 1
  (∀ a b : Word, ¬ nan a → ¬ nan b →
    minmax32 false a b = (if key a ≤ key b then a else b) ∧ minmax32 true a b = (if key a ≤ key b then b else a)) ∧
  (∀ m, ∀ a b : Word, nan a → ¬ nan b → minmax32 m a b = b ∧ minmax32 m b a = b) ∧
  (∀ m, ∀ a b : Word, nan a → nan b → minmax32 m a b = 0x7FC00000) ∧
  (∀ x lo hi : Word, nan x → minmax32 false (minmax32 true x lo) hi = minmax32 false lo hi) ∧
  (∀ x lo hi : Word, ¬ nan lo → ¬ nan hi → key hi < key lo → minmax32 false (minmax32 true x lo) hi = hi) ∧
  (∀ h rm k s c n f, let i := match n with
      | 0 => Instr.farMin h rm k
      | 1 => .farMax h rm k
      | _ => .farClamp h rm k
    f = (match n with
      | 0 => two (minmax32 false)
      | 1 => two (minmax32 true)
      | _ => three fun x lo hi => minmax32 false (minmax32 true x lo) hi) →
    Issuing s c i → Enabled s c [0] → c.p.finder = false →
    (Computing.mk h (if n < 2 then 2 else 3) (k.map (Machine.constOf .f32)) 4 false f).CompletesFor i s c)

/-- O60 (R366, R410). Operations 1 to 5 of TCTL on a block that is not there or is of another partition, or on a block lane
where no thread is stopped (or suspended, the model's reading), are refused: TSTAT reads ERR, and nothing else changes. -/
def Obligations.ThreadOpsRefused : Prop :=
  ∀ e part bid lane s, (e = .tctlResume part bid lane ∨ e = .tctlResumeAt part bid lane ∨ e = .tctlKill part bid lane ∨
      e = .tctlStep part bid lane ∨ e = .tctlStepAll part bid lane) → s.due = some e → part < s.parts.length →
    (∀ b, tget s.blocks bid = some b → b.part = part → ∀ k, (k = lane ∨ k = lane + 1024) →
      ∀ th, tget b.threads k = some th → th.run ≠ .stopped ∧ th.run ≠ .suspended) →
    ∃ t, exec e.instr s = .next t ∧ t = { s with parts := t.parts } ∧ (∀ k, k ≠ part → t.part k = s.part k) ∧
      t.part part = { s.part part with guest := { (s.part part).guest with tstat := 2 } }
end

