-- ==== Sys2Proof/Laws/Tables.lean ====
section
/-! SUPPORT. Laws of the sparse tables, of memory bytes and of the canonical form of memory. -/

namespace Sys2Proof.Machine

/-! Tables -/

@[simp] theorem tget_nil {α : Type} (k : Nat) : tget ([] : Tab α) k = none := rfl

theorem tget_tset {α : Type} (t : Tab α) (a k : Nat) (x : α) :
    tget (tset t a x) k = if a = k then some x else tget t k := by
  induction t with
  | nil => rfl
  | cons e r ih =>
    obtain ⟨j, v⟩ := e
    by_cases h1 : a < j
    · simp [tset, h1, tget]
    · by_cases h2 : a = j
      · subst h2; simp only [tset, tget, Nat.lt_irrefl, if_false, if_true]; by_cases h3 : a = k <;> simp [h3]
      · simp only [tset, h1, h2, if_false, tget, ih]
        by_cases h3 : j = k
        · have : a ≠ k := by omega
          simp [h3, this]
        · simp [h3]

@[simp] theorem tget_tset_self {α : Type} (t : Tab α) (a : Nat) (x : α) : tget (tset t a x) a = some x := by
  simp [tget_tset]

theorem tget_tset_ne {α : Type} (t : Tab α) {a k : Nat} (x : α) (h : a ≠ k) : tget (tset t a x) k = tget t k := by
  simp [tget_tset, h]

theorem tset_tset {α : Type} (t : Tab α) (a : Nat) (x y : α) : tset (tset t a x) a y = tset t a y := by
  induction t with
  | nil => simp [tset]
  | cons e u ih =>
    obtain ⟨j, v⟩ := e
    by_cases h1 : a < j
    · simp [tset, h1]
    · by_cases h2 : a = j
      · subst h2; simp [tset]
      · simp [tset, h1, h2, ih]

theorem tget_tmod {α : Type} (t : Tab α) (a k : Nat) (f : α → α) :
    tget (tmod t a f) k = if a = k then (tget t k).map f else tget t k := by
  unfold tmod
  by_cases h : a = k
  · subst h
    cases h2 : tget t a <;> simp [h2]
  · cases h2 : tget t a with
    | none => simp [h]
    | some v => simp [tget_tset, h]

@[simp] theorem tget_tmod_self {α : Type} (t : Tab α) (a : Nat) (f : α → α) :
    tget (tmod t a f) a = (tget t a).map f := by simp [tget_tmod]

theorem tget_tmod_ne {α : Type} (t : Tab α) {a k : Nat} (f : α → α) (h : a ≠ k) :
    tget (tmod t a f) k = tget t k := by simp [tget_tmod, h]

theorem tget_tdel_ne {α : Type} (t : Tab α) {a k : Nat} (h : a ≠ k) : tget (tdel t a) k = tget t k := by
  induction t with
  | nil => rfl
  | cons e r ih =>
    obtain ⟨j, v⟩ := e
    by_cases h2 : j = a
    · subst h2; simp [tdel, tget, h]
    · simp only [tdel, h2, if_false, tget, ih]

/-- A table whose entries are changed in place, each by its key. -/
theorem tget_map {α β : Type} (t : Tab α) (f : Nat → α → β) (k : Nat) :
    tget (t.map (fun e => (e.1, f e.1 e.2))) k = (tget t k).map (f k) := by
  induction t with
  | nil => rfl
  | cons e r ih =>
    obtain ⟨j, v⟩ := e
    by_cases h : j = k
    · subst h; simp [tget]
    · simp [tget, h, ih]

/-! The canonical form of memory -/

theorem Memory.wfFrom_weaken {m : Memory} {lo lo' : Option Nat}
    (h : Memory.wfFrom lo m = true) (hl : ∀ l', lo' = some l' → ∃ l, lo = some l ∧ l' ≤ l) :
    Memory.wfFrom lo' m = true := by
  cases m with
  | nil => rfl
  | cons e r =>
    obtain ⟨k, v⟩ := e
    cases lo' with
    | none => cases lo <;> simp_all [Memory.wfFrom]
    | some l' =>
      obtain ⟨l, rfl, hle⟩ := hl l' rfl
      simp only [Memory.wfFrom, Bool.and_eq_true, decide_eq_true_eq] at h ⊢
      exact ⟨⟨by omega, h.1.2⟩, h.2⟩

theorem Memory.wfFrom_tset (m : Memory) (lo : Option Nat) (a : Nat) (v : Byte) (hv : v ≠ 0)
    (hl : ∀ l, lo = some l → l < a) (h : Memory.wfFrom lo m = true) : Memory.wfFrom lo (tset m a v) = true := by
  induction m generalizing lo with
  | nil => cases lo <;> simp_all [tset, Memory.wfFrom]
  | cons e r ih =>
    obtain ⟨k, w⟩ := e
    simp only [tset]
    by_cases h1 : a < k
    · cases lo <;> simp_all [Memory.wfFrom]
    · by_cases h2 : a = k
      · cases lo <;> simp_all [Memory.wfFrom]
      · simp only [h1, h2, if_false, Memory.wfFrom, Bool.and_eq_true] at h ⊢
        exact ⟨h.1, ih (some k) (by intro l hl'; cases hl'; omega) h.2⟩

theorem Memory.wfFrom_tdel (m : Memory) (lo : Option Nat) (a : Nat) (h : Memory.wfFrom lo m = true) :
    Memory.wfFrom lo (tdel m a) = true := by
  induction m generalizing lo with
  | nil => rfl
  | cons e r ih =>
    obtain ⟨k, w⟩ := e
    simp only [tdel]
    simp only [Memory.wfFrom, Bool.and_eq_true] at h
    by_cases h1 : k = a
    · simp only [h1, if_true]
      refine Memory.wfFrom_weaken h.2 ?_
      intro l hl
      subst hl
      refine ⟨k, rfl, ?_⟩
      have := h.1.1
      simp at this
      omega
    · simp only [h1, if_false, Memory.wfFrom, Bool.and_eq_true]
      exact ⟨h.1, ih _ h.2⟩

/-- A byte write keeps the canonical form. -/
theorem wrByte_wf {m : Memory} (h : m.wf = true) (a : Nat) (v : Byte) : (wrByte m a v).wf = true := by
  unfold wrByte Memory.wf
  split
  · exact Memory.wfFrom_tdel m none a h
  · exact Memory.wfFrom_tset m none a v ‹_› (by intro l hl; cases hl) h

theorem wrBytes_wf {m : Memory} (h : m.wf = true) (a : Nat) (l : List Byte) : (wrBytes m a l).wf = true := by
  induction l generalizing m a with
  | nil => exact h
  | cons v r ih => exact ih (wrByte_wf h a v) (a + 1)

theorem wrLE_wf {m : Memory} (h : m.wf = true) (a n v : Nat) : (wrLE m a n v).wf = true := by
  induction n generalizing m a v with
  | zero => exact h
  | succ n ih => exact ih (wrByte_wf h a _) (a + 1) (v / 256)

theorem tget_of_wfFrom {m : Memory} {l a : Nat} (h : Memory.wfFrom (some l) m = true) (ha : a ≤ l) :
    tget m a = none := by
  induction m generalizing l with
  | nil => rfl
  | cons e r ih =>
    obtain ⟨k, w⟩ := e
    simp only [Memory.wfFrom, Bool.and_eq_true, decide_eq_true_eq] at h
    simp only [tget, show k ≠ a by omega, if_false]
    exact ih h.2 (by omega)

theorem tget_tdel_wf {m : Memory} {lo : Option Nat} (h : Memory.wfFrom lo m = true) (a : Nat) :
    tget (tdel m a) a = none := by
  induction m generalizing lo with
  | nil => rfl
  | cons e r ih =>
    obtain ⟨k, w⟩ := e
    simp only [Memory.wfFrom, Bool.and_eq_true] at h
    by_cases h1 : k = a
    · subst h1; simp only [tdel, if_true]; exact tget_of_wfFrom h.2 (Nat.le_refl _)
    · simp only [tdel, h1, if_false, tget]; exact ih h.2

/-- Reading after a byte write (R3). -/
theorem rdByte_wrByte {m : Memory} (h : m.wf = true) (a k : Nat) (v : Byte) :
    rdByte (wrByte m a v) k = if a = k then v else rdByte m k := by
  unfold rdByte wrByte
  split
  · by_cases h1 : a = k
    · subst h1; simp [tget_tdel_wf h, *]
    · simp [tget_tdel_ne _ h1, h1]
  · simp only [tget_tset]; split <;> simp

theorem rdByte_wrBytes_outside (m : Memory) (a k : Nat) (l : List Byte) (h : k < a ∨ a + l.length ≤ k) :
    rdByte (wrBytes m a l) k = rdByte m k := by
  induction l generalizing m a with
  | nil => rfl
  | cons v r ih =>
    simp only [List.length_cons] at h
    rw [wrBytes, ih _ (a + 1) (by omega)]
    unfold rdByte wrByte
    split
    · rw [tget_tdel_ne _ (by omega)]
    · rw [tget_tset_ne _ _ (by omega)]

/-- Reading back the bytes that were written. -/
theorem rdBytes_wrBytes {m : Memory} (h : m.wf = true) (a : Nat) (l : List Byte) :
    rdBytes (wrBytes m a l) a l.length = l := by
  induction l generalizing m a with
  | nil => rfl
  | cons v r ih =>
    simp only [List.length_cons, rdBytes, wrBytes]
    rw [ih (wrByte_wf h a v) (a + 1), rdByte_wrBytes_outside _ _ _ _ (by omega), rdByte_wrByte h]
    simp

end Sys2Proof.Machine
end

