-- ==== Sys2Proof/Laws/State.lean ====
section
/-! SUPPORT. What each update of the state does to each of its fields. -/

namespace Sys2Proof.Machine

/-! modBlock -/

@[simp] theorem State.modBlock_cycle (s : State) (bid : Nat) (f : Block → Block) : (s.modBlock bid f).cycle = s.cycle := rfl
@[simp] theorem State.modBlock_cur (s : State) (bid : Nat) (f : Block → Block) : (s.modBlock bid f).cur = s.cur := rfl
@[simp] theorem State.modBlock_free (s : State) (bid : Nat) (f : Block → Block) : (s.modBlock bid f).free = s.free := rfl
@[simp] theorem State.modBlock_ids (s : State) (bid : Nat) (f : Block → Block) : (s.modBlock bid f).ids = s.ids := rfl
@[simp] theorem State.modBlock_events (s : State) (bid : Nat) (f : Block → Block) : (s.modBlock bid f).events = s.events := rfl
@[simp] theorem State.modBlock_due (s : State) (bid : Nat) (f : Block → Block) : (s.modBlock bid f).due = s.due := rfl
@[simp] theorem State.modBlock_mem (s : State) (bid : Nat) (f : Block → Block) : (s.modBlock bid f).mem = s.mem := rfl
@[simp] theorem State.modBlock_coh (s : State) (bid : Nat) (f : Block → Block) : (s.modBlock bid f).coh = s.coh := rfl
@[simp] theorem State.modBlock_blocks (s : State) (bid : Nat) (f : Block → Block) : (s.modBlock bid f).blocks = tmod s.blocks bid f := rfl
@[simp] theorem State.modBlock_queued (s : State) (bid : Nat) (f : Block → Block) : (s.modBlock bid f).queued = s.queued := rfl
@[simp] theorem State.modBlock_killed (s : State) (bid : Nat) (f : Block → Block) : (s.modBlock bid f).killed = s.killed := rfl
@[simp] theorem State.modBlock_sectors (s : State) (bid : Nat) (f : Block → Block) : (s.modBlock bid f).sectors = s.sectors := rfl
@[simp] theorem State.modBlock_engines (s : State) (bid : Nat) (f : Block → Block) : (s.modBlock bid f).engines = s.engines := rfl
@[simp] theorem State.modBlock_launchers (s : State) (bid : Nat) (f : Block → Block) : (s.modBlock bid f).launchers = s.launchers := rfl
@[simp] theorem State.modBlock_nodes (s : State) (bid : Nat) (f : Block → Block) : (s.modBlock bid f).nodes = s.nodes := rfl
@[simp] theorem State.modBlock_iters (s : State) (bid : Nat) (f : Block → Block) : (s.modBlock bid f).iters = s.iters := rfl
@[simp] theorem State.modBlock_saved (s : State) (bid : Nat) (f : Block → Block) : (s.modBlock bid f).saved = s.saved := rfl
@[simp] theorem State.modBlock_moves (s : State) (bid : Nat) (f : Block → Block) : (s.modBlock bid f).moves = s.moves := rfl
@[simp] theorem State.modBlock_vfs (s : State) (bid : Nat) (f : Block → Block) : (s.modBlock bid f).vfs = s.vfs := rfl
@[simp] theorem State.modBlock_parts (s : State) (bid : Nat) (f : Block → Block) : (s.modBlock bid f).parts = s.parts := rfl
@[simp] theorem State.modBlock_pkg (s : State) (bid : Nat) (f : Block → Block) : (s.modBlock bid f).pkg = s.pkg := rfl
@[simp] theorem State.modBlock_roots (s : State) (bid : Nat) (f : Block → Block) : (s.modBlock bid f).roots = s.roots := rfl
@[simp] theorem State.modBlock_out (s : State) (bid : Nat) (f : Block → Block) : (s.modBlock bid f).out = s.out := rfl
@[simp] theorem State.modBlock_hostRead (s : State) (bid : Nat) (f : Block → Block) : (s.modBlock bid f).hostRead = s.hostRead := rfl

/-! modThread -/

@[simp] theorem State.modThread_cycle (s : State) (bid k : Nat) (f : Thread → Thread) : (s.modThread bid k f).cycle = s.cycle := rfl
@[simp] theorem State.modThread_cur (s : State) (bid k : Nat) (f : Thread → Thread) : (s.modThread bid k f).cur = s.cur := rfl
@[simp] theorem State.modThread_free (s : State) (bid k : Nat) (f : Thread → Thread) : (s.modThread bid k f).free = s.free := rfl
@[simp] theorem State.modThread_ids (s : State) (bid k : Nat) (f : Thread → Thread) : (s.modThread bid k f).ids = s.ids := rfl
@[simp] theorem State.modThread_events (s : State) (bid k : Nat) (f : Thread → Thread) : (s.modThread bid k f).events = s.events := rfl
@[simp] theorem State.modThread_due (s : State) (bid k : Nat) (f : Thread → Thread) : (s.modThread bid k f).due = s.due := rfl
@[simp] theorem State.modThread_mem (s : State) (bid k : Nat) (f : Thread → Thread) : (s.modThread bid k f).mem = s.mem := rfl
@[simp] theorem State.modThread_coh (s : State) (bid k : Nat) (f : Thread → Thread) : (s.modThread bid k f).coh = s.coh := rfl
@[simp] theorem State.modThread_blocks (s : State) (bid k : Nat) (f : Thread → Thread) : (s.modThread bid k f).blocks = tmod s.blocks bid (·.modThread k f) := rfl
@[simp] theorem State.modThread_queued (s : State) (bid k : Nat) (f : Thread → Thread) : (s.modThread bid k f).queued = s.queued := rfl
@[simp] theorem State.modThread_killed (s : State) (bid k : Nat) (f : Thread → Thread) : (s.modThread bid k f).killed = s.killed := rfl
@[simp] theorem State.modThread_sectors (s : State) (bid k : Nat) (f : Thread → Thread) : (s.modThread bid k f).sectors = s.sectors := rfl
@[simp] theorem State.modThread_engines (s : State) (bid k : Nat) (f : Thread → Thread) : (s.modThread bid k f).engines = s.engines := rfl
@[simp] theorem State.modThread_launchers (s : State) (bid k : Nat) (f : Thread → Thread) : (s.modThread bid k f).launchers = s.launchers := rfl
@[simp] theorem State.modThread_nodes (s : State) (bid k : Nat) (f : Thread → Thread) : (s.modThread bid k f).nodes = s.nodes := rfl
@[simp] theorem State.modThread_iters (s : State) (bid k : Nat) (f : Thread → Thread) : (s.modThread bid k f).iters = s.iters := rfl
@[simp] theorem State.modThread_saved (s : State) (bid k : Nat) (f : Thread → Thread) : (s.modThread bid k f).saved = s.saved := rfl
@[simp] theorem State.modThread_moves (s : State) (bid k : Nat) (f : Thread → Thread) : (s.modThread bid k f).moves = s.moves := rfl
@[simp] theorem State.modThread_vfs (s : State) (bid k : Nat) (f : Thread → Thread) : (s.modThread bid k f).vfs = s.vfs := rfl
@[simp] theorem State.modThread_parts (s : State) (bid k : Nat) (f : Thread → Thread) : (s.modThread bid k f).parts = s.parts := rfl
@[simp] theorem State.modThread_pkg (s : State) (bid k : Nat) (f : Thread → Thread) : (s.modThread bid k f).pkg = s.pkg := rfl
@[simp] theorem State.modThread_roots (s : State) (bid k : Nat) (f : Thread → Thread) : (s.modThread bid k f).roots = s.roots := rfl
@[simp] theorem State.modThread_out (s : State) (bid k : Nat) (f : Thread → Thread) : (s.modThread bid k f).out = s.out := rfl
@[simp] theorem State.modThread_hostRead (s : State) (bid k : Nat) (f : Thread → Thread) : (s.modThread bid k f).hostRead = s.hostRead := rfl

/-! modPath -/

@[simp] theorem State.modPath_cycle (s : State) (bid k : Nat) (f : Path → Path) : (s.modPath bid k f).cycle = s.cycle := rfl
@[simp] theorem State.modPath_cur (s : State) (bid k : Nat) (f : Path → Path) : (s.modPath bid k f).cur = s.cur := rfl
@[simp] theorem State.modPath_free (s : State) (bid k : Nat) (f : Path → Path) : (s.modPath bid k f).free = s.free := rfl
@[simp] theorem State.modPath_ids (s : State) (bid k : Nat) (f : Path → Path) : (s.modPath bid k f).ids = s.ids := rfl
@[simp] theorem State.modPath_events (s : State) (bid k : Nat) (f : Path → Path) : (s.modPath bid k f).events = s.events := rfl
@[simp] theorem State.modPath_due (s : State) (bid k : Nat) (f : Path → Path) : (s.modPath bid k f).due = s.due := rfl
@[simp] theorem State.modPath_mem (s : State) (bid k : Nat) (f : Path → Path) : (s.modPath bid k f).mem = s.mem := rfl
@[simp] theorem State.modPath_coh (s : State) (bid k : Nat) (f : Path → Path) : (s.modPath bid k f).coh = s.coh := rfl
@[simp] theorem State.modPath_blocks (s : State) (bid k : Nat) (f : Path → Path) : (s.modPath bid k f).blocks = tmod s.blocks bid (·.modPath k f) := rfl
@[simp] theorem State.modPath_queued (s : State) (bid k : Nat) (f : Path → Path) : (s.modPath bid k f).queued = s.queued := rfl
@[simp] theorem State.modPath_killed (s : State) (bid k : Nat) (f : Path → Path) : (s.modPath bid k f).killed = s.killed := rfl
@[simp] theorem State.modPath_sectors (s : State) (bid k : Nat) (f : Path → Path) : (s.modPath bid k f).sectors = s.sectors := rfl
@[simp] theorem State.modPath_engines (s : State) (bid k : Nat) (f : Path → Path) : (s.modPath bid k f).engines = s.engines := rfl
@[simp] theorem State.modPath_launchers (s : State) (bid k : Nat) (f : Path → Path) : (s.modPath bid k f).launchers = s.launchers := rfl
@[simp] theorem State.modPath_nodes (s : State) (bid k : Nat) (f : Path → Path) : (s.modPath bid k f).nodes = s.nodes := rfl
@[simp] theorem State.modPath_iters (s : State) (bid k : Nat) (f : Path → Path) : (s.modPath bid k f).iters = s.iters := rfl
@[simp] theorem State.modPath_saved (s : State) (bid k : Nat) (f : Path → Path) : (s.modPath bid k f).saved = s.saved := rfl
@[simp] theorem State.modPath_moves (s : State) (bid k : Nat) (f : Path → Path) : (s.modPath bid k f).moves = s.moves := rfl
@[simp] theorem State.modPath_vfs (s : State) (bid k : Nat) (f : Path → Path) : (s.modPath bid k f).vfs = s.vfs := rfl
@[simp] theorem State.modPath_parts (s : State) (bid k : Nat) (f : Path → Path) : (s.modPath bid k f).parts = s.parts := rfl
@[simp] theorem State.modPath_pkg (s : State) (bid k : Nat) (f : Path → Path) : (s.modPath bid k f).pkg = s.pkg := rfl
@[simp] theorem State.modPath_roots (s : State) (bid k : Nat) (f : Path → Path) : (s.modPath bid k f).roots = s.roots := rfl
@[simp] theorem State.modPath_out (s : State) (bid k : Nat) (f : Path → Path) : (s.modPath bid k f).out = s.out := rfl
@[simp] theorem State.modPath_hostRead (s : State) (bid k : Nat) (f : Path → Path) : (s.modPath bid k f).hostRead = s.hostRead := rfl

/-! post -/

@[simp] theorem State.post_cycle (s : State) (t : Nat) (e : Event) : (s.post t e).cycle = s.cycle := rfl
@[simp] theorem State.post_cur (s : State) (t : Nat) (e : Event) : (s.post t e).cur = s.cur := rfl
@[simp] theorem State.post_free (s : State) (t : Nat) (e : Event) : (s.post t e).free = s.free := rfl
@[simp] theorem State.post_ids (s : State) (t : Nat) (e : Event) : (s.post t e).ids = s.ids := rfl
@[simp] theorem State.post_events (s : State) (t : Nat) (e : Event) : (s.post t e).events = insEvent t e s.events := rfl
@[simp] theorem State.post_due (s : State) (t : Nat) (e : Event) : (s.post t e).due = s.due := rfl
@[simp] theorem State.post_mem (s : State) (t : Nat) (e : Event) : (s.post t e).mem = s.mem := rfl
@[simp] theorem State.post_coh (s : State) (t : Nat) (e : Event) : (s.post t e).coh = s.coh := rfl
@[simp] theorem State.post_blocks (s : State) (t : Nat) (e : Event) : (s.post t e).blocks = s.blocks := rfl
@[simp] theorem State.post_queued (s : State) (t : Nat) (e : Event) : (s.post t e).queued = s.queued := rfl
@[simp] theorem State.post_killed (s : State) (t : Nat) (e : Event) : (s.post t e).killed = s.killed := rfl
@[simp] theorem State.post_sectors (s : State) (t : Nat) (e : Event) : (s.post t e).sectors = s.sectors := rfl
@[simp] theorem State.post_engines (s : State) (t : Nat) (e : Event) : (s.post t e).engines = s.engines := rfl
@[simp] theorem State.post_launchers (s : State) (t : Nat) (e : Event) : (s.post t e).launchers = s.launchers := rfl
@[simp] theorem State.post_nodes (s : State) (t : Nat) (e : Event) : (s.post t e).nodes = s.nodes := rfl
@[simp] theorem State.post_iters (s : State) (t : Nat) (e : Event) : (s.post t e).iters = s.iters := rfl
@[simp] theorem State.post_saved (s : State) (t : Nat) (e : Event) : (s.post t e).saved = s.saved := rfl
@[simp] theorem State.post_moves (s : State) (t : Nat) (e : Event) : (s.post t e).moves = s.moves := rfl
@[simp] theorem State.post_vfs (s : State) (t : Nat) (e : Event) : (s.post t e).vfs = s.vfs := rfl
@[simp] theorem State.post_parts (s : State) (t : Nat) (e : Event) : (s.post t e).parts = s.parts := rfl
@[simp] theorem State.post_pkg (s : State) (t : Nat) (e : Event) : (s.post t e).pkg = s.pkg := rfl
@[simp] theorem State.post_roots (s : State) (t : Nat) (e : Event) : (s.post t e).roots = s.roots := rfl
@[simp] theorem State.post_out (s : State) (t : Nat) (e : Event) : (s.post t e).out = s.out := rfl
@[simp] theorem State.post_hostRead (s : State) (t : Nat) (e : Event) : (s.post t e).hostRead = s.hostRead := rfl

/-! modSector -/

@[simp] theorem State.modSector_cycle (s : State) (k : Nat) (f : Sector → Sector) : (s.modSector k f).cycle = s.cycle := rfl
@[simp] theorem State.modSector_cur (s : State) (k : Nat) (f : Sector → Sector) : (s.modSector k f).cur = s.cur := rfl
@[simp] theorem State.modSector_free (s : State) (k : Nat) (f : Sector → Sector) : (s.modSector k f).free = s.free := rfl
@[simp] theorem State.modSector_ids (s : State) (k : Nat) (f : Sector → Sector) : (s.modSector k f).ids = s.ids := rfl
@[simp] theorem State.modSector_events (s : State) (k : Nat) (f : Sector → Sector) : (s.modSector k f).events = s.events := rfl
@[simp] theorem State.modSector_due (s : State) (k : Nat) (f : Sector → Sector) : (s.modSector k f).due = s.due := rfl
@[simp] theorem State.modSector_mem (s : State) (k : Nat) (f : Sector → Sector) : (s.modSector k f).mem = s.mem := rfl
@[simp] theorem State.modSector_coh (s : State) (k : Nat) (f : Sector → Sector) : (s.modSector k f).coh = s.coh := rfl
@[simp] theorem State.modSector_blocks (s : State) (k : Nat) (f : Sector → Sector) : (s.modSector k f).blocks = s.blocks := rfl
@[simp] theorem State.modSector_queued (s : State) (k : Nat) (f : Sector → Sector) : (s.modSector k f).queued = s.queued := rfl
@[simp] theorem State.modSector_killed (s : State) (k : Nat) (f : Sector → Sector) : (s.modSector k f).killed = s.killed := rfl
@[simp] theorem State.modSector_sectors (s : State) (k : Nat) (f : Sector → Sector) : (s.modSector k f).sectors = tset s.sectors k (f (s.sector k)) := rfl
@[simp] theorem State.modSector_engines (s : State) (k : Nat) (f : Sector → Sector) : (s.modSector k f).engines = s.engines := rfl
@[simp] theorem State.modSector_launchers (s : State) (k : Nat) (f : Sector → Sector) : (s.modSector k f).launchers = s.launchers := rfl
@[simp] theorem State.modSector_nodes (s : State) (k : Nat) (f : Sector → Sector) : (s.modSector k f).nodes = s.nodes := rfl
@[simp] theorem State.modSector_iters (s : State) (k : Nat) (f : Sector → Sector) : (s.modSector k f).iters = s.iters := rfl
@[simp] theorem State.modSector_saved (s : State) (k : Nat) (f : Sector → Sector) : (s.modSector k f).saved = s.saved := rfl
@[simp] theorem State.modSector_moves (s : State) (k : Nat) (f : Sector → Sector) : (s.modSector k f).moves = s.moves := rfl
@[simp] theorem State.modSector_vfs (s : State) (k : Nat) (f : Sector → Sector) : (s.modSector k f).vfs = s.vfs := rfl
@[simp] theorem State.modSector_parts (s : State) (k : Nat) (f : Sector → Sector) : (s.modSector k f).parts = s.parts := rfl
@[simp] theorem State.modSector_pkg (s : State) (k : Nat) (f : Sector → Sector) : (s.modSector k f).pkg = s.pkg := rfl
@[simp] theorem State.modSector_roots (s : State) (k : Nat) (f : Sector → Sector) : (s.modSector k f).roots = s.roots := rfl
@[simp] theorem State.modSector_out (s : State) (k : Nat) (f : Sector → Sector) : (s.modSector k f).out = s.out := rfl
@[simp] theorem State.modSector_hostRead (s : State) (k : Nat) (f : Sector → Sector) : (s.modSector k f).hostRead = s.hostRead := rfl

/-! modPart -/

@[simp] theorem State.modPart_cycle (s : State) (k : Nat) (f : Partition → Partition) : (s.modPart k f).cycle = s.cycle := rfl
@[simp] theorem State.modPart_cur (s : State) (k : Nat) (f : Partition → Partition) : (s.modPart k f).cur = s.cur := rfl
@[simp] theorem State.modPart_free (s : State) (k : Nat) (f : Partition → Partition) : (s.modPart k f).free = s.free := rfl
@[simp] theorem State.modPart_ids (s : State) (k : Nat) (f : Partition → Partition) : (s.modPart k f).ids = s.ids := rfl
@[simp] theorem State.modPart_events (s : State) (k : Nat) (f : Partition → Partition) : (s.modPart k f).events = s.events := rfl
@[simp] theorem State.modPart_due (s : State) (k : Nat) (f : Partition → Partition) : (s.modPart k f).due = s.due := rfl
@[simp] theorem State.modPart_mem (s : State) (k : Nat) (f : Partition → Partition) : (s.modPart k f).mem = s.mem := rfl
@[simp] theorem State.modPart_coh (s : State) (k : Nat) (f : Partition → Partition) : (s.modPart k f).coh = s.coh := rfl
@[simp] theorem State.modPart_blocks (s : State) (k : Nat) (f : Partition → Partition) : (s.modPart k f).blocks = s.blocks := rfl
@[simp] theorem State.modPart_queued (s : State) (k : Nat) (f : Partition → Partition) : (s.modPart k f).queued = s.queued := rfl
@[simp] theorem State.modPart_killed (s : State) (k : Nat) (f : Partition → Partition) : (s.modPart k f).killed = s.killed := rfl
@[simp] theorem State.modPart_sectors (s : State) (k : Nat) (f : Partition → Partition) : (s.modPart k f).sectors = s.sectors := rfl
@[simp] theorem State.modPart_engines (s : State) (k : Nat) (f : Partition → Partition) : (s.modPart k f).engines = s.engines := rfl
@[simp] theorem State.modPart_launchers (s : State) (k : Nat) (f : Partition → Partition) : (s.modPart k f).launchers = s.launchers := rfl
@[simp] theorem State.modPart_nodes (s : State) (k : Nat) (f : Partition → Partition) : (s.modPart k f).nodes = s.nodes := rfl
@[simp] theorem State.modPart_iters (s : State) (k : Nat) (f : Partition → Partition) : (s.modPart k f).iters = s.iters := rfl
@[simp] theorem State.modPart_saved (s : State) (k : Nat) (f : Partition → Partition) : (s.modPart k f).saved = s.saved := rfl
@[simp] theorem State.modPart_moves (s : State) (k : Nat) (f : Partition → Partition) : (s.modPart k f).moves = s.moves := rfl
@[simp] theorem State.modPart_vfs (s : State) (k : Nat) (f : Partition → Partition) : (s.modPart k f).vfs = s.vfs := rfl
@[simp] theorem State.modPart_parts (s : State) (k : Nat) (f : Partition → Partition) : (s.modPart k f).parts = lmod s.parts k f := rfl
@[simp] theorem State.modPart_pkg (s : State) (k : Nat) (f : Partition → Partition) : (s.modPart k f).pkg = s.pkg := rfl
@[simp] theorem State.modPart_roots (s : State) (k : Nat) (f : Partition → Partition) : (s.modPart k f).roots = s.roots := rfl
@[simp] theorem State.modPart_out (s : State) (k : Nat) (f : Partition → Partition) : (s.modPart k f).out = s.out := rfl
@[simp] theorem State.modPart_hostRead (s : State) (k : Nat) (f : Partition → Partition) : (s.modPart k f).hostRead = s.hostRead := rfl

/-! modPkg -/

@[simp] theorem State.modPkg_cycle (s : State) (f : Package → Package) : (s.modPkg f).cycle = s.cycle := rfl
@[simp] theorem State.modPkg_cur (s : State) (f : Package → Package) : (s.modPkg f).cur = s.cur := rfl
@[simp] theorem State.modPkg_free (s : State) (f : Package → Package) : (s.modPkg f).free = s.free := rfl
@[simp] theorem State.modPkg_ids (s : State) (f : Package → Package) : (s.modPkg f).ids = s.ids := rfl
@[simp] theorem State.modPkg_events (s : State) (f : Package → Package) : (s.modPkg f).events = s.events := rfl
@[simp] theorem State.modPkg_due (s : State) (f : Package → Package) : (s.modPkg f).due = s.due := rfl
@[simp] theorem State.modPkg_mem (s : State) (f : Package → Package) : (s.modPkg f).mem = s.mem := rfl
@[simp] theorem State.modPkg_coh (s : State) (f : Package → Package) : (s.modPkg f).coh = s.coh := rfl
@[simp] theorem State.modPkg_blocks (s : State) (f : Package → Package) : (s.modPkg f).blocks = s.blocks := rfl
@[simp] theorem State.modPkg_queued (s : State) (f : Package → Package) : (s.modPkg f).queued = s.queued := rfl
@[simp] theorem State.modPkg_killed (s : State) (f : Package → Package) : (s.modPkg f).killed = s.killed := rfl
@[simp] theorem State.modPkg_sectors (s : State) (f : Package → Package) : (s.modPkg f).sectors = s.sectors := rfl
@[simp] theorem State.modPkg_engines (s : State) (f : Package → Package) : (s.modPkg f).engines = s.engines := rfl
@[simp] theorem State.modPkg_launchers (s : State) (f : Package → Package) : (s.modPkg f).launchers = s.launchers := rfl
@[simp] theorem State.modPkg_nodes (s : State) (f : Package → Package) : (s.modPkg f).nodes = s.nodes := rfl
@[simp] theorem State.modPkg_iters (s : State) (f : Package → Package) : (s.modPkg f).iters = s.iters := rfl
@[simp] theorem State.modPkg_saved (s : State) (f : Package → Package) : (s.modPkg f).saved = s.saved := rfl
@[simp] theorem State.modPkg_moves (s : State) (f : Package → Package) : (s.modPkg f).moves = s.moves := rfl
@[simp] theorem State.modPkg_vfs (s : State) (f : Package → Package) : (s.modPkg f).vfs = s.vfs := rfl
@[simp] theorem State.modPkg_parts (s : State) (f : Package → Package) : (s.modPkg f).parts = s.parts := rfl
@[simp] theorem State.modPkg_pkg (s : State) (f : Package → Package) : (s.modPkg f).pkg = f s.pkg := rfl
@[simp] theorem State.modPkg_roots (s : State) (f : Package → Package) : (s.modPkg f).roots = s.roots := rfl
@[simp] theorem State.modPkg_out (s : State) (f : Package → Package) : (s.modPkg f).out = s.out := rfl
@[simp] theorem State.modPkg_hostRead (s : State) (f : Package → Package) : (s.modPkg f).hostRead = s.hostRead := rfl

/-! postOnce: the event list alone may change -/

@[simp] theorem State.postOnce_cycle (s : State) (t : Nat) (e : Event) : (s.postOnce t e).cycle = s.cycle := by
  unfold State.postOnce; split <;> rfl
@[simp] theorem State.postOnce_cur (s : State) (t : Nat) (e : Event) : (s.postOnce t e).cur = s.cur := by
  unfold State.postOnce; split <;> rfl
@[simp] theorem State.postOnce_free (s : State) (t : Nat) (e : Event) : (s.postOnce t e).free = s.free := by
  unfold State.postOnce; split <;> rfl
@[simp] theorem State.postOnce_ids (s : State) (t : Nat) (e : Event) : (s.postOnce t e).ids = s.ids := by
  unfold State.postOnce; split <;> rfl
@[simp] theorem State.postOnce_due (s : State) (t : Nat) (e : Event) : (s.postOnce t e).due = s.due := by
  unfold State.postOnce; split <;> rfl
@[simp] theorem State.postOnce_mem (s : State) (t : Nat) (e : Event) : (s.postOnce t e).mem = s.mem := by
  unfold State.postOnce; split <;> rfl
@[simp] theorem State.postOnce_coh (s : State) (t : Nat) (e : Event) : (s.postOnce t e).coh = s.coh := by
  unfold State.postOnce; split <;> rfl
@[simp] theorem State.postOnce_blocks (s : State) (t : Nat) (e : Event) : (s.postOnce t e).blocks = s.blocks := by
  unfold State.postOnce; split <;> rfl
@[simp] theorem State.postOnce_queued (s : State) (t : Nat) (e : Event) : (s.postOnce t e).queued = s.queued := by
  unfold State.postOnce; split <;> rfl
@[simp] theorem State.postOnce_killed (s : State) (t : Nat) (e : Event) : (s.postOnce t e).killed = s.killed := by
  unfold State.postOnce; split <;> rfl
@[simp] theorem State.postOnce_sectors (s : State) (t : Nat) (e : Event) : (s.postOnce t e).sectors = s.sectors := by
  unfold State.postOnce; split <;> rfl
@[simp] theorem State.postOnce_engines (s : State) (t : Nat) (e : Event) : (s.postOnce t e).engines = s.engines := by
  unfold State.postOnce; split <;> rfl
@[simp] theorem State.postOnce_launchers (s : State) (t : Nat) (e : Event) : (s.postOnce t e).launchers = s.launchers := by
  unfold State.postOnce; split <;> rfl
@[simp] theorem State.postOnce_nodes (s : State) (t : Nat) (e : Event) : (s.postOnce t e).nodes = s.nodes := by
  unfold State.postOnce; split <;> rfl
@[simp] theorem State.postOnce_iters (s : State) (t : Nat) (e : Event) : (s.postOnce t e).iters = s.iters := by
  unfold State.postOnce; split <;> rfl
@[simp] theorem State.postOnce_saved (s : State) (t : Nat) (e : Event) : (s.postOnce t e).saved = s.saved := by
  unfold State.postOnce; split <;> rfl
@[simp] theorem State.postOnce_moves (s : State) (t : Nat) (e : Event) : (s.postOnce t e).moves = s.moves := by
  unfold State.postOnce; split <;> rfl
@[simp] theorem State.postOnce_vfs (s : State) (t : Nat) (e : Event) : (s.postOnce t e).vfs = s.vfs := by
  unfold State.postOnce; split <;> rfl
@[simp] theorem State.postOnce_parts (s : State) (t : Nat) (e : Event) : (s.postOnce t e).parts = s.parts := by
  unfold State.postOnce; split <;> rfl
@[simp] theorem State.postOnce_pkg (s : State) (t : Nat) (e : Event) : (s.postOnce t e).pkg = s.pkg := by
  unfold State.postOnce; split <;> rfl
@[simp] theorem State.postOnce_roots (s : State) (t : Nat) (e : Event) : (s.postOnce t e).roots = s.roots := by
  unfold State.postOnce; split <;> rfl
@[simp] theorem State.postOnce_out (s : State) (t : Nat) (e : Event) : (s.postOnce t e).out = s.out := by
  unfold State.postOnce; split <;> rfl
@[simp] theorem State.postOnce_hostRead (s : State) (t : Nat) (e : Event) : (s.postOnce t e).hostRead = s.hostRead := by
  unfold State.postOnce; split <;> rfl

/-! Blocks: what each update does to each field -/

@[simp] theorem Block.modThread_graph (b : Block) (k : Nat) (f : Thread → Thread) : (b.modThread k f).graph = b.graph := rfl
@[simp] theorem Block.modThread_launch (b : Block) (k : Nat) (f : Thread → Thread) : (b.modThread k f).launch = b.launch := rfl
@[simp] theorem Block.modThread_place (b : Block) (k : Nat) (f : Thread → Thread) : (b.modThread k f).place = b.place := rfl
@[simp] theorem Block.modThread_homeSlice (b : Block) (k : Nat) (f : Thread → Thread) : (b.modThread k f).homeSlice = b.homeSlice := rfl
@[simp] theorem Block.modThread_asid (b : Block) (k : Nat) (f : Thread → Thread) : (b.modThread k f).asid = b.asid := rfl
@[simp] theorem Block.modThread_warps (b : Block) (k : Nat) (f : Thread → Thread) : (b.modThread k f).warps = b.warps := rfl
@[simp] theorem Block.modThread_depths (b : Block) (k : Nat) (f : Thread → Thread) : (b.modThread k f).depths = b.depths := rfl
@[simp] theorem Block.modThread_gang (b : Block) (k : Nat) (f : Thread → Thread) : (b.modThread k f).gang = b.gang := rfl
@[simp] theorem Block.modThread_iters (b : Block) (k : Nat) (f : Thread → Thread) : (b.modThread k f).iters = b.iters := rfl
@[simp] theorem Block.modThread_records (b : Block) (k : Nat) (f : Thread → Thread) : (b.modThread k f).records = b.records := rfl
@[simp] theorem Block.modThread_threads (b : Block) (k : Nat) (f : Thread → Thread) : (b.modThread k f).threads = tmod b.threads k f := rfl
@[simp] theorem Block.modThread_paths (b : Block) (k : Nat) (f : Thread → Thread) : (b.modThread k f).paths = b.paths := rfl
@[simp] theorem Block.modThread_forks (b : Block) (k : Nat) (f : Thread → Thread) : (b.modThread k f).forks = b.forks := rfl
@[simp] theorem Block.modThread_rdvs (b : Block) (k : Nat) (f : Thread → Thread) : (b.modThread k f).rdvs = b.rdvs := rfl
@[simp] theorem Block.modThread_stall (b : Block) (k : Nat) (f : Thread → Thread) : (b.modThread k f).stall = b.stall := rfl
@[simp] theorem Block.modThread_spad (b : Block) (k : Nat) (f : Thread → Thread) : (b.modThread k f).spad = b.spad := rfl
@[simp] theorem Block.modThread_badWords (b : Block) (k : Nat) (f : Thread → Thread) : (b.modThread k f).badWords = b.badWords := rfl
@[simp] theorem Block.modThread_chans (b : Block) (k : Nat) (f : Thread → Thread) : (b.modThread k f).chans = b.chans := rfl
@[simp] theorem Block.modThread_gatherHalt (b : Block) (k : Nat) (f : Thread → Thread) : (b.modThread k f).gatherHalt = b.gatherHalt := rfl
@[simp] theorem Block.modThread_collHalt (b : Block) (k : Nat) (f : Thread → Thread) : (b.modThread k f).collHalt = b.collHalt := rfl
@[simp] theorem Block.modThread_collSent (b : Block) (k : Nat) (f : Thread → Thread) : (b.modThread k f).collSent = b.collSent := rfl
@[simp] theorem Block.modThread_smpHalt (b : Block) (k : Nat) (f : Thread → Thread) : (b.modThread k f).smpHalt = b.smpHalt := rfl
@[simp] theorem Block.modThread_queues (b : Block) (k : Nat) (f : Thread → Thread) : (b.modThread k f).queues = b.queues := rfl
@[simp] theorem Block.modThread_matrix (b : Block) (k : Nat) (f : Thread → Thread) : (b.modThread k f).matrix = b.matrix := rfl
@[simp] theorem Block.modThread_mops (b : Block) (k : Nat) (f : Thread → Thread) : (b.modThread k f).mops = b.mops := rfl
@[simp] theorem Block.modThread_saves (b : Block) (k : Nat) (f : Thread → Thread) : (b.modThread k f).saves = b.saves := rfl
@[simp] theorem Block.modThread_homing (b : Block) (k : Nat) (f : Thread → Thread) : (b.modThread k f).homing = b.homing := rfl
@[simp] theorem Block.modThread_filed (b : Block) (k : Nat) (f : Thread → Thread) : (b.modThread k f).filed = b.filed := rfl
@[simp] theorem Block.modThread_slots (b : Block) (k : Nat) (f : Thread → Thread) : (b.modThread k f).slots = b.slots := rfl
@[simp] theorem Block.modThread_vacate (b : Block) (k : Nat) (f : Thread → Thread) : (b.modThread k f).vacate = b.vacate := rfl
@[simp] theorem Block.modThread_stepList (b : Block) (k : Nat) (f : Thread → Thread) : (b.modThread k f).stepList = b.stepList := rfl
@[simp] theorem Block.modThread_stepped (b : Block) (k : Nat) (f : Thread → Thread) : (b.modThread k f).stepped = b.stepped := rfl
@[simp] theorem Block.modThread_errAt (b : Block) (k : Nat) (f : Thread → Thread) : (b.modThread k f).errAt = b.errAt := rfl
@[simp] theorem Block.modThread_killed (b : Block) (k : Nat) (f : Thread → Thread) : (b.modThread k f).killed = b.killed := rfl
@[simp] theorem Block.modThread_resumed (b : Block) (k : Nat) (f : Thread → Thread) : (b.modThread k f).resumed = b.resumed := rfl

@[simp] theorem Block.modPath_graph (b : Block) (k : Nat) (f : Path → Path) : (b.modPath k f).graph = b.graph := rfl
@[simp] theorem Block.modPath_launch (b : Block) (k : Nat) (f : Path → Path) : (b.modPath k f).launch = b.launch := rfl
@[simp] theorem Block.modPath_place (b : Block) (k : Nat) (f : Path → Path) : (b.modPath k f).place = b.place := rfl
@[simp] theorem Block.modPath_homeSlice (b : Block) (k : Nat) (f : Path → Path) : (b.modPath k f).homeSlice = b.homeSlice := rfl
@[simp] theorem Block.modPath_asid (b : Block) (k : Nat) (f : Path → Path) : (b.modPath k f).asid = b.asid := rfl
@[simp] theorem Block.modPath_warps (b : Block) (k : Nat) (f : Path → Path) : (b.modPath k f).warps = b.warps := rfl
@[simp] theorem Block.modPath_depths (b : Block) (k : Nat) (f : Path → Path) : (b.modPath k f).depths = b.depths := rfl
@[simp] theorem Block.modPath_gang (b : Block) (k : Nat) (f : Path → Path) : (b.modPath k f).gang = b.gang := rfl
@[simp] theorem Block.modPath_iters (b : Block) (k : Nat) (f : Path → Path) : (b.modPath k f).iters = b.iters := rfl
@[simp] theorem Block.modPath_records (b : Block) (k : Nat) (f : Path → Path) : (b.modPath k f).records = b.records := rfl
@[simp] theorem Block.modPath_threads (b : Block) (k : Nat) (f : Path → Path) : (b.modPath k f).threads = b.threads := rfl
@[simp] theorem Block.modPath_paths (b : Block) (k : Nat) (f : Path → Path) : (b.modPath k f).paths = tmod b.paths k f := rfl
@[simp] theorem Block.modPath_forks (b : Block) (k : Nat) (f : Path → Path) : (b.modPath k f).forks = b.forks := rfl
@[simp] theorem Block.modPath_rdvs (b : Block) (k : Nat) (f : Path → Path) : (b.modPath k f).rdvs = b.rdvs := rfl
@[simp] theorem Block.modPath_stall (b : Block) (k : Nat) (f : Path → Path) : (b.modPath k f).stall = b.stall := rfl
@[simp] theorem Block.modPath_spad (b : Block) (k : Nat) (f : Path → Path) : (b.modPath k f).spad = b.spad := rfl
@[simp] theorem Block.modPath_badWords (b : Block) (k : Nat) (f : Path → Path) : (b.modPath k f).badWords = b.badWords := rfl
@[simp] theorem Block.modPath_chans (b : Block) (k : Nat) (f : Path → Path) : (b.modPath k f).chans = b.chans := rfl
@[simp] theorem Block.modPath_gatherHalt (b : Block) (k : Nat) (f : Path → Path) : (b.modPath k f).gatherHalt = b.gatherHalt := rfl
@[simp] theorem Block.modPath_collHalt (b : Block) (k : Nat) (f : Path → Path) : (b.modPath k f).collHalt = b.collHalt := rfl
@[simp] theorem Block.modPath_collSent (b : Block) (k : Nat) (f : Path → Path) : (b.modPath k f).collSent = b.collSent := rfl
@[simp] theorem Block.modPath_smpHalt (b : Block) (k : Nat) (f : Path → Path) : (b.modPath k f).smpHalt = b.smpHalt := rfl
@[simp] theorem Block.modPath_queues (b : Block) (k : Nat) (f : Path → Path) : (b.modPath k f).queues = b.queues := rfl
@[simp] theorem Block.modPath_matrix (b : Block) (k : Nat) (f : Path → Path) : (b.modPath k f).matrix = b.matrix := rfl
@[simp] theorem Block.modPath_mops (b : Block) (k : Nat) (f : Path → Path) : (b.modPath k f).mops = b.mops := rfl
@[simp] theorem Block.modPath_saves (b : Block) (k : Nat) (f : Path → Path) : (b.modPath k f).saves = b.saves := rfl
@[simp] theorem Block.modPath_homing (b : Block) (k : Nat) (f : Path → Path) : (b.modPath k f).homing = b.homing := rfl
@[simp] theorem Block.modPath_filed (b : Block) (k : Nat) (f : Path → Path) : (b.modPath k f).filed = b.filed := rfl
@[simp] theorem Block.modPath_slots (b : Block) (k : Nat) (f : Path → Path) : (b.modPath k f).slots = b.slots := rfl
@[simp] theorem Block.modPath_vacate (b : Block) (k : Nat) (f : Path → Path) : (b.modPath k f).vacate = b.vacate := rfl
@[simp] theorem Block.modPath_stepList (b : Block) (k : Nat) (f : Path → Path) : (b.modPath k f).stepList = b.stepList := rfl
@[simp] theorem Block.modPath_stepped (b : Block) (k : Nat) (f : Path → Path) : (b.modPath k f).stepped = b.stepped := rfl
@[simp] theorem Block.modPath_errAt (b : Block) (k : Nat) (f : Path → Path) : (b.modPath k f).errAt = b.errAt := rfl
@[simp] theorem Block.modPath_killed (b : Block) (k : Nat) (f : Path → Path) : (b.modPath k f).killed = b.killed := rfl
@[simp] theorem Block.modPath_resumed (b : Block) (k : Nat) (f : Path → Path) : (b.modPath k f).resumed = b.resumed := rfl

end Sys2Proof.Machine
end

