-- ==== Sys2Proof/Laws/Ends.lean ====
section
/-! SUPPORT. The end of an instruction: what the shared operations `account`, `parkPath` and `retire` leave (R91, R93, R97). -/

namespace Sys2Proof.Machine

/-! The event list -/

theorem mem_insEvent (t : Nat) (i : Event) (l : List (Nat × Event)) (e : Nat × Event) :
    e ∈ insEvent t i l ↔ e = (t, i) ∨ e ∈ l := by
  induction l with
  | nil => simp [insEvent]
  | cons x r ih =>
    obtain ⟨u, j⟩ := x
    unfold insEvent
    split
    · simp only [List.mem_cons, ih]
      constructor
      · rintro (h | h | h) <;> simp [h]
      · rintro (h | h | h) <;> simp [h]
    · simp

/-- What only adds events and changes sectors at one key. -/
structure Quiet (s t : State) : Prop where
  rest : t = { s with sectors := t.sectors, events := t.events }
  events : ∀ e ∈ s.events, e ∈ t.events

theorem Quiet.refl (s : State) : Quiet s s := ⟨rfl, fun _ h => h⟩

theorem Quiet.trans {s t u : State} (h : Quiet s t) (k : Quiet t u) : Quiet s u :=
  ⟨by rw [k.rest, h.rest], fun e he => k.events e (h.events e he)⟩

theorem Quiet.blocks {s t : State} (h : Quiet s t) : t.blocks = s.blocks := by rw [h.rest]
theorem Quiet.cycle {s t : State} (h : Quiet s t) : t.cycle = s.cycle := by rw [h.rest]

theorem post_quiet (s : State) (t : Nat) (e : Event) : Quiet s (s.post t e) :=
  ⟨rfl, fun x hx => by simp [mem_insEvent, hx]⟩

theorem post_mem (s : State) (t : Nat) (e : Event) : (t, e) ∈ (s.post t e).events := by simp [mem_insEvent]

theorem postOnce_quiet (s : State) (t : Nat) (e : Event) : Quiet s (s.postOnce t e) := by
  unfold State.postOnce
  split
  · exact .refl s
  · exact post_quiet s t e

theorem postReturns_quiet (s : State) (bid pid n : Nat) : Quiet s (postReturns s bid pid n) := by
  induction n generalizing s with
  | zero => exact .refl s
  | succ n ih => exact (post_quiet s _ _).trans (ih _)

theorem postReturns_sectors (s : State) (bid pid n : Nat) : (postReturns s bid pid n).sectors = s.sectors := by
  induction n generalizing s with
  | zero => rfl
  | succ n ih => rw [postReturns, ih]; rfl

theorem postReturns_mem (s : State) (bid pid n : Nat) (h : 0 < n) :
    (s.cycle + 1, Event.resultReturn bid pid) ∈ (postReturns s bid pid n).events := by
  obtain ⟨m, rfl⟩ : ∃ m, n = m + 1 := ⟨n - 1, by omega⟩
  exact (postReturns_quiet _ bid pid m).events _ (post_mem _ _ _)

/-! Ports -/

theorem releasePort_quiet (s : State) (bid pid : Nat) : Quiet s (releasePort s bid pid) := by
  have wake : ∀ (k : Nat) (f : Sector → Sector) (fin : Bool), Quiet s (wakePort (s.modSector k f) k fin) := by
    intro k f fin
    have h1 : Quiet s (s.modSector k f) := ⟨rfl, fun _ h => h⟩
    exact h1.trans (postOnce_quiet (s.modSector k f) _ _)
  unfold releasePort
  split
  · dsimp only
    split
    · split
      · exact wake _ _ _
      · exact .refl s
    · split
      · split
        · exact wake _ _ _
        · exact (wake _ _ _).trans (postOnce_quiet _ _ _)
      · exact .refl s
  · exact .refl s

theorem releasePort_sectors (s : State) (bid pid : Nat) (b : Block) (p : Path) (k : Nat)
    (hb : tget s.blocks bid = some b) (hp : tget b.paths pid = some p) (hk : k ≠ b.sectorOf p.warp) :
    tget (releasePort s bid pid).sectors k = tget s.sectors k := by
  have wake : ∀ (f : Sector → Sector) (fin : Bool),
      tget (wakePort (s.modSector (b.sectorOf p.warp) f) (b.sectorOf p.warp) fin).sectors k = tget s.sectors k := by
    intro f fin
    simp [wakePort, tget_tset_ne _ _ (Ne.symm hk)]
  unfold releasePort State.path?
  simp only [hb, hp, Option.bind_some]
  have post : ∀ (t : State) (n : Nat) (e : Event), (t.postOnce n e).sectors = t.sectors := by
    intro t n e; unfold State.postOnce; split <;> rfl
  split
  · split
    · exact wake _ _
    · rfl
  · split
    · split
      · exact wake _ _
      · rw [post]; exact wake _ _
    · rfl

/-! Changing one path -/

theorem tget_modPath (s : State) (bid pid : Nat) (f : Path → Path) (b : Block) (hb : tget s.blocks bid = some b) :
    tget (s.modPath bid pid f).blocks bid = some (b.modPath pid f) := by
  simp [hb]

/-- What an instruction's end leaves of the block that issued it. -/
structure BlockEnds (s : State) (c : Ctx) (b : Block) (h : Hdr) (r : Retire) (q : Path) (b' : Block) : Prop where
  rest : b' = { b with paths := b'.paths, stall := b'.stall }
  paths : ∀ k, k ≠ c.pid → tget b'.paths k = tget b.paths k
  path : ∃ p, tget b'.paths c.pid = some p ∧ PathEnds s c h r q p

/-- `account` in a path that issues: its block, events and nothing else. -/
theorem account_ends (s : State) (c : Ctx) (b : Block) (q : Path) (r : Retire)
    (hb : tget s.blocks c.bid = some b) (hp : tget b.paths c.pid = some q) (hw : q.wait = .issuing) :
    Quiet { s with blocks := tmod s.blocks c.bid (·.modPath c.pid (·.advance c s.cycle r)) } (account s c r) ∧
      (account s c r).sectors = s.sectors ∧
      (0 < r.owed → (s.cycle + 1, Event.resultReturn c.bid c.pid) ∈ (account s c r).events) := by
  have hpath : s.path? c.bid c.pid = some q := by simp [State.path?, hb, hp]
  unfold account
  simp only [hpath, hw, if_true]
  split
  · refine ⟨postReturns_quiet _ _ _ _, ?_, fun h => postReturns_mem _ _ _ _ h⟩
    rw [postReturns_sectors]; rfl
  · refine ⟨(post_quiet _ _ _).trans (postReturns_quiet _ _ _ _), ?_, fun h => postReturns_mem _ _ _ _ h⟩
    rw [postReturns_sectors]; rfl

theorem tmod_tmod {α : Type} (t : Tab α) (a : Nat) (f g : α → α) : tmod (tmod t a f) a g = tmod t a (fun x => g (f x)) := by
  cases h : tget t a with
  | none => simp [tmod, h]
  | some v =>
    have : tmod t a f = tset t a (f v) := by simp [tmod, h]
    rw [this]
    simp [tmod, h, tset_tset]

/-- Parking a path (R97): the path, its port, the event list. -/
theorem parkPath_ends (s : State) (bid pid : Nat) (w : Wait) (b : Block) (q : Path)
    (hb : tget s.blocks bid = some b) (hp : tget b.paths pid = some q) :
    Quiet { s with blocks := tmod s.blocks bid (·.modPath pid (fun p => { p with
        wait := w, since := s.cycle, run := { p.run with base := q.run.readyAt s.cycle } })) } (parkPath s bid pid w) ∧
      (∀ k, k ≠ b.sectorOf q.warp → tget (parkPath s bid pid w).sectors k = tget s.sectors k) ∧
      (w = .parked → (q.run.readyAt s.cycle, Event.pathReady bid pid) ∈ (parkPath s bid pid w).events) := by
  have hpath : s.path? bid pid = some q := by simp [State.path?, hb, hp]
  have hq := releasePort_quiet s bid pid
  unfold parkPath
  simp only [hpath]
  have hc : (releasePort s bid pid).cycle = s.cycle := hq.cycle
  have base : Quiet { s with blocks := tmod s.blocks bid (·.modPath pid (fun p => { p with
        wait := w, since := s.cycle, run := { p.run with base := q.run.readyAt s.cycle } })) }
      ((releasePort s bid pid).modPath bid pid (fun p => { p with
        wait := w, since := (releasePort s bid pid).cycle, run := { p.run with base := q.run.readyAt (releasePort s bid pid).cycle } })) := by
    refine ⟨?_, hq.events⟩
    rw [hc]
    have h1 := hq.rest
    generalize releasePort s bid pid = u at h1 ⊢
    rw [h1]; rfl
  generalize hu : (releasePort s bid pid).modPath bid pid (fun p => { p with
        wait := w, since := (releasePort s bid pid).cycle, run := { p.run with base := q.run.readyAt (releasePort s bid pid).cycle } }) = u at base
  have hsec : ∀ k, k ≠ b.sectorOf q.warp → tget u.sectors k = tget s.sectors k := by
    intro k hk
    rw [← hu]
    exact releasePort_sectors s bid pid b q k hb hp hk
  have hsl : ∀ (n : Nat) (e : Event), Quiet u (if q.run.sleep = 0 then u else u.post n e) := by
    intro n e; split
    · exact .refl u
    · exact post_quiet _ _ _
  have hss : ∀ (n : Nat) (e : Event), (if q.run.sleep = 0 then u else u.post n e).sectors = u.sectors := by
    intro n e; split <;> rfl
  refine ⟨?_, ?_, ?_⟩
  · split
    · exact base.trans ((hsl _ _).trans (post_quiet _ _ _))
    · exact base.trans ((hsl _ _).trans (post_quiet _ _ _))
  · intro k hk
    split <;> simp only [State.post_sectors, hss] <;> exact hsec k hk
  · intro hw
    simp only [hw, if_true, hc]
    exact post_mem _ _ _

/-- THE END of an instruction (R91, R97). -/
theorem retire_ends (s : State) (c : Ctx) (b : Block) (h : Hdr) (q : Path) (r : Retire)
    (hb : tget s.blocks c.bid = some b) (hp : tget b.paths c.pid = some q) (hw : q.wait = .issuing)
    (hs : q.stepping = c.p.stepping) (hwarp : q.warp = c.p.warp) :
    (retire s c h r = { s with
        blocks := (retire s c h r).blocks, sectors := (retire s c h r).sectors, events := (retire s c h r).events }) ∧
    (∃ b', tget (retire s c h r).blocks c.bid = some b' ∧ BlockEnds s c b h r q b') ∧
    (∀ k, k ≠ c.bid → tget (retire s c h r).blocks k = tget s.blocks k) ∧
    (∀ k, k ≠ b.sectorOf c.p.warp → tget (retire s c h r).sectors k = tget s.sectors k) ∧
    (∀ e ∈ s.events, e ∈ (retire s c h r).events) ∧
    (0 < r.owed → (s.cycle + 1, Event.resultReturn c.bid c.pid) ∈ (retire s c h r).events) ∧
    (if parksHere c h then ∃ u, s.cycle ≤ u ∧ (u, Event.pathReady c.bid c.pid) ∈ (retire s c h r).events
      else (retire s c h r).sectors = s.sectors) := by
  obtain ⟨hq, hsec, how⟩ := account_ends s c b q r hb hp hw
  have hpath : s.path? c.bid c.pid = some q := by simp [State.path?, hb, hp]
  have hpark : q.parksAfter h = parksHere c h := by simp [Path.parksAfter, parksHere, hs]
  unfold retire
  simp only [hpath, hw, true_and, hpark]
  generalize account s c r = a at hq hsec how
  obtain ⟨hrest, hev⟩ := hq
  have hblk : a.blocks = tmod s.blocks c.bid (·.modPath c.pid (·.advance c s.cycle r)) := by
    rw [hrest]
  have hcyc : a.cycle = s.cycle := by rw [hrest]
  by_cases hk : parksHere c h = true
  · simp only [hk, if_true]
    have hb1 : tget (a.modPath c.bid c.pid (·.stepDone h.b)).blocks c.bid
        = some ((b.modPath c.pid (·.advance c s.cycle r)).modPath c.pid (·.stepDone h.b)) := by
      simp [hblk, hb]
    have hp1 : tget ((b.modPath c.pid (·.advance c s.cycle r)).modPath c.pid (·.stepDone h.b)).paths c.pid
        = some ((q.advance c s.cycle r).stepDone h.b) := by
      simp [hp]
    obtain ⟨h1, h2, h3⟩ := parkPath_ends (a.modPath c.bid c.pid (·.stepDone h.b)) c.bid c.pid .parked _ _ hb1 hp1
    have hwq : ((q.advance c s.cycle r).stepDone h.b).warp = c.p.warp := by
      unfold Path.stepDone; split <;> simp [Path.advance, hwarp]
    generalize hP : parkPath (a.modPath c.bid c.pid (·.stepDone h.b)) c.bid c.pid .parked = t at h1 h2 h3
    have hbt := h1.blocks
    refine ⟨?_, ⟨((b.modPath c.pid (·.advance c s.cycle r)).modPath c.pid
      (·.stepDone h.b)).modPath c.pid (fun p => { p with
        wait := .parked, since := a.cycle
        run := { p.run with base := ((q.advance c s.cycle r).stepDone h.b).run.readyAt a.cycle } }), ?_, ?_⟩, ?_, ?_, ?_, ?_, ?_⟩
    · rw [h1.rest, hrest]; rfl
    · rw [hbt]; simp only [State.modPath_blocks, hblk, tmod_tmod, tget_tmod_self, hb, Option.map_some]; rfl
    · refine ⟨rfl, ?_, { (q.advance c s.cycle r).stepDone h.b with
        wait := .parked, since := a.cycle
        run := { ((q.advance c s.cycle r).stepDone h.b).run with
          base := ((q.advance c s.cycle r).stepDone h.b).run.readyAt a.cycle } }, ?_, ?_⟩
      · intro k hk'
        simp [Block.modPath, tget_tmod_ne _ _ (Ne.symm hk')]
      · simp only [Block.modPath, tget_tmod_self, hp, Option.map_some]
      · constructor
        · unfold Path.stepDone; split <;> rfl
        · unfold Path.stepDone; split <;> rfl
        · simp [hk]
    · intro k hk'
      rw [hbt]
      simp [hblk, tget_tmod_ne _ _ (Ne.symm hk')]
    · intro k hk'
      rw [h2 k (by rw [hwq]; exact hk')]
      simp [hsec]
    · intro e he
      exact h1.events e (hev e he)
    · intro ho
      exact h1.events _ (how ho)
    · exact ⟨_, by simp [RunState.readyAt, hcyc], h3 rfl⟩
  · simp only [hk, Bool.false_eq_true, if_false]
    refine ⟨by rw [hrest], ⟨b.modPath c.pid (·.advance c s.cycle r), ?_, ?_⟩, ?_, ?_, hev,
      how, hsec⟩
    · rw [hblk, tget_tmod_self, hb]; rfl
    · refine ⟨rfl, ?_, q.advance c s.cycle r, ?_, ?_⟩
      · intro k hk'
        simp [Block.modPath, tget_tmod_ne _ _ (Ne.symm hk')]
      · simp only [Block.modPath, tget_tmod_self, hp, Option.map_some]
      · exact ⟨rfl, rfl, by simp [hk, Path.advance, hw]⟩
    · intro k hk'
      rw [hblk, tget_tmod_ne _ _ (Ne.symm hk')]
    · intro k _; rw [hsec]

end Sys2Proof.Machine
end

