-- ==== Sys2Proof/Laws/Forms.lean ====
section
/-! SUPPORT. The ways an instruction acts on lanes or on its path: issue, per-lane results, and their end. -/

namespace Sys2Proof.Machine

/-! Issue -/

/-- A context stands in a state: its block and its path are there, and the path issues. -/
structure InPlace (s : State) (c : Ctx) : Prop where
  block : tget s.blocks c.bid = some c.b
  path : tget c.b.paths c.pid = some c.p
  wait : c.p.wait = .issuing

theorem addStall_paths (b : Block) (p : Path) (n : Nat) : (addStall b p n).paths = b.paths := by
  unfold addStall; split <;> rfl

theorem addStall_part (b : Block) (p : Path) (n : Nat) : (addStall b p n).part = b.part := by
  unfold addStall; split <;> rfl

theorem addStall_lvl (b : Block) (p : Path) (n : Nat) : (addStall b p n).lvl = b.lvl := by
  unfold addStall; split <;> rfl

/-- At issue the context stands in the state in which the cycles lost before the instruction are counted (R101). -/
theorem stands_of_issuing {s : State} {c : Ctx} {i : Instr} (hi : Issuing s c i) :
    InPlace (s.modBlock c.bid (fun _ => c.b)) c := by
  obtain ⟨b, h1, h2, h3⟩ := hi.block
  refine ⟨by simp [h1], ?_, hi.wait⟩
  rw [show c.b.paths = b.paths by rw [h3]; exact addStall_paths ..]
  exact h2

/-- A check that looks at the block's partition and slots only sees the same at issue. -/
theorem qn4_issue {s : State} {c : Ctx} {i : Instr} {b : Block} (f : Block → Bool)
    (hf : ∀ (b : Block) (st : Tab Word), f { b with stall := st } = f b) (h : c = atIssue s c.bid c.pid b c.p i) :
    f c.b = f b := by
  rw [h]
  show f (addStall b c.p _) = f b
  unfold addStall
  split
  · rfl
  · exact hf _ _

/-- An admitted instruction at issue runs its body on the state in which the cycles lost before it are counted (R101, R111). -/
theorem issue_next {s : State} {c : Ctx} {i : Instr} {h : Hdr} {f : FormInfo} {body : State → Ctx → State}
    (hi : Issuing s c i) (hq : ∀ (b : Block) (st : Tab Word), f.qn4 { b with stall := st } = f.qn4 b)
    (he : Enabled s c (f.feats ++ (if f.qn4 c.b then [2] else []))) (hs : h.sc ∈ f.scopes)
    (hmeet : h.sc = .set ∨ h.sc = .blk → MayMeet c h) (hp : f.priv = true → c.b.lvl ≠ 0) :
    ∃ st, issue i h f body s = .next (settleHold st
      (settleAts s (body (s.modBlock c.bid (fun _ => c.b)) c) c.bid c.pid) c.bid c.pid) := by
  obtain ⟨b, h1, h2, h3⟩ := hi.block
  have hqb := qn4_issue f.qn4 hq h3
  have hpart : c.b.part = b.part := by rw [h3]; exact addStall_part ..
  have hlvl : c.b.lvl = b.lvl := by rw [h3]; exact addStall_lvl ..
  have hm : missingBit s b (f.feats ++ (if f.qn4 b then [2] else [])) = none := by
    unfold missingBit
    rw [List.find?_eq_none, ← hqb]
    intro k hk
    have := he k hk
    rw [hpart] at this
    simp [this]
  have hbad : scopeBad h f c.p = false := by
    unfold scopeBad
    have h1 : f.scopes.any (· == h.sc) = true := by
      rw [List.any_eq_true]
      exact ⟨h.sc, hs, by simp⟩
    simp only [h1, Bool.not_true, Bool.false_or, Bool.and_eq_false_iff]
    by_cases h2 : h.sc = .set ∨ h.sc = .blk
    · obtain ⟨h3, h4, h5⟩ := hmeet h2
      right; simp [h3, h4, h5]
    · left; simp only [not_or] at h2; simp [h2.1, h2.2]
  have hpr : (f.priv && b.lvl == 0) = false := by
    cases h1 : f.priv with
    | false => rfl
    | true => rw [← hlvl]; simp [hp h1]
  have hr : ¬ Config.runLimit ≤ c.p.run.count := by
    have := hi.count
    simp [Config.runLimit]; omega
  refine ⟨b.stall, ?_⟩
  unfold issue
  simp only [hi.cur, h1, h2, ← h3, hr, if_false, hm, hpr, hbad]
  rfl

/-- Ending through `settleAts` when no access waits for the host (R408). -/
theorem settleAts_quiet {s t : State} {bid pid : Nat} (h : t.coh.atsWait = false) :
    settleAts s t bid pid = dropAnswers t := by
  unfold settleAts; simp [h]

theorem dropAnswers_rest (t : State) :
    dropAnswers t = { t with coh := { t.coh with ats := (dropAnswers t).coh.ats } } := by
  rfl

end Sys2Proof.Machine

namespace Sys2Proof

open Machine

/-- A state whose path does not hold keeps the cycles counted (R101). -/
theorem settleHold_go {st : Tab Word} {t : State} {bid pid : Nat} {p : Path} (hp : t.path? bid pid = some p)
    (hw : p.wait.isHold = false) : settleHold st t bid pid = t := by
  unfold settleHold; simp [hp, hw]

/-- An end leaves no hold. -/
theorem Ends.noHold {s t : State} {c : Ctx} {b : Block} {h : Hdr} {r : Retire} {new : Nat → Thread → Thread}
    {own : Path → Path} (e : Ends s t c b h r new own) : ∃ p, t.path? c.bid c.pid = some p ∧ p.wait.isHold = false := by
  obtain ⟨b', h1, -, -, -, p, h2, h3⟩ := e.block
  refine ⟨p, by simp [State.path?, h1, h2], ?_⟩
  rw [h3.wait]
  split <;> rfl

/-- An end from the state at issue is one from the state before it: only the block that issues differs. -/
theorem Ends.ofIssue {s t : State} {c : Ctx} {b : Block} {h : Hdr} {r : Retire} {new : Nat → Thread → Thread}
    {own : Path → Path} {f : Block → Block} (e : Ends (s.modBlock c.bid f) t c b h r new own) :
    Ends s t c b h r new own := by
  obtain ⟨b', h1, h2, h3, h4, p, h5, h6⟩ := e.block
  refine ⟨by rw [e.rest]; rfl, ⟨b', h1, h2, h3, h4, p, h5, ⟨h6.rest, h6.run, h6.wait⟩⟩, ?_, e.sectors, e.events, e.owes, e.parks⟩
  intro k hk
  rw [e.blocks k hk]
  simp [tget_tmod_ne _ _ (Ne.symm hk)]

/-- Dropping used refusals does not disturb what an end leaves. -/
theorem Ends.dropped {s t : State} {c : Ctx} {b : Block} {h : Hdr} {r : Retire} {new : Nat → Thread → Thread}
    {own : Path → Path} (e : Ends s t c b h r new own) : Ends s (dropAnswers t) c b h r new own := by
  have hd := dropAnswers_rest t
  have hb : (dropAnswers t).blocks = t.blocks := by rw [hd]
  have hs : (dropAnswers t).sectors = t.sectors := by rw [hd]
  have he : (dropAnswers t).events = t.events := by rw [hd]
  constructor
  · rw [hd]; rw [e.rest]
  · rw [hb]; exact e.block
  · rw [hb]; exact e.blocks
  · rw [hs]; exact e.sectors
  · rw [he]; exact e.events
  · rw [he]; exact e.owes
  · rw [hs, he]; exact e.parks

end Sys2Proof

namespace Sys2Proof.Machine

/-! Lanes -/

theorem mem_lanesOf {b : Block} {keys : List Nat} {e : Nat × Thread} :
    e ∈ b.lanesOf keys ↔ e.1 ∈ keys ∧ tget b.threads e.1 = some e.2 := by
  unfold Block.lanesOf
  simp only [List.mem_filterMap, Option.map_eq_some_iff]
  constructor
  · rintro ⟨k, hk, t, ht, rfl⟩; exact ⟨hk, ht⟩
  · rintro ⟨hk, ht⟩; exact ⟨e.1, hk, e.2, ht, rfl⟩

/-- Lanes that all succeed. -/
theorem perLane_all (c : Ctx) (f : Nat → Thread → LaneRes Thread) (new : Nat → Thread → Thread)
    (h : ∀ k ∈ c.p.lanes, ∀ t, tget c.b.threads k = some t → f k t = .ok (new k t)) :
    perLane c f = .all ((c.b.lanesOf c.p.lanes).map (fun e => (e.1, new e.1 e.2))) [] := by
  unfold perLane
  have key : ∀ l : List (Nat × Thread), (∀ e ∈ l, f e.1 e.2 = .ok (new e.1 e.2)) →
      l.foldr (fun e l => LanesRes.cons e.1 (f e.1 e.2) l) (.all [] []) = .all (l.map (fun e => (e.1, new e.1 e.2))) [] := by
    intro l hl
    induction l with
    | nil => rfl
    | cons e r ih =>
      simp only [List.foldr_cons, List.map_cons]
      rw [ih (fun x hx => hl x (List.mem_cons_of_mem _ hx)), hl e (List.mem_cons_self ..)]
      rfl
  refine key _ ?_
  intro e he
  rw [mem_lanesOf] at he
  exact h e.1 he.1 e.2 he.2

/-- Threads written back: the block's threads, and nothing else. -/
theorem putThreads_blocks (s : State) (bid : Nat) (l : List (Nat × Thread)) (b : Block)
    (hb : tget s.blocks bid = some b) (g : Nat → Thread) (hg : ∀ e ∈ l, e.2 = g e.1) :
    putThreads s bid l = { s with blocks := (putThreads s bid l).blocks } ∧
    (∀ k, k ≠ bid → tget (putThreads s bid l).blocks k = tget s.blocks k) ∧
    ∃ th, tget (putThreads s bid l).blocks bid = some { b with threads := th } ∧
      ∀ k, tget th k = (tget b.threads k).map (fun u => if k ∈ l.map (·.1) then g k else u) := by
  induction l generalizing s b with
  | nil => exact ⟨rfl, fun _ _ => rfl, b.threads, hb, fun k => by simp⟩
  | cons e r ih =>
    have hb1 : tget (s.modThread bid e.1 (fun _ => e.2)).blocks bid = some (b.modThread e.1 (fun _ => e.2)) := by simp [hb]
    obtain ⟨h1, h2, th, h3, h4⟩ := ih (s.modThread bid e.1 (fun _ => e.2)) (b.modThread e.1 (fun _ => e.2)) hb1
      (fun x hx => hg x (List.mem_cons_of_mem _ hx))
    refine ⟨?_, ?_, th, ?_, ?_⟩
    · exact h1
    · intro k hk
      rw [show putThreads s bid (e :: r) = putThreads (s.modThread bid e.1 (fun _ => e.2)) bid r from rfl, h2 k hk]
      simp [tget_tmod_ne _ _ (Ne.symm hk)]
    · exact h3
    · intro k
      rw [h4 k]
      simp only [Block.modThread_threads, tget_tmod, List.map_cons, List.mem_cons]
      by_cases hk : e.1 = k
      · subst hk
        cases h5 : tget b.threads e.1 with
        | none => simp
        | some u => simp [hg e (List.mem_cons_self ..)]
      · have hor : (k = e.1 ∨ k ∈ r.map (·.1)) ↔ k ∈ r.map (·.1) := or_iff_right (Ne.symm hk)
        simp only [hk, if_false, hor]

end Sys2Proof.Machine

namespace Sys2Proof

open Machine

/-- The end of an instruction after its results have been written to the threads of the lanes and to the path. -/
theorem ends_retire {s u : State} {c : Ctx} {b : Block} {h : Hdr} {r : Retire} {new : Nat → Thread → Thread}
    {own : Path → Path} {th : Tab Thread} {ps : Tab Path}
    (hu : u = { s with blocks := u.blocks }) (hb : tget u.blocks c.bid = some { b with threads := th, paths := ps })
    (ho : ∀ k, k ≠ c.bid → tget u.blocks k = tget s.blocks k)
    (ht : ∀ k, tget th k = (tget b.threads k).map (fun t => if k ∈ c.p.lanes then new k t else t))
    (hps : ∀ k, k ≠ c.pid → tget ps k = tget b.paths k) (hp : tget ps c.pid = some (own c.p))
    (hw : (own c.p).wait = .issuing) (hs : (own c.p).stepping = c.p.stepping) (hwarp : (own c.p).warp = c.p.warp) :
    Ends s (retire u c h r) c b h r new own := by
  obtain ⟨e1, ⟨b', e2, e3⟩, e4, e5, e6, e7, e8⟩ := retire_ends u c { b with threads := th, paths := ps } h (own c.p) r hb hp hw hs hwarp
  have hcyc : u.cycle = s.cycle := by rw [hu]
  have hsec : u.sectors = s.sectors := by rw [hu]
  have hev : u.events = s.events := by rw [hu]
  constructor
  · rw [e1, hu]
  · refine ⟨b', e2, ?_, ?_, ?_, ?_⟩
    · rw [e3.rest]
    · intro k
      have : b'.threads = th := by rw [e3.rest]
      rw [this, ht k]
    · intro k hk; rw [e3.paths k hk]; exact hps k hk
    · obtain ⟨p, h5, h6⟩ := e3.path
      exact ⟨p, h5, ⟨h6.rest, by rw [h6.run]; simp [hcyc], h6.wait⟩⟩
  · intro k hk; rw [e4 k hk, ho k hk]
  · intro k hk; rw [e5 k hk, hsec]
  · intro e he; exact e6 e (by rw [hev]; exact he)
  · rw [hcyc] at e7; exact e7
  · rw [hcyc, hsec] at e8; exact e8

/-- Threads of all the path's lanes written back, in a list with an entry for each. -/
theorem putThreads_lanes {s : State} {c : Ctx} {b : Block} {L : List (Nat × Thread)} {new : Nat → Thread → Thread}
    (hb : tget s.blocks c.bid = some b) (hk : ∀ k, k ∈ L.map (·.1) ↔ k ∈ c.p.lanes)
    (hL : ∀ e ∈ L, ∃ t, tget b.threads e.1 = some t ∧ e.2 = new e.1 t) :
    putThreads s c.bid L = { s with blocks := (putThreads s c.bid L).blocks } ∧
    (∀ k, k ≠ c.bid → tget (putThreads s c.bid L).blocks k = tget s.blocks k) ∧
    ∃ th, tget (putThreads s c.bid L).blocks c.bid = some { b with threads := th } ∧
      ∀ k, tget th k = (tget b.threads k).map (fun t => if k ∈ c.p.lanes then new k t else t) := by
  cases hl : L with
  | nil =>
    refine ⟨rfl, fun _ _ => rfl, b.threads, hb, fun k => ?_⟩
    have : ¬ k ∈ c.p.lanes := by rw [← hk, hl]; simp
    cases tget b.threads k <;> simp [this]
  | cons e0 r =>
    rw [← hl]
    obtain ⟨h1, h2, th, h3, h4⟩ := putThreads_blocks s c.bid L b hb
      (fun k => ((tget b.threads k).map (new k)).getD e0.2) (by
        intro e he
        obtain ⟨t, h5, h6⟩ := hL e he
        simp [h5, h6])
    refine ⟨h1, h2, th, h3, ?_⟩
    intro k
    rw [h4 k]
    cases h5 : tget b.threads k with
    | none => rfl
    | some t => simp only [Option.map_some, Option.getD_some, hk]

/-- The end of a form whose lanes all completed (R97, R362). -/
theorem finishLanes_ends (s : State) (c : Ctx) (b : Block) (h : Hdr) (r : Retire) (new : Nat → Thread → Thread)
    (hb : tget s.blocks c.bid = some b) (hp : tget b.paths c.pid = some c.p) (hw : c.p.wait = .issuing)
    (hl : c.p.lanes ≠ []) (ht : ∀ k ∈ c.p.lanes, ∃ t, tget c.b.threads k = some t ∧ tget b.threads k = some t) :
    Ends s (finishLanes s c h (.all ((c.b.lanesOf c.p.lanes).map (fun e => (e.1, new e.1 e.2))) []) r) c b h r new id := by
  generalize hL : (c.b.lanesOf c.p.lanes).map (fun e => (e.1, new e.1 e.2)) = L
  have hkeys : ∀ k, k ∈ L.map (·.1) ↔ k ∈ c.p.lanes := by
    intro k
    rw [← hL, List.map_map]
    simp only [List.mem_map, Function.comp]
    constructor
    · rintro ⟨e, he, rfl⟩; exact (mem_lanesOf.1 he).1
    · intro hk
      obtain ⟨t, h1, _⟩ := ht k hk
      exact ⟨(k, t), mem_lanesOf.2 ⟨hk, h1⟩, rfl⟩
  have hne : L ≠ [] := by
    obtain ⟨k, l, hkl⟩ := List.exists_cons_of_ne_nil hl
    have : k ∈ L.map (·.1) := (hkeys k).2 (by simp [hkl])
    intro h0; simp [h0] at this
  obtain ⟨h1, h2, th, h3, h4⟩ := putThreads_lanes (L := L) (new := new) hb hkeys (by
    intro e he
    rw [← hL] at he
    obtain ⟨x, hx, rfl⟩ := List.mem_map.1 he
    obtain ⟨t, h1, h2⟩ := ht x.1 (mem_lanesOf.1 hx).1
    have h3 := (mem_lanesOf.1 hx).2
    rw [h1] at h3
    exact ⟨t, h2, by rw [Option.some.inj h3]⟩)
  have hfin : finishLanes s c h (.all L []) r = retire (putThreads s c.bid L) c h r := by
    unfold finishLanes
    simp [hne]
  rw [hfin]
  exact ends_retire (own := id) h1 h3 h2 h4 (fun _ _ => rfl) hp hw rfl rfl

/-- The end of a form that changes the path's own cells and no lane. -/
theorem finishPath_ends (s : State) (c : Ctx) (b : Block) (h : Hdr) (r : Retire) (q : Path)
    (hb : tget s.blocks c.bid = some b) (hp : tget b.paths c.pid = some c.p) (hw : q.wait = .issuing)
    (hs : q.stepping = c.p.stepping) (hwarp : q.warp = c.p.warp) :
    Ends s (finishPath s c h (.ok q) r) c b h r (fun _ t => t) (fun _ => q) := by
  refine ends_retire (u := s.modPath c.bid c.pid (fun _ => q)) (th := b.threads) (ps := tmod b.paths c.pid (fun _ => q))
    rfl ?_ ?_ ?_ ?_ ?_ hw hs hwarp
  · simp [hb, Block.modPath]
  · intro k hk; simp [tget_tmod_ne _ _ (Ne.symm hk)]
  · intro k; cases tget b.threads k <;> simp
  · intro k hk; rw [tget_tmod_ne _ _ (Ne.symm hk)]
  · simp [hp]

/-- An end said in other words: transfer times do not count, and results matter only where they are used. -/
theorem Ends.congr {s t : State} {c : Ctx} {b : Block} {h : Hdr} {r r' : Retire} {new new' : Nat → Thread → Thread}
    {own own' : Path → Path} (e : Ends s t c b h r new own) (hr : { r with xfer := 0 } = { r' with xfer := 0 })
    (hn : ∀ k ∈ c.p.lanes, ∀ u, tget b.threads k = some u → new k u = new' k u) (ho : own c.p = own' c.p) :
    Ends s t c b h r' new' own' := by
  obtain ⟨pc, ready, owed, aw, x, sl, y⟩ := r
  obtain ⟨pc', ready', owed', aw', x', sl', y'⟩ := r'
  simp only [Retire.mk.injEq] at hr
  obtain ⟨rfl, rfl, rfl, rfl, -, rfl, rfl⟩ := hr
  obtain ⟨b', h1, h2, h3, h4, p, h5, h6⟩ := e.block
  refine ⟨e.rest, ⟨b', h1, h2, ?_, h4, p, h5, ?_⟩, e.blocks, e.sectors, e.events, e.owes, e.parks⟩
  · intro k
    rw [h3 k]
    cases hk : tget b.threads k with
    | none => rfl
    | some u =>
      simp only [Option.map_some]
      by_cases hl : k ∈ c.p.lanes
      · simp [hl, hn k hl u hk]
      · simp [hl]
  · rw [← ho]; exact ⟨h6.rest, h6.run, h6.wait⟩

end Sys2Proof
end

