-- ==== Sys2Proof/Laws/Computing.lean ====
section
/-! SUPPORT. Computing forms and shuffles: what they do on a stack, at lane scope and at warp scope. -/

namespace Sys2Proof

open Machine

/-! Consuming operands -/

theorem consume_ok {c : Ctx} {l : List Cell} (h : ∀ x ∈ l, Consumable c x) : consume c.env l = .ok (l.map (·.val)) := by
  have h1 : l.any (fun x => x.hi.isSome) = false := by
    rw [List.any_eq_false]; intro x hx; simp [(h x hx).1]
  have h2 : l.find? (fun x => c.env.early x.mark) = none := by
    rw [List.find?_eq_none]; intro x hx; simp [(h x hx).2.1]
  have h3 : l.any (·.err) = false := by
    rw [List.any_eq_false]; intro x hx; simp [(h x hx).2.2]
  unfold consume
  simp [h1, h2, h3]

theorem checkDepth_ok {depth need pops pushes ceil : Nat} (h1 : need ≤ depth) (h2 : depth - pops + pushes ≤ ceil) :
    checkDepth depth need pops pushes ceil = .ok () := by
  unfold checkDepth
  rw [if_neg (by omega), if_neg (by omega)]

/-! Computing forms -/

/-- A form of the model computes what a form of the tables says. -/
structure Agrees (a : Alu) (f : Computing) : Prop where
  pops : a.pops = f.operands
  const : a.k = f.const
  lat : a.lat = f.lat
  some : f.const ≠ none → 1 ≤ f.operands
  fn : ∀ vs, vs.length = f.operands → a.fn vs = .ok ⟨f.result (vs.map (·.bits)), poisonOf vs⟩

theorem Agrees.need {a : Alu} {f : Computing} (h : Agrees a f) : a.need = f.pops := by
  unfold Alu.need Computing.pops; rw [h.const, h.pops]; try (cases f.const <;> rfl)

theorem Alu.run_stack {a : Alu} {f : Computing} (h : Agrees a f) {c : Ctx} {ceil : Nat} {st : List Cell}
    (ho : Operands c ceil f.pops 1 st) : a.run c.env ceil st = .ok (f.stack c st) := by
  have hargs : a.operands (tops f.pops st) = f.args st := by
    unfold Alu.operands Computing.args
    rw [h.const]; cases f.const <;> rfl
  have hlen : (f.args st).length = f.operands := by
    have hd := ho.deep
    have hs := h.some
    unfold Computing.args tops
    unfold Computing.pops at hd ⊢
    cases hc : f.const with
    | none => simp [hc] at hd ⊢; omega
    | some w => simp [hc] at hd hs ⊢; omega
  unfold Alu.run
  rw [h.need, checkDepth_ok ho.deep ho.room, consume_ok ho.cells]
  simp only [LaneRes.bind]
  rw [show (st.take f.pops).map (·.val) = tops f.pops st from rfl, hargs, h.fn _ hlen]
  simp only [LaneRes.map, LaneRes.bind, Env.result, Env.fixed, h.lat]
  rfl

/-- What a form of one stack does when it succeeds, at lane scope. -/
theorem stackForm_lane {s : State} {c : Ctx} {h : Hdr} {after : Nat → Nat} {lat : Nat} {extra : Nat → Nat}
    {f : StackFn} {new : List Cell → List Cell} (hi : InPlace s c) (hsc : h.sc = .lane)
    (hl : EachLane c (fun _ t => f c.env (laneCeil c.b c.p) t.stack = .ok (new t.stack))) :
    Ends s (stackForm h after lat extra f s c) c c.b h { pc := c.p.pc + 4, ready := c.env.slot + lat }
      (fun _ th => { th with stack := new th.stack }) id := by
  unfold stackForm
  rw [hsc]
  simp only
  rw [perLane_all c _ (fun _ th => { th with stack := new th.stack }) (by
    intro k hk t ht
    obtain ⟨t', h1, h2⟩ := hl.2 k hk
    rw [ht] at h1
    cases h1
    rw [h2]; rfl)]
  have e := finishLanes_ends s c c.b h
    { pc := c.next, ready := c.env.slot + lat, xfer := transfers (laneDepth c.b c.p) (after (laneDepth c.b c.p))
        + extra (laneDepth c.b c.p) }
    (fun _ th => { th with stack := new th.stack }) hi.block hi.path hi.wait hl.1
    (fun k hk => (hl.2 k hk).imp fun t ht => ⟨ht.1, ht.1⟩)
  exact e.congr rfl (fun _ _ _ _ => rfl) rfl

/-- At warp scope, on the uniform stack. -/
theorem stackForm_warp {s : State} {c : Ctx} {h : Hdr} {after : Nat → Nat} {lat : Nat} {extra : Nat → Nat}
    {f : StackFn} {new : List Cell} (hi : InPlace s c) (hsc : h.sc = .warp)
    (hu : f c.env 8 c.p.ust = .ok new) :
    Ends s (stackForm h after lat extra f s c) c c.b h { pc := c.p.pc + 4, ready := c.env.slot + lat }
      (fun _ th => th) (fun p => { p with ust := new }) := by
  unfold stackForm
  rw [hsc]
  simp only [hu, LaneRes.map, LaneRes.bind]
  exact (finishPath_ends s c c.b h _ { c.p with ust := new } hi.block hi.path hi.wait rfl rfl).congr rfl
    (fun _ _ _ _ => rfl) rfl

/-- An instruction whose body ends, as exec answers it. -/
theorem exec_ends {s : State} {c : Ctx} {i : Instr} {h : Hdr} {f : FormInfo} {body : State → Ctx → State}
    {r : Retire} {new : Nat → Thread → Thread} {own : Path → Path}
    (hi : Issuing s c i) (hq : ∀ (b : Block) (st : Tab Word), f.qn4 { b with stall := st } = f.qn4 b)
    (he : Enabled s c (f.feats ++ (if f.qn4 c.b then [2] else []))) (hs : h.sc ∈ f.scopes)
    (hm : h.sc = .set ∨ h.sc = .blk → MayMeet c h) (hp : f.priv = true → c.b.lvl ≠ 0)
    (e : Ends (s.modBlock c.bid (fun _ => c.b)) (body (s.modBlock c.bid (fun _ => c.b)) c) c c.b h r new own) :
    ∃ t, issue i h f body s = .next t ∧ Ends s t c c.b h r new own := by
  obtain ⟨st, h1⟩ := issue_next (body := body) hi hq he hs hm hp
  have hq : (body (s.modBlock c.bid (fun _ => c.b)) c).coh.atsWait = false := by rw [e.rest]; exact hi.quiet
  rw [settleAts_quiet hq] at h1
  have e := e.ofIssue.dropped
  obtain ⟨p, h2, h3⟩ := e.noHold
  rw [settleHold_go h2 h3] at h1
  exact ⟨_, h1, e⟩

theorem noFinder_home {s : State} {c : Ctx} {body : State → Ctx → State} (h : c.p.finder = false) :
    noFinder s c body = body s c := by simp [noFinder, h]

/-- A computing form of the model completes as its form of the tables says. -/
theorem alu_completes {i : Instr} {a : Alu} {f : Computing} (ha : Agrees a f) {s : State} {c : Ctx}
    (hi : Issuing s c i) (he : Enabled s c [0]) (wrap : (State → Ctx → State) → State → Ctx → State)
    (hw : ∀ body t, wrap body t c = body t c) :
    (f.hdr.sc = .lane → EachLane c (fun _ t => Operands c (laneCeil c.b c.p) f.pops 1 t.stack) →
      ∃ t, issue i f.hdr { scopes := laneWarp } (wrap (aluForm f.hdr a)) s = .next t ∧
        Ends s t c c.b f.hdr { pc := c.p.pc + 4, ready := c.env.slot + f.lat }
        (fun _ th => { th with stack := f.stack c th.stack }) id) ∧
    (f.hdr.sc = .warp → Operands c 8 f.pops 1 c.p.ust →
      ∃ t, issue i f.hdr { scopes := laneWarp } (wrap (aluForm f.hdr a)) s = .next t ∧
        Ends s t c c.b f.hdr { pc := c.p.pc + 4, ready := c.env.slot + f.lat }
        (fun _ th => th) (fun p => { p with ust := f.stack c p.ust })) := by
  have hnm : ∀ x : Scope, x = .lane ∨ x = .warp → (x = .set ∨ x = .blk → MayMeet c f.hdr) := by
    rintro x (rfl | rfl) (h | h) <;> cases h
  refine ⟨fun hsc hl => ?_, fun hsc ho => ?_⟩
  · refine exec_ends hi (fun _ _ => rfl) (by simpa using he) (by simp [laneWarp, hsc]) (hnm _ (.inl hsc)) (by simp) ?_
    rw [hw, aluForm, ha.lat]
    exact stackForm_lane (stands_of_issuing hi) hsc ⟨hl.1, fun k hk => (hl.2 k hk).imp fun t ht => ⟨ht.1, Alu.run_stack ha ht.2⟩⟩
  · refine exec_ends hi (fun _ _ => rfl) (by simpa using he) (by simp [laneWarp, hsc]) (hnm _ (.inr hsc)) (by simp) ?_
    rw [hw, aluForm, ha.lat]
    have e := stackForm_warp (after := fun d => d - a.need + 1) (lat := f.lat) (extra := fun _ => 0) (stands_of_issuing hi) hsc (Alu.run_stack ha ho)
    exact e.congr rfl (fun _ _ _ _ => rfl) rfl

end Sys2Proof
end

