-- ==== Sys2Proof/Laws/Lanes.lean ====
section
/-! SUPPORT. Forms across the lanes of a path: `toLanes` and `toUniform` (R217-R223). -/

namespace Sys2Proof

open Machine

/-- The lanes' operands are there: nothing traps. -/
theorem laneOperands_ok {c : Ctx} {n : Nat} {room : LaneRes Unit} (hr : room = .ok ())
    (hl : EachLane c (fun _ t => Operands c (laneCeil c.b c.p) n 0 t.stack)) : laneOperands c n room = .ok (active c) := by
  have hdeep : (c.b.lanesOf c.p.lanes).any (fun e => decide (e.2.stack.length < n)) = false := by
    rw [List.any_eq_false]
    intro e he
    obtain ⟨t, h1, h2⟩ := hl.2 e.1 (mem_lanesOf.1 he).1
    rw [(mem_lanesOf.1 he).2] at h1
    cases h1
    have := h2.deep
    simp; omega
  unfold laneOperands
  rw [perLane_all c _ (fun _ t => t) (by
    intro k hk t ht
    obtain ⟨t', h1, h2⟩ := hl.2 k hk
    rw [ht] at h1
    cases h1
    simp only [consume_ok h2.cells, LaneRes.map, LaneRes.bind])]
  simp [active, hdeep, hr, LaneRes.bind]

/-- What a list assigns to a key last. -/
theorem find_reverse_map {α : Type} (l : List (Nat × α)) (k : Nat) :
    ∀ x, l.reverse.find? (fun e => e.1 == k) = some x → x ∈ l ∧ x.1 = k := by
  intro x hx
  have h1 := List.mem_of_find?_eq_some hx
  have h2 := List.find?_some hx
  exact ⟨List.mem_reverse.1 h1, by simpa using h2⟩

end Sys2Proof

namespace Sys2Proof.Machine

/-- Threads written back from a list in which a key may stand twice: the last one counts. -/
theorem putThreads_last (s : State) (bid : Nat) (l : List (Nat × Thread)) (b : Block)
    (hb : tget s.blocks bid = some b) :
    putThreads s bid l = { s with blocks := (putThreads s bid l).blocks } ∧
    (∀ k, k ≠ bid → tget (putThreads s bid l).blocks k = tget s.blocks k) ∧
    ∃ th, tget (putThreads s bid l).blocks bid = some { b with threads := th } ∧
      ∀ k, tget th k = (tget b.threads k).map (fun u =>
        match l.reverse.find? (fun e => e.1 == k) with | some e => e.2 | none => u) := by
  induction l generalizing s b with
  | nil => exact ⟨rfl, fun _ _ => rfl, b.threads, hb, fun k => by simp⟩
  | cons e r ih =>
    have hb1 : tget (s.modThread bid e.1 (fun _ => e.2)).blocks bid = some (b.modThread e.1 (fun _ => e.2)) := by simp [hb]
    obtain ⟨h1, h2, th, h3, h4⟩ := ih (s.modThread bid e.1 (fun _ => e.2)) (b.modThread e.1 (fun _ => e.2)) hb1
    refine ⟨h1, ?_, th, h3, ?_⟩
    · intro k hk
      rw [show putThreads s bid (e :: r) = putThreads (s.modThread bid e.1 (fun _ => e.2)) bid r from rfl, h2 k hk]
      simp [tget_tmod_ne _ _ (Ne.symm hk)]
    · intro k
      rw [h4 k]
      simp only [Block.modThread_threads, tget_tmod, List.reverse_cons, List.find?_append, List.find?_cons, List.find?_nil]
      by_cases hk : e.1 = k
      · subst hk
        cases tget b.threads e.1 with
        | none => simp
        | some u => cases List.find? (fun x => x.1 == e.1) r.reverse <;> simp
      · have hkb : (e.1 == k) = false := by simp [hk]
        cases tget b.threads k with
        | none => simp [hk]
        | some u => cases List.find? (fun x => x.1 == k) r.reverse <;> simp [hk, hkb]

end Sys2Proof.Machine

namespace Sys2Proof

open Machine

/-- Results that stand beside the lanes reach them. -/
theorem beside_lanes {c : Ctx} {g : Val → Thread → Thread} {vs : List Val} (hlen : vs.length = (active c).length) (k : Nat)
    (hk : k ∈ c.p.lanes) (t : Thread) (ht : tget c.b.threads k = some t) :
    (match ((((active c).zip vs).map (fun e => (e.1.1, g e.2 e.1.2))).reverse.find? (fun e => e.1 == k)) with
      | some e => e.2 | none => t) = g (beside k (active c) vs) t := by
  have hmem : (k, t) ∈ active c := mem_lanesOf.2 ⟨hk, ht⟩
  have huniq : ∀ x ∈ active c, x.1 = k → x.2 = t := by
    intro x hx hxk
    have := (mem_lanesOf.1 hx).2
    rw [hxk, ht] at this
    exact (Option.some.inj this).symm
  have hex : ∃ v, ((k, t), v) ∈ (active c).zip vs := by
    obtain ⟨i, hi, h2⟩ := List.mem_iff_getElem.1 hmem
    refine ⟨vs[i]'(by omega), ?_⟩
    rw [List.mem_iff_getElem]
    refine ⟨i, by simp; omega, ?_⟩
    simp [h2]
  have hz : ∀ x ∈ (active c).zip vs, x.1 ∈ active c := fun x hx => (List.of_mem_zip (a := x.1) (b := x.2) hx).1
  unfold beside
  generalize (active c).zip vs = z at hex hz ⊢
  obtain ⟨v, hv⟩ := hex
  rw [← List.map_reverse, List.find?_map]
  have hfind : ∃ x, z.reverse.find? (fun e => e.1.1 == k) = some x := by
    rw [← Option.isSome_iff_exists, List.find?_isSome]
    exact ⟨((k, t), v), List.mem_reverse.2 hv, by simp⟩
  obtain ⟨x, hx⟩ := hfind
  have hxz := List.mem_reverse.1 (List.mem_of_find?_eq_some hx)
  have hxk : x.1.1 = k := by simpa using List.find?_some hx
  have hxt : x.1.2 = t := huniq _ (hz x hxz) hxk
  have hcomp : ((fun e : Nat × Thread => e.1 == k) ∘ fun e : (Nat × Thread) × Val => (e.1.1, g e.2 e.1.2))
      = fun e => e.1.1 == k := rfl
  rw [hcomp, hx]
  simp [hxt]

/-- Lanes pop and each pushes its result (R217, R221). -/
theorem toLanes_ends {s : State} {c : Ctx} {h : Hdr} {n lat : Nat} {f : List (Nat × Thread) → List Val}
    (hi : InPlace s c) (hl : EachLane c (fun _ t => Operands c (laneCeil c.b c.p) n 0 t.stack))
    (hlen : (f (active c)).length = (active c).length) :
    Ends s (toLanes h n lat f s c) c c.b h { pc := c.p.pc + 4, ready := c.env.slot + lat }
      (fun k th => { th with stack := fresh c lat (beside k (active c) (f (active c))) :: th.stack.drop n }) id := by
  unfold toLanes
  rw [laneOperands_ok rfl hl]
  simp only
  generalize hL : ((active c).zip (f (active c))).map (fun e =>
      (e.1.1, e.1.2.withStack (c.env.result lat e.2 :: e.1.2.stack.drop n))) = L
  obtain ⟨h1, h2, th, h3, h4⟩ := putThreads_last s c.bid L c.b hi.block
  refine (ends_retire (own := id) h1 h3 h2 (new := fun k th =>
      { th with stack := fresh c lat (beside k (active c) (f (active c))) :: th.stack.drop n }) ?_ (fun _ _ => rfl)
      hi.path hi.wait rfl rfl).congr rfl (fun _ _ _ _ => rfl) rfl
  intro k
  rw [h4 k]
  cases ht : tget c.b.threads k with
  | none => rfl
  | some t =>
    simp only [Option.map_some, Option.some.injEq]
    by_cases hk : k ∈ c.p.lanes
    · rw [if_pos hk]
      have := beside_lanes (g := fun v u => u.withStack (c.env.result lat v :: u.stack.drop n)) hlen k hk t ht
      rw [hL] at this
      rw [this]; rfl
    · rw [if_neg hk]
      have : L.reverse.find? (fun e => e.1 == k) = none := by
        rw [List.find?_eq_none]
        intro x hx
        rw [List.mem_reverse, ← hL] at hx
        obtain ⟨y, hy, rfl⟩ := List.mem_map.1 hx
        have := (mem_lanesOf.1 (List.of_mem_zip (a := y.1) (b := y.2) hy).1).1
        intro h0
        simp only [beq_iff_eq] at h0
        rw [h0] at this
        exact hk this
      simp [this]

/-- Beside a lane, in a list that gives each lane its own result, stands that result. -/
theorem beside_map {c : Ctx} (g : Nat → Thread → Val) (k : Nat) (hk : k ∈ c.p.lanes) (t : Thread)
    (ht : tget c.b.threads k = some t) :
    beside k (active c) ((active c).map (fun e => g e.1 e.2)) = g k t := by
  have hmem : (k, t) ∈ active c := mem_lanesOf.2 ⟨hk, ht⟩
  have huniq : ∀ x ∈ active c, x.1 = k → x.2 = t := by
    intro x hx hxk
    have := (mem_lanesOf.1 hx).2
    rw [hxk, ht] at this
    exact (Option.some.inj this).symm
  generalize active c = z at hmem huniq
  have hz : z.zip (z.map (fun e => g e.1 e.2)) = z.map (fun e => (e, g e.1 e.2)) := by
    clear hmem huniq
    induction z with
    | nil => rfl
    | cons a r ih => simp [ih]
  unfold beside
  rw [hz, ← List.map_reverse, List.find?_map]
  have hfind : ∃ x, z.reverse.find? ((fun e : (Nat × Thread) × Val => e.1.1 == k) ∘ fun e => (e, g e.1 e.2)) = some x := by
    rw [← Option.isSome_iff_exists, List.find?_isSome]
    exact ⟨(k, t), List.mem_reverse.2 hmem, by simp⟩
  obtain ⟨x, hx⟩ := hfind
  have hxz := List.mem_reverse.1 (List.mem_of_find?_eq_some hx)
  have hxk : x.1 = k := by simpa using List.find?_some hx
  rw [hx]
  simp [hxk, huniq x hxz hxk]

/-- Lanes pop and one result goes to the uniform stack (R217, R223). -/
theorem toUniform_ends {s : State} {c : Ctx} {h : Hdr} {n lat : Nat} {f : List (Nat × Thread) → LaneRes Val}
    {v : Val} (hi : InPlace s c) (hl : EachLane c (fun _ t => Operands c (laneCeil c.b c.p) n 0 t.stack))
    (hu : c.p.ust.length + 1 ≤ 8) (hf : f (active c) = .ok v) :
    Ends s (toUniform h n lat f s c) c c.b h { pc := c.p.pc + 4, ready := c.env.slot + lat }
      (fun _ th => { th with stack := th.stack.drop n }) (fun p => { p with ust := fresh c lat v :: p.ust }) := by
  unfold toUniform
  rw [laneOperands_ok (checkDepth_ok (Nat.zero_le _) (show c.p.ust.length - 0 + 1 ≤ 8 by omega)) hl]
  simp only [hf]
  obtain ⟨h1, h2, th, h3, h4⟩ := putThreads_lanes (s := s) (c := c) (b := c.b)
    (L := (active c).map (fun e => (e.1, e.2.withStack (e.2.stack.drop n))))
    (new := fun _ th => { th with stack := th.stack.drop n }) hi.block (by
      intro k
      rw [List.map_map]
      simp only [List.mem_map, Function.comp]
      constructor
      · rintro ⟨e, he, rfl⟩; exact (mem_lanesOf.1 he).1
      · intro hk
        obtain ⟨t, h5, _⟩ := hl.2 k hk
        exact ⟨(k, t), mem_lanesOf.2 ⟨hk, h5⟩, rfl⟩) (by
      intro e he
      obtain ⟨x, hx, rfl⟩ := List.mem_map.1 he
      exact ⟨x.2, (mem_lanesOf.1 hx).2, rfl⟩)
  generalize putThreads s c.bid ((active c).map (fun e => (e.1, e.2.withStack (e.2.stack.drop n)))) = u at h1 h2 h3
  refine (ends_retire (u := u.modPath c.bid c.pid (fun p => { p with ust := c.env.result lat v :: p.ust }))
    (own := fun p => { p with ust := fresh c lat v :: p.ust }) (th := th)
    (ps := tmod c.b.paths c.pid (fun p => { p with ust := c.env.result lat v :: p.ust })) ?_ ?_ ?_ h4 ?_ ?_
    hi.wait rfl rfl).congr rfl (fun _ _ _ _ => rfl) rfl
  · rw [h1]; rfl
  · simp [h3, Block.modPath]
  · intro k hk; simp [tget_tmod_ne _ _ (Ne.symm hk), h2 k hk]
  · intro k hk; rw [tget_tmod_ne _ _ (Ne.symm hk)]
  · simp [hi.path]; rfl

end Sys2Proof
end

