-- ==== Sys2Proof/Tests/Slice0.lean ====
section
/-! SUPPORT. Tests: words of the spec decoded, terms the encoding does not admit, single instructions on the spec's examples,
and a state and operands that meet the hypotheses of each statement. -/

namespace Sys2Proof.Tests

open Machine

set_option Elab.async false

/-! ## The encoding -/

/-- Each word decodes to its instruction, which is well formed, and is that instruction's word. -/
def decodesAll (l : List (Word × Instr)) : Bool := l.all (fun e => decodeWord e.1 == e.2 && e.2.wf && encode e.2 == some e.1)

/-- IAR words (R108, R112, R113), field by field from bit 31 down. -/
theorem test_decode_iar : decodesAll [
    (0b0_00_00011_000000_000_00_1_0_000_00000000, .iarAdd ⟨false, .lane⟩ .i32 true none),
    (0b1_00_00011_000001_001_00_0_1_000_11000000, .iarSub ⟨true, .lane⟩ .n32 false (some 192)),
    (0b0_01_00011_000010_000_00_1_1_000_00000111, .iarMul ⟨false, .warp⟩ .i32 true (some 7)),
    (0b1_01_00011_000011_001_00_0_0_000_00000000, .iarMulhi ⟨true, .warp⟩ .n32 none),
    (0b0_00_00011_000100_000_00_0_1_000_11000000, .iarMad ⟨false, .lane⟩ .i32 false (some 192)),
    (0b1_00_00011_000101_001_00_1_1_000_00000111, .iarNeg ⟨true, .lane⟩ .n32 true (some 7)),
    (0b0_01_00011_000110_000_00_1_0_000_00000000, .iarAbs ⟨false, .warp⟩ .i32 true none),
    (0b1_01_00011_000111_001_00_0_1_000_11000000, .iarMin ⟨true, .warp⟩ .n32 (some 192)),
    (0b0_00_00011_001000_000_00_0_1_000_00000111, .iarMax ⟨false, .lane⟩ .i32 (some 7)),
    (0b1_00_00011_001001_001_00_0_0_000_00000000, .iarClamp ⟨true, .lane⟩ .n32 none),
    (0b0_01_00011_001010_000_00_0_1_000_11000000, .iarDiv ⟨false, .warp⟩ .i32 (some 192)),
    (0b1_01_00011_001011_001_00_0_1_000_00000111, .iarRem ⟨true, .warp⟩ .n32 (some 7))] = true := by decide +kernel

/-- FAR words (R108, R112, R113), field by field from bit 31 down. -/
theorem test_decode_far : decodesAll [
    (0b0_01_00100_000000_010_00_0_1_000_11000111, .farAdd ⟨false, .warp⟩ .rn false (some 199)),
    (0b1_01_00100_000001_010_01_1_0_000_00000000, .farSub ⟨true, .warp⟩ .rz true none),
    (0b0_00_00100_000010_010_10_0_1_000_11100101, .farMul ⟨false, .lane⟩ .ru false (some 229)),
    (0b1_00_00100_000011_010_11_1_1_000_11000111, .farFma ⟨true, .lane⟩ .rd true (some 199)),
    (0b0_01_00100_000100_010_00_0_0_000_00000000, .farNeg ⟨false, .warp⟩ .rn none),
    (0b1_01_00100_000101_010_01_0_1_000_11100101, .farAbs ⟨true, .warp⟩ .rz (some 229)),
    (0b0_00_00100_000110_010_10_0_1_000_11000111, .farMin ⟨false, .lane⟩ .ru (some 199)),
    (0b1_00_00100_000111_010_11_0_0_000_00000000, .farMax ⟨true, .lane⟩ .rd none),
    (0b0_01_00100_001000_010_00_0_1_000_11100101, .farClamp ⟨false, .warp⟩ .rn (some 229)),
    (0b1_01_00100_001001_010_01_0_1_000_11000111, .farCsgn ⟨true, .warp⟩ .rz (some 199)),
    (0b0_00_00100_001010_010_10_0_0_000_00000000, .farDiv ⟨false, .lane⟩ .ru none),
    (0b1_00_00100_001011_010_11_0_1_000_11100101, .farSqrt ⟨true, .lane⟩ .rd (some 229)),
    (0b0_01_00100_001100_010_00_0_1_000_11000111, .farRint ⟨false, .warp⟩ .rn (some 199)),
    (0b1_01_00100_001101_010_01_0_0_000_00000000, .farFract ⟨true, .warp⟩ .rz none),
    (0b0_00_00100_001110_010_10_0_1_000_11100101, .farLdexp ⟨false, .lane⟩ .ru (some 229)),
    (0b1_00_00100_001111_010_11_0_1_000_11000111, .farExpo ⟨true, .lane⟩ .rd (some 199))] = true := by decide +kernel

/-- PAIR words (R108, R112, R113), field by field from bit 31 down. -/
theorem test_decode_pair : decodesAll [
    (0b1_00_00101_000000_011_01_1_0_000_00000000, .pairAdd ⟨true, .lane⟩ .rz true none),
    (0b0_01_00101_000001_011_10_0_1_000_10000001, .pairSub ⟨false, .warp⟩ .ru false (some 129)),
    (0b1_00_00101_000010_011_11_1_0_000_00000000, .pairMul ⟨true, .lane⟩ .rd true none),
    (0b0_01_00101_000011_011_00_0_1_000_10000001, .pairFma ⟨false, .warp⟩ .rn false (some 129)),
    (0b1_00_00101_000100_011_01_0_0_000_00000000, .pairNeg ⟨true, .lane⟩ .rz none),
    (0b0_01_00101_000101_011_10_0_1_000_10000001, .pairAbs ⟨false, .warp⟩ .ru (some 129)),
    (0b1_00_00101_000110_011_11_0_0_000_00000000, .pairMin ⟨true, .lane⟩ .rd none),
    (0b0_01_00101_000111_011_00_0_1_000_10000001, .pairMax ⟨false, .warp⟩ .rn (some 129)),
    (0b1_00_00101_001000_011_01_1_0_000_00000000, .pairDot2 ⟨true, .lane⟩ .rz true none)] = true := by decide +kernel

/-- CVT words (R108, R113), field by field from bit 31 down. -/
theorem test_decode_cvt : decodesAll [
    (0b0_00_00110_000000_001_11_1_1_011_00000101, .cvt ⟨false, .lane⟩ .n32 .bf16x2 .rd true (some 5)),
    (0b1_00_00110_000001_010_10_1_0_011_00000000, .pack ⟨true, .lane⟩ .ru true none),
    (0b0_01_00110_000010_011_00_0_0_010_00000000, .unlo ⟨false, .warp⟩ .rn none),
    (0b0_00_00110_000011_011_01_0_1_010_11111111, .unhi ⟨false, .lane⟩ .rz (some 0xFF)),
    (0b0_00_00110_000100_010_11_1_0_110_00000000, .qround ⟨false, .lane⟩ 6 .rd true none)] = true := by decide +kernel

/-- CMP words (R108, R113), field by field from bit 31 down. -/
theorem test_decode_cmp : decodesAll [
    (0b0_00_00111_000000_000_00_0_0_000_00000000, .cmpEq ⟨false, .lane⟩ .i32 none),
    (0b1_00_00111_000001_001_00_0_1_000_00010010, .cmpNe ⟨true, .lane⟩ .n32 (some 18)),
    (0b0_00_00111_000010_010_00_0_0_000_00000000, .cmpLt ⟨false, .lane⟩ .f32 none),
    (0b1_00_00111_000011_011_00_0_1_000_00010010, .cmpLe ⟨true, .lane⟩ .bf16x2 (some 18)),
    (0b0_00_00111_000100_000_00_0_0_000_00000000, .cmpGt ⟨false, .lane⟩ .i32 none),
    (0b1_00_00111_000101_001_00_0_1_000_00010010, .cmpGe ⟨true, .lane⟩ .n32 (some 18)),
    (0b0_01_00111_000110_010_00_0_0_000_00000000, .cmpOrd ⟨false, .warp⟩ .f32 none),
    (0b0_00_00111_000111_011_00_0_1_000_00001001, .cmpUnord ⟨false, .lane⟩ .bf16x2 (some 9)),
    (0b1_00_00111_001000_001_00_0_0_000_00000000, .sel ⟨true, .lane⟩ .n32 none),
    (0b0_00_00111_001001_011_00_0_0_000_10011010, .fclass ⟨false, .lane⟩ .bf16x2 0x9A)] = true := by decide +kernel

/-- BIT words (R108, R113), field by field from bit 31 down. -/
theorem test_decode_bit : decodesAll [
    (0b0_00_01000_000000_001_00_0_1_000_00011111, .bitAnd ⟨false, .lane⟩ .n32 (some 31)),
    (0b1_00_01000_000001_000_00_0_0_000_00000000, .bitOr ⟨true, .lane⟩ .i32 none),
    (0b0_00_01000_000010_001_00_0_1_000_10000000, .bitXor ⟨false, .lane⟩ .n32 (some 128)),
    (0b1_00_01000_000011_000_00_0_1_000_00011111, .bitNot ⟨true, .lane⟩ .i32 (some 31)),
    (0b0_01_01000_000100_001_00_0_0_000_00000000, .bitAndn ⟨false, .warp⟩ .n32 none),
    (0b1_01_01000_000101_000_00_0_1_000_10000000, .bitShl ⟨true, .warp⟩ .i32 (some 128)),
    (0b0_01_01000_000110_001_00_0_1_000_00011111, .bitShr ⟨false, .warp⟩ .n32 (some 31)),
    (0b1_01_01000_000111_000_00_0_0_000_00000000, .bitSar ⟨true, .warp⟩ .i32 none),
    (0b0_00_01000_001000_001_00_0_1_000_10000000, .bitRot ⟨false, .lane⟩ .n32 (some 128)),
    (0b1_00_01000_001001_000_00_0_1_000_00011111, .bitPopc ⟨true, .lane⟩ .i32 (some 31)),
    (0b0_00_01000_001010_001_00_0_0_000_00000000, .bitClz ⟨false, .lane⟩ .n32 none),
    (0b1_00_01000_001011_000_00_0_1_000_10000000, .bitCtz ⟨true, .lane⟩ .i32 (some 128)),
    (0b0_01_01000_001100_001_00_0_1_000_00011111, .bitBfe ⟨false, .warp⟩ .n32 (some 31)),
    (0b1_01_01000_001101_000_00_0_0_000_00000000, .bitBfi ⟨true, .warp⟩ .i32 none),
    (0b0_01_01000_001110_001_00_0_1_000_10000000, .bitBrev ⟨false, .warp⟩ .n32 (some 128)),
    (0b0_00_01000_001111_000_00_0_0_000_11101000, .bitLop3 ⟨false, .lane⟩ .i32 0xE8)] = true := by decide +kernel

/-- TRN words (R108, R113), field by field from bit 31 down. -/
theorem test_decode_trn : decodesAll [
    (0b0_00_01001_000000_010_00_0_0_000_00000000, .trnRcp ⟨false, .lane⟩ .f32 none),
    (0b0_00_01001_000001_011_00_0_1_000_00000011, .trnRsq ⟨false, .lane⟩ .bf16x2 (some 3)),
    (0b1_00_01001_000010_010_00_0_0_000_00000000, .trnEx2 ⟨true, .lane⟩ .f32 none),
    (0b1_00_01001_000011_011_00_0_1_000_00000011, .trnLg2 ⟨true, .lane⟩ .bf16x2 (some 3)),
    (0b0_00_01001_000100_010_00_0_0_000_00000000, .trnSinp ⟨false, .lane⟩ .f32 none),
    (0b0_00_01001_000101_011_00_0_1_000_00000011, .trnCosp ⟨false, .lane⟩ .bf16x2 (some 3)),
    (0b1_00_01001_000110_010_00_0_0_000_00000000, .trnTanh ⟨true, .lane⟩ .f32 none),
    (0b1_00_01001_000111_011_00_0_1_000_00000011, .trnSigm ⟨true, .lane⟩ .bf16x2 (some 3))] = true := by decide +kernel

/-- LEGACY words (R108, R44, R112), field by field from bit 31 down. -/
theorem test_decode_legacy : decodesAll [
    (0b0_00_11011_000000_001_00_0_1_000_00000011, .mul24 ⟨false, .lane⟩ .n32 (some 3)),
    (0b1_00_11011_000001_000_00_1_0_000_00000000, .mad24 ⟨true, .lane⟩ .i32 true none),
    (0b0_00_11011_000010_001_00_0_0_000_00000000, .fdot4 ⟨false, .lane⟩ .n32 false none)] = true := by decide +kernel

/-- STK words (R108, R114, R115), field by field from bit 31 down. -/
theorem test_decode_stk : decodesAll [
    (0b0_00_00001_0000_00_00_00000000_00000000, .dup ⟨false, .lane⟩),
    (0b1_00_00001_0001_00_00_00000000_00000000, .dup2 ⟨true, .lane⟩),
    (0b0_01_00001_0010_00_00_00000000_00000000, .drop ⟨false, .warp⟩),
    (0b0_00_00001_0100_00_00_00000000_00000000, .swap ⟨false, .lane⟩),
    (0b1_00_00001_0101_00_00_00000000_00000000, .swap2 ⟨true, .lane⟩),
    (0b0_01_00001_0110_00_00_00000000_00000000, .over ⟨false, .warp⟩),
    (0b1_01_00001_0111_00_00_00000000_00000000, .nip ⟨true, .warp⟩),
    (0b0_00_00001_1000_00_00_00000000_00000000, .tuck ⟨false, .lane⟩),
    (0b1_00_00001_1001_00_00_00000000_00000000, .rot ⟨true, .lane⟩),
    (0b0_00_00001_1100_00_00_00000000_00000000, .depth ⟨false, .lane⟩),
    (0b0_00_00001_0011_00_00_00000000_11111111, .dropn ⟨false, .lane⟩ 255),
    (0b0_01_00001_1010_00_00_00000000_00000000, .pick ⟨false, .warp⟩ 0),
    (0b1_00_00001_1011_00_00_00000000_11001000, .roll ⟨true, .lane⟩ 200)] = true := by decide +kernel

/-- LOC words (R108, R114, R115), field by field from bit 31 down. -/
theorem test_decode_loc : decodesAll [
    (0b0_00_00010_0000_10_00_11111111_00000000, .push ⟨false, .lane⟩ .m 255),
    (0b1_00_00010_0001_01_00_00001111_00000000, .pop ⟨true, .lane⟩ .o 15),
    (0b0_00_00010_0010_00_00_00000111_00000000, .keep ⟨false, .lane⟩ .t 7),
    (0b1_10_00010_0011_01_00_00000111_00000000, .xch ⟨true, .set⟩ .o 7),
    (0b0_00_00010_0100_11_00_00000000_11000111, .pushi ⟨false, .lane⟩ .bf16x2 0xC7),
    (0b0_01_00010_0101_11_00_00110000_00010000, .pushn ⟨false, .warp⟩ .w 48 16),
    (0b0_00_00010_0110_01_00_00000001_00001111, .popn ⟨false, .lane⟩ .o 1 15)] = true := by decide +kernel

/-- CTL words (R108, R116), field by field from bit 31 down. -/
theorem test_decode_ctl : decodesAll [
    (0b0_00_01010_0000_0000_1111111111111011, .bra ⟨false, .lane⟩ 0xFFFB),
    (0b0_01_01010_0001_0000_0111111111111111, .bz ⟨false, .warp⟩ 0x7FFF),
    (0b1_00_01010_0010_0000_1000000000000000, .bnz ⟨true, .lane⟩ 0x8000),
    (0b0_00_01010_0011_0000_0000000100100011, .call ⟨false, .lane⟩ 0x0123),
    (0b0_00_01010_0100_0000_0000000000000000, .ret ⟨false, .lane⟩),
    (0b1_01_01010_0101_0000_0000000000000000, .jx ⟨true, .warp⟩),
    (0b1_00_01010_0110_0000_0000000000000000, .exit ⟨true, .lane⟩)] = true := by decide +kernel

/-- PATH words (R108, R116), field by field from bit 31 down. -/
theorem test_decode_path : decodesAll [
    (0b0_00_01011_0000_0000_1111111111111110, .fork ⟨false, .lane⟩ 0xFFFE),
    (0b1_00_01011_0001_1101_0000000000000000, .join ⟨true, .lane⟩ 0xD),
    (0b1_00_01011_0010_1111_0000000000000000, .reform ⟨true, .lane⟩ 15),
    (0b1_00_01011_0011_0000_0000000000000000, .rehome ⟨true, .lane⟩),
    (0b0_00_01011_0100_0000_0000000000000000, .umerge ⟨false, .lane⟩ .low),
    (0b0_00_01011_0100_0001_0000000000000000, .umerge ⟨false, .lane⟩ .high),
    (0b0_00_01011_0100_0010_0000000000000000, .umerge ⟨false, .lane⟩ .fault)] = true := by decide +kernel

/-- SYS words (R108, R117-R119), field by field from bit 31 down. -/
theorem test_decode_sys : decodesAll [
    (0b1_11_00000_000000_000_000_1001_00000000, .nop ⟨true, .blk⟩ 9),
    (0b0_00_00000_000001_000_000_0000_11111111, .trap ⟨false, .lane⟩ 255 0),
    (0b1_00_00000_000010_000_000_0000_00000001, .brk ⟨true, .lane⟩ 1 0),
    (0b1_10_00000_000001_000_000_0011_00000111, .trap ⟨true, .set⟩ 7 3),
    (0b0_01_00000_000011_000_000_0000_00000000, .yield ⟨false, .warp⟩ 0),
    (0b0_00_00000_000100_000_000_0000_00000000, .get ⟨false, .lane⟩ .lane 0),
    (0b0_00_00000_000100_000_000_0000_00000001, .get ⟨false, .lane⟩ .quad 0),
    (0b0_00_00000_000100_000_000_0000_00000010, .get ⟨false, .lane⟩ .warp 0),
    (0b0_00_00000_000100_000_000_0000_00000011, .get ⟨false, .lane⟩ .set 0),
    (0b0_00_00000_000100_000_000_0000_00000100, .get ⟨false, .lane⟩ .block 0),
    (0b0_00_00000_000100_000_000_0000_00000101, .get ⟨false, .lane⟩ .gang 0),
    (0b0_00_00000_000100_000_000_0000_00000110, .get ⟨false, .lane⟩ .batch 0),
    (0b0_00_00000_000100_000_000_0000_00000111, .get ⟨false, .lane⟩ .record 0),
    (0b0_00_00000_000100_000_000_0000_00001000, .get ⟨false, .lane⟩ .depth 0),
    (0b0_00_00000_000100_000_000_0000_00001001, .get ⟨false, .lane⟩ .udepth 0),
    (0b0_00_00000_000100_000_000_0000_00001010, .get ⟨false, .lane⟩ .core 0),
    (0b0_00_00000_000100_000_000_0000_00001011, .get ⟨false, .lane⟩ .clus 0),
    (0b0_00_00000_000100_000_000_0000_00001100, .get ⟨false, .lane⟩ .stall 0),
    (0b0_00_00000_000100_000_000_0000_00010101, .get ⟨false, .lane⟩ (.cpwp 5) 0),
    (0b0_01_00000_000101_000_000_0000_00001100, .put ⟨false, .warp⟩ 0),
    (0b0_00_00000_000110_000_000_0000_11111111, .sleep ⟨false, .lane⟩ 255 0)] = true := by decide +kernel

/-- QWX words (R108, R117, R118), field by field from bit 31 down. -/
theorem test_decode_qwx : decodesAll [
    (0b0_00_01100_000000_000_000_0000_00000011, .qswp ⟨false, .lane⟩ 3 0),
    (0b1_00_01100_000001_000_000_0000_00000010, .qbc ⟨true, .lane⟩ 2 0),
    (0b0_00_01100_000010_011_000_0000_00000000, .qadd ⟨false, .lane⟩ .bf16x2 0),
    (0b0_00_01100_000011_000_000_0000_00000000, .shfl ⟨false, .lane⟩ 0),
    (0b0_00_01100_000100_000_000_0000_00011111, .shfx ⟨false, .lane⟩ 31 0),
    (0b0_00_01100_000101_000_000_0000_00000001, .shup ⟨false, .lane⟩ 1 0),
    (0b1_00_01100_000110_000_000_0000_00010001, .shdn ⟨true, .lane⟩ 17 0),
    (0b0_01_01100_000111_000_000_0000_00000000, .any ⟨false, .warp⟩ 0),
    (0b0_00_01100_001000_000_000_0000_00000000, .all ⟨false, .lane⟩ 0),
    (0b0_01_01100_001001_000_000_0000_00000000, .ballot ⟨false, .warp⟩ 0),
    (0b0_00_01100_001010_000_000_0000_00000000, .matchLanes ⟨false, .lane⟩ 0),
    (0b0_00_01100_001011_000_000_0000_00011110, .wbc ⟨false, .lane⟩ 30 0)] = true := by decide +kernel

/-- SCP words (R108, R117, R118), field by field from bit 31 down. -/
theorem test_decode_scp : decodesAll [
    (0b1_10_01101_000000_000_000_1111_00000000, .sync ⟨true, .set⟩ 15),
    (0b1_11_01101_000001_000_000_0000_00000000, .arrive ⟨true, .blk⟩ 0),
    (0b1_11_01101_000010_000_000_0001_00000000, .await ⟨true, .blk⟩ 1),
    (0b1_10_01101_000011_001_101_0010_00000000, .red ⟨true, .set⟩ .n32 .xor 2),
    (0b0_01_01101_000100_010_001_0000_00000000, .scan ⟨false, .warp⟩ .f32 .min 0),
    (0b1_11_01101_000101_000_011_0000_00000000, .segred ⟨true, .blk⟩ .i32 .and 0),
    (0b1_10_01101_000110_011_010_1000_00000000, .segscan ⟨true, .set⟩ .bf16x2 .max 8),
    (0b1_11_01101_000111_000_000_0011_11111110, .sbc ⟨true, .blk⟩ 3 254)] = true := by decide +kernel

/-- LDS words (R108, R120, R121), field by field from bit 31 down. -/
theorem test_decode_lds : decodesAll [
    (0b0_00_01110_0000_000_1101_010_01_001_00000, .ld ⟨false, .lane⟩ ⟨0, 13, 2⟩ true .strm),
    (0b0_01_01110_0001_101_0000_000_00_010_00000, .ldf ⟨false, .warp⟩ ⟨5, 0, 0⟩ false .keep),
    (0b1_00_01110_0010_111_0000_000_01_011_00000, .ldsp ⟨true, .lane⟩ ⟨7, 0, 0⟩ true .nol1),
    (0b0_00_01110_0011_000_0001_111_00_000_10000, .ldn ⟨false, .lane⟩ ⟨0, 1, 7⟩ false .none 16),
    (0b0_00_01110_0100_000_0000_000_00_000_01001, .qpop ⟨false, .lane⟩ 9),
    (0b0_00_01110_0101_010_0000_000_00_000_00000, .pref ⟨false, .lane⟩ ⟨2, 0, 0⟩ .none)] = true := by decide +kernel

/-- STS words (R108, R120, R121), field by field from bit 31 down. -/
theorem test_decode_sts : decodesAll [
    (0b0_00_01111_0000_001_0000_000_10_000_00000, .st ⟨false, .lane⟩ ⟨1, 0, 0⟩ true .none),
    (0b0_01_01111_0001_000_0010_001_00_001_00000, .stf ⟨false, .warp⟩ ⟨0, 2, 1⟩ false .strm),
    (0b1_00_01111_0010_011_0000_000_00_000_00000, .stsp ⟨true, .lane⟩ ⟨3, 0, 0⟩ false .none),
    (0b0_00_01111_0011_000_1111_100_10_010_00101, .stn ⟨false, .lane⟩ ⟨0, 15, 4⟩ true .keep 5)] = true := by decide +kernel

/-- ATM words (R108, R120, R121), field by field from bit 31 down. -/
theorem test_decode_atm : decodesAll [
    (0b0_00_10000_0000_001_0000_000_00_000_00000, .atom ⟨false, .lane⟩ ⟨1, 0, 0⟩ .plain .add),
    (0b0_00_10000_0000_001_0000_000_01_000_00001, .atom ⟨false, .lane⟩ ⟨1, 0, 0⟩ .acq .min),
    (0b0_00_10000_0000_001_0000_000_10_000_00010, .atom ⟨false, .lane⟩ ⟨1, 0, 0⟩ .rel .max),
    (0b0_00_10000_0000_001_0000_000_11_000_00011, .atom ⟨false, .lane⟩ ⟨1, 0, 0⟩ .ar .and),
    (0b0_00_10000_0000_001_0000_000_00_000_00100, .atom ⟨false, .lane⟩ ⟨1, 0, 0⟩ .plain .or),
    (0b0_00_10000_0000_001_0000_000_01_000_00101, .atom ⟨false, .lane⟩ ⟨1, 0, 0⟩ .acq .xor),
    (0b0_00_10000_0000_001_0000_000_10_000_00110, .atom ⟨false, .lane⟩ ⟨1, 0, 0⟩ .rel .xch),
    (0b0_00_10000_0001_000_0110_011_11_000_00000, .cas ⟨false, .lane⟩ ⟨0, 6, 3⟩ .ar),
    (0b1_00_10000_0010_100_0000_000_10_000_00101, .ared ⟨true, .lane⟩ ⟨4, 0, 0⟩ .rel .xor)] = true := by decide +kernel

/-- FEN words (R108, R121), field by field from bit 31 down. -/
theorem test_decode_fen : decodesAll [
    (0b0_00_10001_0000_000_0000_000_01_000_00000, .fence ⟨false, .lane⟩ .acq),
    (0b0_00_10001_0000_000_0000_000_10_000_00000, .fence ⟨false, .lane⟩ .rel),
    (0b1_00_10001_0000_000_0000_000_11_000_00000, .fence ⟨true, .lane⟩ .ar),
    (0b0_00_10001_0001_000_0000_000_11_000_00000, .fenceSc ⟨false, .lane⟩),
    (0b0_00_10001_0010_000_0000_000_00_100_00101, .xfence ⟨false, .lane⟩ .coll .sampler),
    (0b0_00_10001_0010_000_0000_000_00_011_00010, .xfence ⟨false, .lane⟩ .matrix .gather)] = true := by decide +kernel

/-- CPY words (R108, R122), field by field from bit 31 down. -/
theorem test_decode_cpy : decodesAll [
    (0b0_00_10010_0000_0111_1111_0001_00001110, .cpy ⟨false, .lane⟩ 7 15 1 true 6),
    (0b0_00_10010_0001_0010_0011_0100_00000101, .cpyo ⟨false, .lane⟩ 2 3 4 false 5),
    (0b1_00_10010_0010_0110_0000_0000_00000000, .cpwait ⟨true, .lane⟩ 6),
    (0b0_00_10010_0011_0001_0000_0000_00000000, .cpstat ⟨false, .lane⟩ 1)] = true := by decide +kernel

/-- GTH words (R108, R122), field by field from bit 31 down. -/
theorem test_decode_gth : decodesAll [
    (0b0_00_10011_0000_1111_0010_1001_00000111, .gath ⟨false, .lane⟩ 15 2 9 7),
    (0b0_00_10011_0001_0011_1010_0100_00000001, .scat ⟨false, .lane⟩ 3 10 4 1),
    (0b0_00_10011_0010_1000_0000_0000_00000000, .gwait ⟨false, .lane⟩ 8)] = true := by decide +kernel

/-- COL words (R108, R122), field by field from bit 31 down. -/
theorem test_decode_col : decodesAll [
    (0b0_00_10100_0000_1110_0001_0010_00000100, .cred ⟨false, .lane⟩ 14 1 2 .or),
    (0b0_00_10100_0001_0101_0110_0111_00000000, .cbc ⟨false, .lane⟩ 5 6 7),
    (0b0_00_10100_0010_1000_1001_1010_00000000, .cag ⟨false, .lane⟩ 8 9 10),
    (0b1_00_10100_0011_1011_0000_0000_00000000, .cwait ⟨true, .lane⟩ 11),
    (0b0_00_10100_0100_1100_1101_0000_00000000, .csend ⟨false, .lane⟩ 12 13),
    (0b0_00_10100_0101_0000_0000_0000_11111010, .mtag ⟨false, .lane⟩ 250)] = true := by decide +kernel

/-- REC words (R108, R122), field by field from bit 31 down. -/
theorem test_decode_rec : decodesAll [
    (0b0_00_10101_0000_0000_0000_0000_00000111, .emit ⟨false, .lane⟩ 7),
    (0b0_00_10101_0001_0000_0000_0000_00111111, .recput ⟨false, .lane⟩ 63),
    (0b0_00_10101_0010_0000_0000_0000_00000000, .commit ⟨false, .lane⟩),
    (0b1_00_10101_0011_0000_0000_0000_00000000, .abandon ⟨true, .lane⟩),
    (0b0_00_10101_0100_0000_0000_0000_00100000, .recget ⟨false, .lane⟩ 32)] = true := by decide +kernel

/-- SMP words (R108, R122), field by field from bit 31 down. -/
theorem test_decode_smp : decodesAll [
    (0b0_00_11001_0000_0000_1011_0000_00000000, .smp ⟨false, .lane⟩ 11),
    (0b1_00_11001_0001_0000_0000_0000_00000000, .swait ⟨true, .lane⟩),
    (0b0_00_11001_0010_0000_0000_0000_00000000, .sstat ⟨false, .lane⟩)] = true := by decide +kernel

/-- MMA words (R108, R123), field by field from bit 31 down. -/
theorem test_decode_mma : decodesAll [
    (0b0_00_10110_0000_1_0_110_101_1100_00000000, .mma ⟨false, .lane⟩ true 6 5 12),
    (0b0_00_10110_0001_0_1_001_111_0011_10000001, .mmas ⟨false, .lane⟩ false 1 7 3 0x81),
    (0b0_00_10110_0010_1_0_011_000_0000_00000000, .mtab ⟨false, .lane⟩ true 3),
    (0b0_00_10110_0011_0_1_000_010_1001_00000000, .mlut ⟨false, .lane⟩ true 2 9),
    (0b0_00_10110_0011_0_0_000_001_1000_00000000, .mlut ⟨false, .lane⟩ false 1 8),
    (0b1_00_10110_0100_0_0_000_100_0000_00000000, .mclr ⟨true, .lane⟩ 4)] = true := by decide +kernel

/-- MDR words (R108, R123), field by field from bit 31 down. -/
theorem test_decode_mdr : decodesAll [
    (0b0_00_11000_0000_0_0_000_110_0000_00000000, .mdrain ⟨false, .lane⟩ 6),
    (0b1_00_11000_0001_0_0_010_011_0100_00000000, .mdst ⟨true, .lane⟩ 2 3 4),
    (0b0_00_11000_0010_0_0_111_000_1111_00000000, .mld ⟨false, .lane⟩ 7 0 15),
    (0b0_00_11000_0011_0_0_000_001_0000_00000000, .mchk ⟨false, .lane⟩ 1)] = true := by decide +kernel

/-- PRV words (R108, R124), field by field from bit 31 down. -/
theorem test_decode_prv : decodesAll [
    (0b0_00_11010_0000_101_1110_00000_00000000, .spx ⟨false, .lane⟩ 5 14),
    (0b0_00_11010_0001_000_0000_00100_00000000, .tlbi ⟨false, .lane⟩ 4),
    (0b1_00_11010_0010_000_0000_00000_00000000, .ctxs ⟨true, .lane⟩),
    (0b0_00_11010_0011_000_0000_00000_00000000, .ctxl ⟨false, .lane⟩),
    (0b0_00_11010_0100_000_0000_00000_00000000, .mapc ⟨false, .lane⟩),
    (0b0_00_11010_0101_000_0000_01111_00000000, .rdbk ⟨false, .lane⟩ 15),
    (0b1_00_11010_0110_000_0000_00001_00000000, .wrbk ⟨true, .lane⟩ 1)] = true := by decide +kernel

/-- Words that are no defined code point (R109, R110, R113-R124): each breaks one rule of the tables. -/
theorem test_unassigned : ([
    0x04000000 /- TY of FAR is not f32 -/,
    0x03002000 /- IAR with RM -/,
    0x04010005 /- K = 0 and a constant -/,
    0b000_00011_001100_000000000000000000 /- IAR FN beyond the table -/,
    0b000_00011_000111_000_00_1_000000000000 /- SAT on min -/,
    0b000_00100_000000_010_00_00_001_00000000 /- AUX outside CVT -/,
    0b000_00110_000000_010_0000_010_00000000 /- cvt to its own type -/,
    0b000_00001_1101_00000000000000000000 /- STK OP 0xD -/,
    0b000_00010_0000_01_00_00010000_00000000 /- o16 -/,
    0b000_00010_0110_00_00_00000000_00000001 /- popn of tier t -/,
    0b000_00010_0101_11_00_00111100_00000101 /- pushn beyond the tier -/,
    0b000_00001_0000_00_01_0000000000000000 /- bits 17:16 of Format L -/,
    0b000_01010_0100_0000_0000000000000001 /- ret with an offset -/,
    0b000_01011_0100_0011_0000000000000000 /- umerge policy 3 -/,
    0b000_00000_000000_000_000_0001_00000000 /- WM at lane scope -/,
    0b1_10_01101_000011_000_110_000000000000 /- OPX 6 -/,
    0b1_10_01101_000011_010_011_000000000000 /- and of f32 -/,
    0b000_00000_000100_0000000000_00001101 /- selector 0x0D -/,
    0b0_01_00000_000101_0000000000_00000000 /- put of another selector -/,
    0b000_01110_0000_001_0001_001_0000000000 /- slot and shape -/,
    0b000_01110_0000_0000000000_00_100_00000 /- HINT 4 -/,
    0b000_01110_0000_0000000000_10_00000000 /- ld.rel -/,
    0b000_01110_0011_000000000000000_10001 /- ldn #17 -/,
    0b000_10001_0010_000000000000_010_00010 /- xfence of one class -/,
    0b000_10010_0000_1000_0000000000000000 /- CPY channel 8 -/,
    0b000_10011_0000_000000000000_00001000 /- gath with .ro -/,
    0b000_10100_0000_000000000000_00000110 /- cred operator 6 -/,
    0b000_10101_0000_000000000000_00001000 /- emit edge 8 -/,
    0b000_10110_0001_0_1_000000000000000000 /- mmas without lanes -/,
    0b000_10110_0000_0_1_000000000000000000 /- mma with SP -/,
    0b000_10111_000000000000000000000000 /- group 0x17 -/,
    0b000_11000_0100_00000000000000000000 /- MDR OP 4 -/,
    0b000_11001_0011_00000000000000000000 /- SMP OP 3 -/,
    0b000_11010_0001_0000000_00101_00000000 /- tlbi kind 5 -/,
    0b000_11010_0101_0000000_10000_00000000 /- rdbk space 16 -/,
    0b000_11011_000011_000000000000000000 /- legacy FN 3 -/,
    0b000_11100_000000000000000000000000 /- group 0x1C -/,
    0b000_11111_000000000000000000000000 /- group 0x1F -/] : List Word).all (fun w => decodeWord w == .unassignedCodePoint w) = true := by decide +kernel
def hdr (sc : Scope) : Hdr := ⟨false, sc⟩

/-- Instruction terms that the encoding does not admit, one group for each check of R113-R124. -/
theorem test_ill_formed_cvt : (Instr.cvt (hdr .lane) .f32 .f32 .rn false none).wf = false := by decide
theorem test_ill_formed_counts : [Instr.dropn (hdr .lane) 0, .sleep (hdr .lane) 0 0, .qswp (hdr .lane) 0 0, .shfx (hdr .lane) 0 0,
    .shup (hdr .lane) 0 0, .shdn (hdr .lane) 0 0, .yield (hdr .lane) 1, .trap (hdr .warp) 0 2, .qbc (hdr .lane) 1 4].all (fun i => !i.wf) = true := by decide
theorem test_ill_formed_cells : [Instr.push (hdr .lane) .t 8, .pop (hdr .lane) .o 16, .keep (hdr .warp) .w 64,
    .xch ⟨true, .set⟩ .o 8].all (fun i => !i.wf) = true := by decide
theorem test_ill_formed_spans : [Instr.pushn (hdr .lane) .t 0 1, .pushn (hdr .lane) .m 0 0, .popn (hdr .lane) .m 0 17,
    .popn (hdr .lane) .o 10 7].all (fun i => !i.wf) = true := by decide
theorem test_ill_formed_membership : [Instr.nop (hdr .lane) 1, .sync (hdr .warp) 1, .arrive (hdr .lane) 2, .await (hdr .warp) 15,
    .red (hdr .warp) .i32 .add 1, .sbc (hdr .lane) 1 0].all (fun i => !i.wf) = true := by decide
theorem test_ill_formed_operators : [Instr.red ⟨true, .set⟩ .f32 .and 0, .scan (hdr .warp) .bf16x2 .or 0,
    .segred (hdr .warp) .f32 .xor 0, .segscan (hdr .warp) .bf16x2 .and 0].all (fun i => !i.wf) = true := by decide
theorem test_ill_formed_element : (Instr.sbc (hdr .warp) 0 32).wf = false := by decide
theorem test_ill_formed_loads : [Instr.ld (hdr .lane) ⟨1, 1, 1⟩ false .none, .ldf (hdr .lane) ⟨0, 1, 0⟩ false .none,
    .ldsp (hdr .lane) ⟨2, 0, 3⟩ false .none, .pref (hdr .lane) ⟨0, 9, 0⟩ .none, .ldn (hdr .lane) ⟨0, 0, 0⟩ false .none 0,
    .ldn (hdr .lane) ⟨0, 2, 0⟩ false .none 1, .qpop (hdr .lane) 17].all (fun i => !i.wf) = true := by decide
theorem test_ill_formed_stores : [Instr.st (hdr .lane) ⟨7, 7, 7⟩ false .none, .stf (hdr .lane) ⟨0, 1, 0⟩ false .none,
    .stsp (hdr .lane) ⟨1, 0, 1⟩ false .none, .stn (hdr .lane) ⟨0, 0, 0⟩ false .none 17, .atom (hdr .lane) ⟨0, 3, 0⟩ .plain .add,
    .cas (hdr .lane) ⟨0, 3, 0⟩ .plain, .ared (hdr .lane) ⟨3, 3, 1⟩ .plain .add].all (fun i => !i.wf) = true := by decide
theorem test_ill_formed_fences : [Instr.fence (hdr .lane) .plain, .xfence (hdr .lane) .copy .copy].all (fun i => !i.wf) = true := by
  decide
theorem test_ill_formed_masks : [Instr.mmas (hdr .lane) false 0 0 0 0, .tlbi (hdr .lane) 5, .rdbk (hdr .lane) 16,
    .wrbk (hdr .lane) 31].all (fun i => !i.wf) = true := by decide

/-- Device steps of units that the package does not have. -/
theorem test_ill_formed_nodes : [Event.nodeEnable ⟨48, 0⟩ 0, .nodeDisable ⟨0, 3⟩ 0, .commitArrival ⟨0, 0⟩ 4096 0 .host,
    .launchDecision ⟨0, 0⟩ 0 4, .coalescingTimerExpiry ⟨47, 2⟩ 4095 4].all (fun e => !e.wf) = true := by decide
theorem test_ill_formed_units : [Event.portChoice 3072 false, .warpFormation 3072, .matrixPassStart 3072, .matrixPassEnd 3072,
    .matrixQueueRoom 3072, .gatherCommandComplete 768, .samplerRequest 4, .legacyRequestServe 4, .legacyQueueRoom 4,
    .blockRequeuePlace 4, .gangRelaunch 4].all (fun e => !e.wf) = true := by decide
theorem test_ill_formed_dies : [Event.dirRemoteLoad 4 0, .dirRemoteStore 4 0 0, .dirEvict 4 0, .snoopFilterRecall 4 0,
    .lmClean 48 0 true, .lmInvalidate 0 4 true, .lmCleanInvalidate 48 4 false, .lineMaintComplete 0 4, .pfmWrite 0 16 0,
    .bindValidate 48 0 0, .coreReleaseWrite 96 0, .darkFrameTest 96 0 0, .clusterIdleGate 96, .flitReplay 128,
    .fabricPortTraining 128 true].all (fun e => !e.wf) = true := by decide

/-! ## Single instructions -/

/-- Cells that are ready. -/
def cells (l : List Word) : List Cell := l.map Cell.ofWord

/-- The stand-in's block (log 9) with four live lanes: lane k's stack is `f k` and the uniform stack `u`, tops first; lane k's
o cells hold 100 k + i, its m cells 1,000 k + i, and the w cells 5,000 + i. -/
def four (f : Nat → List Word) (u : List Word) : State :=
  let s := { State.reset.withBoot 0 with cur := some (0, 1), cycle := 100 }
  let s := (upto 4).foldl (fun s k => s.modThread 0 k (fun t => { t with
    cls := .live, stack := cells (f k), o := (upto 16).map (fun i => .ofWord (wd (100 * k + i)))
    m := (upto 8).map (fun i => .ofWord (wd (1000 * k + i))) })) s
  s.modPath 0 1 (fun p => { p with
    ust := cells u, run := .start 77 0 100, w := (upto 64).map (fun i => .ofWord (wd (5000 + i))) })

/-- The state after an instruction that answers one. -/
def after (i : Instr) (s : State) : State :=
  match exec i s with
  | .next t => t
  | _ => State.reset

def laneOf (s : State) (k : Nat) : Thread := (s.thread? 0 k).getD (freshThread 0 0 .helper 0 0)
def pathOf (s : State) : Path := (s.path? 0 1).getD (freshPath 0 0 false [] 0 [] 0)

/-- The bits of lane k's stack, top first. -/
def stackOf (s : State) (k : Nat) : List Word := (laneOf s k).stack.map (·.val.bits)
def ustOf (s : State) : List Word := (pathOf s).ust.map (·.val.bits)

/-- The lane's stack that an instruction leaves of a stack. -/
def on (i : Instr) (st : List Word) : List Word := stackOf (after i (four (fun _ => st) [])) 0

/-- Every instruction leaves of its stack (top first) the expected one. -/
def leaves (l : List (Instr × List Word × List Word)) : Bool := l.all (fun e => on e.1 e.2.1 == e.2.2)

def L : Hdr := hdr .lane
def W : Hdr := hdr .warp

/-- R188's results at the edges, and R127's code for −1. -/
theorem test_iar : leaves [
    (.iarAdd L .i32 false none, [1, 0xFFFFFFFF], [0]), (.iarAdd L .n32 true (some 0xC0), [3], [0xFFFFFFFF]),
    (.iarSub L .i32 false none, [5, 3], [0xFFFFFFFE]), (.iarSub L .n32 true none, [5, 3], [0]),
    (.iarMul L .i32 true none, [0x40000000, 2], [0x7FFFFFFF]), (.iarMul L .n32 false none, [0x10001, 0x10000], [0x10000]),
    (.iarMulhi L .i32 none, [0xFFFFFFFF, 0xFFFFFFFF], [0]), (.iarMulhi L .n32 none, [0xFFFFFFFF, 0xFFFFFFFF], [0xFFFFFFFE]),
    (.iarMad L .i32 false none, [5, 3, 7, 9], [26, 9]), (.iarNeg L .i32 true none, [0x80000000], [0x7FFFFFFF]),
    (.iarNeg L .n32 true none, [7], [0]), (.iarAbs L .i32 false none, [0x80000000], [0x80000000]),
    (.iarMin L .i32 none, [0xFFFFFFFF, 1], [0xFFFFFFFF]), (.iarMin L .n32 none, [0xFFFFFFFF, 1], [1]),
    (.iarMax L .n32 (some 7), [9], [9]), (.iarClamp L .i32 none, [3, 9, 5], [3])] = true := by decide +kernel

theorem test_div_rem : leaves [
    (.iarDiv L .i32 none, [2, 0xFFFFFFF9], [0xFFFFFFFD]), (.iarDiv L .i32 none, [0xFFFFFFFF, 0x80000000], [0x80000000]),
    (.iarRem L .i32 none, [2, 0xFFFFFFF9], [0xFFFFFFFF]), (.iarRem L .i32 none, [0xFFFFFFFF, 0x80000000], [0])] = true := by
  decide +kernel

/-- The case table of R189: divisors 2, 0, −1, 0 under dividends 7, 5, 6, 5. -/
theorem test_div_by_zero :
    let s := after (.iarDiv L .i32 none) (four (fun k => [[2, 0, 0xFFFFFFFF, 0].getD k 0, [7, 5, 6, 5].getD k 0]) [])
    (stackOf s 0, stackOf s 2) = ([3], [0xFFFFFFFA]) ∧ (stackOf s 1, (laneOf s 1).run, (laneOf s 1).fault.cause) =
      ([0, 5], .stopped, 0x0F) ∧ (laneOf s 3).run = .stopped ∧ (laneOf s 0).run = .running := by decide +kernel

/-- R191, R192, the worked polynomial's first step (0.125 × 2 + 0.25), and R126's code for 3. -/
theorem test_far : leaves [
    (.farAdd L .ru false none, [0x33800000, 0x3F800000], [0x3F800001]),
    (.farAdd L .rn false none, [0x33800000, 0x3F800000], [0x3F800000]), (.farSub L .rn false none, [0x3F800000, 0x3F800000], [0]),
    (.farMul L .rn true none, [0x40000000, 0x3F800000], [0x3F800000]), (.farFma L .rn false (some 0xC6), [0x3E000000, 0x40000000], [0x3F000000]),
    (.farNeg L .rn none, [0xFF800001], [0x7FC00000]), (.farAbs L .rn none, [0x80000000], [0]),
    (.farMin L .rn none, [0x80000000, 0], [0x80000000]), (.farMax L .rn none, [0x7FC00001, 0x3F800000], [0x3F800000]),
    (.farClamp L .rn none, [0x40000000, 0x3F800000, 0x7FC00000], [0x3F800000]), (.farCsgn L .rn none, [0xFFC00000, 0x40400000], [0xC0400000]),
    (.farDiv L .rn none, [0x40400000, 0x3F800000], [0x3EAAAAAB]), (.farSqrt L .rn none, [0x80000000], [0x80000000]),
    (.farSqrt L .rz none, [0x40000000], [0x3FB504F3]), (.farRint L .rn none, [0x40200000], [0x40000000]),
    (.farFract L .rn none, [0x80000000], [0]), (.farLdexp L .rn (some 3), [0x3F800000], [0x41000000]),
    (.farExpo L .rn none, [1], [0xC3150000])] = true := by decide +kernel

/-- The examples of R193: a = (2.0, 1.0), b = (3.0, −2.0), high half first. -/
theorem test_pair : leaves [
    (.pairDot2 L .rn false none, [0x3F000000, 0x4040C000, 0x40003F80], [0x40900000]),
    (.pairMul L .rn false none, [0x4040C000, 0x40003F80], [0x40C0C000]), (.pairAdd L .rn false none, [0x4040C000, 0x40003F80], [0x40A0BF80]),
    (.pairSub L .rn false none, [0x4040C000, 0x40003F80], [0xBF804040]), (.pairFma L .rn false (some 1), [0x4040C000, 0x40003F80], [0x40E0BF80]),
    (.pairNeg L .rn none, [0x7F810000], [0x7FC08000]), (.pairAbs L .rn none, [0xC0008000], [0x40000000]),
    (.pairMin L .rn none, [0x4040C000, 0x40003F80], [0x4000C000]), (.pairMax L .rn none, [0x4040C000, 0x40003F80], [0x40403F80])] = true := by
  decide +kernel

/-- R170's `pack`, R195, R196. -/
theorem test_cvt : leaves [
    (.cvt L .f32 .i32 .rn false none, [0x40200000], [2]), (.cvt L .f32 .i32 .rn false none, [0xC0600000], [0xFFFFFFFC]),
    (.cvt L .f32 .n32 .rn false none, [0xBECCCCCD], [0]), (.cvt L .f32 .n32 .rn true none, [0xC0600000], [0]),
    (.cvt L .f32 .i32 .rn false none, [0x7FC00000], [0x80000000]), (.cvt L .i32 .n32 .rn true none, [0xFFFFFFFF], [0]),
    (.cvt L .i32 .bf16x2 .rn false none, [3], [0x40404040]), (.cvt L .bf16x2 .f32 .rn false none, [0x3F80C000], [0xC0000000]),
    (.pack L .rz false none, [0x404910FE, 0x3F811000], [0x40493F81]), (.pack L .rn false (some 1), [0], [0x3F800000]),
    (.unlo L .rn none, [0x3F80C000], [0xC0000000]), (.unhi L .rn none, [0x7F810000], [0x7FC00000])] = true := by decide +kernel

/-- R175, R198-R200: −0 equals +0, NaN is unequal to itself, and R200's mask 0x83. -/
theorem test_cmp : leaves [
    (.cmpEq L .f32 none, [0, 0x80000000], [0xFFFFFFFF]), (.cmpNe L .f32 none, [0x7FC00000, 0x7FC00000], [0xFFFFFFFF]),
    (.cmpLt L .i32 none, [1, 0xFFFFFFFF], [0xFFFFFFFF]), (.cmpLt L .n32 none, [1, 0xFFFFFFFF], [0]),
    (.cmpLe L .f32 none, [0x7FC00000, 0], [0]), (.cmpGt L .bf16x2 none, [0x3F804000, 0x40003F80], [0xFFFF0000]),
    (.cmpGe L .n32 none, [5, 5], [0xFFFFFFFF]), (.cmpOrd L .f32 none, [0, 0x7FC00000], [0]),
    (.cmpUnord L .f32 none, [0, 0x7FC00000], [0xFFFFFFFF]), (.sel L .i32 none, [0, 8, 9], [8]),
    (.sel L .bf16x2 none, [0xFFFF0000, 0x11112222, 0x33334444], [0x33332222]), (.fclass L .f32 0x83, [0xFF800000], [0xFFFFFFFF]),
    (.fclass L .f32 0x83, [0x3F800000], [0])] = true := by decide +kernel

/-- The examples of R202. -/
theorem test_bit : leaves [
    (.bitAnd L .i32 none, [12, 10], [8]), (.bitOr L .i32 none, [12, 10], [14]), (.bitXor L .i32 none, [12, 10], [6]),
    (.bitNot L .i32 none, [0], [0xFFFFFFFF]), (.bitAndn L .i32 none, [12, 10], [2]), (.bitShl L .i32 none, [32, 1], [0]),
    (.bitShl L .i32 (some 4), [1], [16]), (.bitShr L .i32 none, [31, 0x80000000], [1]), (.bitSar L .n32 none, [99, 0x80000000], [0xFFFFFFFF]),
    (.bitRot L .i32 none, [36, 0x80000001], [0x18]), (.bitPopc L .i32 none, [0xF0F1], [9]), (.bitClz L .i32 none, [0], [32]),
    (.bitCtz L .i32 none, [8], [3]), (.bitBfe L .i32 none, [8, 8, 0xF0A5], [0xFFFFFFF0]), (.bitBfe L .n32 (some 8), [8, 0xF0A5], [0xF0]),
    (.bitBfi L .i32 none, [8, 28, 0xAB, 0x01234567], [0xB1234567]), (.bitBrev L .i32 none, [1], [0x80000000]),
    (.bitLop3 L .n32 0x96, [1, 3, 5], [7]), (.bitLop3 L .i32 0xE8, [1, 3, 5], [1])] = true := by decide +kernel

/-- The special results of R203 and R204. -/
theorem test_trn : leaves [
    (.trnRcp L .f32 none, [0x80000000], [0xFF800000]), (.trnRsq L .f32 none, [0xBF800000], [0x7FC00000]),
    (.trnEx2 L .f32 none, [0xC3150000], [1]), (.trnLg2 L .f32 none, [0x3F800000], [0]),
    (.trnSinp L .f32 none, [0xBF800000], [0x80000000]), (.trnCosp L .f32 none, [0x3F000000], [0]),
    (.trnTanh L .f32 none, [0x41200000], [0x3F800000]), (.trnSigm L .f32 none, [0xC2D00000], [0]),
    (.trnRcp L .bf16x2 none, [0x40000000], [0x3F007F80])] = true := by decide +kernel

/-- R44: bits 23:0 with their sign, the accumulator whole, four bytes. -/
theorem test_legacy : leaves [
    (.mul24 L .i32 none, [2, 0x01FFFFFF], [0xFFFFFFFE]), (.mul24 L .n32 none, [2, 0x01FFFFFF], [0x01FFFFFE]),
    (.mad24 L .i32 true none, [0x7FFFFFFF, 1, 1], [0x7FFFFFFF]), (.fdot4 L .i32 false none, [10, 0x01010101, 0xFF020304], [18])] = true := by
  decide +kernel

/-- R182, R183. -/
theorem test_stk : leaves [
    (.dup L, [1, 2], [1, 1, 2]), (.dup2 L, [1, 2], [1, 2, 1, 2]), (.drop L, [1, 2], [2]), (.dropn L 2, [1, 2, 3], [3]),
    (.swap L, [1, 2], [2, 1]), (.swap2 L, [4, 3, 2, 1], [2, 1, 4, 3]), (.over L, [1, 2], [2, 1, 2]), (.nip L, [1, 2], [1]),
    (.tuck L, [1, 2], [1, 2, 1]), (.rot L, [3, 2, 1], [1, 3, 2]), (.pick L 2, [1, 2, 3], [3, 1, 2, 3]),
    (.roll L 2, [1, 2, 3, 4], [3, 1, 2, 4]), (.depth L, [7, 7], [2, 7, 7])] = true := by decide +kernel

/-- R127, R184, R185. -/
theorem test_loc : leaves [
    (.push L .t 1, [1, 2], [2, 1, 2]), (.push L .o 5, [1], [5, 1]), (.push L .m 7, [], [7]), (.push L .w 2, [], [5002]),
    (.pop L .t 1, [1, 2], [1]), (.keep L .t 1, [1, 2], [1, 1]), (.xch L .t 1, [1, 2], [2, 1]), (.xch L .o 3, [9], [3]),
    (.pushi L .f32 0xC7, [], [0x3F000000]), (.pushi L .i32 0xC1, [], [0xFFFFFFFE]), (.pushn L .o 4 3, [9], [6, 5, 4, 9])] = true := by
  decide +kernel

/-- `pop` and `popn` leave their cells in the tier (R184). -/
theorem test_pop_popn : let s := after (.popn L .o 4 3) (four (fun _ => [1, 2, 3, 4]) [])
    let t := after (.pop L .m 2) (four (fun _ => [1, 2]) [])
    stackOf s 0 = [4] ∧ (((laneOf s 0).o.drop 4).take 3).map (·.val.bits) = [3, 2, 1] ∧
    stackOf t 0 = [2] ∧ ((laneOf t 0).m.getD 2 (.ofWord 0)).val.bits = 1 := by decide +kernel

/-- Values that lane k pushes for `f k`, in lane order. -/
def across (i : Instr) (f : Nat → List Word) : List (List Word) := (upto 4).map (stackOf (after i (four f [])))

/-- R217, R218 among four lanes; `shdn` keeps a lane's own value where the source is not active. -/
theorem test_qwx :
    across (.qswp L 1 0) (fun k => [wd k]) = [[1], [0], [3], [2]] ∧ across (.qbc L 2 0) (fun k => [wd k]) = [[2], [2], [2], [2]] ∧
    across (.qadd L .i32 0) (fun k => [wd k]) = [[6], [6], [6], [6]] ∧ across (.shfl L 0) (fun k => [wd (3 - k), wd k]) = [[3], [2], [1], [0]] ∧
    across (.shfx L 2 0) (fun k => [wd k]) = [[2], [3], [0], [1]] ∧ across (.shup L 1 0) (fun k => [wd k]) = [[0], [0], [1], [2]] ∧
    across (.shdn L 1 0) (fun k => [wd k]) = [[1], [2], [3], [3]] := by decide +kernel

theorem test_votes :
    across (.any L 0) (fun k => [wd (k / 3)]) = [[0xFFFFFFFF], [0xFFFFFFFF], [0xFFFFFFFF], [0xFFFFFFFF]] ∧
    across (.all L 0) (fun k => [wd k]) = [[0], [0], [0], [0]] ∧ across (.ballot L 0) (fun k => [wd (k % 2)]) = [[10], [10], [10], [10]] ∧
    across (.matchLanes L 0) (fun k => [wd (k / 2)]) = [[3], [3], [12], [12]] ∧ across (.wbc L 3 0) (fun k => [wd k]) = [[3], [3], [3], [3]] ∧
    ustOf (after (.ballot W 0) (four (fun k => [wd (k % 2)]) [])) = [10] := by decide +kernel

/-- R221 at warp scope: prefix sums, and the segments 1 2 | 3 4. -/
theorem test_scp :
    across (.scan W .i32 .add 0) (fun k => [wd (k + 1)]) = [[1], [3], [6], [10]] ∧
    across (.segscan W .i32 .add 0) (fun k => [[1, 0, 1, 0].getD k 0, wd (k + 1)]) = [[1], [3], [3], [7]] ∧
    across (.segred W .i32 .add 0) (fun k => [[1, 0, 1, 0].getD k 0, wd (k + 1)]) = [[3], [3], [7], [7]] ∧
    ustOf (after (.red W .n32 .max 0) (four (fun k => [wd k]) [])) = [3] ∧
    ustOf (after (.sbc W 0 2) (four (fun k => [wd (7 * k)]) [])) = [14] := by decide +kernel

/-- `get` (R180) and `put` (R181). -/
theorem test_get_put :
    (upto 4).map (fun k => (stackOf (after (.get L .lane 0) (four (fun _ => []) [])) k)) = [[0], [1], [2], [3]] ∧
    on (.get L .depth 0) [4, 4] = [2, 4, 4] ∧ ustOf (after (.get W .udepth 0) (four (fun _ => []) [8])) = [1, 8] ∧
    ((tget (after (.put W 0) (four (fun _ => []) [8])).blocks 0).bind (fun b => tget b.stall 0)) = some 8 := by decide +kernel

/-- Transfers from address 0 (R116, R208, R209). -/
theorem test_ctl :
    (pathOf (after (.bra L 0xFFFF) (four (fun _ => []) []))).pc = 0 ∧ (pathOf (after (.bz L 3) (four (fun _ => [0]) []))).pc = 16 ∧
    (pathOf (after (.bnz L 3) (four (fun _ => [0]) []))).pc = 4 ∧ (laneOf (after (.bz L 3) (four (fun k => [wd k]) [])) 2).fault.cause = 8 ∧
    ustOf (after (.call L 4) (four (fun _ => []) [])) = [4] ∧ (pathOf (after (.call L 4) (four (fun _ => []) []))).pc = 20 ∧
    (pathOf (after (.ret L) (four (fun _ => []) [0x40]))).pc = 0x40 ∧ (pathOf (after (.jx L) (four (fun _ => [0x80]) []))).pc = 0x80 ∧
    (laneOf (after (.exit L) (four (fun _ => []) [])) 1).run = .exited := by decide +kernel

/-- `fork` parts the lanes by their operand (R212), `umerge` settles a divided cell (R148, R216), and `trap` stops (R177). -/
theorem test_path :
    let s := after (.fork L 3) (four (fun k => [wd (k % 2)]) [])
    (pathOf s).lanes = [0, 2] ∧ ((s.path? 0 3).map (fun p => (p.lanes, p.pc))) = some ([1, 3], 16) ∧
    ((pathOf (after (.umerge L .high) ((four (fun _ => []) []).modPath 0 1 (fun p =>
      { p with ust := [⟨⟨1, .clean⟩, some ⟨2, .clean⟩, (Cell.ofWord 0).mark, false⟩] })))).ust.map (fun x => (x.val.bits, x.hi))) = [(2, none)] ∧
    ((laneOf (after (.trap L 9 0) (four (fun _ => []) [])) 0).fault.cause, (laneOf (after (.trap L 9 0) (four (fun _ => []) [])) 0).fault.addr)
      = (0x15, 0x109) := by decide +kernel

/-- `nop`, `yield` and `sleep` go on; `sleep #4` holds at least 64 cycles (R179). -/
theorem test_sys : [Instr.nop L 0, .yield L 0, .sleep L 4 0, .fence L .acq, .fenceSc L, .xfence L .copy .thread].all (fun i =>
      (pathOf (after i (four (fun _ => [1]) []))).pc == 4 && stackOf (after i (four (fun _ => [1]) [])) 0 == [1]) = true ∧
    (pathOf (after (.sleep L 4 0) (four (fun _ => []) []))).run.sleep = 64 := by decide +kernel


/-- Reset values of PCAP, IRQM and PFM (R411-R413); a VF sees no row of the PF (R410). -/
theorem test_register_reads : registerRead none 0x33208 State.reset = 2400 ∧ registerRead (some 3) 0x33208 State.reset = 0 ∧
    registerRead (some 3) 0x10504 State.reset = 0xF ∧ registerRead none 0x2043C State.reset = 0xFFFFFFFF := by decide +kernel
/-! ## Hypotheses that are met

`std` is one concrete state, and the theorems `met_<Statement>` show that it, or a state made from it, meets the hypotheses of
that statement, clause by clause. -/

/-- The stand-in's path about to issue an instruction; no cycle has been lost before it. -/
def ctx (s : State) (i : Instr) : Ctx :=
  let b := (tget s.blocks 0).getD (bootBlock 0)
  let p := (tget b.paths 1).getD (freshPath 0 0 false [] 0 [] 0)
  ⟨0, 1, b, p, ⟨p.run.id, slotFor p.run (collectorOf b p i), p.pc⟩, collectorOf b p i⟩

def hasPath (s : State) : Bool := (tget s.blocks 0).isSome && (tget ((tget s.blocks 0).getD (bootBlock 0)).paths 1).isSome

theorem tget_ctx {s : State} (i : Instr) (h : hasPath s = true) :
    tget s.blocks 0 = some (ctx s i).b ∧ tget (ctx s i).b.paths 1 = some (ctx s i).p := by
  simp only [hasPath, Bool.and_eq_true, Option.isSome_iff_exists] at h
  obtain ⟨⟨b, hb⟩, p, hp⟩ := h
  simp [ctx, hb] at hp ⊢
  simp [hp]

def atPortB (s : State) : Bool :=
  let p := (ctx s (.ret L)).p
  hasPath s && s.cur == some (0, 1) && (!p.run.paired || decide (s.cycle ≤ p.run.last))

theorem atPort {s : State} {i : Instr} (h : atPortB s = true) : AtPort s (ctx s i) i := by
  simp only [atPortB, Bool.and_eq_true, beq_iff_eq, Bool.or_eq_true, decide_eq_true_eq, Bool.not_eq_true'] at h
  have hc := tget_ctx i h.1.1
  refine ⟨h.1.2, _, hc.1, hc.2, ?_⟩
  have hl : ∀ n, lostCycles s (ctx s i).p n = 0 := fun n => by
    unfold lostCycles
    rcases h.2 with hp | hp
    · have : (ctx s i).p.run.paired = false := hp
      simp [this]
    · have : s.cycle ≤ (ctx s i).p.run.last := hp
      rw [show s.cycle - (ctx s i).p.run.last = 0 by omega]; simp
  simp only [atIssue, hl, addStall, if_true]
  rfl

def issuingB (s : State) : Bool :=
  let p := (ctx s (.ret L)).p
  atPortB s && p.wait == .issuing && decide (p.run.count < 24) && !s.coh.atsWait

theorem issuing {s : State} {i : Instr} (h : issuingB s = true) : Issuing s (ctx s i) i := by
  simp only [issuingB, Bool.and_eq_true, beq_iff_eq, decide_eq_true_eq, Bool.not_eq_true'] at h
  exact ⟨atPort h.1.1.1, h.1.1.2, h.1.2, h.2⟩

def eachLaneB (c : Ctx) (P : Thread → Bool) : Bool :=
  !c.p.lanes.isEmpty && c.p.lanes.all (fun k => match tget c.b.threads k with
    | some t => P t
    | none => false)

theorem eachLane {c : Ctx} {P : Thread → Bool} {Q : Nat → Thread → Prop} (hq : ∀ k t, P t = true → Q k t)
    (h : eachLaneB c P = true) : EachLane c Q := by
  simp only [eachLaneB, Bool.and_eq_true, List.all_eq_true] at h
  refine ⟨by intro e; simp [e] at h, fun k hk => ?_⟩
  have := h.2 k hk
  split at this
  · exact ⟨_, ‹_›, hq _ _ this⟩
  · cases this

def operandsB (c : Ctx) (ceil n pushes : Nat) (st : List Cell) : Bool :=
  decide (n ≤ st.length) && decide (st.length - n + pushes ≤ ceil)
    && (st.take n).all (fun x => x.hi == none && !c.env.early x.mark && !x.err)

theorem operands {c : Ctx} {ceil n pushes : Nat} {st : List Cell} (h : operandsB c ceil n pushes st = true) :
    Operands c ceil n pushes st := by
  simp only [operandsB, Bool.and_eq_true, decide_eq_true_eq, List.all_eq_true, beq_iff_eq, Bool.not_eq_true'] at h
  exact ⟨h.1.1, h.1.2, fun x hx => ⟨(h.2 x hx).1.1, (h.2 x hx).1.2, (h.2 x hx).2⟩⟩

theorem laneOperands {c : Ctx} {n pushes : Nat}
    (h : eachLaneB c (fun t => operandsB c (laneCeil c.b c.p) n pushes t.stack) = true) :
    EachLane c (fun _ t => Operands c (laneCeil c.b c.p) n pushes t.stack) := eachLane (fun _ _ => operands) h

theorem tget_mem {α : Type} {t : Tab α} {k : Nat} {x : α} (h : tget t k = some x) : (k, x) ∈ t := by
  induction t with
  | nil => cases h
  | cons e r ih =>
    simp only [tget] at h
    split at h
    · cases h; rename_i h1; simp [← h1]
    · exact List.mem_cons_of_mem _ (ih h)

def standsB (s : State) : Bool :=
  let c := ctx s (.ret L)
  hasPath s && eachLaneB c (fun _ => true) && c.b.paths.all (fun e => e.1 == 1 || e.2.lanes.all (fun l => !c.p.lanes.contains l))

theorem standsIn {s : State} {i : Instr} (h : standsB s = true) : Stands s (ctx s i) := by
  simp only [standsB, Bool.and_eq_true, List.all_eq_true, Bool.or_eq_true, beq_iff_eq] at h
  have hc := tget_ctx i h.1.1
  refine ⟨hc.1, hc.2, eachLane (P := fun _ => true) (fun _ _ _ => trivial) h.1.2, fun k q hk hq l hl => ?_⟩
  have := (h.2 _ (tget_mem hq)).resolve_left hk
  have : l ∉ (ctx s (.ret L)).p.lanes := by simpa using this l hl
  exact this

theorem stands {s : State} {i : Instr} (h : standsB s = true) : Stands (counted s (ctx s i)) (ctx s i) := by
  have h1 := standsIn (i := i) h
  refine ⟨?_, h1.path, h1.lanes, h1.alone⟩
  show tget (tmod s.blocks 0 _) 0 = _
  rw [tget_tmod_self, show tget s.blocks 0 = some (ctx s i).b from h1.block]
  rfl

theorem enabled {s : State} {c : Ctx} {l : List Nat} (h : l.all (fun k => s.feature c.b.part k) = true) : Enabled s c l := by
  simpa [Enabled] using h

/-- Four lanes, whose second cells differ; small formats in the first three slots (R21): i32, f32, INT8. -/
def withSnap (s : State) (off n v : Nat) : State :=
  s.modBlock 0 (fun b => { b with launch := { b.launch with
    snap := (upto n).foldl (fun m k => tset m (off + k) (BitVec.ofNat 8 (v / 256 ^ k))) b.launch.snap } })

def std : State := withSnap (withSnap (withSnap (four (fun k => [3, wd k, 5, 6]) [2, 3, 4]) 0x080 1 1) 0x0A0 1 2) 0x0C0 1 6

/-- The hypotheses of a computing form at lane scope, and on the uniform stack. -/
def MeetsAlone (form : Instr → Option Computing) (i : Instr) (s : State) : Prop :=
  ∃ f, form i = some f ∧ Issuing s (ctx s i) i ∧ Enabled s (ctx s i) [0] ∧ (ctx s i).p.finder = false ∧ f.hdr.sc = .lane ∧
    EachLane (ctx s i) (fun _ t => Operands (ctx s i) (laneCeil (ctx s i).b (ctx s i).p) f.pops 1 t.stack)
def MeetsUniform (form : Instr → Option Computing) (i : Instr) (s : State) : Prop :=
  ∃ f, form i = some f ∧ Issuing s (ctx s i) i ∧ Enabled s (ctx s i) [0] ∧ (ctx s i).p.finder = false ∧ f.hdr.sc = .warp ∧
    Operands (ctx s i) 8 f.pops 1 (ctx s i).p.ust

theorem std_issuing : issuingB std = true := by decide +kernel
theorem std_stands : standsB std = true := by decide +kernel


/-! ### The machine -/

theorem answers {o : Host.Outcome State Fault Refusal} (h : (match o with | .next _ => true | _ => false) = true) :
    ∃ t, o = .next t := by
  cases o <;> first | exact ⟨_, rfl⟩ | cases h

def booted (w : Nat) : State := State.reset.withFetchWord 32 w

theorem met_MemoryCanonical : ∃ s t, s.memOk ∧ step s = .next t :=
  (answers (o := step (booted 0x01000000)) (by decide +kernel)).elim fun t h => ⟨_, t, show _ = true by decide +kernel, h⟩

theorem fetched {p : State × Fetched} (h : (match p.2 with | .word _ => !p.1.coh.atsWait | _ => false) = true) :
    ∃ s1 w, p = (s1, .word w) ∧ s1.coh.atsWait = false := by
  obtain ⟨s1, f⟩ := p
  cases f <;> simp_all

/-- The port's holder fetches a word. -/
theorem met_StepIssues_word : ∃ s u b p s1 w, nextPort s = some (u, 0, 1) ∧ (∀ e ∈ s.events.head?, u < e.1) ∧
    tget s.blocks 0 = some b ∧ tget b.paths 1 = some p ∧ p.stops = [] ∧
    fetchWord { s with cycle := max s.cycle u, cur := some (0, 1), due := none } b p.pc = (s1, .word w) ∧
    s1.coh.atsWait = false := by
  have h := tget_ctx (s := booted 0x01000000) (.ret L) (by decide +kernel)
  obtain ⟨s1, w, h1, h2⟩ := fetched (p := fetchWord
    { booted 0x01000000 with cycle := max (booted 0x01000000).cycle 1, cur := some (0, 1), due := none }
    (ctx (booted 0x01000000) (.ret L)).b (ctx (booted 0x01000000) (.ret L)).p.pc) (by decide +kernel)
  exact ⟨booted 0x01000000, 1, _, _, s1, w, by decide +kernel, by decide +kernel, h.1, h.2, by decide +kernel, h1, h2⟩

/-- The port's holder stands at the end of its code section. -/
def atEnd : State := (booted 0).modPath 0 1 (fun p => { p with pc := 0x10000 })
theorem met_StepIssues_end : ∃ s u b p, nextPort s = some (u, 0, 1) ∧ (∀ e ∈ s.events.head?, u < e.1) ∧
    tget s.blocks 0 = some b ∧ tget b.paths 1 = some p ∧ p.stops = [] ∧ b.csize ≤ p.pc.toNat ∧ s.coh.atsWait = false ∧
    ∃ c : Ctx, c.bid = 0 ∧ c.pid = 1 ∧ c.b = b ∧ c.p = p ∧
      Stands { s with cycle := max s.cycle u, cur := some (0, 1), due := none } c := by
  have h := tget_ctx (s := atEnd) (.ret L) (by decide +kernel)
  exact ⟨atEnd, 1, _, _, by decide +kernel, by decide +kernel, h.1, h.2, by decide +kernel, by decide +kernel, by decide +kernel,
    ctx atEnd (.ret L), rfl, rfl, rfl, rfl, standsIn (i := .ret L)
      (s := { atEnd with cycle := max atEnd.cycle 1, cur := some (0, 1), due := none }) (by decide +kernel)⟩

/-- A path with records of cause 0x12 for two of its lanes (R375). -/
def mismatch (k : Nat) : Nat × FaultRec :=
  (k, { mkFault (bootBlock 0) 0 (pathOf (booted 0)) k (laneOf (booted 0) k) { cause := 0x12 } false with pc := 8 })
def holdsStops (s : State) : State := s.modPath 0 1 (fun p => { p with stops := [mismatch 1, mismatch 3] })
def heldB (b : Block) (p : Path) : Bool := !p.stops.isEmpty && decide (p.stops.map (·.1)).Nodup &&
  p.stops.all (fun e => p.lanes.contains e.1 && (tget b.threads e.1).isSome) &&
  b.paths.all (fun e => e.1 == 1 || e.2.lanes.all (fun l => !p.lanes.contains l))
theorem held {b : Block} {p : Path} (h : heldB b p = true) : HeldStops b 1 p := by
  simp only [heldB, Bool.and_eq_true, List.all_eq_true, Bool.or_eq_true, beq_iff_eq, decide_eq_true_eq, Bool.not_eq_true'] at h
  refine ⟨by intro e; simp [e] at h, h.1.1.2, fun e he => ⟨by simpa using (h.1.2 e he).1, (h.1.2 e he).2⟩, fun k q hk hq l hl => ?_⟩
  simpa using (h.2 _ (tget_mem hq)).resolve_left hk l hl

theorem met_StepIssues_stops : ∃ s u b p, nextPort s = some (u, 0, 1) ∧ (∀ e ∈ s.events.head?, u < e.1) ∧
    tget s.blocks 0 = some b ∧ tget b.paths 1 = some p ∧ HeldStops b 1 p ∧ p.run.settled = true := by
  have h := tget_ctx (s := holdsStops (booted 0)) (.ret L) (by decide +kernel)
  exact ⟨holdsStops (booted 0), 1, _, _, by decide +kernel, by decide +kernel, h.1, h.2, held (by decide +kernel), by decide +kernel⟩

theorem met_StepServes : ∃ s t e rest, s.events = (t, e) :: rest ∧ ∀ x, nextPort s = some x → t ≤ x.1 :=
  ⟨{ booted 0 with events := [(0, .thermalTrip)] }, 0, _, _, rfl, fun _ _ => Nat.zero_le _⟩

theorem met_EncodingDecodes : ∃ i, Instr.wf i = true ∧ (∀ e, Event.instr e ≠ i) ∧ ∀ v, i ≠ .unassignedCodePoint v :=
  ⟨.join L 0xD, by decide, by intro e; cases e <;> simp [Event.instr], nofun⟩

/-! ### Exceptions -/

theorem met_ExceptionStops : ∃ s c, ∃ i : TrapInfo, Stands s c ∧ i.cause ≠ 0x13 ∧
    (i.cause = 0x09 → i.derived = false ∨ c.b.poent = 0xFFFF_FFFF) :=
  ⟨std, ctx std (.ret L), { cause := 0x09, derived := true }, standsIn std_stands, by decide, fun _ => Or.inr (by decide +kernel)⟩

/-- The last result owed to a trapping path returns. -/
def trapping : State := { (holdsStops std).modPath 0 1 (fun p => { p with wait := .trapping, run := { p.run with owed := 1 } }) with
  due := some (.resultReturn 0 1) }
theorem met_ExceptionStops_later : ∃ s b p, State.due s = some (.resultReturn 0 1) ∧ tget s.blocks 0 = some b ∧
    tget b.paths 1 = some p ∧ p.wait = .trapping ∧ p.run.owed = 1 ∧ p.run.awaits = [] ∧ HeldStops b 1 p := by
  have h := tget_ctx (s := trapping) (.ret L) (by decide +kernel)
  exact ⟨trapping, _, _, rfl, h.1, h.2, by decide +kernel, by decide +kernel, by decide +kernel, held (by decide +kernel)⟩

/-- Owed results, whether a path's settled run stops or waits. -/
def owing (s : State) : State := s.modPath 0 1 (fun p => { p with run := { p.run with owed := 2 } })
theorem met_ExceptionStops_owed : Stands (owing std) (ctx (owing std) (.ret L)) ∧ (ctx (owing std) (.ret L)).p.run.settled = false ∧
    (ctx std (.ret L)).p.run.settled = true := ⟨standsIn (by decide +kernel), by decide +kernel, by decide +kernel⟩

theorem met_SomeLanesStop : ∃ s c, ∃ lanes : List (Nat × TrapInfo), Stands s c ∧ s.ids ≠ c.pid ∧ lanes ≠ [] ∧
    (∀ e ∈ lanes, e.1 ∈ c.p.lanes) ∧ (lanes.map (·.1)).Nodup ∧ c.p.wait = .issuing ∧ (∃ k ∈ c.p.lanes, k ∉ lanes.map (·.1)) ∧
    ∀ e ∈ lanes, e.2.cause ≠ 0x13 ∧ (e.2.cause = 0x09 → e.2.derived = false ∨ c.b.poent = 0xFFFF_FFFF) :=
  ⟨std, ctx std (.ret L), [(1, { cause := 0x0F }), (3, { cause := 0x09 })], standsIn std_stands, by decide +kernel, by decide,
    by decide +kernel, by decide, by decide +kernel, ⟨0, by decide +kernel, by decide⟩, by decide⟩

/-- A partition's fault ring: its size exponent, head and tail. -/
def withRing (s : State) (size : BitVec 4) (head tail : BitVec 16) : State :=
  s.modPart 3 (fun p => { p with rep := { p.rep with fault := { p.rep.fault with base := 0x50000, size := size, head := head, tail := tail } } })

/-- (`memOk` is that equation.) Enabled, at the last entry, not full; full; disabled; and with records held before. -/
theorem met_RingTakesRecords_put : let s := withRing std 4 15 3; let r := (s.part 3).rep
    s.mem.wf = true ∧ 3 < s.parts.length ∧ r.fault.enabled = true ∧ r.fault.full = false ∧ r.heldFaults = [] ∧
      physPlace s 3 (0x50000 + 64 * 15) = some (0x50000 + 64 * 15) ∧ physPlace s 3 (2 ^ 47) = none := by decide +kernel
theorem met_RingTakesRecords_full : let s := withRing std 4 2 3
    s.mem.wf = true ∧ 3 < s.parts.length ∧ (s.part 3).rep.fault.full = true := by decide +kernel
theorem met_RingTakesRecords_disabled : let s := withRing std 3 0 0
    s.mem.wf = true ∧ 3 < s.parts.length ∧ (s.part 3).rep.fault.enabled = false := by decide +kernel
theorem met_RingTakesRecords_held : let s := (withRing std 4 0 3).modPart 3 (fun p => { p with rep := { p.rep with
      heldFaults := [(true, 0, 1, .none)] } })
    s.mem.wf = true ∧ 3 < s.parts.length ∧ (s.part 3).rep.heldFaults ≠ [] ∧
      ((s.part 3).rep.heldFaults.filter (·.1)).length < Config.holdQueue := by decide +kernel
/-- As many REPORT records as the queue has entries. -/
theorem met_RingTakesRecords_dropped : let s := (withRing std 4 0 3).modPart 3 (fun p => { p with rep := { p.rep with
      heldFaults := List.replicate Config.holdQueue (true, 0, 1, .none) } })
    s.mem.wf = true ∧ 3 < s.parts.length ∧ (s.part 3).rep.heldFaults ≠ [] ∧
      Config.holdQueue ≤ ((s.part 3).rep.heldFaults.filter (·.1)).length := by decide +kernel

def modP (s : State) (f : Path → Path) : State := s.modPath 0 1 f

def longRun : State := modP std (fun p => { p with run := { p.run with count := 24 } })
theorem met_RunOverruns : ∃ i w s c, encode i = some w ∧ AtPort s c i ∧ Stands (counted s c) c ∧ 24 ≤ c.p.run.count :=
  ⟨.unassignedCodePoint 0x17000000, _, longRun, ctx longRun (.unassignedCodePoint 0x17000000), rfl, atPort (by decide +kernel),
    stands (by decide +kernel), by decide +kernel⟩

/-- The partition's mask has no bit; the node's emulation table binds bit 0 to 0x200 and bit 12 to 0x250 (R38). -/
def noFeature (s : State) : State := { s with parts := s.parts.map (fun p => { p with hyper := { p.hyper with pfm := 0 } }) }
def bound (s : State) : State :=
  let s := withSnap (withSnap s 0x58 8 0x2200) 0x60 2 2
  { s with mem := s.mem ++ [(0x2205, 2), (0x2208, 12), (0x220C, 0x50), (0x220D, 2)] }
def nested (s : State) : State := modP s (fun p => { p with nest := some 1 })
def inFinder (s : State) : State := modP s (fun p => { p with finder := true })
def inFormed (s : State) : State := modP s (fun p => { p with formed := true })
def deepUst (s : State) (n : Nat) : State := modP s (fun p => { p with ust := cells ((upto n).map wd) })

/-- What the statements about forms without their feature, and about unassigned words, suppose of a state. -/
def TrapsForm (s : State) (i : Instr) : Prop :=
  AtPort s (ctx s i) i ∧ Stands (counted s (ctx s i)) (ctx s i) ∧ (ctx s i).p.run.count < 24
theorem trapsForm {s : State} {i : Instr} (h : issuingB s = true) (h2 : standsB s = true) : TrapsForm s i :=
  ⟨(issuing (i := i) h).toAtPort, stands h2, (issuing (i := i) h).count⟩

def govern (s : State) (i : Instr) (k : Nat) : Prop :=
  (headerOf i).isSome ∧ (encode i).isSome ∧ (governing (ctx s i).b i).find? (fun n => !s.feature (ctx s i).b.part n) = some k
theorem met_FeaturesGovern : let i := Instr.iarAdd L .i32 false none
    let a := noFeature std; let n := nested a; let f := inFinder (bound a); let b := deepUst (bound a) 6; let d := deepUst (bound a) 7
    (TrapsForm n i ∧ govern n i 0 ∧ (ctx n i).p.nest.isSome = true) ∧
    (TrapsForm a i ∧ govern a i 0 ∧ (ctx a i).p.nest = none ∧ boundRoutine (counted a (ctx a i)) (ctx a i).b (some 0) = none) ∧
    (TrapsForm f i ∧ govern f i 0 ∧ (ctx f i).p.nest = none ∧ (ctx f i).p.finder = true) ∧
    (TrapsForm b i ∧ govern b i 0 ∧ (ctx b i).p.nest = none ∧ (ctx b i).p.finder = false ∧
      boundRoutine (counted b (ctx b i)) (ctx b i).b (some 0) = some 0x200 ∧ (ctx b i).p.ust.length = 6) ∧
    (TrapsForm d i ∧ govern d i 0 ∧ (ctx d i).p.nest = none ∧ (ctx d i).p.finder = false ∧
      boundRoutine (counted d (ctx d i)) (ctx d i).b (some 0) = some 0x200 ∧ (ctx d i).p.ust.length = 7) := by
  refine ⟨⟨trapsForm ?_ ?_, ⟨?_, ?_, ?_⟩, ?_⟩, ⟨trapsForm ?_ ?_, ⟨?_, ?_, ?_⟩, ?_, ?_⟩, ⟨trapsForm ?_ ?_, ⟨?_, ?_, ?_⟩, ?_, ?_⟩,
    ⟨trapsForm ?_ ?_, ⟨?_, ?_, ?_⟩, ?_, ?_, ?_, ?_⟩, ⟨trapsForm ?_ ?_, ⟨?_, ?_, ?_⟩, ?_, ?_, ?_, ?_⟩⟩ <;> decide +kernel

theorem met_UnassignedTraps : let w : Word := 0x04000000; let i := Instr.unassignedCodePoint w; let k := 8 + bits w.toNat 28 24
    let n := nested std; let f := inFinder (bound std); let b := deepUst (bound std) 6; let d := deepUst (bound std) 7
    (TrapsForm n i ∧ (ctx n i).p.nest.isSome = true) ∧
    (TrapsForm std i ∧ (ctx std i).p.nest = none ∧ boundRoutine (counted std (ctx std i)) (ctx std i).b (some k) = none) ∧
    (TrapsForm f i ∧ (ctx f i).p.nest = none ∧ (ctx f i).p.finder = true) ∧
    (TrapsForm b i ∧ (ctx b i).p.nest = none ∧ (ctx b i).p.finder = false ∧
      boundRoutine (counted b (ctx b i)) (ctx b i).b (some k) = some 0x250 ∧ (ctx b i).p.ust.length = 6) ∧
    (TrapsForm d i ∧ (ctx d i).p.nest = none ∧ (ctx d i).p.finder = false ∧
      boundRoutine (counted d (ctx d i)) (ctx d i).b (some k) = some 0x250 ∧ (ctx d i).p.ust.length = 7) := by
  refine ⟨⟨trapsForm ?_ ?_, ?_⟩, ⟨trapsForm ?_ ?_, ?_, ?_⟩, ⟨trapsForm ?_ ?_, ?_, ?_⟩, ⟨trapsForm ?_ ?_, ?_, ?_, ?_, ?_⟩,
    ⟨trapsForm ?_ ?_, ?_, ?_, ?_, ?_⟩⟩ <;> decide +kernel

theorem met_PrivilegeAndScope : let i := Instr.mapc L; let j := Instr.bra W 0; let k := Instr.sync ⟨false, .set⟩ 0
    (headerOf i = some L ∧ TrapsForm std i ∧ Enabled std (ctx std i) (governing (ctx std i).b i) ∧
      privileged i = true ∧ (ctx std i).b.lvl = 0) ∧
    (headerOf j = some W ∧ TrapsForm std j ∧ Enabled std (ctx std j) (governing (ctx std j).b j) ∧
      privileged j = false ∧ ¬ scopeFits (ctx std j) j W) ∧
    (headerOf k = some ⟨false, .set⟩ ∧ TrapsForm std k ∧ Enabled std (ctx std k) (governing (ctx std k).b k) ∧
      privileged k = false ∧ ¬ scopeFits (ctx std k) k ⟨false, .set⟩) :=
  ⟨⟨rfl, trapsForm std_issuing std_stands, enabled (by decide +kernel), rfl, by decide +kernel⟩,
    ⟨rfl, trapsForm std_issuing std_stands, enabled (by decide +kernel), rfl, fun h => absurd h.1 (by decide)⟩,
    ⟨rfl, trapsForm std_issuing std_stands, enabled (by decide +kernel), rfl, fun h => nomatch (h.2 (Or.inl rfl)).boundary⟩⟩

theorem met_ParkingNeedsBoundary : let s := std
    (∀ i ∈ [Instr.rehome L, .join L 2, .reform L 1, .sync ⟨false, .set⟩ 0, .red ⟨false, .blk⟩ .i32 .add 0],
      (∃ h, headerOf i = some h ∧ h.b = false ∧
        ((i = .rehome h ∨ (∃ d, i = .join h d) ∨ ∃ d, i = .reform h d) ∨ h.sc = .set ∨ h.sc = .blk)) ∧
      Issuing s (ctx s i) i ∧ Stands (counted s (ctx s i)) (ctx s i) ∧ Enabled s (ctx s i) (governing (ctx s i).b i) ∧
      (privileged i = true → (ctx s i).b.lvl ≠ 0)) ∧
    Issuing s (ctx s (.exit L)) (.exit L) ∧ Stands (counted s (ctx s (.exit L))) (ctx s (.exit L)) ∧ Enabled s (ctx s (.exit L)) [0] := by
  refine ⟨fun i hi => ⟨?_, issuing std_issuing, stands std_stands, enabled ?_, ?_⟩, issuing std_issuing, stands std_stands,
    enabled (by decide +kernel)⟩
  · simp only [List.mem_cons, List.not_mem_nil, or_false] at hi
    rcases hi with rfl | rfl | rfl | rfl | rfl
    · exact ⟨L, rfl, rfl, .inl (.inl rfl)⟩
    · exact ⟨L, rfl, rfl, .inl (.inr (.inl ⟨_, rfl⟩))⟩
    · exact ⟨L, rfl, rfl, .inl (.inr (.inr ⟨_, rfl⟩))⟩
    · exact ⟨_, rfl, rfl, .inr (.inl rfl)⟩
    · exact ⟨_, rfl, rfl, .inr (.inr rfl)⟩
  · revert i hi; decide +kernel
  · revert i hi; decide +kernel

/-- One word of each kind that a finder warp does not execute. -/
theorem met_FloatInFinder : let s := inFinder std
    (∀ i ∈ [Instr.farAdd L .rn false none, .pairMul L .rn false none, .cvt W .i32 .f32 .rn false none, .trnRcp L .f32 none,
        .qround L 1 .rn false none, .cmpLt L .f32 none],
      Issuing s (ctx s i) i ∧ Stands (counted s (ctx s i)) (ctx s i) ∧ Enabled s (ctx s i) (governing (ctx s i).b i)) ∧
    (ctx s (.ret L)).p.finder = true ∧ (ctx s (.ret L)).p.nest = none ∧
    (floatForm (.farAdd L .rn false none)).isSome ∧ (pairForm (.pairMul L .rn false none)).isSome ∧
    (convertForm (.cvt W .i32 .f32 .rn false none)).isSome ∧ (transForm (.trnRcp L .f32 none)).isSome ∧
    (qroundForm (ctx s (.ret L)).b (.qround L 1 .rn false none)).isSome ∧
    ∃ f, compareForm (.cmpLt L .f32 none) = some f ∧ f.finder = false := by
  refine ⟨fun i hi => ⟨issuing ?_, stands ?_, enabled ?_⟩, ?_, ?_, rfl, rfl, rfl, rfl, rfl, _, rfl, rfl⟩
  · decide +kernel
  · decide +kernel
  · revert i hi; decide +kernel
  · decide +kernel
  · decide +kernel

/-! ### Computing forms -/

theorem met_IntegersComplete : MeetsAlone integerForm (.iarMad L .i32 false none) std ∧
    MeetsUniform integerForm (.iarAdd W .n32 true none) std :=
  ⟨⟨_, rfl, issuing std_issuing, enabled (by decide +kernel), by decide +kernel, rfl, laneOperands (by decide +kernel)⟩,
    ⟨_, rfl, issuing std_issuing, enabled (by decide +kernel), by decide +kernel, rfl, operands (by decide +kernel)⟩⟩

/-- What every statement about an instruction supposes, at the stand-in's path. -/
def AtIssue (s : State) (i : Instr) (feats : List Nat) : Prop := Issuing s (ctx s i) i ∧ Enabled s (ctx s i) feats
theorem atIssue {s : State} {i : Instr} {feats : List Nat} (h : issuingB s = true)
    (h2 : feats.all (fun k => s.feature (ctx s i).b.part k) = true) : AtIssue s i feats := ⟨issuing h, enabled h2⟩

/-- Every lane holds a dividend and a divisor, and so does the uniform stack: no zero, all zero, lane 0's alone. -/
def zeros : State := four (fun _ => [0, 5]) [0, 5]
def mixed : State := four (fun k => [wd k, 5, 9]) [3, 5]
theorem met_DivisionAndZero : let f : Division := ⟨L, none, fun a b => wi ((ityVal .i32 a).tdiv (ityVal .i32 b))⟩
    let i := Instr.iarDiv L .i32 none; let w := Instr.iarDiv W .i32 none
    let each := fun (s : State) => EachLane (ctx s i) (fun _ t => Operands (ctx s i) (laneCeil (ctx s i).b (ctx s i).p) f.pops 1 t.stack)
    divisionForm i = some f ∧
    (AtIssue std i [0] ∧ each std ∧ ∀ e ∈ active (ctx std i), f.byZero e.2.stack = false) ∧
    (AtIssue zeros i [0] ∧ each zeros ∧ Stands (counted zeros (ctx zeros i)) (ctx zeros i) ∧ ∀ e ∈ active (ctx zeros i), f.byZero e.2.stack = true) ∧
    (AtIssue mixed i [0] ∧ each mixed ∧ Stands (counted mixed (ctx mixed i)) (ctx mixed i) ∧ mixed.ids ≠ (ctx mixed i).pid ∧
      (∃ e ∈ active (ctx mixed i), f.byZero e.2.stack = true) ∧ ∃ e ∈ active (ctx mixed i), f.byZero e.2.stack = false) ∧
    (AtIssue mixed w [0] ∧ Operands (ctx mixed w) 8 f.pops 1 (ctx mixed w).p.ust ∧ f.byZero (ctx mixed w).p.ust = false) ∧
    (AtIssue zeros w [0] ∧ Operands (ctx zeros w) 8 f.pops 1 (ctx zeros w).p.ust ∧ Stands (counted zeros (ctx zeros w)) (ctx zeros w) ∧
      f.byZero (ctx zeros w).p.ust = true) :=
  ⟨rfl, ⟨atIssue (by decide +kernel) (by decide +kernel), laneOperands (by decide +kernel), by decide +kernel⟩,
    ⟨atIssue (by decide +kernel) (by decide +kernel), laneOperands (by decide +kernel), stands (by decide +kernel), by decide +kernel⟩,
    ⟨atIssue (by decide +kernel) (by decide +kernel), laneOperands (by decide +kernel), stands (by decide +kernel),
      by decide +kernel, by decide +kernel, by decide +kernel⟩,
    ⟨atIssue (by decide +kernel) (by decide +kernel), operands (by decide +kernel), by decide +kernel⟩,
    ⟨atIssue (by decide +kernel) (by decide +kernel), operands (by decide +kernel), stands (by decide +kernel), by decide +kernel⟩⟩

theorem meetsAlone {form : Instr → Option Computing} {i : Instr} {f : Computing} {s : State} (hf : form i = some f)
    (h : (issuingB s && s.feature (ctx s i).b.part 0 && !(ctx s i).p.finder && f.hdr.sc == .lane && eachLaneB (ctx s i) (fun t =>
      operandsB (ctx s i) (laneCeil (ctx s i).b (ctx s i).p) f.pops 1 t.stack)) = true) : MeetsAlone form i s := by
  simp only [Bool.and_eq_true, Bool.not_eq_true', beq_iff_eq] at h
  exact ⟨f, hf, issuing h.1.1.1.1, by simp [Enabled, h.1.1.1.2], h.1.1.2, h.1.2, laneOperands h.2⟩

theorem meetsUniform {form : Instr → Option Computing} {i : Instr} {f : Computing} {s : State} (hf : form i = some f)
    (h : (issuingB s && s.feature (ctx s i).b.part 0 && !(ctx s i).p.finder && f.hdr.sc == .warp &&
      operandsB (ctx s i) 8 f.pops 1 (ctx s i).p.ust) = true) : MeetsUniform form i s := by
  simp only [Bool.and_eq_true, Bool.not_eq_true', beq_iff_eq] at h
  exact ⟨f, hf, issuing h.1.1.1.1, by simp [Enabled, h.1.1.1.2], h.1.1.2, h.1.2, operands h.2⟩

theorem met_BitsComplete : MeetsAlone bitForm (.bitLop3 L .n32 0x96) std ∧ MeetsUniform bitForm (.bitBfe W .i32 none) std :=
  ⟨meetsAlone rfl (by decide +kernel), meetsUniform rfl (by decide +kernel)⟩
theorem met_ComparisonsComplete : MeetsAlone compareForm (.sel L .f32 none) std ∧ MeetsUniform compareForm (.cmpLt W .bf16x2 none) std :=
  ⟨meetsAlone rfl (by decide +kernel), meetsUniform rfl (by decide +kernel)⟩
theorem met_FloatsComplete : MeetsAlone floatForm (.farFma L .rd true none) std ∧ MeetsUniform floatForm (.farSqrt W .rn none) std :=
  ⟨meetsAlone rfl (by decide +kernel), meetsUniform rfl (by decide +kernel)⟩
theorem met_PairsComplete : MeetsAlone pairForm (.pairDot2 L .rn false none) std ∧ MeetsUniform pairForm (.pairNeg W .rn none) std :=
  ⟨meetsAlone rfl (by decide +kernel), meetsUniform rfl (by decide +kernel)⟩
theorem met_TranscendentsComplete : MeetsAlone transForm (.trnTanh L .bf16x2 none) std ∧ MeetsUniform transForm (.trnRcp W .f32 none) std :=
  ⟨meetsAlone rfl (by decide +kernel), meetsUniform rfl (by decide +kernel)⟩

/-- Slot 2 is INT8 (format 6), slot 0 i32 (format 1). -/
theorem met_ConversionsComplete : let i := Instr.qround L 2 .rn false none; let n := Instr.qround L 0 .rn false none
    let w := Instr.qround W 0 .rn false none
    (MeetsAlone convertForm (.pack L .rn false none) std ∧ MeetsUniform convertForm (.cvt W .f32 .i32 .rz true none) std) ∧
    (MeetsAlone (qroundForm (ctx std i).b) i std ∧ Enabled std (ctx std i) (governing (ctx std i).b i) ∧
      2 ≤ ((ctx std i).b.slotOf 2).fmt ∧ ((ctx std i).b.slotOf 2).fmt ≤ 8) ∧
    (MeetsAlone (qroundForm (ctx std n).b) n std ∧ Stands (counted std (ctx std n)) (ctx std n) ∧ ((ctx std n).b.slotOf 0).fmt < 2) ∧
    (MeetsUniform (qroundForm (ctx std w).b) w std ∧ Stands (counted std (ctx std w)) (ctx std w)) :=
  ⟨⟨meetsAlone rfl (by decide +kernel), meetsUniform rfl (by decide +kernel)⟩,
    ⟨meetsAlone rfl (by decide +kernel), enabled (by decide +kernel), by decide +kernel, by decide +kernel⟩,
    ⟨meetsAlone rfl (by decide +kernel), stands std_stands, by decide +kernel⟩,
    ⟨meetsUniform rfl (by decide +kernel), stands std_stands⟩⟩

theorem met_LegacyCompletes : let i := Instr.mad24 L .i32 true none
    ∃ f, legacyForm i = some f ∧ f.hdr.sc = .lane ∧ AtIssue std i [1] ∧
      EachLane (ctx std i) (fun _ t => Operands (ctx std i) (laneCeil (ctx std i).b (ctx std i).p) f.pops 1 t.stack) ∧
      (ephemerisQueue std (ctx std i).b.place.die).length < Config.legacyQueue :=
  ⟨_, rfl, rfl, atIssue std_issuing (by decide +kernel), laneOperands (by decide +kernel), by decide +kernel⟩

theorem met_MinimumMaximum : MeetsAlone floatForm (.farClamp L .rn none) std ∧
    (∃ a b : Word, ¬ 0x7F800000 < a.toNat % 2 ^ 31 ∧ ¬ 0x7F800000 < b.toNat % 2 ^ 31) ∧ ∃ x : Word, 0x7F800000 < x.toNat % 2 ^ 31 :=
  ⟨meetsAlone rfl (by decide +kernel), ⟨0, 0x80000000, by decide, by decide⟩, 0x7FC00001, by decide⟩

/-! ### Cells, selectors, traps -/

/-- The hypotheses of a form of one lane, and of one on the path's own cells. -/
def MeetsInLanes (form : Instr → Option LaneForm) (i : Instr) (s : State) : Prop :=
  ∃ f, form i = some f ∧ f.hdr.sc = .lane ∧ AtIssue s i [0] ∧ (ctx s i).p.finder = false ∧ EachLane (ctx s i) (fun _ t => f.ok (ctx s i) t)
def MeetsOnPath (form : Instr → Option PathForm) (i : Instr) (s : State) : Prop :=
  ∃ f, form i = some f ∧ f.hdr.sc = .warp ∧ AtIssue s i [0] ∧ (ctx s i).p.finder = false ∧ f.ok (ctx s i)

/-- A stack of at least four and at most seven cells fits these forms. -/
def someCells (t : Thread) : Bool := decide (4 ≤ t.stack.length) && decide (t.stack.length + 1 ≤ 16)

theorem std_part : std.feature (ctx std (.ret L)).b.part 0 = true := by decide +kernel
theorem std_room : eachLaneB (ctx std (.ret L)) someCells = true := by decide +kernel
theorem std_ceil : laneCeil (ctx std (.ret L)).b (ctx std (.ret L)).p = 16 := by decide +kernel
theorem std_ust : (ctx std (.ret L)).p.ust.length = 3 := by decide +kernel
theorem std_at (i : Instr) : AtIssue std i [0] := atIssue std_issuing (by simp; exact std_part)
theorem std_finder : (ctx std (.ret L)).p.finder = false := by decide +kernel

theorem fits_std {i : Instr} {n p q : Nat} (h : p ≤ n ∧ n ≤ 4 ∧ q ≤ p + 1) :
    EachLane (ctx std i) (fun _ t => Fits (laneCeil (ctx std i).b (ctx std i).p) n p q t.stack) := by
  refine eachLane (P := someCells) (fun _ t ht => ?_) std_room
  simp only [someCells, Bool.and_eq_true, decide_eq_true_eq] at ht
  have : laneCeil (ctx std i).b (ctx std i).p = 16 := std_ceil
  rw [this]
  exact ⟨by omega, by omega⟩

theorem met_ShufflesComplete : MeetsInLanes stackLaneForm (.roll L 3) std ∧ MeetsInLanes stackLaneForm (.depth L) std ∧
    MeetsOnPath stackPathForm (.rot W) std ∧ MeetsOnPath stackPathForm (.pushi W .f32 0xC7) std :=
  ⟨⟨_, rfl, rfl, std_at _, std_finder, fits_std (by decide)⟩, ⟨_, rfl, rfl, std_at _, std_finder, fits_std (by decide)⟩,
    ⟨_, rfl, rfl, std_at _, std_finder, (by decide +kernel : _ ≤ _), (by decide +kernel : _ ≤ _)⟩,
    ⟨_, rfl, rfl, std_at _, std_finder, (by decide +kernel : _ ≤ _), (by decide +kernel : _ ≤ _)⟩⟩

theorem met_MovesComplete : MeetsInLanes moveLaneForm (.xch L .o 15) std ∧ MeetsOnPath movePathForm (.pop W .w 63) std ∧
    MeetsInLanes spanLaneForm (.popn L .o 13 3) std ∧ MeetsOnPath spanPathForm (.pushn W .w 60 4) std :=
  ⟨⟨_, rfl, rfl, std_at _, std_finder, fits_std (by decide)⟩,
    ⟨_, rfl, rfl, std_at _, std_finder, (by decide +kernel : _ ≤ _), (by decide +kernel : _ ≤ _)⟩,
    ⟨_, rfl, rfl, std_at _, std_finder, fits_std (by decide)⟩,
    ⟨_, rfl, rfl, std_at _, std_finder, (by decide +kernel : _ ≤ _), (by decide +kernel : _ ≤ _)⟩⟩

theorem std_uniform : UniformOperand (ctx std (.ret L)) := ⟨operands (by decide +kernel), by decide +kernel⟩

theorem met_SelectorsComplete : MeetsInLanes getLaneForm (.get L .lane 0) std ∧ MeetsOnPath getPathForm (.get W .warp 0) std ∧
    AtIssue std (.put W 0) [0] ∧ (ctx std (.put W 0)).p.formed = false ∧ UniformOperand (ctx std (.put W 0)) :=
  ⟨⟨_, rfl, rfl, std_at _, std_finder, fits_std (by decide)⟩,
    ⟨_, rfl, rfl, std_at _, std_finder, (stands (i := .ret L) std_stands).lanes, (by decide +kernel : _ = _),
      (by decide +kernel : _ ≤ _), (by decide +kernel : _ ≤ _)⟩, std_at _, by decide +kernel, std_uniform⟩

theorem met_TrapsComplete : Stands (counted std (ctx std (.trap L 255 0))) (ctx std (.trap L 255 0)) ∧ AtIssue std (.trap L 255 0) [0] ∧ AtIssue std (.brk L 0 0) [0] :=
  ⟨stands std_stands, std_at _, std_at _⟩

/-! ### Across the lanes -/

def MeetsAcross (sc : Scope) (form : Instr → Option Exchange) (i : Instr) : Prop :=
  ∃ f, form i = some f ∧ f.hdr.sc = sc ∧ AtIssue std i [0] ∧ (ctx std i).p.finder = false ∧
    EachLane (ctx std i) (fun _ t => Operands (ctx std i) (laneCeil (ctx std i).b (ctx std i).p) f.pops 0 t.stack)
theorem met_ExchangesComplete : MeetsAcross .lane exchangeForm (.shfl L 0) ∧ MeetsAcross .warp prefixForm (.segscan W .f32 .add 0) :=
  ⟨⟨_, rfl, rfl, std_at _, std_finder, laneOperands (by decide +kernel)⟩,
    ⟨_, rfl, rfl, std_at _, std_finder, laneOperands (by decide +kernel)⟩⟩

theorem met_VotesComplete : ∃ f, gatheringForm (.sbc W 0 3) = some f ∧ f.hdr.sc = .warp ∧ AtIssue std (.sbc W 0 3) [0] ∧
    (ctx std (.sbc W 0 3)).p.finder = false ∧
    EachLane (ctx std (.sbc W 0 3)) (fun _ t =>
      Operands (ctx std (.sbc W 0 3)) (laneCeil (ctx std (.sbc W 0 3)).b (ctx std (.sbc W 0 3)).p) 1 0 t.stack) ∧
    f.ok (active (ctx std (.sbc W 0 3))) ∧ Fits 8 0 0 1 (ctx std (.sbc W 0 3)).p.ust :=
  ⟨_, rfl, rfl, std_at _, std_finder, laneOperands (by decide +kernel), (by decide +kernel : Option.isSome _ = true),
    (by decide +kernel : _ ≤ _), (by decide +kernel : _ ≤ _)⟩

def S : Hdr := ⟨true, .set⟩

theorem meetLane {s : State} {i : Instr} {f : MeetForm} (h : (laneCeil (ctx s i).b (ctx s i).p == 16 && eachLaneB (ctx s i) (fun t => decide (f.need ≤ t.stack.length) &&
    decide (t.stack.length + f.grow ≤ 16) && (t.stack.take f.cons).all (fun x => x.hi == none && !(ctx s i).env.early x.mark && !x.err))) = true) :
    EachLane (ctx s i) (fun _ t => MeetLane (ctx s i) f t) := by
  simp only [Bool.and_eq_true, beq_iff_eq] at h
  refine eachLane (fun _ t ht => ?_) h.2
  simp only [Bool.and_eq_true, decide_eq_true_eq, List.all_eq_true, beq_iff_eq, Bool.not_eq_true'] at ht
  exact ⟨ht.1.1, by rw [h.1]; exact ht.1.2, fun x hx => ⟨(ht.2 x hx).1.1, (ht.2 x hx).1.2, (ht.2 x hx).2⟩⟩

/-- An instance that warp 2 has opened for its set is open at the path's PC. -/
def opened : State := std.modBlock 0 (fun b => { b with rdvs := [(9,
  ⟨.set, (pathOf std).pc, wd (scopeWarps b .set 0), .red S .i32 .add 0, [3], false⟩)] })

/-- What an arrival supposes, but for the instance. -/
def Arrives (s : State) (i : Instr) (f : MeetForm) (bm : Nat) : Prop :=
  meetForm i = some f ∧ f.hdr.sc = .set ∧ AtIssue s i [0] ∧ MayMeet (ctx s i) f.hdr ∧
    EachLane (ctx s i) (fun _ t => MeetLane (ctx s i) f t) ∧ membership (ctx s i) .set f.wm = .ok bm

/-- A fresh instance; one that is open. -/
theorem met_MeetingsArrive : let i := Instr.red S .i32 .add 0
    ∃ f bm, (Arrives std i f bm ∧ ∃ r, Joins std (ctx std i) i f bm std.ids r) ∧
      Arrives opened i f bm ∧ ∃ r, Joins opened (ctx opened i) i f bm 9 r :=
  ⟨_, _, ⟨⟨rfl, rfl, std_at _, ⟨rfl, by decide +kernel, by decide +kernel⟩, meetLane (by decide +kernel), rfl⟩, _,
    .inr ⟨by decide +kernel, by decide +kernel, rfl, rfl⟩⟩,
    ⟨rfl, rfl, atIssue (by decide +kernel) (by decide +kernel), ⟨rfl, by decide +kernel, by decide +kernel⟩,
      meetLane (by decide +kernel), congrArg LaneRes.ok (by decide +kernel)⟩, _,
    .inl ⟨rfl, by decide +kernel, rfl, by decide +kernel, by decide +kernel⟩⟩

/-- The path has arrived at a meeting of its set, alone expected; its completion is served. -/
def met (i : Instr) : State := { after i std with cur := none, due := some (.rendezvousComplete 0 2) }
def metBlock (i : Instr) : Block := (tget (met i).blocks 0).getD (bootBlock 0)
def metAt (i : Instr) : Rdv := (tget (metBlock i).rdvs 2).getD ⟨.set, 0, 0, i, [], false⟩

theorem getD_of {α : Type} {o : Option α} {d : α} (h : o.isSome = true) : o = some (o.getD d) := by
  cases o <;> simp_all

/-- The results that its lanes get are listed, and no lane raises a cause. -/
def quiet (x : List (Nat × Thread) × List (Nat × TrapInfo)) : Bool := x.2.isEmpty
theorem quiet_eq {x : List (Nat × Thread) × List (Nat × TrapInfo)} (h : quiet x = true) : x = (x.1, []) := by
  obtain ⟨a, b⟩ := x
  simpa [quiet] using h

theorem met_MeetingsComplete : let i := Instr.scan S .i32 .max 0
    ∃ new, (met i).due = some (.rendezvousComplete 0 2) ∧ tget (met i).blocks 0 = some (metBlock i) ∧
      tget (metBlock i).rdvs 2 = some (metAt i) ∧ (metBlock i).meetReady (metAt i) = true ∧ (metAt i).faulted = false ∧
      scopedEffect (metBlock i) (metAt i) = (new, []) ∧ (metAt i).paths.Nodup :=
  ⟨_, rfl, getD_of (by decide +kernel), getD_of (by decide +kernel), by decide +kernel, by decide +kernel,
    quiet_eq (by decide +kernel), by decide +kernel⟩

/-- An element that is there, one that is not; room for a cell, and a cell to take, in lanes that are there. -/
theorem met_ScopedResults : let at_ := fun (i : Instr) => arrivedThreads (metBlock i) (metAt i)
    let x := Instr.sbc S 0 2; let y := Instr.sbc S 0 77; let u := Instr.push S .o 3
    ((metAt x).op = x ∧ ((at_ x).find? (fun e => elementOf (metBlock x) (metAt x) e.1 == 2)).isSome = true) ∧
    ((metAt y).op = y ∧ (at_ y).find? (fun e => elementOf (metBlock y) (metAt y) e.1 == 77) = none ∧ at_ y ≠ []) ∧
    ((metAt u).op = u ∧ at_ u ≠ [] ∧ ∀ e ∈ at_ u, e.2.stack.length < 8 + (metBlock u).stack) ∧
    ∀ v ∈ [Instr.pop S .o 3, .keep S .o 3, .xch S .o 3], (metAt v).op = v ∧ at_ v ≠ [] ∧
      ∀ e ∈ at_ v, 0 < e.2.stack.length ∧ e.2.stack.length ≤ 8 + (metBlock v).stack := by
  refine ⟨⟨?_, ?_⟩, ⟨?_, ?_, ?_⟩, ⟨?_, ?_, ?_⟩, ?_⟩ <;> decide +kernel

/-- Elements of an instance of a segmented form: the last lane's segment begins at the only non-zero h before it. -/
theorem met_SegmentedResults : let hs : List Word := [0, 0, 7, 0]
    (∀ i ∈ [Instr.segred S .i32 .add 0, .segscan S .i32 .add 0],
      (metAt i).op = i ∧ arrivedThreads (metBlock i) (metAt i) ≠ []) ∧
    (upto 4).map (segmentStart hs) = [0, 0, 2, 2] ∧ (upto 4).map (segmentEnd hs) = [2, 2, 4, 4] := by
  refine ⟨?_, ?_, ?_⟩ <;> decide +kernel

/-! ### Control and paths -/

theorem transfer {s : State} {i : Instr} {Q : Thread → Prop} {P : Thread → Bool} (hq : ∀ t, P t = true → Q t)
    (h : eachLaneB (ctx s i) (fun t => operandsB (ctx s i) (laneCeil (ctx s i).b (ctx s i).p) 1 0 t.stack &&
      (tops 1 t.stack).all (fun v => v.poison == .clean) && P t) = true) :
    EachLane (ctx s i) (fun _ t => TransferOperand (ctx s i) t ∧ Q t) := by
  refine eachLane (fun _ t ht => ?_) h
  simp only [Bool.and_eq_true, List.all_eq_true, beq_iff_eq] at ht
  exact ⟨⟨operands ht.1.1, ht.1.2⟩, hq t ht.2⟩

theorem EachLane.imp {c : Ctx} {P Q : Nat → Thread → Prop} (h : ∀ k t, P k t → Q k t) : EachLane c P → EachLane c Q :=
  fun e => ⟨e.1, fun k hk => (e.2 k hk).elim fun t ht => ⟨t, ht.1, h k t ht.2⟩⟩

theorem transferOp {s : State} {i : Instr} (h : eachLaneB (ctx s i) (fun t =>
    operandsB (ctx s i) (laneCeil (ctx s i).b (ctx s i).p) 1 0 t.stack &&
      (tops 1 t.stack).all (fun v => v.poison == .clean) && true) = true) :
    EachLane (ctx s i) (fun _ t => TransferOperand (ctx s i) t) :=
  EachLane.imp (fun _ _ h => h.1) (transfer (Q := fun _ => True) (fun _ _ => trivial) h)

/-- All zero, none zero, some of each; the uniform stack. -/
theorem met_BranchesComplete : let i := Instr.bz L 0xFFFE
    branchForm i = some (L, 0xFFFE, true) ∧ AtIssue std (.bra L 5) [0] ∧
    (∀ s ∈ [zeros, std], AtIssue s i [0] ∧ EachLane (ctx s i) (fun _ t => TransferOperand (ctx s i) t) ∧
      ∃ z, ∀ e ∈ active (ctx s i), (topBits e.2.stack == 0) = z) ∧
    (AtIssue mixed i [0] ∧ EachLane (ctx mixed i) (fun _ t => TransferOperand (ctx mixed i) t) ∧
      (∃ e ∈ active (ctx mixed i), topBits e.2.stack = 0) ∧ (∃ e ∈ active (ctx mixed i), topBits e.2.stack ≠ 0) ∧
      Stands (counted mixed (ctx mixed i)) (ctx mixed i)) ∧
    AtIssue std (.bnz W 4) [0] ∧ UniformOperand (ctx std (.bnz W 4)) := by
  refine ⟨rfl, std_at _, fun s hs => ?_, ⟨atIssue (by decide +kernel) (by decide +kernel), transferOp (by decide +kernel),
    by decide +kernel, by decide +kernel, stands (by decide +kernel)⟩, std_at _, std_uniform⟩
  simp only [List.mem_cons, List.not_mem_nil, or_false] at hs
  rcases hs with rfl | rfl
  · exact ⟨atIssue (by decide +kernel) (by decide +kernel), transferOp (by decide +kernel), true, by decide +kernel⟩
  · exact ⟨std_at _, transferOp (by decide +kernel), false, by decide +kernel⟩

/-- Uniform stacks with room and without; targets at 16, misaligned, beyond the code section. -/
def to16 : State := four (fun _ => [16, 5]) [16]
theorem uniformOp {s : State} {i : Instr} (h : (operandsB (ctx s i) 8 1 0 (ctx s i).p.ust &&
    (tops 1 (ctx s i).p.ust).all (fun v => v.poison == .clean)) = true) : UniformOperand (ctx s i) := by
  simp only [Bool.and_eq_true, List.all_eq_true, beq_iff_eq] at h
  exact ⟨operands h.1, h.2⟩
theorem met_CallsComplete : let full := deepUst std 8; let odd := four (fun _ => [18]) [18]
    let far := four (fun _ => [0x10000]) [0x10000]; let r := Instr.ret L; let j := Instr.jx L
    (AtIssue std (.call L 1) [0] ∧ (ctx std (.call L 1)).p.ust.length < 8) ∧
    (AtIssue full (.call L 1) [0] ∧ 8 ≤ (ctx full (.call L 1)).p.ust.length ∧ Stands (counted full (ctx full (.call L 1))) (ctx full (.call L 1))) ∧
    (AtIssue to16 r [0] ∧ UniformOperand (ctx to16 r) ∧ Reachable (ctx to16 r) (topBits (ctx to16 r).p.ust)) ∧
    (AtIssue odd r [0] ∧ UniformOperand (ctx odd r) ∧ (topBits (ctx odd r).p.ust).toNat % 4 ≠ 0 ∧ Stands (counted odd (ctx odd r)) (ctx odd r)) ∧
    (AtIssue far r [0] ∧ UniformOperand (ctx far r) ∧ (topBits (ctx far r).p.ust).toNat % 4 = 0 ∧
      (ctx far r).b.csize ≤ (topBits (ctx far r).p.ust).toNat ∧ Stands (counted far (ctx far r)) (ctx far r)) ∧
    (AtIssue to16 j [0] ∧ EachLane (ctx to16 j) (fun _ t => TransferOperand (ctx to16 j) t ∧ topBits t.stack = 16) ∧
      Reachable (ctx to16 j) 16) ∧
    (AtIssue to16 (.jx W) [0] ∧ UniformOperand (ctx to16 (.jx W)) ∧
      Reachable (ctx to16 (.jx W)) (topBits (ctx to16 (.jx W)).p.ust)) ∧
    ∀ x ∈ [(odd, (18 : Word)), (far, 0x10000)], AtIssue x.1 j [0] ∧ AtIssue x.1 (.jx W) [0] ∧
      EachLane (ctx x.1 j) (fun _ t => TransferOperand (ctx x.1 j) t ∧ topBits t.stack = x.2) ∧
      UniformOperand (ctx x.1 (.jx W)) ∧ topBits (ctx x.1 (.jx W)).p.ust = x.2 ∧
      Stands (counted x.1 (ctx x.1 j)) (ctx x.1 j) ∧ (x.2.toNat % 4 ≠ 0 ∨ (ctx x.1 j).b.csize ≤ x.2.toNat) :=
  ⟨⟨std_at _, by decide +kernel⟩, ⟨atIssue (by decide +kernel) (by decide +kernel), by decide +kernel, stands (by decide +kernel)⟩,
    ⟨atIssue (by decide +kernel) (by decide +kernel), uniformOp (by decide +kernel), by decide +kernel, by decide +kernel⟩,
    ⟨atIssue (by decide +kernel) (by decide +kernel), uniformOp (by decide +kernel), by decide +kernel, stands (by decide +kernel)⟩,
    ⟨atIssue (by decide +kernel) (by decide +kernel), uniformOp (by decide +kernel), by decide +kernel, by decide +kernel,
      stands (by decide +kernel)⟩,
    ⟨atIssue (by decide +kernel) (by decide +kernel), transfer (P := fun t => topBits t.stack == 16) (fun _ h => by simpa using h)
      (by decide +kernel), by decide +kernel, by decide +kernel⟩,
    ⟨atIssue (by decide +kernel) (by decide +kernel), uniformOp (by decide +kernel), by decide +kernel, by decide +kernel⟩,
    List.forall_mem_cons.2 ⟨⟨atIssue (by decide +kernel) (by decide +kernel), atIssue (by decide +kernel) (by decide +kernel),
      transfer (P := fun t => topBits t.stack == 18) (fun _ h => by simpa using h) (by decide +kernel), uniformOp (by decide +kernel),
      by decide +kernel, stands (by decide +kernel), by decide +kernel⟩,
      List.forall_mem_singleton.2 ⟨atIssue (by decide +kernel) (by decide +kernel), atIssue (by decide +kernel) (by decide +kernel),
      transfer (P := fun t => topBits t.stack == 0x10000) (fun _ h => by simpa using h) (by decide +kernel),
      uniformOp (by decide +kernel), by decide +kernel, stands (by decide +kernel), by decide +kernel⟩⟩⟩

theorem met_ExitCompletes : AtIssue std (.exit L) [0] ∧ EachLane (ctx std (.exit L)) (fun _ _ => True) :=
  ⟨std_at _, (stands (i := .ret L) std_stands).lanes⟩

/-- Both arms have lanes; one has none. -/
theorem met_ForkCompletes : let i := Instr.fork L 7
    (AtIssue mixed i [0] ∧ EachLane (ctx mixed i) (fun _ t => TransferOperand (ctx mixed i) t) ∧
      openForks (ctx mixed i).b (ctx mixed i).p < Config.maxForks ∧ mixed.ids + 1 ≠ (ctx mixed i).pid ∧
      armOf (ctx mixed i) false ≠ [] ∧ armOf (ctx mixed i) true ≠ []) ∧
    AtIssue std i [0] ∧ EachLane (ctx std i) (fun _ t => TransferOperand (ctx std i) t) ∧
      openForks (ctx std i).b (ctx std i).p < Config.maxForks ∧ std.ids + 1 ≠ (ctx std i).pid ∧
      armOf (ctx std i) false = [] ∧ armOf (ctx std i) true ≠ [] :=
  ⟨⟨atIssue (by decide +kernel) (by decide +kernel), transferOp (by decide +kernel), by decide +kernel, by decide +kernel,
    by decide +kernel, by decide +kernel⟩, std_at _, transferOp (by decide +kernel), by decide +kernel, by decide +kernel,
    by decide +kernel, by decide +kernel⟩

/-- One arm after the fork at 0; then with the join's PC recorded, at it and elsewhere. -/
def forked : State := after (.fork L 7) mixed
def recorded (pc : Word) : State := forked.modBlock 0 (fun b => { b with forks := b.forks.map (fun e => (e.1, { e.2 with joinPc := some pc })) })
def B : Hdr := ⟨true, .lane⟩
def forkOf (s : State) : Fork := (tget (ctx s (.ret L)).b.forks 2).getD ⟨0, false, [], [], none⟩

theorem joinsLane {s : State} {d : BitVec 4} {i : Instr} (h : eachLaneB (ctx s i) (fun t =>
    decide ((t.stack.length : Int) = ((t.forkD.head?.map (·.2)).getD 0 : Nat) + d.toInt)) = true) :
    EachLane (ctx s i) (fun _ t => joinsAt t d) := eachLane (fun _ _ ht => by simpa [joinsAt] using ht) h

theorem met_JoinParks : let i := Instr.join B 0
    (∀ s ∈ [forked, recorded (ctx forked i).p.pc], AtIssue s i [0] ∧ (ctx s i).p.forks = [2] ∧
      tget (ctx s i).b.forks 2 = some (forkOf s) ∧ ((forkOf s).joinPc = none ∨ (forkOf s).joinPc = some (ctx s i).p.pc) ∧
      EachLane (ctx s i) (fun _ t => joinsAt t 0)) ∧
    (AtIssue std i [0] ∧ Stands (counted std (ctx std i)) (ctx std i) ∧ (ctx std i).p.forks = []) ∧
    let s := recorded 0x400
    AtIssue s i [0] ∧ Stands (counted s (ctx s i)) (ctx s i) ∧ (ctx s i).p.forks = [2] ∧ tget (ctx s i).b.forks 2 = some (forkOf s) ∧
      (forkOf s).joinPc = some 0x400 ∧ (0x400 : Word) ≠ (ctx s i).p.pc := by
  refine ⟨List.forall_mem_cons.2 ⟨?_, List.forall_mem_singleton.2 ?_⟩, ⟨std_at _, stands std_stands, by decide +kernel⟩,
    atIssue (by decide +kernel) (by decide +kernel), stands (by decide +kernel), by decide +kernel, by decide +kernel,
    by decide +kernel, by decide +kernel⟩
  · exact ⟨atIssue (by decide +kernel) (by decide +kernel), by decide +kernel, by decide +kernel, .inl (by decide +kernel),
      joinsLane (by decide +kernel)⟩
  · exact ⟨atIssue (by decide +kernel) (by decide +kernel), by decide +kernel, by decide +kernel, .inr (by decide +kernel),
      joinsLane (by decide +kernel)⟩

/-- Both arms wait at the join, and differ in a w cell. -/
def joined : State := { (after (.join B 0) (after (.fork L 7) mixed)).modBlock 0 (fun b => { b with
  paths := b.paths.map (fun e => (e.1, { e.2 with wait := .joining 2, pc := 4, w := e.2.w.set 5 (.ofWord (wd e.1)) })) }) with
  cur := none, due := some (.joinMerge 0 2) }
def joinedBlock : Block := (tget joined.blocks 0).getD (bootBlock 0)
def joinedFork : Fork := (tget joinedBlock.forks 2).getD ⟨0, false, [], [], none⟩
def joinedArm (k : Nat) : Nat × Path := (joinedBlock.paths.filter (fun e => e.2.wait == .joining 2)).getD k (0, freshPath 0 0 false [] 0 [] 0)

theorem two {α : Type} {l : List α} {d : α} (h : l.length = 2) : l = [l.getD 0 d, l.getD 1 d] := by
  match l with
  | [_, _] => rfl

theorem met_JoinsMerge : (joined.due = some (.joinMerge 0 2) ∧ tget joined.blocks 0 = some joinedBlock ∧
      tget joinedBlock.forks 2 = some joinedFork ∧ joinedBlock.joinReady 2 joinedFork = true ∧
      lowLane (joinedArm 0).2 < lowLane (joinedArm 1).2 ∧ (joinedArm 0).1 ≠ (joinedArm 1).1 ∧
      (let arrived := joinedBlock.paths.filter (fun e => e.2.wait == .joining 2)
       arrived = [joinedArm 0, joinedArm 1] ∨ arrived = [joinedArm 1, joinedArm 0]) ∧
      (joinedArm 0).2.ust.length = (joinedArm 1).2.ust.length) ∧
    ∃ a b last : Cell, a.hi = none ∧ b.hi = none ∧ a.val.bits ≠ b.val.bits ∧ last.hi = none :=
  ⟨⟨rfl, getD_of (by decide +kernel), getD_of (by decide +kernel), by decide +kernel, by decide +kernel, by decide +kernel,
    .inl (two (by decide +kernel)), by decide +kernel⟩, .ofWord 1, .ofWord 2, .ofWord 3, rfl, rfl, by decide, rfl⟩

/-- A free bin, none; a formed warp at its rehome. -/
def noBin : State := std.modSector (ctx std (.ret L)).sector (fun x => { x with
  bins := (upto Config.bins).map (fun i => (i, ⟨0, wd (1000 + 4 * i), [⟨0, 900, 0⟩]⟩)) })
def deep (s : State) (d : Nat) : Bool := eachLaneB (ctx s (.ret L)) (fun t => t.stack.length == d)
theorem deep_eq {s : State} {i : Instr} {d : Nat} (h : deep s d = true) : EachLane (ctx s i) (fun _ t => t.stack.length = d) :=
  eachLane (fun _ _ ht => by simpa using ht) h

/-- Its run has slept; an engine owes it a result. -/
def slept (s : State) : State := modP s (fun p => { p with run := { p.run with sleep := 64 } })
def awaiting (s : State) : State := modP s (fun p => { p with run := { p.run with awaits := [(1, ⟨5, 0, true, 4⟩)] } })
def goes (s : State) : Prop := (ctx s (.ret L)).p.run.sleep = 0 ∧ (ctx s (.ret L)).p.run.awaits = []

theorem goes_of {s : State} (h : ((ctx s (.ret L)).p.run.sleep == 0 && (ctx s (.ret L)).p.run.awaits.isEmpty) = true) : goes s := by
  simpa [goes] using h
theorem parks (s : State) (h : ((ctx s (.ret L)).p.run.sleep == 0 && (ctx s (.ret L)).p.run.awaits.isEmpty) = false) : ¬ goes s := by
  simpa [goes] using h

/-- What a formed warp's rehome supposes. -/
def MeetsHome (s : State) : Prop := AtIssue s (.rehome B) [0] ∧ (ctx s (.rehome B)).p.finder = false ∧
  (ctx s (.rehome B)).p.formed = true ∧ EachLane (ctx s (.rehome B)) (fun _ _ => True)
theorem meetsHome {s : State} (h : issuingB s = true)
    (h2 : (s.feature (ctx s (.rehome B)).b.part 0 && !(ctx s (.rehome B)).p.finder && (ctx s (.rehome B)).p.formed) = true)
    (h3 : standsB s = true) : MeetsHome s := by
  simp only [Bool.and_eq_true, Bool.not_eq_true'] at h2
  exact ⟨atIssue h (by simpa using h2.1.1), h2.1.2, h2.2, (standsIn (i := .rehome B) h3).lanes⟩

theorem met_RegatheringParks : let i := Instr.reform B 4
    (∀ s ∈ [std, noBin, slept std], AtIssue s i [0] ∧ (ctx s i).p.finder = false ∧ (ctx s i).p.forks = [] ∧
      EachLane (ctx s i) (fun _ t => t.stack.length = 4)) ∧
    (∀ s ∈ [std, noBin], goes s ∧ (ctx s i).p.stops = []) ∧ (¬ goes (slept std) ∧ ¬ goes (awaiting (inFormed std))) ∧
    (binFor (std.sector ((ctx std i).b.sectorOf (ctx std i).p.warp)) (ctx std i).bid ((ctx std i).p.pc + 4)).isSome = true ∧
    binFor (noBin.sector ((ctx noBin i).b.sectorOf (ctx noBin i).p.warp)) (ctx noBin i).bid ((ctx noBin i).p.pc + 4) = none ∧
    let f := inFormed std; let j := Instr.rehome B
    MeetsHome f ∧ MeetsHome (awaiting f) ∧ goes f ∧
      ∀ k ∈ (ctx f j).p.lanes, ∀ e ∈ (ctx f j).b.homing, homeWarp e.1 = homeWarp k → e.2 = (ctx f j).p.pc := by
  refine ⟨fun s hs => ?_, List.forall_mem_cons.2 ⟨⟨goes_of (by decide +kernel), by decide +kernel⟩,
      List.forall_mem_singleton.2 ⟨goes_of (by decide +kernel), by decide +kernel⟩⟩,
    ⟨parks _ (by decide +kernel), parks _ (by decide +kernel)⟩, by decide +kernel, by decide +kernel,
    meetsHome (by decide +kernel) (by decide +kernel) (by decide +kernel),
    meetsHome (by decide +kernel) (by decide +kernel) (by decide +kernel),
    goes_of (by decide +kernel), by decide +kernel⟩
  simp only [List.mem_cons, List.not_mem_nil, or_false] at hs
  rcases hs with rfl | rfl | rfl
  · exact ⟨std_at _, by decide +kernel, by decide +kernel, deep_eq (by decide +kernel)⟩
  · exact ⟨atIssue (by decide +kernel) (by decide +kernel), by decide +kernel, by decide +kernel, deep_eq (by decide +kernel)⟩
  · exact ⟨atIssue (by decide +kernel) (by decide +kernel), by decide +kernel, by decide +kernel, deep_eq (by decide +kernel)⟩

/-! ### Memory, records, the window -/

/-- The issuing path and its lanes are where they were. -/
def staysB (c : Ctx) (s : State) : Bool :=
  (match tget s.blocks c.bid with
    | some b => tget b.paths c.pid == some c.p && c.p.lanes.all (fun k => tget b.threads k == tget c.b.threads k)
    | none => false) && !s.coh.atsWait
theorem staysOf {c : Ctx} {s : State} (h : staysB c s = true) : ∃ b, Stays c s b := by
  simp only [staysB, Bool.and_eq_true, Bool.not_eq_true'] at h
  obtain ⟨h, hq⟩ := h
  split at h
  · simp only [Bool.and_eq_true, beq_iff_eq, List.all_eq_true] at h
    exact ⟨_, ‹_›, h.1, h.2, hq⟩
  · cases h

def runTurns (turn : State → Nat → Thread → State × LaneRes Thread) :
    State → List (Nat × Thread) → Option (State × List (Nat × Thread))
  | s, [] => some (s, [])
  | s, e :: r =>
    match turn s e.1 e.2 with
    | (s1, .ok u) => (runTurns turn s1 r).map (fun x => (x.1, (e.1, u) :: x.2))
    | _ => none
theorem turnsOf {turn : State → Nat → Thread → State × LaneRes Thread} {l : List (Nat × Thread)} : ∀ {s : State}
    {x : State × List (Nat × Thread)}, runTurns turn s l = some x → Turns turn s l x.1 x.2 := by
  induction l with
  | nil => intro s x h; cases h; exact .nil s
  | cons e r ih =>
    intro s x h
    simp only [runTurns] at h
    split at h
    · obtain ⟨y, hy, rfl⟩ := Option.map_eq_some_iff.1 h
      exact .cons ‹_› (ih hy)
    · cases h

def MeetsInTurn (form : Instr → Option TurnForm) (i : Instr) (s : State) : Prop :=
  ∃ f s1 b new, form i = some f ∧ f.hdr.sc = .lane ∧ AtIssue s i (f.feats (ctx s i).b) ∧ (f.priv = true → (ctx s i).b.lvl ≠ 0) ∧
    (ctx s i).p.finder = false ∧ f.ok (counted s (ctx s i)) (ctx s i) ∧
    EachLane (ctx s i) (fun _ t => Operands (ctx s i) (laneCeil (ctx s i).b (ctx s i).p) f.pops f.pushes t.stack) ∧
    Turns (f.turn (ctx s i)) (counted s (ctx s i)) (inOrderOfLanes (ctx s i)) s1 new ∧ Stays (ctx s i) s1 b

theorem meetsInTurn {form : Instr → Option TurnForm} {i : Instr} {s : State} {f : TurnForm} (hf : form i = some f)
    (hs : f.hdr.sc = .lane) (hok : f.ok (counted s (ctx s i)) (ctx s i))
    (h : (issuingB s && (f.feats (ctx s i).b).all (fun k => s.feature (ctx s i).b.part k) && (!f.priv || (ctx s i).b.lvl != 0)
      && !(ctx s i).p.finder
      && eachLaneB (ctx s i) (fun t => operandsB (ctx s i) (laneCeil (ctx s i).b (ctx s i).p) f.pops f.pushes t.stack)
      && (match runTurns (f.turn (ctx s i)) (counted s (ctx s i)) (inOrderOfLanes (ctx s i)) with
        | some x => staysB (ctx s i) x.1
        | none => false)) = true) : MeetsInTurn form i s := by
  simp only [Bool.and_eq_true, Bool.not_eq_true', Bool.or_eq_true, bne_iff_ne] at h
  obtain ⟨⟨⟨⟨⟨h1, h2⟩, h3⟩, h4⟩, h5⟩, h6⟩ := h
  split at h6
  · obtain ⟨b, hb⟩ := staysOf h6
    exact ⟨f, _, b, _, hf, hs, atIssue h1 h2, fun hp => h3.resolve_left (by simp [hp]), h4, hok, laneOperands h5, turnsOf ‹_›, hb⟩
  · cases h6

/-- A state with the three formats of `std`; its scratchpad has 4 KiB. -/
def slots (f : Nat → List Word) (u : List Word) : State :=
  withSnap (withSnap (withSnap (withSnap (four f u) 0x080 1 1) 0x0A0 1 2) 0x0C0 1 6) 0x1C 1 4
/-- Each lane's and the path's address, in memory, above a value. -/
def addrs : State := slots (fun k => [wd (0x20000 + 4 * k), 0, 7, 8, 9]) [0x20010, 0, 7]
def flat : Addr := ⟨0, 0, 0⟩

theorem met_LanesAccessMemory : MeetsInTurn memoryTurn (.ld L flat false .none) addrs ∧
    MeetsInTurn memoryTurn (.stn L flat true .none 2) addrs ∧ MeetsInTurn memoryTurn (.cas L flat .ar) addrs :=
  ⟨meetsInTurn rfl rfl trivial (by decide +kernel), meetsInTurn rfl rfl trivial (by decide +kernel),
    meetsInTurn rfl rfl trivial (by decide +kernel)⟩

/-- A user graph of one pool and two nodes, of which node 1 is disabled; records 0 to 3 are the lanes' own (R17-R19). -/
def withGraph (s : State) : State :=
  let s := { s with parts := s.parts.set 0 { (s.part 0) with guest := { (s.part 0).guest with gusr := 0x3001 } } }
  let s := { s with mem := s.mem ++ [(0x3001, 0x40), (0x3009, 0x38), (0x3011, 0x39), (0x3018, 2), (0x301A, 1), (0x3801, 0x80),
    (0x3809, 0x90), (0x3810, 3), (0x3814, 8), (0x3900, 3), (0x4010, 3), (0x4014, 15), (0x4590, 3), (0x4594, 15),
    (0x9000, 7), (0x9008, 7), (0x9010, 7), (0x9018, 7)] }
  let s := withSnap (withSnap s 0x34 2 1) 0x10 4 3
  (upto 4).foldl (fun s k => s.modThread 0 k (fun t => { t with handle := wd k })) s
def graphed : State := withGraph addrs
/-- At privilege level 1 with window 4's address 0 in every lane. -/
def windowed : State := (slots (fun _ => [0, 0, 7, 8]) []).modBlock 0 (fun b => { b with graph := ⟨0, 1⟩ })

theorem met_RecordsAndWindowComplete : MeetsInTurn recordTurn (.emit L 0) graphed ∧ MeetsInTurn windowTurn (.rdbk L 0) windowed :=
  ⟨meetsInTurn rfl rfl ⟨by decide +kernel, 2, by decide +kernel, by decide +kernel⟩ (by decide +kernel),
    meetsInTurn rfl rfl trivial (by decide +kernel)⟩

def helpers (s : State) : State := (upto 4).foldl (fun s k => s.modThread 0 k (fun t => { t with cls := .helper })) s

/-- One value is loaded, or stored, and the path stays. -/
def loadsB (c : Ctx) (s : State) (vs : List Val) : Bool :=
  match loadOps c flat false 1 s vs with
  | (s1, .ok l) => match loadedVals s1 l with
    | (s2, [_]) => staysB c s2
    | _ => false
  | _ => false
theorem loads {c : Ctx} {s : State} {vs : List Val} (h : loadsB c s vs = true) : ∃ s1 l s2 v b,
    loadOps c flat false 1 s vs = (s1, .ok l) ∧ loadedVals s1 l = (s2, [v]) ∧ Stays c s2 b := by
  unfold loadsB at h
  split at h
  · split at h
    · exact (staysOf h).elim fun b hb => ⟨_, _, _, _, b, ‹_›, ‹_›, hb⟩
    · cases h
  · cases h
def storesB (c : Ctx) (s : State) (vs : List Val) : Bool :=
  match storeOps c flat 1 s vs with
  | (s1, .ok ()) => staysB c s1
  | _ => false
theorem stores {c : Ctx} {s : State} {vs : List Val} (h : storesB c s vs = true) : ∃ s1 b,
    storeOps c flat 1 s vs = (s1, .ok ()) ∧ Stays c s1 b := by
  unfold storesB at h
  split at h
  · exact (staysOf h).elim fun b hb => ⟨_, b, ‹_›, hb⟩
  · cases h

def noLane : Nat × Thread := (0, freshThread 0 0 .helper 0 0)
def chosenOne : Nat × Thread := (chosen (ctx addrs (.ret L))).getD noLane

/-- What each form supposes at its scope, in a state and in one with only helper lanes. -/
def MeetsLane (s : State) (i : Instr) (n q : Nat) : Prop := AtIssue s i [0] ∧ withQn4 (usesQn4 flat) (ctx s i).b = [0] ∧
  EachLane (ctx s i) (fun _ t => Operands (ctx s i) (laneCeil (ctx s i).b (ctx s i).p) n q t.stack)
def MeetsWarp (s : State) (i : Instr) (n q : Nat) : Prop := AtIssue s i [0] ∧ withQn4 (usesQn4 flat) (ctx s i).b = [0] ∧
  Operands (ctx s i) 8 n q (ctx s i).p.ust ∧ EachLane (ctx s i) (fun _ _ => True)
theorem meetsLane {s : State} {i : Instr} {n q : Nat} (h : (issuingB s && s.feature (ctx s i).b.part 0
    && withQn4 (usesQn4 flat) (ctx s i).b == [0] && eachLaneB (ctx s i) (fun t =>
      operandsB (ctx s i) (laneCeil (ctx s i).b (ctx s i).p) n q t.stack)) = true) : MeetsLane s i n q := by
  simp only [Bool.and_eq_true, beq_iff_eq] at h
  exact ⟨⟨issuing h.1.1.1, by simp [Enabled, h.1.1.2]⟩, h.1.2, laneOperands h.2⟩
theorem meetsWarp {s : State} {i : Instr} {n q : Nat} (h : (issuingB s && s.feature (ctx s i).b.part 0
    && withQn4 (usesQn4 flat) (ctx s i).b == [0] && operandsB (ctx s i) 8 n q (ctx s i).p.ust
    && eachLaneB (ctx s i) (fun _ => true)) = true) : MeetsWarp s i n q := by
  simp only [Bool.and_eq_true, beq_iff_eq] at h
  exact ⟨⟨issuing h.1.1.1.1, by simp [Enabled, h.1.1.1.2]⟩, h.1.1.2, operands h.1.2, eachLane (fun _ _ _ => trivial) h.2⟩

theorem met_UniformAccess_ldf : let i := Instr.ldf L flat false .none; let w := Instr.ldf W flat false .none; let x := helpers addrs
    (MeetsLane addrs i 2 1 ∧ ∃ k0 t0 s1 l s2 v b, chosen (ctx addrs i) = some (k0, t0) ∧
      loadOps (ctx addrs i) flat false 1 (counted addrs (ctx addrs i)) (tops 2 t0.stack) = (s1, .ok l) ∧ loadedVals s1 l = (s2, [v]) ∧
      Stays (ctx addrs i) s2 b) ∧
    (MeetsLane x i 2 1 ∧ chosen (ctx x i) = none) ∧
    (MeetsWarp addrs w 2 1 ∧ (chosen (ctx addrs w)).isSome = true ∧ ∃ s1 l s2 v b,
      loadOps (ctx addrs w) flat false 1 (counted addrs (ctx addrs w)) (tops 2 (ctx addrs w).p.ust) = (s1, .ok l) ∧ loadedVals s1 l = (s2, [v]) ∧
      Stays (ctx addrs w) s2 b) ∧
    MeetsWarp x w 2 1 ∧ chosen (ctx x w) = none :=
  ⟨⟨meetsLane (by decide +kernel), chosenOne.1,
      chosenOne.2,
      (loads (by decide +kernel)).elim fun s1 h => h.elim fun l h => ⟨s1, l, h.elim fun s2 h => h.elim fun v h => h.elim fun b h =>
        ⟨s2, v, b, getD_of (d := noLane) (by decide +kernel), h⟩⟩⟩,
    ⟨meetsLane (by decide +kernel), by decide +kernel⟩,
    ⟨meetsWarp (by decide +kernel), by decide +kernel, loads (by decide +kernel)⟩, meetsWarp (by decide +kernel), by decide +kernel⟩

theorem met_UniformAccess_stf : let i := Instr.stf L flat false .none; let w := Instr.stf W flat false .none; let x := helpers addrs
    (MeetsLane addrs i 3 0 ∧ (ctx addrs i).p.finder = false ∧ ∃ k0 t0 s1 b, chosen (ctx addrs i) = some (k0, t0) ∧
      storeOps (ctx addrs i) flat 1 (counted addrs (ctx addrs i)) (tops 3 t0.stack) = (s1, .ok ()) ∧ Stays (ctx addrs i) s1 b) ∧
    (MeetsLane x i 3 0 ∧ (ctx x i).p.finder = false ∧ chosen (ctx x i) = none) ∧
    (MeetsWarp addrs w 3 0 ∧ (ctx addrs w).p.finder = false ∧ (chosen (ctx addrs w)).isSome = true ∧ ∃ s1 b,
      storeOps (ctx addrs w) flat 1 (counted addrs (ctx addrs w)) (tops 3 (ctx addrs w).p.ust) = (s1, .ok ()) ∧ Stays (ctx addrs w) s1 b) ∧
    MeetsWarp x w 3 0 ∧ (ctx x w).p.finder = false ∧ chosen (ctx x w) = none :=
  ⟨⟨meetsLane (by decide +kernel), by decide +kernel, chosenOne.1,
      chosenOne.2,
      (stores (by decide +kernel)).elim fun s1 h => h.elim fun b h => ⟨s1, b, getD_of (d := noLane) (by decide +kernel), h⟩⟩,
    ⟨meetsLane (by decide +kernel), by decide +kernel, by decide +kernel⟩,
    ⟨meetsWarp (by decide +kernel), by decide +kernel, by decide +kernel, stores (by decide +kernel)⟩,
    meetsWarp (by decide +kernel), by decide +kernel, by decide +kernel⟩

/-- A finder warp with a window of five entries; a home warp whose queue holds three entries, two of them available. -/
def finders : State := withSnap (withSnap (inFinder addrs) 0x1A 1 5) 0x08 4 0x10000
def withQueue (s : State) (n : Nat) : State := s.modBlock 0 (fun b => { b with queues :=
  [(0, ⟨⟨[(0, ⟨5, .clean⟩)], [], true⟩ :: ⟨[], [], true⟩ :: List.replicate n ⟨[], [], false⟩, 3, []⟩)] })
def queued : State := modP (withQueue finders 1) (fun p => { p with finder := false })
def midRun (s : State) : State := modP s (fun p => { p with run := { p.run with count := 3 } })

def findsB (s : State) (i : Instr) (n : Nat) : Bool :=
  match finderLanes (ctx s i) flat false n ((queueOf (ctx s i).b (ctx s i).p.warp).head
      + (queueOf (ctx s i).b (ctx s i).p.warp).entries.length) (counted s (ctx s i)) (inOrderOfLanes (ctx s i)) with
  | (s1, _, .all _ []) => staysB (ctx s i) s1
  | _ => false
theorem finds {s : State} {i : Instr} {n : Nat} (h : findsB s i n = true) : ∃ s1 cells ok b,
    finderLanes (ctx s i) flat false n ((queueOf (ctx s i).b (ctx s i).p.warp).head
      + (queueOf (ctx s i).b (ctx s i).p.warp).entries.length) (counted s (ctx s i)) (inOrderOfLanes (ctx s i)) = (s1, cells, .all ok []) ∧
    Stays (ctx s i) s1 b := by
  unfold findsB at h
  split at h
  · exact (staysOf h).elim fun b hb => ⟨_, _, _, b, ‹_›, hb⟩
  · cases h

theorem met_FinderQueue : let i := Instr.ldn L flat false .none 3; let full := withQueue finders 1; let q := Instr.qpop L 2
    (∀ s ∈ [finders, full], MeetsLane s i 2 0 ∧ (ctx s i).p.finder = true ∧ 3 ≤ (ctx s i).b.queue) ∧
    ((queueOf (ctx finders i).b (ctx finders i).p.warp).entries.length + 3 ≤ (ctx finders i).b.queue ∧
      ∃ s1 cells ok b, finderLanes (ctx finders i) flat false 3 ((queueOf (ctx finders i).b (ctx finders i).p.warp).head
        + (queueOf (ctx finders i).b (ctx finders i).p.warp).entries.length) (counted finders (ctx finders i)) (inOrderOfLanes (ctx finders i))
          = (s1, cells, .all ok []) ∧ Stays (ctx finders i) s1 b) ∧
    (ctx full i).b.queue < (queueOf (ctx full i).b (ctx full i).p.warp).entries.length + 3 ∧
    (∀ s ∈ [queued, midRun queued], AtIssue s q [0] ∧ (ctx s q).p.finder = false ∧ 2 ≤ (ctx s q).b.queue ∧ (ctx s q).b.fentry ≠ 0 ∧
      EachLane (ctx s q) (fun _ t => Operands (ctx s q) (laneCeil (ctx s q).b (ctx s q).p) 0 2 t.stack) ∧
      2 ≤ (queueOf (ctx s q).b (ctx s q).p.warp).available ∧
      ∀ e ∈ (queueOf (ctx s q).b (ctx s q).p.warp).entries.take 2, e.bad = []) ∧
    (ctx queued q).p.run.count = 0 ∧ (ctx (midRun queued) q).p.run.count ≠ 0 := by
  refine ⟨List.forall_mem_cons.2 ⟨?_, List.forall_mem_singleton.2 ?_⟩, ⟨by decide +kernel, finds (by decide +kernel)⟩,
    by decide +kernel, List.forall_mem_cons.2 ⟨?_, List.forall_mem_singleton.2 ?_⟩, by decide +kernel, by decide +kernel⟩
  · exact ⟨meetsLane (by decide +kernel), by decide +kernel, by decide +kernel⟩
  · exact ⟨meetsLane (by decide +kernel), by decide +kernel, by decide +kernel⟩
  · exact ⟨atIssue (by decide +kernel) (by decide +kernel), by decide +kernel, by decide +kernel, by decide +kernel,
      laneOperands (by decide +kernel), by decide +kernel, by decide +kernel⟩
  · exact ⟨atIssue (by decide +kernel) (by decide +kernel), by decide +kernel, by decide +kernel, by decide +kernel,
      laneOperands (by decide +kernel), by decide +kernel, by decide +kernel⟩

def cA : Ctx := ctx addrs (.ret L)
def soundAt : Xlate → Bool
  | .ok pa perm => !isFabric pa && !perm.nco && !addrs.lineBad pa && !addrs.lineBad (pa + 3)
  | .fail _ => false
theorem foundAt {p : State × Xlate} (h : soundAt p.2 = true) : ∃ s1 pa perm, p = (s1, .ok pa perm) ∧ isFabric pa = false ∧ perm.nco = false ∧
    addrs.lineBad pa = false ∧ addrs.lineBad (pa + 3) = false := by
  obtain ⟨s1, x⟩ := p
  cases x with
  | ok pa perm => exact ⟨s1, pa, perm, rfl, by simpa [soundAt, and_assoc] using h⟩
  | fail k => cases h

/-- A word of memory, the last word of the scratchpad, each for a load and for a store. -/
theorem met_WordAccess : (∀ st ∈ [false, true], OneWord cA flat st 0 0x20010 0x20010 ∧ OneWord cA flat st 0x80000000 0xFFC 0x8000000000000FFC) ∧
    (∀ need ∈ [Need.load, .store], ∃ s1 pa perm, MemWord addrs s1 cA need 0x20010 pa perm) ∧
    ∀ st ∈ [false, true], SpadWord addrs cA st 0x8000000000000FFC 0 0xFFC cA.b := by
  refine ⟨List.forall_mem_cons.2 ⟨?_, List.forall_mem_singleton.2 ?_⟩, List.forall_mem_cons.2 ⟨?_, List.forall_mem_singleton.2 ?_⟩,
    List.forall_mem_cons.2 ⟨?_, List.forall_mem_singleton.2 ?_⟩⟩
  · exact ⟨⟨rfl, ⟨by decide +kernel, by decide +kernel⟩, by decide +kernel, rfl, rfl⟩,
      ⟨rfl, ⟨by decide +kernel, by decide +kernel⟩, by decide +kernel, by decide +kernel, rfl⟩⟩
  · exact ⟨⟨rfl, ⟨by decide +kernel, by decide +kernel⟩, by decide +kernel, rfl, rfl⟩,
      ⟨rfl, ⟨by decide +kernel, by decide +kernel⟩, by decide +kernel, by decide +kernel, rfl⟩⟩
  · exact (foundAt (p := xlate addrs cA.b.who .load 0x20010) (by decide +kernel)).elim fun s1 h => h.elim fun pa h => h.elim fun perm h =>
      ⟨s1, pa, perm, ⟨by decide +kernel, h.1, h.2.1, h.2.2.1, h.2.2.2⟩⟩
  · exact (foundAt (p := xlate addrs cA.b.who .store 0x20010) (by decide +kernel)).elim fun s1 h => h.elim fun pa h => h.elim fun perm h =>
      ⟨s1, pa, perm, ⟨by decide +kernel, h.1, h.2.1, h.2.2.1, h.2.2.2⟩⟩
  · exact ⟨by decide +kernel, ⟨0, by decide +kernel, by decide +kernel, by decide +kernel⟩, by decide +kernel, by decide +kernel,
      by decide +kernel, by decide +kernel⟩
  · exact ⟨by decide +kernel, ⟨0, by decide +kernel, by decide +kernel, by decide +kernel⟩, by decide +kernel, by decide +kernel,
      by decide +kernel, by decide +kernel⟩

/-! ### Engines and matrices -/

/-- Shape k: base, format slot, whether in the scratchpad, extents and strides, outermost first (R160). -/
def withShape (s : State) (k base fsl : Nat) (spad : Bool) (ext str : List Nat) : State :=
  let packed := fun (l : List Nat) => l.foldr (fun e a => e + 2 ^ 32 * a) 0
  withSnap (withSnap (withSnap s (0x180 + 64 * k) 8 (base + ext.length * 2 ^ 48 + fsl * 2 ^ 51 + if spad then 2 ^ 56 else 0))
    (0x188 + 64 * k) 16 (packed ext)) (0x1A4 + 64 * k) 16 (packed str)
/-- Stacks of equal cells and two shapes; the pages have been checked. -/
def shaped : State :=
  modP (withShape (withShape (slots (fun _ => [0, 0, 0, 7]) [0]) 1 0x20000 0 false [8] [1]) 2 0x21000 0 false [8] [1])
    (fun p => { p with checked := true })

theorem same {s : State} {i : Instr} {n : Nat} (h : ((issuers (ctx s i)).all (fun e => (issuers (ctx s i)).all (fun f =>
    (tops n e.2.stack).map (·.bits) == (tops n f.2.stack).map (·.bits)))) = true) : SameTops n (issuers (ctx s i)) := by
  simp only [List.all_eq_true, beq_iff_eq] at h
  exact fun e he f hf => h e he f hf
theorem clean {n : Nat} {l : List (Nat × Thread)} (h : (l.all (fun e => (tops n e.2.stack).all (fun v => v.poison == .clean))) = true) :
    CleanTops n l := by
  simp only [List.all_eq_true, beq_iff_eq] at h
  exact h

def doneB (c : Ctx) : CmdRes → Bool
  | .done s => staysB c s
  | _ => false
theorem doneOf {c : Ctx} {r : CmdRes} (h : doneB c r = true) : ∃ s1 b, r = .done s1 ∧ Stays c s1 b := by
  cases r with
  | done s => exact (staysOf h).elim fun b hb => ⟨s, b, rfl, hb⟩
  | _ => cases h

/-- With lanes that issue, and with helpers alone. -/
theorem met_CommandsComplete : let i := Instr.cpyo L 1 1 2 false 0; let x := helpers shaped
    ∃ f, commandForm i = some f ∧ f.hdr.sc = .lane ∧
    (∀ s ∈ [shaped, x], AtIssue s i (f.feats (ctx s i).b) ∧ (ctx s i).p.finder = false ∧
      EachLane (ctx s i) (fun _ t => Operands (ctx s i) (laneCeil (ctx s i).b (ctx s i).p) f.pops 0 t.stack) ∧
      CleanTops f.pops (issuers (ctx s i)) ∧ SameTops f.pops (issuers (ctx s i))) ∧
    (issuers (ctx shaped i) ≠ [] ∧ ∃ s1 b, f.run (counted shaped (ctx shaped i)) (ctx shaped i) (issuers (ctx shaped i)) = .done s1 ∧ Stays (ctx shaped i) s1 b) ∧
    issuers (ctx x i) = [] := by
  refine ⟨_, rfl, rfl, List.forall_mem_cons.2 ⟨?_, List.forall_mem_singleton.2 ?_⟩, ⟨by decide +kernel, doneOf (by decide +kernel)⟩,
    by decide +kernel⟩
  · exact ⟨atIssue (by decide +kernel) (by decide +kernel), by decide +kernel, laneOperands (by decide +kernel),
      clean (by decide +kernel), same (by decide +kernel)⟩
  · exact ⟨atIssue (by decide +kernel) (by decide +kernel), by decide +kernel, laneOperands (by decide +kernel),
      clean (by decide +kernel), same (by decide +kernel)⟩

/-- A wait with nothing queued; the matching entry of the block's own partition. -/
theorem met_StatusesComplete : ∀ i ∈ [Instr.cpstat L 15, .mtag L 3, .cwait L 2, .sstat L], ∃ f, statusForm i = some f ∧ f.hdr.sc = .lane ∧
    AtIssue std i f.feats ∧ (ctx std i).p.finder = false ∧ f.ok std (ctx std i) ∧
    EachLane (ctx std i) (fun _ t => Operands (ctx std i) (laneCeil (ctx std i).b (ctx std i).p) 0 1 t.stack) :=
  List.forall_mem_cons.2 ⟨⟨_, rfl, rfl, std_at _, std_finder, trivial, laneOperands (by decide +kernel)⟩,
    List.forall_mem_cons.2 ⟨⟨_, rfl, rfl, atIssue std_issuing (by decide +kernel), std_finder, by decide +kernel,
      laneOperands (by decide +kernel)⟩,
      List.forall_mem_cons.2 ⟨⟨_, rfl, rfl, atIssue std_issuing (by decide +kernel), std_finder, by decide +kernel, laneOperands (by decide +kernel)⟩,
        List.forall_mem_singleton.2 ⟨_, rfl, rfl, atIssue std_issuing (by decide +kernel), std_finder, trivial,
          laneOperands (by decide +kernel)⟩⟩⟩⟩

/-- Two accumulator tiles; stacks of sixteen cells; a scratchpad shape of 16 × 32 INT8 elements, and the rows of a tile in
memory and in the scratchpad. -/
def matrices : State := modP (withShape (withSnap (withSnap (withSnap (slots (fun k => [0, 0] ++ (upto 14).map
    (fun j => if j < 8 then wd (0x01010101 * k + j) else 0)) [0]) 0x1B 1 3) 0x19 1 32) 0x0C0 1 6) 4 0 2 true [16, 32] [1, 16])
  (fun p => { p with checked := true })

/-- The checks of a quarter form, as one test. -/
def readyB (s : State) (i : Instr) (pq : Bool) : Bool :=
  let c := ctx s i
  c.p.pageFault.isNone && (matHead c i).isNone && eachLaneB c (fun t => operandsB c (laneCeil c.b c.p) (matrixPops c.b (latchFull c.b c.p) false i) 0 t.stack
      && (tops (matrixPops c.b (latchFull c.b c.p) false i) t.stack).all (fun v => v.poison == .clean)
      && t.latch.bad.isEmpty && t.latch.cells.all (fun v => v.poison == .clean) && latchFits c.b i t)
    && !latchMixed (inOrderOfLanes c) && topAgree 2 (inOrderOfLanes c) && !reducedBad s c.b i && slotFits c.b i && shapeFits c.b i
    && kindFits (counted s c) c i && noStraddle c.b i (quarterOf c i pq).p (quarterOf c i pq).q && sourcesOk i (inOrderOfLanes c)
theorem mem_lanesOf {b : Block} {l : List Nat} {e : Nat × Thread} (h : e ∈ b.lanesOf l) : e.1 ∈ l ∧ tget b.threads e.1 = some e.2 := by
  simp only [Block.lanesOf, List.mem_filterMap] at h
  obtain ⟨k, hk, he⟩ := h
  cases ht : tget b.threads k with
  | none => simp [ht] at he
  | some t => simp [ht] at he; subst he; exact ⟨hk, ht⟩
theorem ready {s : State} {i : Instr} {pq : Bool} (h : readyB s i pq = true) : QuarterReady s (ctx s i) i pq := by
  simp only [readyB, Bool.and_eq_true, Bool.not_eq_true', Option.isNone_iff_eq_none] at h
  obtain ⟨⟨⟨⟨⟨⟨⟨⟨⟨⟨h0, h1⟩, h2⟩, h3⟩, h4⟩, h5⟩, h6⟩, h7⟩, h8⟩, h9⟩, h10⟩ := h
  simp only [eachLaneB, Bool.and_eq_true, List.all_eq_true, Bool.not_eq_true'] at h2
  have each : ∀ k ∈ (ctx s i).p.lanes, ∃ t, tget (ctx s i).b.threads k = some t := fun k hk => by
    have := h2.2 k hk
    split at this
    · exact ⟨_, ‹_›⟩
    · cases this
  refine ⟨h0, by intro e; simp [e] at h2, each, fun _ => ⟨h1, fun e he => ?_, fun _ => h3, fun _ => h4, h5, h6, h7, h8, h9, h10⟩⟩
  have hm := mem_lanesOf he
  have := h2.2 _ hm.1
  rw [hm.2] at this
  simp only [Bool.and_eq_true, List.all_eq_true, beq_iff_eq, List.isEmpty_iff] at this
  exact ⟨operands this.1.1.1.1, this.1.1.1.2, fun _ => ⟨this.1.1.2, this.1.2⟩, this.2⟩

/-- Accesses whose pages the check finds. -/
def pagesB (c : Ctx) (s : State) (l : List CmdAccess) : Bool :=
  match checkAccesses c.b.who c.bid 8 s [] l with
  | (_, .ok _) => true
  | _ => false
theorem pagesOf {c : Ctx} {s : State} {l : List CmdAccess} (h : pagesB c s l = true) :
    ∃ s1 pages, checkAccesses c.b.who c.bid 8 s [] l = (s1, .ok pages) := by
  unfold pagesB at h
  split at h
  · exact ⟨_, _, ‹_›⟩
  · cases h

/-- The entries, and the state when they stand in the queue. -/
def placedState (s : State) (i : Instr) (pq : Bool) : State × List MOp :=
  let c := ctx s i
  let x := quarterOf c i pq
  match checkAccesses c.b.who c.bid 8 (counted s c) [] (formAccesses c.b c.bid i x.p x.q x.start) with
  | (r, .ok pages) =>
    let e := newEntries r c i (entered c i x) x.p x.q pages x.start (chunksOf c.b i) (if x.replay then x.lanes.map (·.1) else [])
    (enterOps e.1 c i e.2, e.2)
  | (r, _) => (r, [])

/-- From the stacks, and again from replay latches. -/
def replaying : State := (upto 4).foldl (fun s k => s.modThread 0 k (fun t => { t with
  latch := ⟨List.replicate 8 ⟨1, .clean⟩, [], true, aFmt 6, true, 0, [0, 0]⟩ })) matrices
def MeetsQuarter (s : State) : Prop := let i := Instr.mma L true 2 1 4; let c := ctx s i; let x := quarterOf c i true
  ∃ feats s1 l b, quarterForms i = some (L, feats, true) ∧ AtIssue s i (feats c.b) ∧ QuarterReady s c i true ∧
    QuarterPlaced (counted s c) s1 c i x l ∧ Stays c s1 b
theorem meetsQuarter {s : State} (h0 : let i := Instr.mma L true 2 1 4; let c := ctx s i; let x := quarterOf c i true
      (issuingB s && (withQn4 (matQn4 i) c.b).all (fun k => s.feature c.b.part k) && staysB c (placedState s i true).1
        && pagesB c (counted s c) (formAccesses c.b c.bid i x.p x.q x.start)) = true)
    (h1 : QuarterReady s (ctx s (.mma L true 2 1 4)) (.mma L true 2 1 4) true)
    (h2 : let i := Instr.mma L true 2 1 4; let c := ctx s i; let x := quarterOf c i true
      (∀ e ∈ (upto (chunksOf c.b i - x.start)).flatMap (fun j => (chunkElems c.b c.bid i x.p x.q (x.start + j)).flatten),
        elemBad c.b (matSlot c.b i).fmt e = none) ∧
      queuedReal (counted s c) c.sector + ((upto 4).filter (fun k => !(quarterLanes k (entered c i x)).isEmpty)).length
        ≤ Config.matrixQueue ∧
      awaitPages (counted s c) c (.mmaPageCheckComplete c.bid c.pid) (holdAccesses c.b c.bid i x.p x.q x.start) = none) :
    MeetsQuarter s := by
  simp only [Bool.and_eq_true] at h0
  obtain ⟨⟨⟨h, hf⟩, hs⟩, hp⟩ := h0
  obtain ⟨b, hb⟩ := staysOf hs
  obtain ⟨r, pages, hp⟩ := pagesOf hp
  refine ⟨_, _, (placedState s (.mma L true 2 1 4) true).2, b, rfl, atIssue h hf, h1,
    ⟨h2.1, h2.2.1, h2.2.2, r, pages, hp, ?_⟩, hb⟩
  unfold placedState
  dsimp only at hp ⊢
  rw [hp]
  exact ⟨rfl, rfl⟩

theorem met_QuarterFormsComplete : MeetsQuarter matrices ∧ isReplay (ctx replaying (.mma L true 2 1 4)) = true ∧
    MeetsQuarter replaying :=
  ⟨meetsQuarter (by decide +kernel) (ready (by decide +kernel)) (by decide +kernel), by decide +kernel,
    meetsQuarter (by decide +kernel) ⟨by decide +kernel, by decide +kernel,
      fun k hk => ((standsIn (i := .ret L) (s := replaying) (by decide +kernel)).lanes.2 k hk).imp fun _ h => h.1,
      fun h => absurd h (by decide +kernel)⟩ (by decide +kernel)⟩

/-! Drains: a tile of KIND i32 in accumulator 1, rows in memory and in the scratchpad. -/
def tiled : State := (withShape (withShape (modP (withSnap (withSnap (slots (fun k => [0, wd k, 7]) [0]) 0x1B 1 3) 0x19 1 32)
    (fun p => { p with checked := true })) 8 0x20000 0 false [16, 32] [1, 16]) 9 0 0 true [16, 32] [1, 16]).modBlock 0
  (fun b => b.modWarpMatrix 0 (fun m => m.setTile 1 ((upto 8).foldl (fun t j => t.put (j / 16) (j % 16) (wd (j * j))) (loadBase (m.tile 1) 2))))

theorem drainReady {s : State} {i : Instr} {n : Nat} (h : ((matHead (ctx s i) i).isNone && eachLaneB (ctx s i) (fun t =>
      operandsB (ctx s i) (laneCeil (ctx s i).b (ctx s i).p) (matrixPops (ctx s i).b false false i) n t.stack)
    && (active (ctx s i)).all (fun e => (tops (matrixPops (ctx s i).b false false i) e.2.stack).all (fun v => v.poison == .clean))) = true) :
    DrainReady (ctx s i) i n := by
  simp only [Bool.and_eq_true, Option.isNone_iff_eq_none] at h
  exact ⟨h.1.1, laneOperands h.1.2, clean h.2⟩

def atHeadB (s : State) (c : Ctx) : Bool :=
  match ownPlace s c with
  | some x => ripe ((s.sector c.sector).mq.takeWhile (fun y => y.id != x.id)) x
  | none => false
theorem atHead {s : State} {c : Ctx} (h : atHeadB s c = true) : AtHead s c := by
  unfold atHeadB at h
  split at h
  · exact ⟨_, ‹_›, h⟩
  · cases h

/-- What `mdrain` and `mchk` suppose. -/
def MeetsCheck (i : Instr) (n : Nat) : Prop := let c := ctx tiled i
  let s0 := placed (counted tiled c) c i
  AtIssue tiled i [0] ∧ DrainReady c i n ∧ AtHead s0 c ∧ (checkTile s0 c 1).2 ≠ 3 ∧
    ∃ b, Stays c (leaveOrder (checkTile s0 c 1).1 c) b
theorem met_TilesDrain_check : MeetsCheck (.mdrain L 1) 17 ∧ MeetsCheck (.mchk L 1) 1 :=
  ⟨⟨atIssue (by decide +kernel) (by decide +kernel), drainReady (by decide +kernel), atHead (by decide +kernel), by decide +kernel,
    staysOf (by decide +kernel)⟩,
  ⟨atIssue (by decide +kernel) (by decide +kernel), drainReady (by decide +kernel), atHead (by decide +kernel), by decide +kernel,
    staysOf (by decide +kernel)⟩⟩

/-- Lane 0 alone accesses memory. -/
def lone : State := (upto 3).foldl (fun s k => s.modThread 0 (k + 1) (fun t => { t with cls := .helper })) tiled
def elemsOk (s : State) (i : Instr) (write : Bool) : Bool := (rowLanes (ctx s i)).all (fun e =>
  (rowElems (ctx s i) i write e.2).all (fun y => elemBad (ctx s i).b (matSlot (ctx s i).b i).fmt y == none))
theorem elems_ok {s : State} {i : Instr} {write : Bool} (h : elemsOk s i write = true) : ∀ e ∈ rowLanes (ctx s i),
    ∀ y ∈ rowElems (ctx s i) i write e.2, elemBad (ctx s i).b (matSlot (ctx s i).b i).fmt y = none := by
  simpa [elemsOk] using h
def rowsFound (s : State) (i : Instr) (write : Bool) : State × List (Nat × Nat × Bool) :=
  match checkAccesses (ctx lone i).b.who (ctx lone i).bid 8 s [] (rowAccesses (ctx lone i) i write) with
  | (s1, .ok pages) => (s1, pages)
  | (s1, _) => (s1, [])
theorem rows_found {s : State} {i : Instr} {write : Bool} (h : pagesB (ctx lone i) s (rowAccesses (ctx lone i) i write) = true) :
    checkAccesses (ctx lone i).b.who (ctx lone i).bid 8 s [] (rowAccesses (ctx lone i) i write) =
      ((rowsFound s i write).1, .ok (rowsFound s i write).2) := by
  unfold pagesB at h
  unfold rowsFound
  split at h
  · rename_i h1; rw [h1]
  · cases h

theorem met_TilesDrain_mdst : let i := Instr.mdst L 0 1 9; let c := ctx lone i; let s0 := placed (counted lone c) c i
    let r := rowsFound s0 i true
    AtIssue lone i (withQn4 (matQn4 i) c.b) ∧ DrainReady c i 1 ∧ AtHead s0 c ∧ shapeNamed c.b i = true ∧
      storeKindOk (matSlot c.b i) (s0.tile c.bid c.p.warp 1).kind = true ∧
      (∀ e ∈ rowLanes c, ∀ y ∈ rowElems c i true e.2, elemBad c.b (matSlot c.b i).fmt y = none) ∧
      awaitPages s0 c (.mmaPageCheckComplete c.bid c.pid) (rowAccesses c i true) = none ∧
      checkAccesses c.b.who c.bid 8 s0 [] (rowAccesses c i true) = (r.1, .ok r.2) ∧ (checkTile r.1 c 1).2 ≠ 3 ∧
      accsBad (checkTile r.1 c 1).1 c.bid r.2 (rowAccesses c i true) = none ∧
      ∃ b, Stays c (leaveOrder (storeRows c i ((checkTile r.1 c 1).1.tile c.bid c.p.warp 1) r.2 (checkTile r.1 c 1).1) c) b :=
  ⟨atIssue (by decide +kernel) (by decide +kernel), drainReady (by decide +kernel), atHead (by decide +kernel), by decide +kernel,
    by decide +kernel, elems_ok (by decide +kernel), by decide +kernel, rows_found (by decide +kernel), by decide +kernel, by decide +kernel,
    staysOf (by decide +kernel)⟩

theorem met_TilesDrain_mld : let i := Instr.mld L 0 2 8; let c := ctx lone i; let s0 := placed (counted lone c) c i
    let r := rowsFound s0 i false; let t0 := s0.tile c.bid c.p.warp 2
    AtIssue lone i (withQn4 (matQn4 i) c.b) ∧ DrainReady c i 0 ∧ AtHead s0 c ∧ loadKind (matSlot c.b i) = some 2 ∧
      shapeNamed c.b i = true ∧ (t0.invalid.isSome = true ∨ t0.kind = 0 ∨ t0.kind = 2) ∧
      (∀ e ∈ rowLanes c, ∀ y ∈ rowElems c i false e.2, elemBad c.b (matSlot c.b i).fmt y = none) ∧
      awaitPages s0 c (.mmaPageCheckComplete c.bid c.pid) (rowAccesses c i false) = none ∧
      checkAccesses c.b.who c.bid 8 s0 [] (rowAccesses c i false) = (r.1, .ok r.2) ∧
      accsBad r.1 c.bid r.2 (rowAccesses c i false) = none ∧
      let x := readRows i r.2 c r.1 (inOrderOfLanes c)
      ∃ b, Stays c (leaveOrder (x.1.modTile c.bid c.p.warp 2 (fun _ => loadedTile (loadBase t0 2) x.2)) c) b :=
  ⟨atIssue (by decide +kernel) (by decide +kernel), drainReady (by decide +kernel), atHead (by decide +kernel), by decide +kernel,
    by decide +kernel, by decide +kernel, elems_ok (by decide +kernel), by decide +kernel, rows_found (by decide +kernel), by decide +kernel,
    staysOf (by decide +kernel)⟩

/-! ### Privileged forms -/

/-- Every lane holds these cells, above two more; the block runs at a privilege level. -/
def privy (l : List Word) (lvl : Nat) : State := (slots (fun _ => l ++ [1, 2]) []).modBlock 0 (fun b => { b with graph := ⟨0, lvl⟩ })

theorem once {s : State} {i : Instr} {n m : Nat} (h : (eachLaneB (ctx s i) (fun t =>
      operandsB (ctx s i) (laneCeil (ctx s i).b (ctx s i).p) n m t.stack)
    && (active (ctx s i)).all (fun e => (tops n e.2.stack).all (fun v => v.poison == .clean))
    && (active (ctx s i)).all (fun e => (active (ctx s i)).all (fun f => (tops n e.2.stack).map (·.bits) == (tops n f.2.stack).map (·.bits)))
    && !(ctx s i).p.finder && (ctx s i).b.lvl != 0) = true) : OnceForAll (ctx s i) n m := by
  simp only [Bool.and_eq_true, Bool.not_eq_true', bne_iff_ne] at h
  refine ⟨laneOperands h.1.1.1.1, clean h.1.1.1.2, ?_, h.1.2, h.2⟩
  have := h.1.1.2
  simp only [List.all_eq_true, beq_iff_eq] at this
  exact fun e he f hf => this e he f hf

/-- Address translation by the host (ATS). -/
def atsOn (s : State) : State := { s with parts := s.parts.map (fun p => { p with guest := { p.guest with xmode := 1 } }) }

theorem met_InvalidationsComplete : let i := Instr.tlbi L 4; let s := privy [0x20000, 0] 2; let x := atsOn s
    (AtIssue s i [0] ∧ OnceForAll (ctx s i) (tlbiPops 4) 0 ∧ 2 ≤ (ctx s i).b.lvl ∧
      ¬ (s.atsMode (ctx s i).b.part = true ∧ 3 ≤ (4 : BitVec 5).toNat)) ∧
    AtIssue x i [0] ∧ OnceForAll (ctx x i) (tlbiPops 4) 0 ∧ 2 ≤ (ctx x i).b.lvl ∧ x.atsMode (ctx x i).b.part = true :=
  ⟨⟨atIssue (by decide +kernel) (by decide +kernel), once (by decide +kernel), by decide +kernel, by decide +kernel⟩,
    atIssue (by decide +kernel) (by decide +kernel), once (by decide +kernel), by decide +kernel, by decide +kernel⟩

/-- Beside the issuing block: block 5, of its partition; block 6 of a gang; block 7 of partition 1; block 9, which is moved. -/
def crowd (id : Word) : State := let s := privy [id, 0x30000, 0] 1
  { s with blocks := s.blocks ++ [(5, { bootBlock 0 with place := ⟨0, 9, 1⟩ }), (6, { bootBlock 0 with gang := [6, 8] }),
    (7, { bootBlock 0 with graph := ⟨1, 0⟩ }),
    (9, { bootBlock 0 with place := ⟨0, 10, 0⟩, vacate := some ⟨.move, false, false, none, 0, 0, 0⟩ })] }
/-- What a save of a block supposes. -/
def MeetsSave (id : Word) : Prop := let c := ctx (crowd id) (.ctxs L)
  AtIssue (crowd id) (.ctxs L) [0] ∧ OnceForAll c 3 1 ∧ pathOperand c 3 0 = id ∧ c.p.checked = false ∧
    ((pathOperand c 3 2).toNat * 2 ^ 32 + (pathOperand c 3 1).toNat) % 64 = 0 ∧ c.b.part = 0 ∧ c.bid = 0 ∧
    tget (crowd id).blocks 0 = some c.b
theorem meetsSave {id : Word} (h : issuingB (crowd id) = true)
    (h2 : [0].all (fun k => (crowd id).feature (ctx (crowd id) (.ctxs L)).b.part k) = true) (h3 : OnceForAll (ctx (crowd id) (.ctxs L)) 3 1)
    (h4 : pathOperand (ctx (crowd id) (.ctxs L)) 3 0 = id ∧ (ctx (crowd id) (.ctxs L)).p.checked = false ∧
      ((pathOperand (ctx (crowd id) (.ctxs L)) 3 2).toNat * 2 ^ 32 + (pathOperand (ctx (crowd id) (.ctxs L)) 3 1).toNat) % 64 = 0 ∧
      (ctx (crowd id) (.ctxs L)).b.part = 0) : MeetsSave id :=
  ⟨atIssue h h2, h3, h4.1, h4.2.1, h4.2.2.1, h4.2.2.2, rfl, (tget_ctx (.ctxs L) (by
    simp only [issuingB, atPortB, Bool.and_eq_true] at h; exact h.1.1.1.1.1)).1⟩

/-- Its own block, one of a gang, one of another partition, none, one that is moved, one that may be saved. -/
theorem met_ContextsComplete_save : MeetsSave 0 ∧
    (MeetsSave 6 ∧ (tget (crowd 6).blocks 6).any (fun b => b.part == 0 && b.gang == [6, 8]) = true) ∧
    (MeetsSave 7 ∧ (tget (crowd 7).blocks 7).any (fun b => b.part == 1) = true) ∧
    (MeetsSave 99 ∧ tget (crowd 99).blocks 99 = none) ∧
    (MeetsSave 9 ∧ (tget (crowd 9).blocks 9).any (fun b => b.part == 0 && b.gang == [] && b.vacate.any (fun v => v.kind != .ctxs)) = true) ∧
    MeetsSave 5 ∧ (tget (crowd 5).blocks 5).any (fun b => b.part == 0 && b.gang == [] && b.vacate == none) = true :=
  ⟨meetsSave (by decide +kernel) (by decide +kernel) (once (by decide +kernel)) (by decide +kernel),
    ⟨meetsSave (by decide +kernel) (by decide +kernel) (once (by decide +kernel)) (by decide +kernel), by decide +kernel⟩,
    ⟨meetsSave (by decide +kernel) (by decide +kernel) (once (by decide +kernel)) (by decide +kernel), by decide +kernel⟩,
    ⟨meetsSave (by decide +kernel) (by decide +kernel) (once (by decide +kernel)) (by decide +kernel), by decide +kernel⟩,
    ⟨meetsSave (by decide +kernel) (by decide +kernel) (once (by decide +kernel)) (by decide +kernel), by decide +kernel⟩,
    meetsSave (by decide +kernel) (by decide +kernel) (once (by decide +kernel)) (by decide +kernel), by decide +kernel⟩

/-- The operation of a save is done. -/
def saved : State := modP (crowd 5) (fun p => { p with checked := true })
theorem met_ContextsComplete_saved : AtIssue saved (.ctxs L) [0] ∧ OnceForAll (ctx saved (.ctxs L)) 3 1 ∧
    (ctx saved (.ctxs L)).p.checked = true :=
  ⟨atIssue (by decide +kernel) (by decide +kernel), once (by decide +kernel), by decide +kernel⟩

/-- Cluster 5 is the partition's logical cluster 2 and holds block 7; cluster 3 is free. -/
def moving (pc lc part : Word) : State := let s := privy [pc, lc, part] 2
  { s with
    pkg := { s.pkg with ptab := s.pkg.ptab.set 5 (0x8000 + 9 + 2 * 64) }
    blocks := s.blocks ++ [(7, { bootBlock 0 with place := ⟨0, 5, 0⟩ }), (8, { bootBlock 0 with place := ⟨0, 6, 0⟩ })] }
theorem met_MappingCompletes : let i := Instr.mapc L
    (∀ s ∈ [moving 5 2 9, moving 3 7 9, moving 3 2 9], AtIssue s i [0] ∧ OnceForAll (ctx s i) 3 1 ∧ 2 ≤ (ctx s i).b.lvl) ∧
    bit? ((moving 5 2 9).ptEntry (pathOperand (ctx (moving 5 2 9) i) 3 0).toNat) 15 = true ∧
    physOf (moving 3 7 9) (pathOperand (ctx (moving 3 7 9) i) 3 2).toNat (pathOperand (ctx (moving 3 7 9) i) 3 1).toNat = none ∧
    ((moving 3 2 9).modPkg (fun k => { k with bstat := 2 })).reduced = true ∧
    let s := moving 3 2 9; let pc := (pathOperand (ctx s i) 3 0).toNat
    ¬ (96 ≤ pc ∨ s.reduced = true ∨ bit? (s.ptEntry pc) 15 = true) ∧
      physOf s (pathOperand (ctx s i) 3 2).toNat (pathOperand (ctx s i) 3 1).toNat = some 5 ∧ (s.clusterState pc).gated = false ∧
      (∃ e ∈ s.blocks, e.2.place.clus = 5) ∧ (s.blocks.map (·.1)).Nodup := by
  refine ⟨List.forall_mem_cons.2 ⟨⟨atIssue ?_ ?_, once ?_, ?_⟩, List.forall_mem_cons.2 ⟨⟨atIssue ?_ ?_, once ?_, ?_⟩,
    List.forall_mem_singleton.2 ⟨atIssue ?_ ?_, once ?_, ?_⟩⟩⟩, ?_, ?_, ?_, ?_, ?_, ?_, ?_, ?_⟩ <;> decide +kernel

/-! ### Device steps and registers -/

def dueAt (s : State) (e : Event) : State := { s with due := some e, cur := none }

theorem met_DeviceStepsComplete : ∃ e s, State.due s = some e := ⟨.lmClean 3 1 false, dueAt State.reset (.lmClean 3 1 false), rfl⟩

/-- A partition that holds a block, and one that holds nothing. -/
theorem met_MaskAndMode : let e := Event.pfmWrite 0 15 0; let f := Event.xmodeWrite 0 1
    0 < std.parts.length ∧ (dueAt std e).due = some e ∧ partInUse (dueAt std e) 0 = true ∧
    (dueAt State.reset e).due = some e ∧ partInUse (dueAt State.reset e) 0 = false ∧
    (dueAt std f).due = some f ∧ partInUse (dueAt std f) 0 = true ∧
    (dueAt State.reset f).due = some f ∧ partInUse (dueAt State.reset f) 0 = false := by decide +kernel

/-- Each register's event, and a clock that may step down. -/
theorem met_PackageRegisters : (∀ e ∈ [Event.pfselWrite 47, .pfselWrite 48, .pcapWrite 599, .pcapWrite 600, .irqsClear 47 5,
      .prgrRead 47, .clockStep true, .thermalTrip], (dueAt State.reset e).due = some e) ∧ 47 < State.reset.parts.length ∧
    (∃ d ∈ State.reset.pkg.dies, 375 ≤ d.mhz) :=
  ⟨fun _ _ => rfl, by decide +kernel, ⟨_, List.mem_cons_self .., by decide⟩⟩

/-- A block that is not there, and one whose lanes run. -/
theorem met_ThreadOpsRefused : let e := Event.tctlKill 0 9 0; let f := Event.tctlStep 0 0 0
    0 < std.parts.length ∧ (dueAt std e).due = some e ∧ (dueAt std f).due = some f ∧ tget std.blocks 9 = none ∧
    tget std.blocks 0 = some (ctx std (.ret L)).b ∧ (ctx std (.ret L)).b.part = 0 ∧
    ∀ k, (k = 0 ∨ k = 0 + 1024) → ∀ th, tget (ctx std (.ret L)).b.threads k = some th → th.run ≠ .stopped ∧ th.run ≠ .suspended := by
  refine ⟨by decide +kernel, rfl, rfl, by decide +kernel, by decide +kernel, by decide +kernel, fun k hk th ht => ?_⟩
  have h : ∀ e ∈ (ctx std (.ret L)).b.threads, e.2.run ≠ .stopped ∧ e.2.run ≠ .suspended := by decide +kernel
  exact h _ (tget_mem ht)

/-! ### Forms that act once -/

/-- The hypotheses of a plain form. -/
def MeetsPlainly (i : Instr) (s : State) : Prop :=
  ∃ f b, plainForm i = some f ∧ f.hdr.sc ∈ f.scopes ∧ AtIssue s i (f.feats (ctx s i).b) ∧ (f.priv = true → (ctx s i).b.lvl ≠ 0) ∧
    (ctx s i).p.finder = false ∧ f.ok (ctx s i) ∧ Stays (ctx s i) (f.mid (counted s (ctx s i)) (ctx s i)) b

theorem meetsPlainly {i : Instr} {s : State} {f : PlainForm} (hf : plainForm i = some f) (hs : f.hdr.sc ∈ f.scopes)
    (hok : f.ok (ctx s i)) (h : (issuingB s && (f.feats (ctx s i).b).all (fun k => s.feature (ctx s i).b.part k)
      && (!f.priv || (ctx s i).b.lvl != 0) && !(ctx s i).p.finder && staysB (ctx s i) (f.mid (counted s (ctx s i)) (ctx s i))) = true) :
    MeetsPlainly i s := by
  simp only [Bool.and_eq_true, Bool.not_eq_true', Bool.or_eq_true, bne_iff_ne] at h
  obtain ⟨⟨⟨⟨h1, h2⟩, h3⟩, h4⟩, h5⟩ := h
  exact (staysOf h5).elim fun b hb => ⟨f, b, hf, hs, atIssue h1 h2, fun hp => h3.resolve_left (by simp [hp]), h4, hok, hb⟩

theorem met_PlainFormsComplete : MeetsPlainly (.sleep W 255 0) std ∧ MeetsPlainly (.rehome B) std ∧ MeetsPlainly (.umerge L .fault) std ∧
    MeetsPlainly (.cpwait L 1) std ∧ MeetsPlainly (.mclr L 1) tiled ∧
    MeetsPlainly (.spx L 0 9) (tiled.modBlock 0 (fun b => { b with graph := ⟨0, 1⟩ })) :=
  ⟨meetsPlainly rfl (by decide) trivial (by decide +kernel), meetsPlainly rfl (by decide) ⟨rfl, by decide +kernel⟩ (by decide +kernel),
    meetsPlainly rfl (by decide) (by decide +kernel : ∀ x ∈ (ctx std (.umerge L .fault)).p.w ++ (ctx std (.umerge L .fault)).p.ust,
      x.hi = none) (by decide +kernel),
    meetsPlainly rfl (by decide) trivial (by decide +kernel),
    meetsPlainly rfl (by decide) (Option.isNone_iff_eq_none.1 (by decide +kernel)) (by decide +kernel),
    meetsPlainly rfl (by decide) ⟨by decide +kernel, by decide +kernel, by decide +kernel, by decide +kernel⟩ (by decide +kernel)⟩

/-- A complete context of block 5 under serial number 9: MAGIC, SIZE 704, the identity, the complete flag, nine sections written,
the CRC-32C of nine lines of sections, the mask of feature 0, and these lines, the serial number first (R374, log 37). -/
def contextAt (at_ : Nat) : Memory :=
  [(at_, 0x43), (at_ + 1, 0x54), (at_ + 2, 0x58), (at_ + 4, 0xC0), (at_ + 5, 2), (at_ + 8, 5), (at_ + 15, 2), (at_ + 16, 9),
    (at_ + 20, 0xF2), (at_ + 21, 0x4D), (at_ + 22, 0xA), (at_ + 23, 0xDF), (at_ + 64, 1)]
    ++ (upto 9).map (fun k => (at_ + 128 + 64 * k, BitVec.ofNat 8 (k + 9)))
def withContext : State := let s := privy [0x30000, 0] 1
  { s with
    mem := s.mem ++ contextAt 0x30000, saved := [(9, ⟨bootBlock 0, 1, 704⟩)]
    parts := s.parts.map (fun p => { p with hyper := { p.hyper with pfm := 1 } }) }

def heldContext : State := { withContext with queued := [⟨0, [{ bootBlock 0 with launch := { (bootBlock 0).launch with ident := 5 } }], true⟩] }
/-- Its bytes. -/
def contextList : List Byte := [0x43, 0x54, 0x58, 0, 0xC0, 2, 0, 0, 5, 0, 0, 0, 0, 0, 0, 2, 9, 0, 0, 0, 0xF2, 0x4D, 0xA, 0xDF]
  ++ List.replicate 40 0 ++ [1] ++ List.replicate 63 0
  ++ (upto 9).flatMap (fun k => [BitVec.ofNat 8 (k + 9)] ++ List.replicate 63 0)

def loadedContext (s : State) : State × List Byte × Option (Nat × Nat) :=
  readContext (counted s (ctx s (.ctxl L))) (ctx s (.ctxl L)).b (ctx s (.ctxl L)).bid
    ((pathOperand (ctx s (.ctxl L)) 2 1).toNat * 2 ^ 32 + (pathOperand (ctx s (.ctxl L)) 2 0).toNat)

/-- What a load of an intact context supposes. -/
structure MeetsLoad (s : State) (l : List Byte) (taken : Bool) : Prop where
  issue : AtIssue s (.ctxl L) [0]
  once : OnceForAll (ctx s (.ctxl L)) 2 1
  read : loadedContext s = ((loadedContext s).1, l, none)
  intact : ∃ k, s.savedCtx l = some k ∧ ctxIntact k.size l = true
  mask : ctxField l 0x40 64 = (s.effMask (ctx s (.ctxl L)).b.part).toNat
  level : ctxField l 0x0E 1 % 4 ≤ (ctx s (.ctxl L)).b.lvl
  stays : ∃ b, Stays (ctx s (.ctxl L)) (loadedContext s).1 b
  taken : s.taken (ctxField l 8 4) = taken

theorem triple {α β γ : Type} {x : α × β × γ} {b : β} {c : γ} (h : x.2.1 = b) (h2 : x.2.2 = c) : x = (x.1, b, c) := by
  obtain ⟨x, y, z⟩ := x
  simp_all

/-- The CRC-32C register over the section lines, line by line. -/
def crcFold (c : Nat) (l : List Byte) : Nat := l.foldl (fun c v => crcBits 8 (Nat.xor c v.toNat)) c
def line (k : Nat) : List Byte := [BitVec.ofNat 8 (k + 9)] ++ List.replicate 63 0
theorem crc_lines : crcFold 0xFFFFFFFF (line 0) = 0x267A1899 ∧
    crcFold 0x267A1899 (line 1) = 0x9AB68682 ∧
    crcFold 0x9AB68682 (line 2) = 0xD1EFF650 ∧
    crcFold 0xD1EFF650 (line 3) = 0xE5CE2C06 ∧
    crcFold 0xE5CE2C06 (line 4) = 0x2F4C12FF ∧
    crcFold 0x2F4C12FF (line 5) = 0x7028585D ∧
    crcFold 0x7028585D (line 6) = 0xF9C207CD ∧
    crcFold 0xF9C207CD (line 7) = 0x7807AA1 ∧
    crcFold 0x7807AA1 (line 8) = 0x20F5B20D := by
  refine ⟨?_, ?_, ?_, ?_, ?_, ?_, ?_, ?_, ?_⟩ <;> decide +kernel
theorem context_crc : crc32c ((contextList.drop 128).take (704 - 128)) = 0xDF0A4DF2 := by
  have h : (contextList.drop 128).take (704 - 128) =
    line 0 ++ line 1 ++ line 2 ++ line 3 ++ line 4 ++ line 5 ++ line 6 ++ line 7 ++ line 8 := by decide +kernel
  obtain ⟨h1, h2, h3, h4, h5, h6, h7, h8, h9⟩ := crc_lines
  unfold crcFold at *
  rw [h, crc32c]
  simp only [List.foldl_append, h1, h2, h3, h4, h5, h6, h7, h8, h9]
  decide +kernel
theorem context_intact : ctxIntact 704 contextList = true := by
  rw [ctxIntact, context_crc]
  decide +kernel
theorem context_fields : ctxSerial contextList = 9 ∧ ctxField contextList 0x40 64 = 1 ∧
    ctxField contextList 0x0E 1 = 0 ∧ ctxField contextList 8 4 = 5 := by decide +kernel

/-- The identity is free; a block that waits for a place has it. -/
theorem met_ContextsComplete_load : MeetsLoad withContext contextList false ∧ MeetsLoad heldContext contextList true := by
  obtain ⟨h1, h2, h3, h4⟩ := context_fields
  refine ⟨⟨atIssue (by decide +kernel) (by decide +kernel), once (by decide +kernel), triple (by decide +kernel) (by decide +kernel),
    ⟨⟨bootBlock 0, 1, 704⟩, ?_, context_intact⟩, h2.trans (by decide +kernel), ?_, staysOf (by decide +kernel), ?_⟩,
    ⟨atIssue (by decide +kernel) (by decide +kernel), once (by decide +kernel), triple (by decide +kernel) (by decide +kernel),
    ⟨⟨bootBlock 0, 1, 704⟩, ?_, context_intact⟩, h2.trans (by decide +kernel), ?_, staysOf (by decide +kernel), ?_⟩⟩
  · rw [State.savedCtx, h1]; decide +kernel
  · rw [h3]; exact Nat.zero_le _
  · rw [h4]; decide +kernel
  · rw [State.savedCtx, h1]; decide +kernel
  · rw [h3]; exact Nat.zero_le _
  · rw [h4]; decide +kernel
end Sys2Proof.Tests
end

section
/-! PROOFS. The device steps: how a step is served as the due event, and which operation each row of the table serves (O56). -/

namespace Sys2Proof

open Machine

/-- How the shared operation of the device steps answers when the event being served is one that the row takes. -/
theorem device_of_due {s t : State} {e : Event} {f : Event → Option State} (hdue : s.due = some e) (ht : f e = some t) :
    device s f = .next t := by
  simp only [device, hdue, ht]

/-- The dispatch, before any event is due: the row of each event is a device step, and the row takes its own event, with its
operands, to that event's effect. One case per row of the operation table. -/
theorem exec_instr_eq_device (e : Event) (s : State) :
    ∃ f, exec e.instr s = device s f ∧ f e = some (deviceEffect e s) := by
  cases e <;> exact ⟨_, rfl, rfl⟩

/-- Settles O56: each event's row is a device step that takes the event to its effect, and a device step answers what its row
gives for the due event. -/
theorem deviceStepsComplete : Obligations.DeviceStepsComplete := by
  intro e s hdue
  obtain ⟨f, hrow, heffect⟩ := exec_instr_eq_device e s
  rw [hrow, device_of_due hdue heffect]

end Sys2Proof
end

section
/-! PROOFS. Launch and placement: a step that serves the event that is due (O5), and get and put (O28). -/

namespace Sys2Proof

open Machine

/-! ### The event that is due (O5) -/

/-- What comes next is the first event of the list, unless a port issues before it (R89). -/
theorem nextUp_of_first {s : State} {t : Nat} {e : Event} {rest : List (Nat × Event)} (he : s.events = (t, e) :: rest)
    (hport : ∀ x, nextPort s = some x → t ≤ x.1) : nextUp s = serveNext s t e rest := by
  unfold nextUp
  rw [he]
  cases hp : nextPort s with
  | none => rfl
  | some x => exact if_pos (hport x hp)

/-- Settles O5: the next thing to happen is the event, and a step that serves an event runs its row. -/
theorem stepServes : Obligations.StepServes := by
  intro s t e rest he hport
  simp only [step, nextUp_of_first he hport, serveNext]

/-! ### An instruction whose body ends, as its issue answers it -/

theorem dropAnswers_blocks (t : State) : (dropAnswers t).blocks = t.blocks := rfl

/-- Where a body ends in the state `s1` that its accesses left, its issue answers that end and drops the used answers of the
host (R101, R408). -/
theorem issue_of_ends {s s1 : State} {c : Ctx} {i : Instr} {h : Hdr} {f : FormInfo} {body : State → Ctx → State} {b : Block}
    {r : Retire} {new : Nat → Thread → Thread} {own : Path → Path} (hi : Issuing s c i)
    (hslot : ∀ (b : Block) (st : Tab Word), f.qn4 { b with stall := st } = f.qn4 b)
    (he : Enabled s c (f.feats ++ (if f.qn4 c.b then [2] else []))) (hs : h.sc ∈ f.scopes)
    (hmeet : h.sc = .set ∨ h.sc = .blk → MayMeet c h) (hp : f.priv = true → c.b.lvl ≠ 0)
    (e : Ends s1 (body (counted s c) c) c b h r new own) (hq : s1.coh.atsWait = false) :
    issue i h f body s = .next (dropAnswers (body (counted s c) c)) := by
  obtain ⟨st, hnext⟩ := issue_next (body := body) hi hslot he hs hmeet hp
  have hquiet : (body (counted s c) c).coh.atsWait = false := by rw [e.rest]; exact hq
  obtain ⟨p, hpath, hgo⟩ := e.dropped.noHold
  rw [hnext, ← counted, settleAts_quiet hquiet, settleHold_go hpath hgo]

/-- The same for a form that feature bit 0 alone governs, at lane or warp scope. -/
theorem issue_of_ends_plain {s s1 : State} {c : Ctx} {i : Instr} {h : Hdr} {scopes : List Scope} {priv : Bool}
    {body : State → Ctx → State} {b : Block} {r : Retire} {new : Nat → Thread → Thread} {own : Path → Path}
    (hi : Issuing s c i) (he : Enabled s c [0]) (hs : h.sc ∈ scopes) (hsc : h.sc = .lane ∨ h.sc = .warp)
    (hp : priv = true → c.b.lvl ≠ 0) (e : Ends s1 (body (counted s c) c) c b h r new own) (hq : s1.coh.atsWait = false) :
    issue i h { scopes := scopes, priv := priv } body s = .next (dropAnswers (body (counted s c) c)) := by
  refine issue_of_ends hi (fun _ _ => rfl) he hs ?_ hp e hq
  rcases hsc with hsc | hsc <;> rw [hsc] <;> rintro (h | h) <;> cases h

/-! ### get and put (O28) -/

/-- The cell that `get` leaves for a selector's value, the thread it leaves at lane scope, and its end (R94). -/
def selectorCell (c : Ctx) (sel : Sel) (v : Word) : Cell :=
  if Sel_long sel then c.env.longResult (.clean v) else c.env.result 2 (.clean v)
def selectorThread (s : State) (c : Ctx) (sel : Sel) (k : Nat) (th : Thread) : Thread :=
  { th with stack := selectorCell c sel (selectorValue s c k th sel) :: th.stack }
def selectorEnd (c : Ctx) (sel : Sel) : Retire :=
  { pc := c.next, ready := if Sel_long sel then 0 else c.env.slot + 2, owed := b2n (Sel_long sel) }

/-- `get` at lane scope pushes in every active lane (R180). -/
theorem getBody_lane {s : State} {c : Ctx} {h : Hdr} {sel : Sel} (hi : InPlace s c) (hsc : h.sc = .lane)
    (hl : EachLane c (fun _ t => Fits (laneCeil c.b c.p) 0 0 1 t.stack)) :
    Ends s (getBody h sel s c) c c.b h (selectorEnd c sel) (selectorThread s c sel) id := by
  unfold getBody
  rw [if_pos hsc, perLane_all c _ (selectorThread s c sel) ?push]
  case push =>
    intro k hk t ht
    obtain ⟨t', ht', hfits⟩ := hl.2 k hk
    rw [ht] at ht'
    cases ht'
    rw [checkDepth_ok hfits.1 hfits.2]
    rfl
  have e := finishLanes_ends s c c.b h
    { selectorEnd c sel with xfer := transfers (laneDepth c.b c.p) (laneDepth c.b c.p + 1) } (selectorThread s c sel)
    hi.block hi.path hi.wait hl.1 (fun k hk => (hl.2 k hk).imp fun t ht => ⟨ht.1, ht.1⟩)
  exact e.congr rfl (fun _ _ _ _ => rfl) rfl

/-- The lowest thread of a path whose lanes are there: its depth is that of the path's lanes. -/
theorem lanesOf_head {c : Ctx} {P : Nat → Thread → Prop} (hl : EachLane c P) :
    ∃ e l, c.b.lanesOf c.p.lanes = e :: l ∧ laneDepth c.b c.p = e.2.stack.length := by
  obtain ⟨k, r, hkr⟩ := List.exists_cons_of_ne_nil hl.1
  obtain ⟨t, ht, -⟩ := hl.2 k (by simp [hkr])
  exact ⟨(k, t), c.b.lanesOf r, by simp [Block.lanesOf, hkr, ht], by simp [laneDepth, hkr, ht]⟩

/-- A selector that a warp-scope `get` may name is not refused (R180). -/
theorem selRefused_of_uniform {p : Path} {sel : Sel} (hu : uniformSel p.formed sel) : selRefused p sel = false := by
  cases sel with
  | lane | quad | record => exact hu.elim
  | warp | stall => exact hu
  | _ => rfl

/-- `get` at warp scope pushes the value of the lowest thread on the uniform stack (R180). -/
theorem getBody_warp {s : State} {c : Ctx} {h : Hdr} {sel : Sel} {e : Nat × Thread} {l : List (Nat × Thread)}
    (hi : InPlace s c) (hsc : h.sc = .warp) (hu : uniformSel c.p.formed sel) (hfits : Fits 8 0 0 1 c.p.ust)
    (hlanes : c.b.lanesOf c.p.lanes = e :: l) (hdepth : laneDepth c.b c.p = e.2.stack.length) :
    Ends s (getBody h sel s c) c c.b h (selectorEnd c sel) (fun _ th => th)
      (fun p => { p with ust := selectorCell c sel (selectorValue s c e.1 e.2 sel) :: p.ust }) := by
  have hvalue : (if sel = .depth then wd (laneDepth c.b c.p) else selectorValue s c e.1 e.2 sel)
      = selectorValue s c e.1 e.2 sel := by
    split
    · next hd => rw [hd, hdepth]; rfl
    · rfl
  unfold getBody
  rw [if_neg (by rw [hsc]; decide), if_neg (by simp [selRefused_of_uniform hu])]
  simp only [hlanes, hvalue, checkDepth_ok hfits.1 hfits.2]
  exact (finishPath_ends s c c.b h (selectorEnd c sel)
    { c.p with ust := selectorCell c sel (selectorValue s c e.1 e.2 sel) :: c.p.ust } hi.block hi.path hi.wait rfl rfl).congr
    rfl (fun _ _ _ _ => rfl) rfl

theorem getCompletesInLanes : CompletesInLanes getLaneForm := by
  intro i f s c hform hsc hi he _ hl
  unfold getLaneForm at hform
  split at hform
  case h_2 => cases hform
  case h_1 h sel wm =>
    cases hform
    replace hsc : h.sc = .lane := hsc
    have e := getBody_lane (sel := sel) (stands_of_issuing hi) hsc hl
    refine ⟨_, issue_of_ends_plain hi he (by simp [laneWarp, hsc]) (.inl hsc) nofun e hi.quiet,
      e.ofIssue.dropped.congr ?_ ?_ rfl⟩
    · cases sel <;> rfl
    · intro k _ u _; cases sel <;> rfl

theorem getCompletesOnPath : CompletesOnPath getPathForm := by
  intro i f s c hform hsc hi he _ hok
  unfold getPathForm at hform
  split at hform
  case h_2 => cases hform
  case h_1 h sel wm =>
    cases hform
    obtain ⟨hl, hu, hfits⟩ := hok
    obtain ⟨x, l, hlanes, hdepth⟩ := lanesOf_head hl
    replace hsc : h.sc = .warp := hsc
    have e := getBody_warp (stands_of_issuing hi) hsc hu hfits hlanes hdepth
    refine ⟨_, issue_of_ends_plain hi he (by simp [laneWarp, hsc]) (.inr hsc) nofun e hi.quiet,
      e.ofIssue.dropped.congr ?_ (fun _ _ _ _ => rfl) ?_⟩
    · cases sel <;> rfl
    · simp only [hlanes]; cases sel <;> rfl

/-- Clean operands are not refused (R250). -/
theorem refusePoison_clean {vs : List Val} (h : ∀ v ∈ vs, v.poison = .clean) : refusePoison vs = .ok () := by
  have hany : vs.any Val.poisoned = false := by
    rw [List.any_eq_false]
    intro v hv
    simp [Val.poisoned, h v hv]
  simp [refusePoison, hany]

/-- An end after which stall counters of the issuing block are written (R181). -/
theorem Ends.stalled {s t : State} {c : Ctx} {b : Block} {h : Hdr} {r : Retire} {new : Nat → Thread → Thread}
    {own : Path → Path} (e : Ends s t c b h r new own) (f : Tab Word → Tab Word) :
    Ends s (t.modBlock c.bid (fun b => { b with stall := f b.stall })) c b h r new own := by
  obtain ⟨b', hb', hrest, hthreads, hpaths, hpath⟩ := e.block
  refine ⟨?_, ⟨{ b' with stall := f b'.stall }, by simp [hb'], ?_, hthreads, hpaths, hpath⟩, ?_, e.sectors, e.events,
    e.owes, e.parks⟩
  · rw [e.rest]; rfl
  · rw [hrest]
  · intro k hk
    rw [State.modBlock_blocks, tget_tmod_ne _ _ (Ne.symm hk), e.blocks k hk]

/-- `put` pops the uniform stack, ends, and writes the stall counter of the path's warp (R181). -/
theorem putBody_eq {s : State} {c : Ctx} {h : Hdr} (hhome : c.p.formed = false) (hu : UniformOperand c) :
    putBody h s c = (finishPath s c h (.ok { c.p with ust := c.p.ust.drop 1 }) { pc := c.next }).modBlock c.bid
      (fun b => { b with stall := tset b.stall (c.p.warp + 32 * b2n c.p.finder) (topBits c.p.ust) }) := by
  obtain ⟨⟨hdeep, hroom, hcells⟩, hclean⟩ := hu
  obtain ⟨x, rest, hust⟩ := List.exists_cons_of_length_pos hdeep
  have hone : tops 1 c.p.ust = [x.val] := by simp [tops, hust]
  have hconsume : consume c.env (c.p.ust.take 1) = .ok [x.val] := by rw [consume_ok hcells, ← hone]; rfl
  unfold putBody
  rw [hone] at hclean
  simp only [hhome, checkDepth_ok hdeep hroom, hconsume, LaneRes.bind, LaneRes.map, refusePoison_clean hclean]
  simp [topBits, hust]

/-- Settles O28: `get` at both scopes, and `put`, whose end is followed by the write of the stall counter. -/
theorem selectorsComplete : Obligations.SelectorsComplete := by
  refine ⟨getCompletesInLanes, getCompletesOnPath, ?_⟩
  intro h wm s c hsc hi he hhome hu
  have hin := stands_of_issuing hi
  have hpop := finishPath_ends (counted s c) c c.b h { pc := c.next } { c.p with ust := c.p.ust.drop 1 } hin.block hin.path
    hin.wait rfl rfl
  have e := hpop.stalled (fun st => tset st (c.p.warp + 32 * b2n c.p.finder) (topBits c.p.ust))
  rw [← putBody_eq hhome hu] at e
  refine ⟨_, issue_of_ends_plain hi he (by simp [hsc]) (.inr hsc) nofun e hi.quiet,
    e.ofIssue.dropped.congr rfl (fun _ _ _ _ => rfl) rfl, ?_⟩
  obtain ⟨b', hb', -⟩ := hpop.block
  have hstall : (c.p.warp + if c.p.finder then 32 else 0) = c.p.warp + 32 * b2n c.p.finder := by
    cases c.p.finder <;> rfl
  rw [hstall, putBody_eq hhome hu]
  refine ⟨{ b' with stall := tset b'.stall _ (topBits c.p.ust) }, ?_, tget_tset_self ..⟩
  rw [dropAnswers_blocks, State.modBlock_blocks, tget_tmod_self, hb']
  rfl

end Sys2Proof
end

section
/-! PROOFS. Lanes that act one after the other: turns that all complete, and the ends of the record forms and of the readback
window (O44). -/

namespace Sys2Proof

open Machine

/-! ### Lanes in turn -/

/-- Where every lane's turn completes, the lanes in turn all complete (R254). -/
theorem lanesInTurn_of_turns {turn : State → Nat → Thread → State × LaneRes Thread} {s s1 : State}
    {l new : List (Nat × Thread)} (ht : Turns turn s l s1 new) : lanesInTurn s turn l = (s1, .all new []) := by
  induction ht with
  | nil s => rfl
  | cons hturn _ ih => simp only [lanesInTurn, hturn, ih, LanesRes.cons]

/-- Turns leave each lane at its place. -/
theorem Turns.keys {turn : State → Nat → Thread → State × LaneRes Thread} {s s1 : State} {l new : List (Nat × Thread)}
    (ht : Turns turn s l s1 new) : new.map (·.1) = l.map (·.1) := by
  induction ht with
  | nil s => rfl
  | cons _ _ ih => simp [ih]

/-- The order of lane positions leaves no lane out and adds none. -/
theorem mem_byLane {l : List (Nat × Thread)} {e : Nat × Thread} : e ∈ byLane l ↔ e ∈ l := by
  have hpos : lanePos e.1 < 32 := Nat.mod_lt _ (by decide)
  simp [byLane, upto, hpos]

/-- Lanes that hold a form's operands pass its checks (R252). -/
theorem checkLanes_ok {c : Ctx} {pops pushes : Nat}
    (hl : EachLane c (fun _ t => Operands c (laneCeil c.b c.p) pops pushes t.stack)) :
    checkLanes c pops pushes = .all (active c) [] := by
  unfold checkLanes
  rw [perLane_all c _ (fun _ t => t) ?ok]
  case ok =>
    intro k hk t ht
    obtain ⟨t', ht', hops⟩ := hl.2 k hk
    rw [ht] at ht'
    cases ht'
    rw [checkDepth_ok hops.deep hops.room, consume_ok hops.cells]
    rfl
  simp [active]

/-- The end of an instruction whose lanes took turns that left its path and its lanes where they were. -/
theorem finishLanes_of_turns {turn : State → Nat → Thread → State × LaneRes Thread} {s s1 : State} {c : Ctx} {b : Block}
    {h : Hdr} {r : Retire} {P : Nat → Thread → Prop} {new : List (Nat × Thread)} (hw : c.p.wait = .issuing)
    (hl : EachLane c P) (ht : Turns turn s (inOrderOfLanes c) s1 new) (hstay : Stays c s1 b) :
    Ends s1 (finishLanes s1 c h (.all new []) r) c b h r (resultOf new) id := by
  have hkeys : ∀ k, k ∈ new.map (·.1) ↔ k ∈ (active c).map (·.1) := by
    intro k
    rw [ht.keys]
    simp only [List.mem_map, inOrderOfLanes, mem_byLane]
  have hne : new ≠ [] := by
    obtain ⟨e, l, hlanes, -⟩ := lanesOf_head hl
    have := (hkeys e.1).2 (by simp [active, hlanes])
    rintro rfl
    simp at this
  have hmine : ∀ e ∈ new, e.1 ∈ c.p.lanes := by
    intro e he
    obtain ⟨x, hx, hk⟩ := List.mem_map.1 ((hkeys e.1).1 (List.mem_map_of_mem he))
    exact hk ▸ (mem_lanesOf.1 hx).1
  obtain ⟨hrest, hothers, th, hblock, hthreads⟩ := putThreads_last s1 c.bid new b hstay.block
  have hfinish : finishLanes s1 c h (.all new []) r = retire (putThreads s1 c.bid new) c h r := by
    simp [finishLanes, hne]
  rw [hfinish]
  refine ends_retire (own := id) hrest hblock hothers ?_ (fun _ _ => rfl) hstay.path hw rfl rfl
  intro k
  rw [hthreads k]
  congr 1
  funext t
  unfold resultOf
  cases hfind : new.reverse.find? (fun e => e.1 == k) with
  | none => simp
  | some e =>
    obtain ⟨he, rfl⟩ := find_reverse_map new k e hfind
    simp [hmine e he]

/-! ### The bodies whose lanes take turns -/

section Bodies

variable {s s1 : State} {c : Ctx} {b : Block} {h : Hdr} {new : List (Nat × Thread)}

/-- The access forms: a helper lane pushes zeros, the others run (R252, R253). -/
theorem laneAccess_ends {pops pushes : Nat} {run : Ctx → State → Nat → Thread → List Val → State × LaneRes Thread}
    (hw : c.p.wait = .issuing) (hl : EachLane c (fun _ t => Operands c (laneCeil c.b c.p) pops pushes t.stack))
    (ht : Turns (turned pops pushes (run c) c) s (inOrderOfLanes c) s1 new) (hstay : Stays c s1 b) :
    Ends s1 (laneAccess h pops pushes (run c) s c) c b h { pc := c.p.pc + 4, owed := if pushes = 0 then 0 else 1 }
      (resultOf new) id := by
  have hlanes : lanesInTurn s (fun s k t =>
        if t.cls = .helper then
          (s, .ok (t.withStack (List.replicate pushes (c.env.longResult (.clean 0)) ++ t.stack.drop pops)))
        else run c s k { t with stack := t.stack.drop pops } ((t.stack.take pops).map (·.val)))
      (byLane (active c)) = (s1, .all new []) := lanesInTurn_of_turns ht
  simp only [laneAccess, checkLanes_ok hl, hlanes]
  exact (finishLanes_of_turns hw hl ht hstay).congr rfl (fun _ _ _ _ => rfl) rfl

/-- The readback window, which helper lanes use as others do (R402). -/
theorem windowForm_ends {pops pushes : Nat} {run : State → Nat → Thread → List Val → State × LaneRes Thread}
    (hw : c.p.wait = .issuing) (hl : EachLane c (fun _ t => Operands c (laneCeil c.b c.p) pops pushes t.stack))
    (ht : Turns (fun s k t => run s k { t with stack := t.stack.drop pops } (tops pops t.stack)) s (inOrderOfLanes c) s1 new)
    (hstay : Stays c s1 b) :
    Ends s1 (windowForm h pops pushes run s c) c b h { pc := c.p.pc + 4, owed := pushes } (resultOf new) id := by
  have hlanes : lanesInTurn s (fun s k t => run s k { t with stack := t.stack.drop pops } ((t.stack.take pops).map (·.val)))
      (byLane (active c)) = (s1, .all new []) := lanesInTurn_of_turns ht
  simp only [windowForm, checkLanes_ok hl, hlanes]
  exact (finishLanes_of_turns hw hl ht hstay).congr rfl (fun _ _ _ _ => rfl) rfl

/-- `emit` through an edge whose node exists (R225). -/
theorem emitBody_ends {e : Nat} (hw : c.p.wait = .issuing) (hedge : edgeOk s c (c.b.edge e))
    (hl : EachLane c (fun _ t => Operands c (laneCeil c.b c.p) 0 2 t.stack))
    (ht : Turns (fun s k t => if t.cls = .helper then (s, .ok (helperEmit c t)) else emitLane c (c.b.edge e) s k t [])
      s (inOrderOfLanes c) s1 new) (hstay : Stays c s1 b) :
    Ends s1 (emitBody h e s c) c b h { pc := c.p.pc + 4, owed := 1 } (resultOf new) id := by
  obtain ⟨hnode, n, hcount, hn⟩ := hedge
  have hlanes := lanesInTurn_of_turns ht
  unfold inOrderOfLanes at hlanes
  simp only [emitBody, checkLanes_ok hl, hcount, beq_eq_false_iff_ne.2 hnode, decide_eq_false (Nat.not_le.2 hn), Bool.or_self,
    Bool.false_eq_true, if_false, hlanes]
  exact (finishLanes_of_turns hw hl ht hstay).congr rfl (fun _ _ _ _ => rfl) rfl

/-- `recput` leaves the handle, ready at its slot plus 1 (R226). -/
theorem recputBody_ends {w : Nat} (hw : c.p.wait = .issuing)
    (hl : EachLane c (fun _ t => Operands c (laneCeil c.b c.p) 2 1 t.stack))
    (ht : Turns (fun s k t => if t.cls = .helper then (s, .ok (helperRecput c t))
      else recputLane c w s k { t with stack := t.stack.drop 2 } (tops 2 t.stack)) s (inOrderOfLanes c) s1 new)
    (hstay : Stays c s1 b) :
    Ends s1 (recputBody h w s c) c b h { pc := c.p.pc + 4, ready := c.env.slot + 1 } (resultOf new) id := by
  have hlanes := lanesInTurn_of_turns ht
  unfold inOrderOfLanes tops at hlanes
  simp only [recputBody, checkLanes_ok hl, hlanes]
  exact (finishLanes_of_turns hw hl ht hstay).congr rfl (fun _ _ _ _ => rfl) rfl

end Bodies

/-- A lane form that a finder warp may not issue completes, elsewhere, as its body ends (R111, R251). -/
theorem warpOnly_completes {s s1 : State} {c : Ctx} {b : Block} {i : Instr} {h : Hdr} {priv : Bool}
    {body : Ctx → State → Ctx → State} {r : Retire} {new : Nat → Thread → Thread} {own : Path → Path}
    (hi : Issuing s c i) (he : Enabled s c [0]) (hsc : h.sc = .lane) (hp : priv = true → c.b.lvl ≠ 0) (hhome : c.p.finder = false)
    (hstay : Stays c s1 b) (e : Ends s1 (body c (counted s c) c) c b h r new own) :
    ∃ t, issue i h { scopes := [.lane], priv := priv } (fun s c => warpOnly s c (body c)) s = .next t ∧
      Ends s1 t c b h r new own := by
  have hbody : warpOnly (counted s c) c (body c) = body c (counted s c) c := by simp [warpOnly, hhome]
  rw [← hbody] at e
  exact ⟨_, issue_of_ends_plain (body := fun s c => warpOnly s c (body c)) hi he (by simp [hsc]) (.inl hsc) hp e hstay.quiet,
    e.dropped⟩

/-- The record forms whose helper lanes only push zeros complete, elsewhere than in a finder warp, as their turns do (R253). -/
theorem plainTurn_completes {s s1 : State} {c : Ctx} {b : Block} {i : Instr} {h : Hdr} {pops pushes : Nat}
    {run : Ctx → State → Nat → Thread → List Val → State × LaneRes Thread} {new : List (Nat × Thread)} (hi : Issuing s c i)
    (he : Enabled s c [0]) (hsc : h.sc = .lane) (hhome : c.p.finder = false)
    (hl : EachLane c (fun _ t => Operands c (laneCeil c.b c.p) pops pushes t.stack))
    (ht : Turns (turned pops pushes (run c) c) (counted s c) (inOrderOfLanes c) s1 new) (hstay : Stays c s1 b) :
    ∃ t, issue i h { scopes := [.lane] } (fun s c => warpOnly s c (fun s c => laneAccess h pops pushes (run c) s c)) s
        = .next t ∧
      Ends s1 t c b h { pc := c.p.pc + 4, owed := if pushes = 0 then 0 else 1 } (resultOf new) id :=
  warpOnly_completes (body := fun _ s c => laneAccess h pops pushes (run c) s c) hi he hsc nofun hhome hstay
    (laneAccess_ends hi.wait hl ht hstay)

/-- The record forms complete (R224-R227). -/
theorem recordsComplete : CompletesInTurn recordTurn := by
  intro i f s c s1 b new hform hsc hi he hp hhome hok hl ht hstay
  unfold recordTurn at hform
  split at hform
  case h_1 h e =>
    cases hform
    exact warpOnly_completes (body := fun _ => emitBody h e.toNat) hi he hsc nofun hhome hstay
      (emitBody_ends hi.wait hok hl ht hstay)
  case h_2 h w =>
    cases hform
    exact warpOnly_completes (body := fun _ => recputBody h w.toNat) hi he hsc nofun hhome hstay
      (recputBody_ends hi.wait hl ht hstay)
  case h_3 h =>
    cases hform
    exact plainTurn_completes (run := commitLane) hi he hsc hhome hl ht hstay
  case h_4 h =>
    cases hform
    exact plainTurn_completes (run := abandonLane) hi he hsc hhome hl ht hstay
  case h_5 h w =>
    cases hform
    exact plainTurn_completes (run := fun c => recgetLane c w.toNat) hi he hsc hhome hl ht hstay
  case h_6 => cases hform

/-- The window's forms complete at privilege level 1 or 2 (R402, R403). -/
theorem windowCompletes : CompletesInTurn windowTurn := by
  intro i f s c s1 b new hform hsc hi he hp hhome _ hl ht hstay
  unfold windowTurn at hform
  split at hform
  case h_1 h k =>
    cases hform
    exact warpOnly_completes (body := fun c => windowForm h 2 1 (rdbkLane c k.toNat)) hi he hsc hp hhome hstay
      (windowForm_ends hi.wait hl ht hstay)
  case h_2 h k =>
    cases hform
    exact warpOnly_completes (body := fun c => windowForm h 3 0 (wrbkLane c k.toNat)) hi he hsc hp hhome hstay
      (windowForm_ends hi.wait hl ht hstay)
  case h_3 => cases hform

/-- Settles O44: lanes that hold their operands pass the checks, their turns are the lanes in turn of each body, and a body
whose lanes all complete ends with the threads their turns gave. -/
theorem recordsAndWindowComplete : Obligations.RecordsAndWindowComplete := ⟨recordsComplete, windowCompletes⟩

end Sys2Proof
end
